-- ==== Sys2Proof/Word.lean ====
section
/-! DEFINITION. The two data widths of the wire and the out-of-band class of a byte. -/

namespace Sys2Proof

/-- A byte on the wire, bit 0 the least significant (00_scope section 6). -/
abbrev Byte := BitVec 8

/-- A 16-bit value: one window bound (R66) or one RGB565 pixel (R6, R69). -/
abbrev Half := BitVec 16

/-- The class of a byte, carried by the command/data-select line and by no bit of the byte (R62).
It is also the abstract level of that line (R15). -/
inductive ByteClass where
  | command
  | data
  deriving DecidableEq, Repr

end Sys2Proof
end

