-- ==== Sys2Proof/Config.lean ====
section
/-! DEFINITION. The implementation parameters of R5 (fixed for a whole run), the names they are keyed by, and the one
free value of the model: what the Platform draws (R32, R82, R83). -/

namespace Sys2Proof

/-- The four control lines (R15). -/
inductive Line where
  | cs
  | dc
  | rst
  | bl
  deriving DecidableEq, Repr

/-- An electrical level (R5, R15). -/
inductive ELevel where
  | low
  | high
  deriving DecidableEq, Repr

/-- The opposite electrical level (R81). -/
def ELevel.opposite : ELevel → ELevel
  | .low => .high
  | .high => .low

/-- The 20 wire commands, in the order of the table of R71. -/
inductive Cmd where
  | softwareReset
  | sleepOut
  | colorMode
  | memoryAccess
  | columnAddressSet
  | rowAddressSet
  | porchControl
  | gateControl
  | vcoms
  | lcmControl
  | vdvVrhEnable
  | vrh
  | vdv
  | frameRateControl2
  | powerControl1
  | positiveGamma
  | negativeGamma
  | normalDisplayOn
  | displayOn
  | memoryWrite
  deriving DecidableEq, Repr

/-- Every wire command once, in the order of R71. -/
def Cmd.all : List Cmd :=
  [.softwareReset, .sleepOut, .colorMode, .memoryAccess, .columnAddressSet, .rowAddressSet, .porchControl,
   .gateControl, .vcoms, .lcmControl, .vdvVrhEnable, .vrh, .vdv, .frameRateControl2, .powerControl1,
   .positiveGamma, .negativeGamma, .normalDisplayOn, .displayOn, .memoryWrite]

/-- The 13 configuration registers (R25), one per configuration command. -/
inductive ConfigReg where
  | colorMode
  | memoryAccess
  | porchControl
  | gateControl
  | vcoms
  | lcmControl
  | vdvVrhEnable
  | vrh
  | vdv
  | frameRateControl2
  | powerControl1
  | positiveGamma
  | negativeGamma
  deriving DecidableEq, Repr

/-- Every configuration register once. -/
def ConfigReg.all : List ConfigReg :=
  [.colorMode, .memoryAccess, .porchControl, .gateControl, .vcoms, .lcmControl, .vdvVrhEnable, .vrh, .vdv,
   .frameRateControl2, .powerControl1, .positiveGamma, .negativeGamma]

/-- The command that writes a configuration register (R25: "by its own command only"). -/
def ConfigReg.cmd : ConfigReg → Cmd
  | .colorMode => .colorMode
  | .memoryAccess => .memoryAccess
  | .porchControl => .porchControl
  | .gateControl => .gateControl
  | .vcoms => .vcoms
  | .lcmControl => .lcmControl
  | .vdvVrhEnable => .vdvVrhEnable
  | .vrh => .vrh
  | .vdv => .vdv
  | .frameRateControl2 => .frameRateControl2
  | .powerControl1 => .powerControl1
  | .positiveGamma => .positiveGamma
  | .negativeGamma => .negativeGamma

/-- One entry per configuration register: the registers themselves (R25), their counts `N_<name>` and their parameter
bytes `P_<name>` (R5) are tables of this shape. -/
structure RegTable (α : Type) where
  colorMode : α
  memoryAccess : α
  porchControl : α
  gateControl : α
  vcoms : α
  lcmControl : α
  vdvVrhEnable : α
  vrh : α
  vdv : α
  frameRateControl2 : α
  powerControl1 : α
  positiveGamma : α
  negativeGamma : α
  deriving DecidableEq, Repr

/-- The entry of one register. -/
def RegTable.get {α : Type} (t : RegTable α) : ConfigReg → α
  | .colorMode => t.colorMode
  | .memoryAccess => t.memoryAccess
  | .porchControl => t.porchControl
  | .gateControl => t.gateControl
  | .vcoms => t.vcoms
  | .lcmControl => t.lcmControl
  | .vdvVrhEnable => t.vdvVrhEnable
  | .vrh => t.vrh
  | .vdv => t.vdv
  | .frameRateControl2 => t.frameRateControl2
  | .powerControl1 => t.powerControl1
  | .positiveGamma => t.positiveGamma
  | .negativeGamma => t.negativeGamma

/-- The table with one register's entry replaced. -/
def RegTable.set {α : Type} (t : RegTable α) (r : ConfigReg) (v : α) : RegTable α :=
  match r with
  | .colorMode => { t with colorMode := v }
  | .memoryAccess => { t with memoryAccess := v }
  | .porchControl => { t with porchControl := v }
  | .gateControl => { t with gateControl := v }
  | .vcoms => { t with vcoms := v }
  | .lcmControl => { t with lcmControl := v }
  | .vdvVrhEnable => { t with vdvVrhEnable := v }
  | .vrh => { t with vrh := v }
  | .vdv => { t with vdv := v }
  | .frameRateControl2 => { t with frameRateControl2 := v }
  | .powerControl1 => { t with powerControl1 := v }
  | .positiveGamma => { t with positiveGamma := v }
  | .negativeGamma => { t with negativeGamma := v }

/-- The table with the same entry for every register. -/
def RegTable.const {α : Type} (v : α) : RegTable α where
  colorMode := v
  memoryAccess := v
  porchControl := v
  gateControl := v
  vcoms := v
  lcmControl := v
  vdvVrhEnable := v
  vrh := v
  vdv := v
  frameRateControl2 := v
  powerControl1 := v
  positiveGamma := v
  negativeGamma := v

/-- The command bytes `CMD_<name>` of R71. -/
structure CmdCodes where
  softwareReset : Byte
  sleepOut : Byte
  colorMode : Byte
  memoryAccess : Byte
  columnAddressSet : Byte
  rowAddressSet : Byte
  porchControl : Byte
  gateControl : Byte
  vcoms : Byte
  lcmControl : Byte
  vdvVrhEnable : Byte
  vrh : Byte
  vdv : Byte
  frameRateControl2 : Byte
  powerControl1 : Byte
  positiveGamma : Byte
  negativeGamma : Byte
  normalDisplayOn : Byte
  displayOn : Byte
  memoryWrite : Byte
  deriving DecidableEq, Repr

/-- The command byte of one command. -/
def CmdCodes.get (t : CmdCodes) : Cmd → Byte
  | .softwareReset => t.softwareReset
  | .sleepOut => t.sleepOut
  | .colorMode => t.colorMode
  | .memoryAccess => t.memoryAccess
  | .columnAddressSet => t.columnAddressSet
  | .rowAddressSet => t.rowAddressSet
  | .porchControl => t.porchControl
  | .gateControl => t.gateControl
  | .vcoms => t.vcoms
  | .lcmControl => t.lcmControl
  | .vdvVrhEnable => t.vdvVrhEnable
  | .vrh => t.vrh
  | .vdv => t.vdv
  | .frameRateControl2 => t.frameRateControl2
  | .powerControl1 => t.powerControl1
  | .positiveGamma => t.positiveGamma
  | .negativeGamma => t.negativeGamma
  | .normalDisplayOn => t.normalDisplayOn
  | .displayOn => t.displayOn
  | .memoryWrite => t.memoryWrite

/-- `PARAM_FRAMING` (R78): one data frame for a parameter group, or one per byte. -/
inductive ParamFraming where
  | perGroup
  | perByte
  deriving DecidableEq, Repr

/-- `RELEASE_ON_FAILURE` (R165). -/
inductive ReleasePolicy where
  | never
  | always
  deriving DecidableEq, Repr

/-- The order of the bits of a byte on the data wire, below this model (R45, D1). -/
inductive BitOrder where
  | msbFirst
  | lsbFirst
  deriving DecidableEq, Repr

/-- How a Platform call turns out: R82 and R83 draw `ok` or `fail`; `hang` is the extra outcome of U12. -/
inductive DrawOutcome where
  | ok
  | fail
  | hang
  deriving DecidableEq, Repr, Inhabited

/-- One draw of the Platform: the outcome, how many bytes a failed transfer delivered (R83), and which of its two levels
a line is left at by a failed line write (R81). -/
structure PlatformDraw where
  outcome : DrawOutcome
  delivered : Nat
  level : Bool
  deriving DecidableEq, Repr, Inhabited

/-- The parameters of R5. DESIGN CHOICE (notes/assumptions/1): they are one record that the state carries and no step
changes, so a statement over every state holds for every value of every parameter. -/
structure Config where
  panelW : Nat
  panelH : Nat
  lineCs : Nat
  lineDc : Nat
  lineRst : Nat
  lineBl : Nat
  csAssertLevel : ELevel
  dcCommandLevel : ELevel
  blOnLevel : ELevel
  codes : CmdCodes
  counts : RegTable Nat
  params : RegTable (List Byte)
  tRstLow : Nat
  tRstSettle : Nat
  tSwreset : Nat
  tSlpout : Nat
  tNoron : Nat
  tDispon : Nat
  paramFraming : ParamFraming
  releaseOnFailure : ReleasePolicy
  lineWriteCanFail : Bool
  transportCanHang : Bool
  spiMode : Nat
  spiBitOrder : BitOrder
  spiClockHz : Nat
  statusOk : Nat
  statusTransportError : Nat
  statusInvalidArgument : Nat
  deriving DecidableEq, Repr

/-- What the Platform draws at its n-th call, where no draw is listed in the state: a FREE VALUE (R32: "the Platform's
draws" are "parameters of the step relation"; "a claim must hold for every choice"). No body: nothing can be proved of it. -/
opaque Config.freeDraw : Nat → PlatformDraw

/-- The platform identifier of a line (R5, `LINE_<name>`). -/
def Config.pin (c : Config) : Line → Nat
  | .cs => c.lineCs
  | .dc => c.lineDc
  | .rst => c.lineRst
  | .bl => c.lineBl

/-- `N(cmd)`, the number of parameter bytes a command takes (R72). -/
def Config.nParams (c : Config) : Cmd → Nat
  | .softwareReset => 0
  | .sleepOut => 0
  | .normalDisplayOn => 0
  | .displayOn => 0
  | .memoryWrite => 0
  | .columnAddressSet => 4
  | .rowAddressSet => 4
  | .colorMode => c.counts.colorMode
  | .memoryAccess => c.counts.memoryAccess
  | .porchControl => c.counts.porchControl
  | .gateControl => c.counts.gateControl
  | .vcoms => c.counts.vcoms
  | .lcmControl => c.counts.lcmControl
  | .vdvVrhEnable => c.counts.vdvVrhEnable
  | .vrh => c.counts.vrh
  | .vdv => c.counts.vdv
  | .frameRateControl2 => c.counts.frameRateControl2
  | .powerControl1 => c.counts.powerControl1
  | .positiveGamma => c.counts.positiveGamma
  | .negativeGamma => c.counts.negativeGamma

/-- What R5 requires of the parameters: geometry in 1 to 65536; pins, command bytes and status codes pairwise distinct;
each count at least 1 and the length of its parameter bytes; 14 bytes of gamma; every delay a positive `sleep_ms`
operand (R87). -/
abbrev Config.Wf (c : Config) : Prop :=
  (1 ≤ c.panelW ∧ c.panelW ≤ 65536) ∧ (1 ≤ c.panelH ∧ c.panelH ≤ 65536) ∧
  [c.lineCs, c.lineDc, c.lineRst, c.lineBl].Nodup ∧
  (Cmd.all.map c.codes.get).Nodup ∧
  (∀ r ∈ ConfigReg.all, 1 ≤ c.counts.get r ∧ (c.params.get r).length = c.counts.get r) ∧
  (c.counts.positiveGamma = 14 ∧ c.counts.negativeGamma = 14) ∧
  (0 < c.tRstLow ∧ 0 < c.tRstSettle ∧ 0 < c.tSwreset ∧ 0 < c.tSlpout ∧ 0 < c.tNoron ∧ 0 < c.tDispon) ∧
  [c.statusOk, c.statusTransportError, c.statusInvalidArgument].Nodup

/-- The default command bytes of R71. PRESUMED (the spec's own general-knowledge defaults, G1; notes/assumptions/2). -/
def CmdCodes.default : CmdCodes where
  softwareReset := 0x01
  sleepOut := 0x11
  colorMode := 0x3A
  memoryAccess := 0x36
  columnAddressSet := 0x2A
  rowAddressSet := 0x2B
  porchControl := 0xB2
  gateControl := 0xB7
  vcoms := 0xBB
  lcmControl := 0xC0
  vdvVrhEnable := 0xC2
  vrh := 0xC3
  vdv := 0xC4
  frameRateControl2 := 0xC6
  powerControl1 := 0xD0
  positiveGamma := 0xE0
  negativeGamma := 0xE1
  normalDisplayOn := 0x13
  displayOn := 0x29
  memoryWrite := 0x2C

/-- The default parameter bytes `P_<name>`. PRESUMED (G2; notes/assumptions/2). -/
def Config.defaultParams : RegTable (List Byte) where
  colorMode := [0x55]
  memoryAccess := [0x00]
  porchControl := [0x0C, 0x0C, 0x00, 0x33, 0x33]
  gateControl := [0x35]
  vcoms := [0x19]
  lcmControl := [0x2C]
  vdvVrhEnable := [0x01]
  vrh := [0x12]
  vdv := [0x20]
  frameRateControl2 := [0x0F]
  powerControl1 := [0xA4, 0xA1]
  positiveGamma := [0xD0, 0x04, 0x0D, 0x11, 0x13, 0x2B, 0x3F, 0x54, 0x4C, 0x18, 0x0D, 0x0B, 0x1F, 0x23]
  negativeGamma := [0xD0, 0x04, 0x0C, 0x11, 0x13, 0x2C, 0x3F, 0x44, 0x51, 0x2F, 0x1F, 0x1F, 0x20, 0x23]

/-- The default counts `N_<name>` (R72; the two gamma counts are the source's own). -/
def Config.defaultCounts : RegTable Nat where
  colorMode := 1
  memoryAccess := 1
  porchControl := 5
  gateControl := 1
  vcoms := 1
  lcmControl := 1
  vdvVrhEnable := 1
  vrh := 1
  vdv := 1
  frameRateControl2 := 1
  powerControl1 := 2
  positiveGamma := 14
  negativeGamma := 14

/-- The parameters at their defaults in R5. The pins, the polarities, `PARAM_FRAMING` and the SPI properties are OPEN
there: the values here are a DESIGN CHOICE of this model (notes/assumptions/2). -/
def Config.default : Config where
  panelW := 240
  panelH := 320
  lineCs := 0
  lineDc := 1
  lineRst := 2
  lineBl := 3
  csAssertLevel := .low
  dcCommandLevel := .low
  blOnLevel := .high
  codes := CmdCodes.default
  counts := Config.defaultCounts
  params := Config.defaultParams
  tRstLow := 10
  tRstSettle := 120
  tSwreset := 150
  tSlpout := 10
  tNoron := 10
  tDispon := 100
  paramFraming := .perGroup
  releaseOnFailure := .never
  lineWriteCanFail := false
  transportCanHang := false
  spiMode := 0
  spiBitOrder := .msbFirst
  spiClockHz := 0
  statusOk := 0
  statusTransportError := 1
  statusInvalidArgument := 2

end Sys2Proof
end

