-- ==== Sys2Proof/Syntax.lean ====
section
/-! DEFINITION. The operations of the block as syntax (one constructor per row of spec/opcode_table.json) and the words
they are encoded in: class-tagged wire bytes and calls (R62, R75). -/

namespace Sys2Proof

/-- Abstract levels of chip-select (R15). -/
inductive CsLevel where
  | asserted
  | deasserted
  deriving DecidableEq, Repr

/-- Electrical levels of the reset line, the only polarity the source gives (R15). -/
inductive RstLevel where
  | low
  | high
  deriving DecidableEq, Repr

/-- Abstract levels of the backlight line (R15). -/
inductive BlLevel where
  | on
  | off
  deriving DecidableEq, Repr

/-- A line together with one of ITS levels: the two operands of `write_line` (R81). -/
inductive LineWrite where
  | cs (l : CsLevel)
  | dc (l : ByteClass)
  | rst (l : RstLevel)
  | bl (l : BlLevel)
  deriving DecidableEq, Repr

/-- The line a `write_line` addresses. -/
def LineWrite.line : LineWrite → Line
  | .cs _ => .cs
  | .dc _ => .dc
  | .rst _ => .rst
  | .bl _ => .bl

/-- A target rectangle in panel coordinates, inclusive corners; mathematical integers, since a negative coordinate can be
presented (R163, D16). -/
structure Rect where
  x0 : Int
  y0 : Int
  x1 : Int
  y1 : Int
  deriving DecidableEq, Repr

/-- The operations, one constructor per row of the opcode table, in its order: the 20 wire commands with the parameter
bytes sent after the command byte, a pixel (or any single) data byte, a command byte that is none of the 20, then the
12 operations of the call interface. -/
inductive Instr where
  /-- SOFTWARE_RESET (R110). -/
  | softwareReset
  /-- SLEEP_OUT (R111). -/
  | sleepOut
  /-- COLOR_MODE (R112). -/
  | colorMode (ps : List Byte)
  /-- MEMORY_ACCESS (R113). -/
  | memoryAccess (ps : List Byte)
  /-- COLUMN_ADDRESS_SET (R114). -/
  | columnAddressSet (ps : List Byte)
  /-- ROW_ADDRESS_SET (R115). -/
  | rowAddressSet (ps : List Byte)
  /-- PORCH_CONTROL (R116). -/
  | porchControl (ps : List Byte)
  /-- GATE_CONTROL (R117). -/
  | gateControl (ps : List Byte)
  /-- VCOMS (R118). -/
  | vcoms (ps : List Byte)
  /-- LCM_CONTROL (R119). -/
  | lcmControl (ps : List Byte)
  /-- VDV_VRH_ENABLE (R120). -/
  | vdvVrhEnable (ps : List Byte)
  /-- VRH (R121). -/
  | vrh (ps : List Byte)
  /-- VDV (R122). -/
  | vdv (ps : List Byte)
  /-- FRAME_RATE_CONTROL_2 (R123). -/
  | frameRateControl2 (ps : List Byte)
  /-- POWER_CONTROL_1 (R124). -/
  | powerControl1 (ps : List Byte)
  /-- POSITIVE_GAMMA (R125). -/
  | positiveGamma (ps : List Byte)
  /-- NEGATIVE_GAMMA (R126). -/
  | negativeGamma (ps : List Byte)
  /-- NORMAL_DISPLAY_ON (R127). -/
  | normalDisplayOn
  /-- DISPLAY_ON (R128). -/
  | displayOn
  /-- MEMORY_WRITE (R129). -/
  | memoryWrite
  /-- PIXEL_DATA (R130): a data frame of one byte. -/
  | pixelData (b : Byte)
  /-- UNKNOWN_COMMAND (R131): a command frame whose byte is none of the 20. -/
  | unknownCommand (b : Byte)
  /-- configure_output_line (R80). -/
  | configureOutputLine (l : Line)
  /-- write_line (R81). -/
  | writeLine (w : LineWrite)
  /-- transport_init (R82). -/
  | transportInit
  /-- transport_write (R83). -/
  | transportWrite (bytes : List Byte)
  /-- send_command (R84). -/
  | sendCommand (b : Byte)
  /-- send_data (R85). -/
  | sendData (b : Byte)
  /-- send_data_block (R86). -/
  | sendDataBlock (bytes : List Byte) (length : Nat)
  /-- sleep_ms (R87). -/
  | sleepMs (n : Nat)
  /-- send_params (R93). -/
  | sendParams (ps : List Byte)
  /-- INIT (R140). -/
  | init
  /-- WINDOW_SET (R160). -/
  | windowSet (x0 y0 x1 y1 : Half)
  /-- BLIT (R162): the rectangle and the pixel buffer; the buffer's length is the list's. -/
  | blit (rect : Rect) (pb : List Byte)
  deriving DecidableEq, Repr

/-- The names of the call interface (R75, R87, R93, R140, R160). -/
inductive CallName where
  | configureOutputLine
  | writeLine
  | transportInit
  | transportWrite
  | sendCommand
  | sendData
  | sendDataBlock
  | sleepMs
  | sendParams
  | init
  | windowSet
  | blit
  deriving DecidableEq, Repr

/-- What can stand in the stream of things still to happen: a wire byte with its class (R62); a call with its raw
operands (R75: a call's "encoding" is its signature); a Host write to its pixel buffer (R54, R200), which is no operation
of the block. -/
inductive Word where
  | wire (cls : ByteClass) (b : Byte)
  | call (name : CallName) (args : List Int) (bytes : List Byte)
  | hostBufferWrite
  deriving DecidableEq, Repr

end Sys2Proof
end

