-- ==== Sys2Proof/WellFormed.lean ====
section
/-! DEFINITION. When the operands of an operation are those its rule gives it. -/

namespace Sys2Proof

/-- The parameter group has exactly the command's fixed count of bytes (R72). -/
def wfParams (c : Config) (cmd : Cmd) (ps : List Byte) : Bool :=
  ps.length == c.nParams cmd

/-- The byte is the code of none of the 20 commands (R73). -/
def wfUnknown (c : Config) (b : Byte) : Bool :=
  Cmd.all.all fun cmd => c.codes.get cmd != b

/-- The rectangle satisfies the first clause of R163. -/
def wfRect (c : Config) (r : Rect) : Bool :=
  decide (0 ≤ r.x0 ∧ r.x0 ≤ r.x1 ∧ r.x1 < c.panelW ∧ 0 ≤ r.y0 ∧ r.y0 ≤ r.y1 ∧ r.y1 < c.panelH)

/-- The length of buffer a rectangle needs (R163): width times height times 2. -/
def rectBytes (r : Rect) : Int :=
  (r.x1 - r.x0 + 1) * (r.y1 - r.y0 + 1) * 2

/-- The buffer has exactly the rectangle's length (R163). -/
def wfBuffer (r : Rect) (len : Nat) : Bool :=
  decide ((len : Int) = rectBytes r)

/-- Well-formed operands. A BLIT with other operands is no ill-formed term: it has its own outcome (R185), so BLIT asks
nothing here. -/
def wf (c : Config) : Instr → Bool
  | .softwareReset => true
  | .sleepOut => true
  | .colorMode ps => wfParams c .colorMode ps
  | .memoryAccess ps => wfParams c .memoryAccess ps
  | .columnAddressSet ps => wfParams c .columnAddressSet ps
  | .rowAddressSet ps => wfParams c .rowAddressSet ps
  | .porchControl ps => wfParams c .porchControl ps
  | .gateControl ps => wfParams c .gateControl ps
  | .vcoms ps => wfParams c .vcoms ps
  | .lcmControl ps => wfParams c .lcmControl ps
  | .vdvVrhEnable ps => wfParams c .vdvVrhEnable ps
  | .vrh ps => wfParams c .vrh ps
  | .vdv ps => wfParams c .vdv ps
  | .frameRateControl2 ps => wfParams c .frameRateControl2 ps
  | .powerControl1 ps => wfParams c .powerControl1 ps
  | .positiveGamma ps => wfParams c .positiveGamma ps
  | .negativeGamma ps => wfParams c .negativeGamma ps
  | .normalDisplayOn => true
  | .displayOn => true
  | .memoryWrite => true
  | .pixelData _ => true
  | .unknownCommand b => wfUnknown c b
  | .configureOutputLine _ => true
  | .writeLine _ => true
  | .transportInit => true
  | .transportWrite bytes => !bytes.isEmpty
  | .sendCommand _ => true
  | .sendData _ => true
  | .sendDataBlock bytes length => length == bytes.length && length != 0
  | .sleepMs n => n != 0
  | .sendParams ps => !ps.isEmpty
  | .init => true
  | .windowSet x0 y0 x1 y1 => wfRect c ⟨x0.toNat, y0.toNat, x1.toNat, y1.toNat⟩
  | .blit _ _ => true

end Sys2Proof
end

