-- ==== Sys2Proof/Decode.lean ====
section
/-! DEFINITION. The decoder of the stream of words (R62, R65, R72, R75), the encoder written from the same tables, and
the opcode table's numbering of a word. -/

namespace Sys2Proof

/-- Why a word is no operation. -/
inductive DecodeError where
  /-- There is no word. -/
  | nothingPending
  /-- The identifier is none of `LINE_CS`, `LINE_DC`, `LINE_RST`, `LINE_BL` (R80, R81). -/
  | unknownLine
  /-- The operands are not those of the call's signature (R75). -/
  | badArguments
  /-- A Host action on its own memory, no operation of the block (R200). -/
  | notAnOperation
  deriving DecidableEq, Repr

/-- The four lines once. -/
def Line.all : List Line := [.cs, .dc, .rst, .bl]

/-- The line with a platform identifier (R5: "pairwise distinct"). -/
def Config.lineOf (c : Config) (id : Int) : Option Line :=
  Line.all.find? fun l => decide ((c.pin l : Int) = id)

/-- The command with a byte value (R71, R101). -/
def Config.cmdOf (c : Config) (b : Byte) : Option Cmd :=
  Cmd.all.find? fun cmd => c.codes.get cmd == b

/-- The electrical level an abstract line level is driven at (R81). -/
def Config.electrical (c : Config) : LineWrite → ELevel
  | .cs .asserted => c.csAssertLevel
  | .cs .deasserted => c.csAssertLevel.opposite
  | .dc .command => c.dcCommandLevel
  | .dc .data => c.dcCommandLevel.opposite
  | .rst .low => .low
  | .rst .high => .high
  | .bl .on => c.blOnLevel
  | .bl .off => c.blOnLevel.opposite

/-- The abstract level of a line that an electrical level stands for: the reading of R81 backwards. -/
def Config.lineWriteOf (c : Config) (l : Line) (e : ELevel) : LineWrite :=
  match l with
  | .cs => .cs (if e = c.csAssertLevel then .asserted else .deasserted)
  | .dc => .dc (if e = c.dcCommandLevel then .command else .data)
  | .rst => .rst (match e with | .low => .low | .high => .high)
  | .bl => .bl (if e = c.blOnLevel then .on else .off)

/-- `LOW` and `HIGH` as operands of a raw call. -/
def ELevel.code : ELevel → Int
  | .low => 0
  | .high => 1

/-- The electrical level of a raw operand. -/
def ELevel.ofCode (n : Int) : Option ELevel :=
  if n = 0 then some .low else if n = 1 then some .high else none

/-- A 16-bit coordinate of a raw call (R160: "each fits 16 bits"). -/
def halfOf (n : Int) : Option Half :=
  if 0 ≤ n ∧ n < 65536 then some (BitVec.ofNat 16 n.toNat) else none

/-- The operation a command byte begins, with the parameter bytes that follow it. -/
def instrOfCmd (cmd : Cmd) (ps : List Byte) : Instr :=
  match cmd with
  | .softwareReset => .softwareReset
  | .sleepOut => .sleepOut
  | .colorMode => .colorMode ps
  | .memoryAccess => .memoryAccess ps
  | .columnAddressSet => .columnAddressSet ps
  | .rowAddressSet => .rowAddressSet ps
  | .porchControl => .porchControl ps
  | .gateControl => .gateControl ps
  | .vcoms => .vcoms ps
  | .lcmControl => .lcmControl ps
  | .vdvVrhEnable => .vdvVrhEnable ps
  | .vrh => .vrh ps
  | .vdv => .vdv ps
  | .frameRateControl2 => .frameRateControl2 ps
  | .powerControl1 => .powerControl1 ps
  | .positiveGamma => .positiveGamma ps
  | .negativeGamma => .negativeGamma ps
  | .normalDisplayOn => .normalDisplayOn
  | .displayOn => .displayOn
  | .memoryWrite => .memoryWrite

/-- The data-class bytes at the head of the stream, at most `n` of them, and what follows (R65: an exchange ends at the
next byte whose class is command). -/
def takeParams : Nat → List Word → List Byte × List Word
  | n + 1, .wire .data b :: ws => (b :: (takeParams n ws).1, (takeParams n ws).2)
  | _, ws => ([], ws)

/-- A call by its signature (R75). -/
def decodeCall (c : Config) (name : CallName) (args : List Int) (bytes : List Byte) : Except DecodeError Instr :=
  match name, args, bytes with
  | .configureOutputLine, [id], [] =>
    match c.lineOf id with
    | some l => .ok (.configureOutputLine l)
    | none => .error .unknownLine
  | .writeLine, [id, lv], [] =>
    match c.lineOf id, ELevel.ofCode lv with
    | some l, some e => .ok (.writeLine (c.lineWriteOf l e))
    | none, _ => .error .unknownLine
    | some _, none => .error .badArguments
  | .transportInit, [], [] => .ok .transportInit
  | .transportWrite, [], bs => .ok (.transportWrite bs)
  | .sendCommand, [], [b] => .ok (.sendCommand b)
  | .sendData, [], [b] => .ok (.sendData b)
  | .sendDataBlock, [n], bs => if 0 ≤ n then .ok (.sendDataBlock bs n.toNat) else .error .badArguments
  | .sleepMs, [n], [] => if 0 < n then .ok (.sleepMs n.toNat) else .error .badArguments
  | .sendParams, [], bs => .ok (.sendParams bs)
  | .init, [], [] => .ok .init
  | .windowSet, [x0, y0, x1, y1], [] =>
    match halfOf x0, halfOf y0, halfOf x1, halfOf y1 with
    | some a, some b, some d, some e => .ok (.windowSet a b d e)
    | _, _, _, _ => .error .badArguments
  | .blit, [x0, y0, x1, y1], bs => .ok (.blit ⟨x0, y0, x1, y1⟩ bs)
  | _, _, _ => .error .badArguments

/-- The operation at the head of the stream and the stream after it. Total: every command byte is one of the 20 commands
or UNKNOWN_COMMAND, every data byte is a command's parameter or stands alone. A parameter group that the stream cuts
short is decoded with the bytes it has (R104 says what they do). -/
def decode (c : Config) : List Word → Except DecodeError (Instr × List Word)
  | [] => .error .nothingPending
  | .wire .command b :: ws =>
    match c.cmdOf b with
    | none => .ok (.unknownCommand b, ws)
    | some cmd => .ok (instrOfCmd cmd (takeParams (c.nParams cmd) ws).1, (takeParams (c.nParams cmd) ws).2)
  | .wire .data b :: ws => .ok (.pixelData b, ws)
  | .call name args bytes :: ws =>
    match decodeCall c name args bytes with
    | .ok i => .ok (i, ws)
    | .error e => .error e
  | .hostBufferWrite :: _ => .error .notAnOperation

/-- The words of an exchange (R63): the command byte, then its parameter bytes. -/
def encodeCmd (c : Config) (cmd : Cmd) (ps : List Byte) : List Word :=
  .wire .command (c.codes.get cmd) :: ps.map (Word.wire .data)

/-- The words of an operation (R60, R61, R63, R71, R75). -/
def encode (c : Config) : Instr → List Word
  | .softwareReset => encodeCmd c .softwareReset []
  | .sleepOut => encodeCmd c .sleepOut []
  | .colorMode ps => encodeCmd c .colorMode ps
  | .memoryAccess ps => encodeCmd c .memoryAccess ps
  | .columnAddressSet ps => encodeCmd c .columnAddressSet ps
  | .rowAddressSet ps => encodeCmd c .rowAddressSet ps
  | .porchControl ps => encodeCmd c .porchControl ps
  | .gateControl ps => encodeCmd c .gateControl ps
  | .vcoms ps => encodeCmd c .vcoms ps
  | .lcmControl ps => encodeCmd c .lcmControl ps
  | .vdvVrhEnable ps => encodeCmd c .vdvVrhEnable ps
  | .vrh ps => encodeCmd c .vrh ps
  | .vdv ps => encodeCmd c .vdv ps
  | .frameRateControl2 ps => encodeCmd c .frameRateControl2 ps
  | .powerControl1 ps => encodeCmd c .powerControl1 ps
  | .positiveGamma ps => encodeCmd c .positiveGamma ps
  | .negativeGamma ps => encodeCmd c .negativeGamma ps
  | .normalDisplayOn => encodeCmd c .normalDisplayOn []
  | .displayOn => encodeCmd c .displayOn []
  | .memoryWrite => encodeCmd c .memoryWrite []
  | .pixelData b => [.wire .data b]
  | .unknownCommand b => [.wire .command b]
  | .configureOutputLine l => [.call .configureOutputLine [(c.pin l : Int)] []]
  | .writeLine w => [.call .writeLine [(c.pin w.line : Int), (c.electrical w).code] []]
  | .transportInit => [.call .transportInit [] []]
  | .transportWrite bs => [.call .transportWrite [] bs]
  | .sendCommand b => [.call .sendCommand [] [b]]
  | .sendData b => [.call .sendData [] [b]]
  | .sendDataBlock bs n => [.call .sendDataBlock [(n : Int)] bs]
  | .sleepMs n => [.call .sleepMs [(n : Int)] []]
  | .sendParams ps => [.call .sendParams [] ps]
  | .init => [.call .init [] []]
  | .windowSet x0 y0 x1 y1 =>
    [.call .windowSet [(x0.toNat : Int), (y0.toNat : Int), (x1.toNat : Int), (y1.toNat : Int)] []]
  | .blit r pb => [.call .blit [r.x0, r.y0, r.x1, r.y1] pb]

/-- Byte `i` of a word numbered as spec/opcode_table.json numbers it: bits `8 i` to `8 i + 7`. -/
def tableByte (w i : Nat) : Byte := BitVec.ofNat 8 (w / 2 ^ (8 * i))

/-- The words of the operation whose table word is `w`, of `nbits` bits and zero above them: the first byte is the command
byte, the next are the parameter bytes its count asks for (R63, R72). The rows of the call interface have no bits
(R75), and the class of a byte is none of its bits (R62): a table word is read as a command. -/
def tableWords (c : Config) (nbits w : Nat) : List Word :=
  .wire .command (tableByte (w % 2 ^ nbits) 0) ::
    (List.range (((c.cmdOf (tableByte (w % 2 ^ nbits) 0)).map c.nParams).getD 0)).map fun i =>
      .wire .data (tableByte (w % 2 ^ nbits) (i + 1))

/-- The operation the decoder reads from a table word, with the default command bytes of R71. -/
def decodeTableWord (nbits w : Nat) : Option Instr :=
  match decode Config.default (tableWords Config.default nbits w) with
  | .ok (i, _) => some i
  | .error _ => none

end Sys2Proof
end

