-- ==== Sys2Proof/Machine/State.lean ====
section
/-! DEFINITION. All the state the spec gives the machine (10_state.md), as plain data, and its value at power-on
(R30, R31). `none` in a register is the spec's own absent value (00_scope section 6), not a value that is unknown. -/

namespace Sys2Proof.Machine

/-- How the machine can stop with a fault. -/
inductive Fault where
  /-- `transport_write` never returns (U12, R202). Raised by a transfer whose Platform draw is `hang`, and only where the
  parameter `transportCanHang` is set; the spec's default has no such run. Safe: the machine stops. -/
  | transportHang
  /-- A pixel is written to a cell outside the panel: R43, no such cell exists. Raised by a pixel data byte when the write
  pointer is outside the panel, which no run of the machine reaches. Safe: the machine stops. -/
  | frameCellOutsidePanel
  deriving DecidableEq, Repr

/-- Why a run has no further meaning (R19, and 93_implementation_defined.md part 3, in its order). Every refusal is safe:
nothing can be proved of what the hardware does after it. -/
inductive Refusal where
  /-- An instruction that has no meaning yet. Raised by exec's refused arms only; safe. -/
  | notModelled (mnemonic : String)
  /-- "line written before configured" (R81). Raised by every line write; safe. -/
  | lineNotConfigured
  /-- "transfer before transport_init" (R83, R16). Raised by every transfer; safe. -/
  | transferBeforeInit
  /-- "empty transfer" (R83). Raised by `transport_write`; safe. -/
  | emptyTransfer
  /-- "bad block length" (R86). Raised by `send_data_block`; safe. -/
  | badBlockLength
  /-- "byte outside chip-select" (R100). Raised by the Receiver's intake; safe. -/
  | byteOutsideChipSelect
  /-- "byte before or during hardware reset" (R100). Raised by the Receiver's intake; safe. -/
  | byteDuringReset
  /-- "byte inside a busy window" (R100). Raised by the Receiver's intake; safe. -/
  | byteInBusyWindow
  /-- "data byte with no command current" (R102). Raised by a data byte; safe. -/
  | dataWithNoCommand
  /-- "data byte after a command that takes no parameters" (R102). Raised by a data byte; safe. -/
  | dataAfterParameterless
  /-- "parameter byte beyond the command's fixed count" (R102). Raised by a data byte; safe. -/
  | excessParameterByte
  /-- "reset pulse shorter than 10 ms" (R106). Raised by the rising edge of the reset line; safe. -/
  | resetPulseTooShort
  /-- "command after initialization that no source operation issues" (R108). Raised by a command byte; safe. -/
  | commandAfterInitialization
  /-- "memory write with an undefined window" (R129). Raised by MEMORY_WRITE; safe. -/
  | undefinedWindow
  /-- "memory write with a window outside the panel" (R129). Raised by MEMORY_WRITE; safe. -/
  | windowOutsidePanel
  /-- "pixel data beyond the addressed rectangle" (R130). Raised by a pixel data byte; safe. -/
  | pixelBeyondRectangle
  /-- "unknown command byte" (R131). Raised by a command byte that is none of the 20; safe. -/
  | unknownCommandByte
  /-- "operation invoked while another is in flight" (R140, R172, R198). Raised by INIT and BLIT; safe. -/
  | operationInFlight
  /-- "blit before initialization" (R172). Raised by BLIT; safe. -/
  | blitBeforeInitialization
  /-- "blit after an unrecovered failure" (R172). Raised by BLIT; safe. -/
  | blitAfterFailure
  /-- The pixel buffer changed between BLIT entry and release (R200, U14). Raised by a Host write; safe. -/
  | bufferChangedInFlight
  /-- A register or line level that holds `none` where a rule needs a value (00_scope section 6). Raised by the intake
  when command/data-select was never written, by a pixel data byte without a window or pointer, and by the Sequencer
  reading empty latches; safe. -/
  | readOfNone
  /-- The next word is no operation of the block (R75). Raised by the fetch; safe. -/
  | undecodable (e : DecodeError)
  deriving DecidableEq, Repr

/-- The two ways an operation can end without a next state. -/
inductive Stop where
  | fault (f : Fault)
  | refused (r : Refusal)
  deriving DecidableEq, Repr

/-- `SEQ_STATE` (R11). -/
inductive SeqState where
  | uninit
  | initRunning
  | ready
  | blitRunning
  | failed
  deriving DecidableEq, Repr

/-- The three outcomes `STATUS` can hold (R14). -/
inductive Status where
  | ok
  | transportError
  | invalidArgument
  deriving DecidableEq, Repr

/-- What a Platform or Bus Framer call handed back to its caller: it returned; `transport_write` returned `fail` (R83);
it raised `TransportError` (R84). -/
inductive CallResult where
  | ok
  | fail
  | transportError
  deriving DecidableEq, Repr

/-- One control line (R15). -/
structure LineState (α : Type) where
  configured : Bool
  level : Option α
  deriving DecidableEq, Repr

/-- The events of `TRACE` (R18). -/
inductive Event where
  | cfg (line : Line)
  | tinit (ok : Bool)
  | line (w : LineWrite)
  | xfer (bytes : List Byte) (ok : Bool) (k : Nat)
  | delay (ms : Nat)
  | release
  | ret (status : Status)
  deriving DecidableEq, Repr

/-- `FM` (R28): the cells that hold a value, keyed by `fmKey`, strictly rising keys. A cell that is not listed holds
`none`. The unit is the 16-bit cell, because "a cell is written whole or not at all" (R44; notes/assumptions/3). -/
abbrev FrameMemory := List (Nat × Half)

/-- The Receiver (10_state.md section 3): the display controller's side of the wire. -/
structure Receiver where
  /-- `C_CMD` (R20). -/
  cCmd : Option Cmd
  /-- `C_PIDX` (R21). -/
  cPidx : Nat
  /-- `C_PBUF` (R21). -/
  cPbuf : List Byte
  /-- `XS` (R22). -/
  xs : Option Half
  /-- `XE` (R22). -/
  xe : Option Half
  /-- `YS` (R22). -/
  ys : Option Half
  /-- `YE` (R22). -/
  ye : Option Half
  /-- `WCOL` (R24). -/
  wcol : Option Nat
  /-- `WROW` (R24). -/
  wrow : Option Nat
  /-- `C_HALF` (R24). -/
  cHalf : Option Byte
  /-- `C_FULL` (R24). -/
  cFull : Bool
  /-- `REG[*]`, the 13 configuration registers (R25). -/
  regs : RegTable (Option (List Byte))
  /-- `C_RESET_DONE` (R26). -/
  cResetDone : Bool
  /-- `C_SLEEP_OUT` (R26). -/
  cSleepOut : Bool
  /-- `C_NORMAL_ON` (R26). -/
  cNormalOn : Bool
  /-- `C_DISPLAY_ON` (R26). -/
  cDisplayOn : Bool
  /-- `C_INIT_STAGE` (R26). -/
  cInitStage : Nat
  /-- `C_INIT_VALID` (R26). -/
  cInitValid : Bool
  /-- `C_BUSY` (R27), milliseconds. -/
  cBusy : Nat
  /-- `C_RST_LOW_MS` (R27), milliseconds. -/
  cRstLowMs : Nat
  /-- `FM` (R28). -/
  fm : FrameMemory
  deriving DecidableEq, Repr

/-- The machine. -/
structure State where
  /-- The parameters of R5; no step changes them (R32; notes/assumptions/1). -/
  cfg : Config
  /-- `SEQ_STATE` (R11). -/
  seqState : SeqState
  /-- `SEQ_PC` (R13). -/
  seqPc : Nat
  /-- `RX0` (R12). -/
  rx0 : Option Nat
  /-- `RY0` (R12). -/
  ry0 : Option Nat
  /-- `RX1` (R12). -/
  rx1 : Option Nat
  /-- `RY1` (R12). -/
  ry1 : Option Nat
  /-- `BLEN` (R12). -/
  blen : Option Nat
  /-- `BIDX` (R12). -/
  bidx : Option Nat
  /-- `STATUS` (R14). -/
  status : Option Status
  /-- The chip-select line (R15). -/
  cs : LineState CsLevel
  /-- The command/data-select line (R15). -/
  dc : LineState ByteClass
  /-- The reset line (R15). -/
  rst : LineState RstLevel
  /-- The backlight line (R15). -/
  bl : LineState BlLevel
  /-- `T_INIT` (R16). -/
  tInit : Bool
  /-- `TRACE` (R18), oldest event first. -/
  trace : List Event
  /-- `REFUSED` with its reason (R19). -/
  refused : Option Refusal
  /-- The Receiver. -/
  recv : Receiver
  /-- MODEL's own: what the last Platform or Bus Framer call handed to its caller (notes/assumptions/5). -/
  callResult : Option CallResult
  /-- MODEL's own: the Platform's draws to come that are known; beyond them `Config.freeDraw` (notes/assumptions/4). -/
  draws : List PlatformDraw
  /-- MODEL's own: how many draws have been made (notes/assumptions/4). -/
  drawCount : Nat
  /-- MODEL's own: the words still to be executed, first to come first (notes/assumptions/6). -/
  pending : List Word
  deriving DecidableEq, Repr

/-- The Receiver at power-on (R31, first column). -/
def Receiver.powerOn : Receiver where
  cCmd := none
  cPidx := 0
  cPbuf := []
  xs := none
  xe := none
  ys := none
  ye := none
  wcol := none
  wrow := none
  cHalf := none
  cFull := false
  regs := RegTable.const none
  cResetDone := false
  cSleepOut := false
  cNormalOn := false
  cDisplayOn := false
  cInitStage := 0
  cInitValid := false
  cBusy := 0
  cRstLowMs := 0
  fm := []

/-- The machine at power-on (R30, R31, R210). The parameters are the defaults of R5. -/
def State.reset : State where
  cfg := Config.default
  seqState := .uninit
  seqPc := 0
  rx0 := none
  ry0 := none
  rx1 := none
  ry1 := none
  blen := none
  bidx := none
  status := none
  cs := ⟨false, none⟩
  dc := ⟨false, none⟩
  rst := ⟨false, none⟩
  bl := ⟨false, none⟩
  tInit := false
  trace := []
  refused := none
  recv := Receiver.powerOn
  callResult := none
  draws := []
  drawCount := 0
  pending := []

end Sys2Proof.Machine
end

