-- ==== Sys2Proof/Machine/Operands.lean ====
section
/-! DEFINITION. The operand forms: the split and joining of 16-bit values (R66 to R69), the pixel buffer (R41, R42), the
cells of the frame memory (R43, R44), and the checks on a rectangle (R163) and a window (R129). -/

namespace Sys2Proof.Machine

/-- `v[15:8]` (R66). -/
def hiByte (v : Half) : Byte := v.extractLsb' 8 8

/-- `v[7:0]` (R66). -/
def loByte (v : Half) : Byte := v.extractLsb' 0 8

/-- `(hi << 8) | lo` (R66, R130). -/
def joinBytes (hi lo : Byte) : Half := hi ++ lo

/-- The parameter group of COLUMN_ADDRESS_SET (R67) and ROW_ADDRESS_SET (R68). -/
def addressParams (a b : Half) : List Byte := [hiByte a, loByte a, hiByte b, loByte b]

/-- A 16-bit coordinate from a latch (R66, R170: nothing truncates once R163 has passed). -/
def toHalf (n : Nat) : Half := BitVec.ofNat 16 n

/-- `MemRead(PB, i, n)` (R41). -/
def pbRead (pb : List Byte) (i n : Nat) : List Byte := (pb.drop i).take n

/-- Red, bits 15 to 11 of a pixel (R69). No rule reads a colour field. -/
def pixelRed (p : Half) : BitVec 5 := p.extractLsb' 11 5

/-- Green, bits 10 to 5 of a pixel (R69). -/
def pixelGreen (p : Half) : BitVec 6 := p.extractLsb' 5 6

/-- Blue, bits 4 to 0 of a pixel (R69). -/
def pixelBlue (p : Half) : BitVec 5 := p.extractLsb' 0 5

/-- The key of cell (row, col): the two 16-bit coordinates side by side, so that rising keys are row-major order (R49).
DESIGN CHOICE (notes/assumptions/3): the spec addresses a cell by the pair. -/
def fmKey (row col : Nat) : Nat := row * 65536 + col

/-- The cell is one of `FM` (R43). -/
def inPanel (c : Config) (row col : Nat) : Bool := decide (row < c.panelH ∧ col < c.panelW)

/-- A stored cell, `none` where nothing was written (R28). -/
def fmLookup : FrameMemory → Nat → Option Half
  | [], _ => none
  | (k, v) :: m, key => if k = key then some v else fmLookup m key

/-- Store one cell, keeping the keys strictly rising. -/
def fmInsert : FrameMemory → Nat → Half → FrameMemory
  | [], key, v => [(key, v)]
  | (k, w) :: m, key, v =>
    if key < k then (key, v) :: (k, w) :: m
    else if key = k then (key, v) :: m
    else (k, w) :: fmInsert m key v

/-- `FM[row][col]` (R28). -/
def fmRead (m : FrameMemory) (row col : Nat) : Option Half := fmLookup m (fmKey row col)

/-- `MemWrite(FM, (row, col), 2, v)` (R44). -/
def fmWrite (m : FrameMemory) (row col : Nat) (v : Half) : FrameMemory := fmInsert m (fmKey row col) v

/-- The canonical form of the frame memory: keys strictly rising. No entry can equal what an unlisted cell reads as, since
that is `none`. -/
abbrev FrameMemory.wf (m : FrameMemory) : Prop := (m.map Prod.fst).Pairwise (· < ·)

/-- The precondition of BLIT (R163): the rectangle first, then the length (R189). -/
def blitValid (c : Config) (r : Rect) (len : Nat) : Bool := wfRect c r && wfBuffer r len

/-- The window check of MEMORY_WRITE (R129). -/
def windowInPanel (c : Config) (xs xe ys ye : Half) : Bool :=
  decide (xs.toNat ≤ xe.toNat ∧ xe.toNat < c.panelW ∧ ys.toNat ≤ ye.toNat ∧ ye.toNat < c.panelH)

end Sys2Proof.Machine
end

