-- ==== Sys2Proof/Machine/Flags.lean ====
section
/-! DEFINITION. The flags: `STATUS` and its codes (R14, R183), the derived predicates (R23, R29), and the order tracker's
two flags `C_INIT_STAGE` and `C_INIT_VALID` (R26, R108). -/

namespace Sys2Proof.Machine

/-- The numeric code of an outcome (R183). -/
def statusCode (c : Config) : Status → Nat
  | .ok => c.statusOk
  | .transportError => c.statusTransportError
  | .invalidArgument => c.statusInvalidArgument

/-- `C_ARMED` (R23): not separate storage. -/
def Receiver.cArmed (r : Receiver) : Bool := r.cCmd == some .memoryWrite

/-- `INIT_ORDER` (R108). -/
def initOrder : List Cmd :=
  [.softwareReset, .sleepOut, .colorMode, .memoryAccess, .columnAddressSet, .rowAddressSet, .porchControl,
   .gateControl, .vcoms, .lcmControl, .vdvVrhEnable, .vrh, .vdv, .frameRateControl2, .powerControl1,
   .positiveGamma, .negativeGamma, .normalDisplayOn, .displayOn]

/-- `CONTROLLER_READY` (R29). -/
def Receiver.controllerReady (r : Receiver) : Bool :=
  r.cResetDone && r.cInitValid && r.cInitStage == 19 && r.cSleepOut && r.cNormalOn && r.cDisplayOn && r.cBusy == 0

/-- An operation is in flight (R11, R198). -/
def State.inFlight (s : State) : Bool := s.seqState == .initRunning || s.seqState == .blitRunning

/-- The commands that a fully initialised controller expects (R108). -/
def expectedAfterInit : Cmd → Bool
  | .columnAddressSet => true
  | .rowAddressSet => true
  | .memoryWrite => true
  | .softwareReset => true
  | _ => false

/-- The order tracker at a command byte (R108, start). -/
def trackerStart (cmd : Cmd) (r : Receiver) : Except Stop Receiver :=
  if r.cInitStage < 19 then
    if initOrder[r.cInitStage]? = some cmd then .ok r else .ok { r with cInitValid := false }
  else if expectedAfterInit cmd then .ok r
  else .error (.refused .commandAfterInitialization)

/-- The order tracker when a command is complete (R108, completion). -/
def trackerDone (cmd : Cmd) (r : Receiver) : Receiver :=
  if r.cInitStage < 19 ∧ r.cInitValid = true ∧ initOrder[r.cInitStage]? = some cmd then
    { r with cInitStage := r.cInitStage + 1 }
  else r

end Sys2Proof.Machine
end

