-- ==== Sys2Proof/Machine/Receiver.lean ====
section
/-! DEFINITION. The Receiver: the two resets (R31), the reset line and time (R106, R107), the effect of each of the 20
commands (R110 to R130) and the taking of a byte (R100 to R104). -/

namespace Sys2Proof.Machine

/-- The Receiver after a complete hardware reset pulse (R31, second column; R211). -/
def hardwareReset (c : Config) : Receiver :=
  { Receiver.powerOn with cResetDone := true, cInitValid := true, cBusy := c.tRstSettle }

/-- The reset line goes to `new` from `prev` (R106). DESIGN CHOICE (log 21): a write of LOW to a line that is already LOW sets
the low time to 0, as R106's pseudocode does on every LOW; R81 ("changes nothing") and R107 ("reset edges") read
otherwise. Unsafe. -/
def resetLine (c : Config) (prev : Option RstLevel) (new : RstLevel) (r : Receiver) : Except Stop Receiver :=
  match new with
  | .low => .ok { r with cRstLowMs := 0 }
  | .high =>
    if prev = some .low then
      if r.cRstLowMs < c.tRstLow then .error (.refused .resetPulseTooShort) else .ok (hardwareReset c)
    else .ok r

/-- At least `ms` milliseconds pass (R107). -/
def passTime (rst : Option RstLevel) (ms : Nat) (r : Receiver) : Receiver :=
  { r with cBusy := r.cBusy - ms, cRstLowMs := if rst = some .low then r.cRstLowMs + ms else r.cRstLowMs }

/-! ### The effects at the command byte -/

/-- SOFTWARE_RESET (R110; R31, third column). The advance of the stage from 0 to 1 is the tracker's (C13). -/
def softwareResetEffect (c : Config) (r : Receiver) : Receiver :=
  let cleared : Receiver :=
    { r with
      cCmd := some .softwareReset, cPidx := 0, cPbuf := []
      xs := none, xe := none, ys := none, ye := none
      wcol := none, wrow := none, cHalf := none, cFull := false
      regs := RegTable.const none
      cSleepOut := false, cNormalOn := false, cDisplayOn := false
      cBusy := c.tSwreset, fm := [] }
  if r.cInitStage = 0 ∧ r.cInitValid = true then cleared
  else { cleared with cInitValid := false, cInitStage := 0 }

/-- SLEEP_OUT (R111). -/
def sleepOutEffect (c : Config) (r : Receiver) : Receiver := { r with cSleepOut := true, cBusy := c.tSlpout }

/-- NORMAL_DISPLAY_ON (R127). -/
def normalDisplayOnEffect (c : Config) (r : Receiver) : Receiver := { r with cNormalOn := true, cBusy := c.tNoron }

/-- DISPLAY_ON (R128). -/
def displayOnEffect (c : Config) (r : Receiver) : Receiver := { r with cDisplayOn := true, cBusy := c.tDispon }

/-- MEMORY_WRITE (R129): arm at the first cell of the window. -/
def memoryWriteEffect (c : Config) (r : Receiver) : Except Stop Receiver :=
  match r.xs, r.xe, r.ys, r.ye with
  | some xs, some xe, some ys, some ye =>
    if windowInPanel c xs xe ys ye then
      .ok { r with wcol := some xs.toNat, wrow := some ys.toNat, cHalf := none, cFull := false }
    else .error (.refused .windowOutsidePanel)
  | _, _, _, _ => .error (.refused .undefinedWindow)

/-- The effect of a command at its command byte (R101). A command with parameters does nothing there. -/
def commandEffect (c : Config) (cmd : Cmd) (r : Receiver) : Except Stop Receiver :=
  match cmd with
  | .softwareReset => .ok (softwareResetEffect c r)
  | .sleepOut => .ok (sleepOutEffect c r)
  | .normalDisplayOn => .ok (normalDisplayOnEffect c r)
  | .displayOn => .ok (displayOnEffect c r)
  | .memoryWrite => memoryWriteEffect c r
  | .colorMode => .ok r
  | .memoryAccess => .ok r
  | .columnAddressSet => .ok r
  | .rowAddressSet => .ok r
  | .porchControl => .ok r
  | .gateControl => .ok r
  | .vcoms => .ok r
  | .lcmControl => .ok r
  | .vdvVrhEnable => .ok r
  | .vrh => .ok r
  | .vdv => .ok r
  | .frameRateControl2 => .ok r
  | .powerControl1 => .ok r
  | .positiveGamma => .ok r
  | .negativeGamma => .ok r

/-! ### The effects at the commit of a parameter group -/

/-- Store the whole group in a register (R25: "written whole by its command"). -/
def storeReg (reg : ConfigReg) (r : Receiver) : Receiver := { r with regs := r.regs.set reg (some r.cPbuf) }

/-- COLUMN_ADDRESS_SET (R114). A group that is not 4 bytes long cannot be complete, as its count is 4 (R72). -/
def columnAddressSetCommit (r : Receiver) : Receiver :=
  match r.cPbuf with
  | [p0, p1, p2, p3] => { r with xs := some (joinBytes p0 p1), xe := some (joinBytes p2 p3) }
  | _ => r

/-- ROW_ADDRESS_SET (R115). -/
def rowAddressSetCommit (r : Receiver) : Receiver :=
  match r.cPbuf with
  | [p0, p1, p2, p3] => { r with ys := some (joinBytes p0 p1), ye := some (joinBytes p2 p3) }
  | _ => r

/-- VRH (R121): honoured only once the enable register has been written. -/
def vrhCommit (r : Receiver) : Receiver :=
  if r.regs.vdvVrhEnable = none then { r with regs := r.regs.set .vrh none } else storeReg .vrh r

/-- VDV (R122): as VRH. -/
def vdvCommit (r : Receiver) : Receiver :=
  if r.regs.vdvVrhEnable = none then { r with regs := r.regs.set .vdv none } else storeReg .vdv r

/-- The effect of a command when its last parameter byte has arrived (R102, R104). -/
def commitEffect (cmd : Cmd) (r : Receiver) : Receiver :=
  match cmd with
  | .softwareReset => r
  | .sleepOut => r
  | .normalDisplayOn => r
  | .displayOn => r
  | .memoryWrite => r
  | .columnAddressSet => columnAddressSetCommit r
  | .rowAddressSet => rowAddressSetCommit r
  | .vrh => vrhCommit r
  | .vdv => vdvCommit r
  | .colorMode => storeReg .colorMode r
  | .memoryAccess => storeReg .memoryAccess r
  | .porchControl => storeReg .porchControl r
  | .gateControl => storeReg .gateControl r
  | .vcoms => storeReg .vcoms r
  | .lcmControl => storeReg .lcmControl r
  | .vdvVrhEnable => storeReg .vdvVrhEnable r
  | .frameRateControl2 => storeReg .frameRateControl2 r
  | .powerControl1 => storeReg .powerControl1 r
  | .positiveGamma => storeReg .positiveGamma r
  | .negativeGamma => storeReg .negativeGamma r

/-! ### The group cut short -/

/-- The registers a command writes become `none` (R104). -/
def voidRegs (cmd : Cmd) (r : Receiver) : Receiver :=
  match cmd with
  | .softwareReset => r
  | .sleepOut => r
  | .normalDisplayOn => r
  | .displayOn => r
  | .memoryWrite => r
  | .columnAddressSet => { r with xs := none, xe := none }
  | .rowAddressSet => { r with ys := none, ye := none }
  | .colorMode => { r with regs := r.regs.set .colorMode none }
  | .memoryAccess => { r with regs := r.regs.set .memoryAccess none }
  | .porchControl => { r with regs := r.regs.set .porchControl none }
  | .gateControl => { r with regs := r.regs.set .gateControl none }
  | .vcoms => { r with regs := r.regs.set .vcoms none }
  | .lcmControl => { r with regs := r.regs.set .lcmControl none }
  | .vdvVrhEnable => { r with regs := r.regs.set .vdvVrhEnable none }
  | .vrh => { r with regs := r.regs.set .vrh none }
  | .vdv => { r with regs := r.regs.set .vdv none }
  | .frameRateControl2 => { r with regs := r.regs.set .frameRateControl2 none }
  | .powerControl1 => { r with regs := r.regs.set .powerControl1 none }
  | .positiveGamma => { r with regs := r.regs.set .positiveGamma none }
  | .negativeGamma => { r with regs := r.regs.set .negativeGamma none }

/-- What a new command byte does to an unfinished parameter group (R104). -/
def endGroup (c : Config) (r : Receiver) : Receiver :=
  match r.cCmd with
  | none => r
  | some cmd =>
    if r.cPidx < c.nParams cmd then
      { voidRegs cmd r with cInitValid := if r.cInitStage < 19 then false else r.cInitValid }
    else r

/-! ### Taking a byte -/

/-- A new command becomes current (R101). -/
def beginCommand (cmd : Cmd) (r : Receiver) : Receiver :=
  { r with cHalf := none, cCmd := some cmd, cPidx := 0, cPbuf := [] }

/-- A command byte that is `cmd` (R101 after the lookup). -/
def runCommand (c : Config) (cmd : Cmd) (r : Receiver) : Except Stop Receiver :=
  match trackerStart cmd (beginCommand cmd (endGroup c r)) with
  | .error e => .error e
  | .ok r1 =>
    match commandEffect c cmd r1 with
    | .error e => .error e
    | .ok r2 => .ok (if c.nParams cmd = 0 then trackerDone cmd r2 else r2)

/-- A command byte (R101, R131). -/
def takeCommand (c : Config) (b : Byte) (r : Receiver) : Except Stop Receiver :=
  match c.cmdOf b with
  | none => .error (.refused .unknownCommandByte)
  | some cmd => runCommand c cmd r

/-- Write the completed pixel and advance the pointer, row-major inside the window (R130). -/
def storePixel (xs xe ye : Half) (row col : Nat) (v : Half) (r : Receiver) : Receiver :=
  let r1 := { r with cHalf := none, fm := fmWrite r.fm row col v }
  if col < xe.toNat then { r1 with wcol := some (col + 1) }
  else if row < ye.toNat then { r1 with wcol := some xs.toNat, wrow := some (row + 1) }
  else { r1 with wcol := some xs.toNat, cFull := true }

/-- A pixel data byte (R130). -/
def takePixel (c : Config) (b : Byte) (r : Receiver) : Except Stop Receiver :=
  if r.cFull then .error (.refused .pixelBeyondRectangle)
  else
    match r.cHalf with
    | none => .ok { r with cHalf := some b }
    | some h =>
      match r.wcol, r.wrow, r.xs, r.xe, r.ye with
      | some col, some row, some xs, some xe, some ye =>
        if inPanel c row col then .ok (storePixel xs xe ye row col (joinBytes h b) r)
        else .error (.fault .frameCellOutsidePanel)
      | _, _, _, _, _ => .error (.refused .readOfNone)

/-- A parameter byte joins its group (R102). -/
def pushParam (b : Byte) (r : Receiver) : Receiver := { r with cPbuf := r.cPbuf ++ [b], cPidx := r.cPidx + 1 }

/-- A data byte under a command with parameters (R102). -/
def takeParam (c : Config) (cmd : Cmd) (b : Byte) (r : Receiver) : Except Stop Receiver :=
  if c.nParams cmd = 0 then .error (.refused .dataAfterParameterless)
  else if c.nParams cmd ≤ r.cPidx then .error (.refused .excessParameterByte)
  else .ok (if r.cPidx + 1 = c.nParams cmd then trackerDone cmd (commitEffect cmd (pushParam b r)) else pushParam b r)

/-- A data byte (R102). -/
def takeData (c : Config) (b : Byte) (r : Receiver) : Except Stop Receiver :=
  match r.cCmd with
  | none => .error (.refused .dataWithNoCommand)
  | some cmd => if cmd = .memoryWrite then takePixel c b r else takeParam c cmd b r

/-- The levels the Receiver sees on the three lines that go to it (R33, R100). -/
structure Pins where
  cs : Option CsLevel
  dc : Option ByteClass
  rst : Option RstLevel
  deriving DecidableEq, Repr

/-- Intake of one byte (R100). -/
def takeByte (c : Config) (p : Pins) (b : Byte) (r : Receiver) : Except Stop Receiver :=
  if p.cs ≠ some .asserted then .error (.refused .byteOutsideChipSelect)
  else if p.rst ≠ some .high ∨ r.cResetDone = false then .error (.refused .byteDuringReset)
  else if 0 < r.cBusy then .error (.refused .byteInBusyWindow)
  else
    match p.dc with
    | none => .error (.refused .readOfNone)
    | some .command => takeCommand c b r
    | some .data => takeData c b r

/-- The bytes of one transfer, in list order (R50, R83). -/
def takeBytes (c : Config) (p : Pins) : List Byte → Receiver → Except Stop Receiver
  | [], r => .ok r
  | b :: bs, r =>
    match takeByte c p b r with
    | .error e => .error e
    | .ok r1 => takeBytes c p bs r1

end Sys2Proof.Machine
end

