-- ==== Sys2Proof/Machine/Ops.lean ====
section
/-! DEFINITION. The shared operations of the driver side: events, the Platform's draws, the five Platform primitives
(R80 to R83, R87), the Bus Framer's frame (R84 to R86, R93), and the entry of the two exceptions (R184, R185). There is no
return from an exception (R191: "nothing is restored"); the way out of `FAILED` is INIT. -/

namespace Sys2Proof.Machine

/-- How an internal operation ends: it returned; it raised `TransportError` (a `transport_write`: it returned `fail`), with
the state at that point; it stopped the run. -/
inductive Result where
  | ok (s : State)
  | raised (s : State)
  | stopped (w : Stop)
  deriving DecidableEq, Repr

/-- Go on after an operation that returned; an operation that raised abandons what follows (00_scope section 6). -/
def Result.bind (x : Result) (f : State → Result) : Result :=
  match x with
  | .ok s => f s
  | .raised s => .raised s
  | .stopped w => .stopped w

/-- Go on with what the Receiver, or a line, answered; a stop there stops the run. -/
def Result.ofExcept {α : Type} (x : Except Stop α) (f : α → Result) : Result :=
  match x with
  | .ok a => f a
  | .error w => .stopped w

/-- The outcome of a step that stopped. -/
def stopOutcome : Stop → Host.Outcome State Fault Refusal
  | .fault f => .fault f
  | .refused r => .refused r

/-! ### Events, draws -/

/-- `emit(e)` (R18): append to the trace. -/
def State.emit (s : State) (e : Event) : State := { s with trace := s.trace ++ [e] }

/-- The n-th draw from here: one that is listed, or else a free value. -/
def State.drawAt (s : State) (n : Nat) : PlatformDraw := (s.draws[n]?).getD (Config.freeDraw (s.drawCount + n))

/-- The state after one draw. -/
def State.afterDraw (s : State) : State := { s with draws := s.draws.tail, drawCount := s.drawCount + 1 }

/-- The Receiver replaced. -/
def State.setRecv (s : State) (r : Receiver) : State := { s with recv := r }

/-- `CS.level` replaced. -/
def State.setCs (s : State) (l : CsLevel) : State := { s with cs := { s.cs with level := some l } }

/-- `DC.level` replaced. -/
def State.setDc (s : State) (l : ByteClass) : State := { s with dc := { s.dc with level := some l } }

/-- `RST.level` replaced. -/
def State.setRst (s : State) (l : RstLevel) : State := { s with rst := { s.rst with level := some l } }

/-- `BL.level` replaced. -/
def State.setBl (s : State) (l : BlLevel) : State := { s with bl := { s.bl with level := some l } }

/-- `T_INIT` replaced. -/
def State.setTInit (s : State) (b : Bool) : State := { s with tInit := b }

/-- `SEQ_STATE` replaced. -/
def State.setSeqState (s : State) (q : SeqState) : State := { s with seqState := q }

/-- `STATUS` replaced. -/
def State.setStatus (s : State) (st : Status) : State := { s with status := some st }

/-- What the Receiver sees of the lines. -/
def State.pins (s : State) : Pins := ⟨s.cs.level, s.dc.level, s.rst.level⟩

/-! ### Lines (R80, R81) -/

/-- `line.configured <- true` (R80). -/
def State.configure (s : State) : Line → State
  | .cs => { s with cs := { s.cs with configured := true } }
  | .dc => { s with dc := { s.dc with configured := true } }
  | .rst => { s with rst := { s.rst with configured := true } }
  | .bl => { s with bl := { s.bl with configured := true } }

/-- `line.configured` (R15). -/
def State.configured (s : State) : Line → Bool
  | .cs => s.cs.configured
  | .dc => s.dc.configured
  | .rst => s.rst.configured
  | .bl => s.bl.configured

/-- Whether this line call succeeds, and the state after the draw, if there is one (R80, R81: none is made while
`LINE_WRITE_CAN_FAIL` is false). -/
def lineCallOk (s : State) : Bool := !s.cfg.lineWriteCanFail || (s.drawAt 0).outcome == .ok

/-- The state after the draw of a line call. -/
def afterLineCall (s : State) : State := if s.cfg.lineWriteCanFail then s.afterDraw else s

/-- `configure_output_line` (R80). A failed call has emitted its event (notes/assumptions/7). -/
def configureOutputLine (l : Line) (s : State) : Result :=
  if lineCallOk s then .ok (((afterLineCall s).emit (.cfg l)).configure l)
  else .raised ((afterLineCall s).emit (.cfg l))

/-- A line takes a level; the Receiver reacts to the reset line (R81, R106). -/
def driveLine (w : LineWrite) (s : State) : Except Stop State :=
  match w with
  | .cs l => .ok (s.setCs l)
  | .dc l => .ok (s.setDc l)
  | .bl l => .ok (s.setBl l)
  | .rst l => (resetLine s.cfg s.rst.level l s.recv).map (s.setRst l).setRecv

/-- One of the two levels of a line (R81: "draw(all levels of that line)"). -/
def drawnLevel (l : Line) (b : Bool) : LineWrite :=
  match l with
  | .cs => .cs (if b then .asserted else .deasserted)
  | .dc => .dc (if b then .command else .data)
  | .rst => .rst (if b then .high else .low)
  | .bl => .bl (if b then .on else .off)

/-- `write_line` (R81). A failed write leaves the line at a drawn level, to which the Receiver reacts
(notes/assumptions/7). -/
def writeLine (w : LineWrite) (s : State) : Result :=
  if s.configured w.line then
    if lineCallOk s then Result.ofExcept (driveLine w ((afterLineCall s).emit (.line w))) .ok
    else Result.ofExcept (driveLine (drawnLevel w.line (s.drawAt 0).level) ((afterLineCall s).emit (.line w))) .raised
  else .stopped (.refused .lineNotConfigured)

/-! ### Transport and time (R82, R83, R87) -/

/-- `transport_init` (R82); on `fail` `T_INIT` is false. -/
def transportInit (s : State) : Result :=
  if (s.drawAt 0).outcome = .ok then .ok ((s.afterDraw.emit (.tinit true)).setTInit true)
  else .raised ((s.afterDraw.emit (.tinit false)).setTInit false)

/-- The first `k` bytes reach the Receiver (R83). -/
def deliver (bytes : List Byte) (k : Nat) (s : State) : Except Stop State :=
  (takeBytes s.cfg s.pins (bytes.take k) s.recv).map s.setRecv

/-- How many bytes of a failed transfer reached the Receiver: any number from none to all (R83, D10). -/
def failedCount (s : State) (bytes : List Byte) : Nat := min (s.drawAt 0).delivered bytes.length

/-- `transport_write` (R83): `.ok` where it returns `ok`, `.raised` where it returns `fail`. A draw of `hang` is the
optional outcome of U12 where the parameter allows it, and a failure otherwise. -/
def transportWrite (bytes : List Byte) (s : State) : Result :=
  if s.tInit = false then .stopped (.refused .transferBeforeInit)
  else if bytes = [] then .stopped (.refused .emptyTransfer)
  else if (s.drawAt 0).outcome = .ok then
    Result.ofExcept (deliver bytes bytes.length (s.afterDraw.emit (.xfer bytes true bytes.length))) .ok
  else if (s.drawAt 0).outcome = .hang ∧ s.cfg.transportCanHang = true then .stopped (.fault .transportHang)
  else
    Result.ofExcept (deliver bytes (failedCount s bytes) (s.afterDraw.emit (.xfer bytes false (failedCount s bytes))))
      .raised

/-- `sleep_ms` (R87): the event, then the passage of time (R107). -/
def sleepMs (n : Nat) (s : State) : State := (s.emit (.delay n)).setRecv (passTime s.rst.level n s.recv)

/-! ### Frames (R60, R61, R84 to R86, R93) -/

/-- Deassert chip-select, then raise if the transfer failed (R84, R91). -/
def endFrame (x : Result) : Result :=
  match x with
  | .ok s => writeLine (.cs .deasserted) s
  | .raised s => (writeLine (.cs .deasserted) s).bind .raised
  | .stopped w => .stopped w

/-- One frame (R60, R61): set command/data-select, assert chip-select, transfer, deassert chip-select. -/
def sendFrame (cls : ByteClass) (bytes : List Byte) (s : State) : Result :=
  ((writeLine (.dc cls) s).bind (writeLine (.cs .asserted))).bind fun t => endFrame (transportWrite bytes t)

/-- `send_command` (R84). -/
def sendCommand (b : Byte) (s : State) : Result := sendFrame .command [b] s

/-- `send_data` (R85). -/
def sendData (b : Byte) (s : State) : Result := sendFrame .data [b] s

/-- `send_data_block` (R86). -/
def sendDataBlock (bytes : List Byte) (length : Nat) (s : State) : Result :=
  if length = 0 ∨ length ≠ bytes.length then .stopped (.refused .badBlockLength)
  else sendFrame .data (bytes.take length) s

/-- One `send_data` per byte, stopping at the first failure (R93). -/
def sendEach : List Byte → State → Result
  | [], s => .ok s
  | b :: bs, s => (sendData b s).bind (sendEach bs)

/-- `send_params` (R93). An empty list sends nothing (the opcode table's row; R77: "when N > 0"). -/
def sendParams (ps : List Byte) (s : State) : Result :=
  if ps = [] then .ok s
  else
    match s.cfg.paramFraming with
    | .perGroup => sendDataBlock ps ps.length s
    | .perByte => sendEach ps s

/-- An exchange (R63, R77): the command frame, then the parameter bytes. -/
def exchange (cmd : Cmd) (ps : List Byte) (s : State) : Result :=
  (sendCommand (s.cfg.codes.get cmd) s).bind (sendParams ps)

/-! ### Taking an exception (R184, R185) -/

/-- `Ret(status)` with `STATUS` written (R14). -/
def State.returnStatus (s : State) (st : Status) : State := (s.emit (.ret st)).setStatus st

/-- The release notification on a failure path (R165, R168). -/
def State.releaseOnFailure (s : State) : State :=
  if s.cfg.releaseOnFailure = .always then s.emit .release else s

/-- Entry on `TransportError` (R184): the operation in flight is abandoned, with the optional `Release` of a BLIT. Its end is
`Ret(status)` to the Host, the one caller every condition goes to (R193). -/
def takeTransportError (s : State) : State :=
  ((if s.seqState = .blitRunning then s.releaseOnFailure else s).returnStatus .transportError).setSeqState .failed

/-- Entry on `InvalidArgument` (R185). Its end, too, is `Ret(status)` to the Host (R193). -/
def takeInvalidArgument (s : State) : State := s.releaseOnFailure.returnStatus .invalidArgument

/-- What a Platform or Bus Framer call leaves for its caller. -/
def State.setResult (s : State) (x : CallResult) : State := { s with callResult := some x }

/-- The end of a Platform or Bus Framer operation executed by itself: the result is handed to the caller, and an operation
in flight is abandoned by `TransportError` (R84, R184, R193; notes/assumptions/5). -/
def endCall (x : Result) : Host.Outcome State Fault Refusal :=
  match x with
  | .ok s => .next (s.setResult .ok)
  | .raised s =>
    .next ((if s.inFlight then takeTransportError s else s).setResult .transportError)
  | .stopped w => stopOutcome w

/-- The end of INIT or BLIT: a `TransportError` is taken (R153, R168). -/
def endOperation (x : Result) : Host.Outcome State Fault Refusal :=
  match x with
  | .ok s => .next s
  | .raised s => .next (takeTransportError s)
  | .stopped w => stopOutcome w

end Sys2Proof.Machine
end

