-- ==== Sys2Proof/Machine/Framer.lean ====
section
/-! DEFINITION. The meanings of the Bus Framer operations (R84 to R86) and of the helper `send_params` (R93). -/

namespace Sys2Proof.Machine

/-- send_command (R84). -/
def execSendCommand (b : Byte) (s : State) : Host.Outcome State Fault Refusal := endCall (sendCommand b s)

/-- send_data (R85). -/
def execSendData (b : Byte) (s : State) : Host.Outcome State Fault Refusal := endCall (sendData b s)

/-- send_data_block (R86). -/
def execSendDataBlock (bytes : List Byte) (length : Nat) (s : State) : Host.Outcome State Fault Refusal :=
  endCall (sendDataBlock bytes length s)

/-- send_params (R93). -/
def execSendParams (ps : List Byte) (s : State) : Host.Outcome State Fault Refusal := endCall (sendParams ps s)

end Sys2Proof.Machine
end

