-- ==== Sys2Proof/Machine/Platform.lean ====
section
/-! DEFINITION. The meanings of the five Platform primitives (R80 to R83, R87). -/

namespace Sys2Proof.Machine

/-- configure_output_line (R80). -/
def execConfigureOutputLine (l : Line) (s : State) : Host.Outcome State Fault Refusal := endCall (configureOutputLine l s)

/-- write_line (R81). -/
def execWriteLine (w : LineWrite) (s : State) : Host.Outcome State Fault Refusal := endCall (writeLine w s)

/-- transport_init (R82). -/
def execTransportInit (s : State) : Host.Outcome State Fault Refusal := endCall (transportInit s)

/-- transport_write (R83): it raises nothing, its result is `ok` or `fail`. -/
def execTransportWrite (bytes : List Byte) (s : State) : Host.Outcome State Fault Refusal :=
  match transportWrite bytes s with
  | .ok t => .next (t.setResult .ok)
  | .raised t => .next (t.setResult .fail)
  | .stopped w => stopOutcome w

/-- sleep_ms (R87): it cannot fail. -/
def execSleepMs (n : Nat) (s : State) : Host.Outcome State Fault Refusal := .next ((sleepMs n s).setResult .ok)

end Sys2Proof.Machine
end

