-- ==== Sys2Proof/Machine/Sequencer.lean ====
section
/-! DEFINITION. The Sequencer: the initialization program and INIT (R140 to R156), WINDOW_SET (R160) and BLIT (R162 to
R172). -/

namespace Sys2Proof.Machine

/-- A micro-step of the initialization program, in the notation of R76 and R77. -/
inductive MicroStep where
  | cfg (l : Line)
  | tinit
  | line (w : LineWrite)
  | delay (ms : Nat)
  | command (cmd : Cmd)
  | exch (cmd : Cmd) (ps : List Byte)
  | done
  deriving DecidableEq, Repr

/-- The address group of a full-panel default (R148): 0 to `size - 1`. -/
def fullSpan (size : Nat) : List Byte := addressParams 0 (toHalf (size - 1))

/-- The first ten rows of the initialization program, source steps 1 to 3 (R141, R142, R143, R144). -/
def initProgramReset (c : Config) : List MicroStep :=
  [.cfg .cs, .cfg .dc, .cfg .rst, .cfg .bl, .tinit,
   .line (.rst .low), .delay c.tRstLow, .line (.rst .high), .delay c.tRstSettle,
   .line (.bl .on)]

/-- Rows 10 to 13, source steps 4 and 5 (R141, R145, R146). -/
def initProgramWake (c : Config) : List MicroStep :=
  [.command .softwareReset, .delay c.tSwreset, .command .sleepOut, .delay c.tSlpout]

/-- Rows 14 to 28, source step 6 (R141, R147, R148). -/
def initProgramRegisters (c : Config) : List MicroStep :=
  [.exch .colorMode c.params.colorMode, .exch .memoryAccess c.params.memoryAccess,
   .exch .columnAddressSet (fullSpan c.panelW), .exch .rowAddressSet (fullSpan c.panelH),
   .exch .porchControl c.params.porchControl, .exch .gateControl c.params.gateControl,
   .exch .vcoms c.params.vcoms, .exch .lcmControl c.params.lcmControl,
   .exch .vdvVrhEnable c.params.vdvVrhEnable, .exch .vrh c.params.vrh, .exch .vdv c.params.vdv,
   .exch .frameRateControl2 c.params.frameRateControl2, .exch .powerControl1 c.params.powerControl1,
   .exch .positiveGamma c.params.positiveGamma, .exch .negativeGamma c.params.negativeGamma]

/-- Rows 29 to 33, source steps 7 and 8 and the terminal step (R141, R149, R150, R151). -/
def initProgramDisplay (c : Config) : List MicroStep :=
  [.command .normalDisplayOn, .delay c.tNoron, .command .displayOn, .delay c.tDispon, .done]

/-- `INIT_TABLE` (R56): the 34 rows of the initialization program (R141), constant for a configuration. -/
def initProgram (c : Config) : List MicroStep :=
  initProgramReset c ++ initProgramWake c ++ initProgramRegisters c ++ initProgramDisplay c

/-- The terminal step (R151). -/
def initDone (s : State) : State := (s.returnStatus .ok).setSeqState .ready

/-- One micro-step runs to completion (R152). -/
def microStep (m : MicroStep) (s : State) : Result :=
  match m with
  | .cfg l => configureOutputLine l s
  | .tinit => transportInit s
  | .line w => writeLine w s
  | .delay ms => .ok (sleepMs ms s)
  | .command cmd => sendCommand (s.cfg.codes.get cmd) s
  | .exch cmd ps => exchange cmd ps s
  | .done => .ok (initDone s)

/-- `seq_pc <- SEQ_PC + 1` (R152). -/
def State.advancePc (s : State) : State := { s with seqPc := s.seqPc + 1 }

/-- Run the program from `SEQ_PC` on, at most `fuel` rows (R140, R152). Row 33 is terminal: `SEQ_PC` stays there (R13). -/
def runProgram : Nat → State → Result
  | 0, s => .ok s
  | fuel + 1, s =>
    match (initProgram s.cfg)[s.seqPc]? with
    | none => .ok s
    | some .done => microStep .done s
    | some m => (microStep m s).bind fun t => runProgram fuel t.advancePc

/-- INIT entry (R140): `SEQ_STATE <- INIT_RUNNING; seq_pc <- 0`. -/
def enterInit (s : State) : State := { s with seqState := .initRunning, seqPc := 0 }

/-- INIT (R140): the entry check, the entry, the 34 rows, and the taking of a failure (R153). -/
def execInit (s : State) : Host.Outcome State Fault Refusal :=
  if s.inFlight then .refused .operationInFlight else endOperation (runProgram 34 (enterInit s))

/-- The window-set protocol (R160): column exchange, row exchange, memory-write command. -/
def windowSet (x0 y0 x1 y1 : Half) (s : State) : Result :=
  ((exchange .columnAddressSet (addressParams x0 x1) s).bind
    (exchange .rowAddressSet (addressParams y0 y1))).bind
    fun t => sendCommand (t.cfg.codes.get .memoryWrite) t

/-- WINDOW_SET (R160). -/
def execWindowSet (x0 y0 x1 y1 : Half) (s : State) : Host.Outcome State Fault Refusal := endCall (windowSet x0 y0 x1 y1 s)

/-- The operand latches take an accepted BLIT's operands and the operation is in flight (R12, R162). -/
def enterBlit (r : Rect) (len : Nat) (s : State) : State :=
  { s with
    rx0 := some r.x0.toNat, ry0 := some r.y0.toNat, rx1 := some r.x1.toNat, ry1 := some r.y1.toNat
    blen := some len, bidx := some 0, seqState := .blitRunning }

/-- WINDOW_SET for the latched rectangle (R160: "State read: RX0, RY0, RX1, RY1"). -/
def windowSetLatched (s : State) : Result :=
  match s.rx0, s.ry0, s.rx1, s.ry1 with
  | some x0, some y0, some x1, some y1 => windowSet (toHalf x0) (toHalf y0) (toHalf x1) (toHalf y1) s
  | _, _, _, _ => .stopped (.refused .readOfNone)

/-- The data burst (R164): the whole buffer, `BLEN` bytes, in one frame. -/
def dataBurst (pb : List Byte) (s : State) : Result :=
  match s.blen with
  | some n => sendDataBlock (pbRead pb 0 n) n s
  | none => .stopped (.refused .readOfNone)

/-- `BIDX` replaced. -/
def State.setBidx (s : State) (n : Option Nat) : State := { s with bidx := n }

/-- The end of a completed BLIT (R162, R165): `BIDX <- BLEN`, the release notification, then the return. -/
def finishBlit (s : State) : State :=
  (((s.setBidx s.blen).emit .release).returnStatus .ok).setSeqState .ready

/-- The body of an accepted BLIT (R162). -/
def runBlit (r : Rect) (pb : List Byte) (s : State) : Result :=
  ((windowSetLatched (enterBlit r pb.length s)).bind (dataBurst pb)).bind fun t => .ok (finishBlit t)

/-- BLIT (R162): the entry state (R172), then the arguments (R163, R189), then the bus. -/
def execBlit (r : Rect) (pb : List Byte) (s : State) : Host.Outcome State Fault Refusal :=
  match s.seqState with
  | .initRunning => .refused .operationInFlight
  | .blitRunning => .refused .operationInFlight
  | .uninit => .refused .blitBeforeInitialization
  | .failed => .refused .blitAfterFailure
  | .ready =>
    if blitValid s.cfg r pb.length then endOperation (runBlit r pb s) else .next (takeInvalidArgument s)

end Sys2Proof.Machine
end

