-- ==== Sys2Proof/Machine/Wire.lean ====
section
/-! DEFINITION. The meanings of the wire commands: each is the exchange its rule gives as its encoding (`C code` or
`EXCH code p0 ...`, R60, R63, R77), whose bytes the Receiver executes (Machine/Receiver.lean holds each command's effect). -/

namespace Sys2Proof.Machine

/-- SOFTWARE_RESET (R110). -/
def execSoftwareReset (s : State) : Host.Outcome State Fault Refusal := endCall (exchange .softwareReset [] s)

/-- SLEEP_OUT (R111). -/
def execSleepOut (s : State) : Host.Outcome State Fault Refusal := endCall (exchange .sleepOut [] s)

/-- COLOR_MODE (R112). -/
def execColorMode (ps : List Byte) (s : State) : Host.Outcome State Fault Refusal := endCall (exchange .colorMode ps s)

/-- MEMORY_ACCESS (R113). -/
def execMemoryAccess (ps : List Byte) (s : State) : Host.Outcome State Fault Refusal := endCall (exchange .memoryAccess ps s)

/-- COLUMN_ADDRESS_SET (R114). -/
def execColumnAddressSet (ps : List Byte) (s : State) : Host.Outcome State Fault Refusal := endCall (exchange .columnAddressSet ps s)

/-- ROW_ADDRESS_SET (R115). -/
def execRowAddressSet (ps : List Byte) (s : State) : Host.Outcome State Fault Refusal := endCall (exchange .rowAddressSet ps s)

/-- PORCH_CONTROL (R116). -/
def execPorchControl (ps : List Byte) (s : State) : Host.Outcome State Fault Refusal := endCall (exchange .porchControl ps s)

/-- GATE_CONTROL (R117). -/
def execGateControl (ps : List Byte) (s : State) : Host.Outcome State Fault Refusal := endCall (exchange .gateControl ps s)

/-- VCOMS (R118). -/
def execVcoms (ps : List Byte) (s : State) : Host.Outcome State Fault Refusal := endCall (exchange .vcoms ps s)

/-- LCM_CONTROL (R119). -/
def execLcmControl (ps : List Byte) (s : State) : Host.Outcome State Fault Refusal := endCall (exchange .lcmControl ps s)

/-- VDV_VRH_ENABLE (R120). -/
def execVdvVrhEnable (ps : List Byte) (s : State) : Host.Outcome State Fault Refusal := endCall (exchange .vdvVrhEnable ps s)

/-- VRH (R121). -/
def execVrh (ps : List Byte) (s : State) : Host.Outcome State Fault Refusal := endCall (exchange .vrh ps s)

/-- VDV (R122). -/
def execVdv (ps : List Byte) (s : State) : Host.Outcome State Fault Refusal := endCall (exchange .vdv ps s)

/-- FRAME_RATE_CONTROL_2 (R123). -/
def execFrameRateControl2 (ps : List Byte) (s : State) : Host.Outcome State Fault Refusal := endCall (exchange .frameRateControl2 ps s)

/-- POWER_CONTROL_1 (R124). -/
def execPowerControl1 (ps : List Byte) (s : State) : Host.Outcome State Fault Refusal := endCall (exchange .powerControl1 ps s)

/-- POSITIVE_GAMMA (R125). -/
def execPositiveGamma (ps : List Byte) (s : State) : Host.Outcome State Fault Refusal := endCall (exchange .positiveGamma ps s)

/-- NEGATIVE_GAMMA (R126). -/
def execNegativeGamma (ps : List Byte) (s : State) : Host.Outcome State Fault Refusal := endCall (exchange .negativeGamma ps s)

/-- NORMAL_DISPLAY_ON (R127). -/
def execNormalDisplayOn (s : State) : Host.Outcome State Fault Refusal := endCall (exchange .normalDisplayOn [] s)

/-- DISPLAY_ON (R128). -/
def execDisplayOn (s : State) : Host.Outcome State Fault Refusal := endCall (exchange .displayOn [] s)

/-- MEMORY_WRITE (R129). -/
def execMemoryWrite (s : State) : Host.Outcome State Fault Refusal := endCall (exchange .memoryWrite [] s)

/-- PIXEL_DATA (R130): a data frame of one byte. Its meaning is the Receiver's command context (R62, R102): a pixel half
under MEMORY_WRITE, a parameter byte under a command that still waits for one. -/
def execPixelData (b : Byte) (s : State) : Host.Outcome State Fault Refusal := endCall (sendFrame .data [b] s)

/-- UNKNOWN_COMMAND (R131, R73): a command frame whose byte is none of the 20. The Bus Framer "does not check that it is a
known command" (R84); the Receiver refuses the byte when it arrives (R131), which it does unless the transfer fails before
it. -/
def execUnknownCommand (b : Byte) (s : State) : Host.Outcome State Fault Refusal := endCall (sendFrame .command [b] s)

end Sys2Proof.Machine
end

