-- ==== Sys2Proof/Machine/Dispatch.lean ====
section
/-! DEFINITION. The meaning of every operation, one arm per constructor. -/

namespace Sys2Proof.Machine

def exec (i : Instr) (s : State) : Host.Outcome State Fault Refusal :=
  match i with
  | .softwareReset => Sys2Proof.Machine.execSoftwareReset s
  | .sleepOut => Sys2Proof.Machine.execSleepOut s
  | .colorMode ps => Sys2Proof.Machine.execColorMode ps s
  | .memoryAccess ps => Sys2Proof.Machine.execMemoryAccess ps s
  | .columnAddressSet ps => Sys2Proof.Machine.execColumnAddressSet ps s
  | .rowAddressSet ps => Sys2Proof.Machine.execRowAddressSet ps s
  | .porchControl ps => Sys2Proof.Machine.execPorchControl ps s
  | .gateControl ps => Sys2Proof.Machine.execGateControl ps s
  | .vcoms ps => Sys2Proof.Machine.execVcoms ps s
  | .lcmControl ps => Sys2Proof.Machine.execLcmControl ps s
  | .vdvVrhEnable ps => Sys2Proof.Machine.execVdvVrhEnable ps s
  | .vrh ps => Sys2Proof.Machine.execVrh ps s
  | .vdv ps => Sys2Proof.Machine.execVdv ps s
  | .frameRateControl2 ps => Sys2Proof.Machine.execFrameRateControl2 ps s
  | .powerControl1 ps => Sys2Proof.Machine.execPowerControl1 ps s
  | .positiveGamma ps => Sys2Proof.Machine.execPositiveGamma ps s
  | .negativeGamma ps => Sys2Proof.Machine.execNegativeGamma ps s
  | .normalDisplayOn => Sys2Proof.Machine.execNormalDisplayOn s
  | .displayOn => Sys2Proof.Machine.execDisplayOn s
  | .memoryWrite => Sys2Proof.Machine.execMemoryWrite s
  | .pixelData b => Sys2Proof.Machine.execPixelData b s
  | .unknownCommand b => Sys2Proof.Machine.execUnknownCommand b s
  | .configureOutputLine l => Sys2Proof.Machine.execConfigureOutputLine l s
  | .writeLine w => Sys2Proof.Machine.execWriteLine w s
  | .transportInit => Sys2Proof.Machine.execTransportInit s
  | .transportWrite bytes => Sys2Proof.Machine.execTransportWrite bytes s
  | .sendCommand b => Sys2Proof.Machine.execSendCommand b s
  | .sendData b => Sys2Proof.Machine.execSendData b s
  | .sendDataBlock bytes length => Sys2Proof.Machine.execSendDataBlock bytes length s
  | .sleepMs n => Sys2Proof.Machine.execSleepMs n s
  | .sendParams ps => Sys2Proof.Machine.execSendParams ps s
  | .init => Sys2Proof.Machine.execInit s
  | .windowSet x0 y0 x1 y1 => Sys2Proof.Machine.execWindowSet x0 y0 x1 y1 s
  | .blit rect pb => Sys2Proof.Machine.execBlit rect pb s

end Sys2Proof.Machine
end

