-- ==== Sys2Proof/Machine/Fetch.lean ====
section
/-! DEFINITION. What comes next in the stream of words, and the Host's write to its own buffer. -/

namespace Sys2Proof.Machine

/-- What the next step has to do. -/
inductive Fetched where
  /-- The run has left the source's defined behaviour (R19). -/
  | dead (r : Refusal)
  /-- Nothing is pending: "no event is ever emitted by the block between two Host calls" (R50). -/
  | idle
  /-- The Host writes its pixel buffer (R54, R200). -/
  | hostBufferWrite (s : State)
  /-- The next word is no operation. -/
  | undecodable (e : DecodeError)
  /-- The decoded operation, and the state with its words taken from the stream. -/
  | run (i : Instr) (s : State)
  deriving DecidableEq, Repr

/-- The stream replaced. -/
def State.setPending (s : State) (ws : List Word) : State := { s with pending := ws }

/-- Take the next operation from the stream. -/
def fetch (s : State) : Fetched :=
  match s.refused with
  | some r => .dead r
  | none =>
    match s.pending with
    | [] => .idle
    | .hostBufferWrite :: ws => .hostBufferWrite (s.setPending ws)
    | w :: ws =>
      match decode s.cfg (w :: ws) with
      | .ok (i, rest) => .run i (s.setPending rest)
      | .error e => .undecodable e

/-- A Host write to its pixel buffer (R54, R200): refused while a BLIT is in flight, and of no effect on the block
otherwise, since it keeps no copy of the buffer. -/
def hostBufferWrite (s : State) : Host.Outcome State Fault Refusal :=
  if s.seqState = .blitRunning then .refused .bufferChangedInFlight else .next s

/-- The stream with an opcode-table word put first. -/
def State.prependTableWord (s : State) (nbits w : Nat) : State :=
  s.setPending (tableWords s.cfg nbits w ++ s.pending)

/-- `refuse(reason)` as the spec's own sticky mark (R19): the state a refused step leaves behind. -/
def State.markRefused (s : State) (r : Refusal) : State :=
  match s.refused with
  | some _ => s
  | none => { s with refused := some r }

end Sys2Proof.Machine
end

