-- ==== Sys2Proof/Machine/Step.lean ====
section
/-! DEFINITION. One step: one operation of the stream, from its start to its return (R50: every operation blocks its
caller until it is complete). -/

namespace Sys2Proof.Machine

/-- One step of the machine. -/
def step (s : State) : Host.Outcome State Fault Refusal :=
  match fetch s with
  | .dead r => .refused r
  | .idle => .next s
  | .hostBufferWrite t => hostBufferWrite t
  | .undecodable e => .refused (.undecodable e)
  | .run i t => exec i t

/-- `s` with the operation whose opcode-table word is `w` first in the stream, so that the next step runs it. -/
def State.withFetchWord (s : State) (nbits w : Nat) : State := s.prependTableWord nbits w

/-- A step with the sticky mark of R19: a refused step leaves the state as it was, marked with the reason. Defined for
the steps that do not fault. -/
def markedStep (s : State) : Host.Outcome State Fault Refusal :=
  match step s with
  | .next t => .next t
  | .fault f => .fault f
  | .refused r => .next (s.markRefused r)

end Sys2Proof.Machine
end

