-- ==== Sys2Proof/Safety.lean ====
section
/-! DEFINITION. What the claims speak about: when the Platform is reliable, the bus usable and the Receiver able to take
a byte; the bytes a trace put on the wire; the invariants of the Receiver and of the machine. -/

namespace Sys2Proof.Machine

/-! ### The Platform, the bus, the Receiver -/

/-- The next `n` draws are `ok`: a claim that needs a call to succeed says so, for the draws are free (R32). -/
def DrawsOk (s : State) (n : Nat) : Prop := ∀ k < n, (s.drawAt k).outcome = .ok

/-- No line call can fail: the default of R5, "assumed reliable". -/
def LinesReliable (s : State) : Prop := s.cfg.lineWriteCanFail = false

/-- The two framing lines are configured and the transport is initialised: what a frame needs (R81, R83). -/
def BusUsable (s : State) : Prop := s.cs.configured = true ∧ s.dc.configured = true ∧ s.tInit = true

/-- The Receiver takes bytes inside a frame (R100, lines 2 and 3). -/
def Awake (s : State) : Prop := s.rst.level = some .high ∧ s.recv.cResetDone = true ∧ s.recv.cBusy = 0

/-- A parameter group waits for bytes (R104). -/
def GroupOpen (c : Config) (r : Receiver) : Prop := ∃ cmd, r.cCmd = some cmd ∧ r.cPidx < c.nParams cmd

/-- The order tracker accepts a command byte (R108): initialization is not complete, or the command is one of the four
that a complete initialization expects. -/
def Accepts (r : Receiver) (cmd : Cmd) : Prop := r.cInitStage < 19 ∨ expectedAfterInit cmd = true

/-- The window is defined and inside the panel (R129). -/
def WindowOk (c : Config) (r : Receiver) (x0 x1 y0 y1 : Half) : Prop :=
  r.xs = some x0 ∧ r.xe = some x1 ∧ r.ys = some y0 ∧ r.ye = some y1 ∧ windowInPanel c x0 x1 y0 y1 = true

/-- A frame, and the `n` transfers of an operation, can go out and be taken: the lines do not fail, the bus is usable, the
Receiver awake, the parameters good, and the next `n` draws are `ok`. -/
structure CanSend (s : State) (n : Nat) : Prop where
  lines : LinesReliable s
  bus : BusUsable s
  awake : Awake s
  cfg : s.cfg.Wf
  draws : DrawsOk s n

/-- What frames on the bus change: command/data-select is left at the last frame's class and chip-select deasserted,
events were appended, `n` draws were made, and the Receiver is at `r` (R60, R61, R84 to R86). -/
def afterBus (s : State) (cls : ByteClass) (es : List Event) (n : Nat) (r : Receiver) : State :=
  { s with
    dc := { s.dc with level := some cls }
    cs := { s.cs with level := some .deasserted }
    trace := s.trace ++ es
    draws := s.draws.drop n
    drawCount := s.drawCount + n
    recv := r }

/-- What the bytes on the bus leave alone on the driver side: everything but the two framing lines' levels, the trace, the
Receiver and the draws. -/
structure KeepsDriver (s t : State) : Prop where
  cfg : t.cfg = s.cfg
  seqState : t.seqState = s.seqState
  seqPc : t.seqPc = s.seqPc
  rx0 : t.rx0 = s.rx0
  ry0 : t.ry0 = s.ry0
  rx1 : t.rx1 = s.rx1
  ry1 : t.ry1 = s.ry1
  blen : t.blen = s.blen
  bidx : t.bidx = s.bidx
  status : t.status = s.status
  csConfigured : t.cs.configured = s.cs.configured
  dcConfigured : t.dc.configured = s.dc.configured
  rst : t.rst = s.rst
  bl : t.bl = s.bl
  tInit : t.tInit = s.tInit
  refused : t.refused = s.refused
  pending : t.pending = s.pending

/-- The pins inside a frame of a class. -/
def framePins (s : State) (cls : ByteClass) : Pins := ⟨some .asserted, some cls, s.rst.level⟩

/-- The operations that move bytes in frames: the Bus Framer's three, the wire commands, the single bytes. -/
def isFrameOp : Instr → Bool
  | .softwareReset | .sleepOut | .colorMode _ | .memoryAccess _ | .columnAddressSet _ | .rowAddressSet _
  | .porchControl _ | .gateControl _ | .vcoms _ | .lcmControl _ | .vdvVrhEnable _ | .vrh _ | .vdv _
  | .frameRateControl2 _ | .powerControl1 _ | .positiveGamma _ | .negativeGamma _ | .normalDisplayOn
  | .displayOn | .memoryWrite | .pixelData _ | .unknownCommand _ | .sendCommand _ | .sendData _
  | .sendDataBlock _ _ | .windowSet _ _ _ _ => true
  | .configureOutputLine _ | .writeLine _ | .transportInit | .transportWrite _ | .sleepMs _ | .sendParams _
  | .init | .blit _ _ => false

/-- The operations the Host may call (R195: "The inbound interface has two operations"). -/
def isHostOp : Instr → Bool
  | .init | .blit _ _ => true
  | .softwareReset | .sleepOut | .colorMode _ | .memoryAccess _ | .columnAddressSet _ | .rowAddressSet _
  | .porchControl _ | .gateControl _ | .vcoms _ | .lcmControl _ | .vdvVrhEnable _ | .vrh _ | .vdv _
  | .frameRateControl2 _ | .powerControl1 _ | .positiveGamma _ | .negativeGamma _ | .normalDisplayOn
  | .displayOn | .memoryWrite | .pixelData _ | .unknownCommand _ | .sendCommand _ | .sendData _
  | .sendDataBlock _ _ | .windowSet _ _ _ _ | .configureOutputLine _ | .writeLine _ | .transportInit
  | .transportWrite _ | .sleepMs _ | .sendParams _ => false

/-- The operations that can change no cell of the frame memory: none of them is a pixel byte, a reset of the controller, or
a transfer of bytes that its operands alone do not classify (R28: "written only by the pixel path" and by the resets). -/
def sparesFrameMemory : Instr → Bool
  | .sleepOut | .colorMode _ | .memoryAccess _ | .columnAddressSet _ | .rowAddressSet _
  | .porchControl _ | .gateControl _ | .vcoms _ | .lcmControl _ | .vdvVrhEnable _ | .vrh _ | .vdv _
  | .frameRateControl2 _ | .powerControl1 _ | .positiveGamma _ | .negativeGamma _ | .normalDisplayOn
  | .displayOn | .memoryWrite | .windowSet _ _ _ _ | .configureOutputLine _ | .transportInit | .sleepMs _
  | .writeLine (.cs _) | .writeLine (.dc _) | .writeLine (.bl _) => true
  | .softwareReset | .pixelData _ | .unknownCommand _ | .sendCommand _ | .sendData _ | .sendDataBlock _ _
  | .writeLine (.rst _) | .transportWrite _ | .sendParams _ | .init | .blit _ _ => false

/-! ### Traces -/

/-- The bytes that reached the wire in a list of events, each with its class: the level of command/data-select at the
time, from `dc` on (R18: "it is `DC.level` at the time of the event"). A byte whose class is undefined is left out; the
Receiver takes none. -/
def wireBytes : Option ByteClass → List Event → List (ByteClass × Byte)
  | _, [] => []
  | _, .line (.dc l) :: es => wireBytes (some l) es
  | some cls, .xfer bytes _ k :: es => (bytes.take k).map (fun b => (cls, b)) ++ wireBytes (some cls) es
  | none, .xfer _ _ _ :: es => wireBytes none es
  | dc, .line (.cs _) :: es => wireBytes dc es
  | dc, .line (.rst _) :: es => wireBytes dc es
  | dc, .line (.bl _) :: es => wireBytes dc es
  | dc, .cfg _ :: es => wireBytes dc es
  | dc, .tinit _ :: es => wireBytes dc es
  | dc, .delay _ :: es => wireBytes dc es
  | dc, .release :: es => wireBytes dc es
  | dc, .ret _ :: es => wireBytes dc es

/-- The events of one frame (R60, R61, R91). -/
def transferEvents (cls : ByteClass) (bytes : List Byte) (ok : Bool) (k : Nat) : List Event :=
  [.line (.dc cls), .line (.cs .asserted), .xfer bytes ok k, .line (.cs .deasserted)]

/-- The events of one frame whose transfer succeeded (R76: `C b`, `D b ...`). -/
def frameEvents (cls : ByteClass) (bytes : List Byte) : List Event := transferEvents cls bytes true bytes.length

/-- The events of a parameter group under a framing (R77). -/
def paramEvents (f : ParamFraming) (ps : List Byte) : List Event :=
  match f with
  | .perGroup => if ps = [] then [] else frameEvents .data ps
  | .perByte => ps.flatMap fun b => frameEvents .data [b]

/-- The events of an exchange (R77: `EXCH cmd p0 ...`). -/
def exchangeEvents (c : Config) (cmd : Cmd) (ps : List Byte) : List Event :=
  frameEvents .command [c.codes.get cmd] ++ paramEvents c.paramFraming ps

/-- How many frames, and so how many draws, a parameter group takes (R93). -/
def paramFrames (f : ParamFraming) (ps : List Byte) : Nat :=
  match f with
  | .perGroup => if ps = [] then 0 else 1
  | .perByte => ps.length

/-- How many frames an exchange takes (R77). -/
def exchangeFrames (c : Config) (ps : List Byte) : Nat := 1 + paramFrames c.paramFraming ps

/-- How many frames WINDOW_SET takes (R160: "5 under per_group", "11 under per_byte"). -/
def windowFrames (c : Config) : Nat :=
  match c.paramFraming with
  | .perGroup => 5
  | .perByte => 11

/-- How many draws a micro-step makes while no line call can fail (R82, R83). -/
def microDraws (c : Config) : MicroStep → Nat
  | .cfg _ => 0
  | .tinit => 1
  | .line _ => 0
  | .delay _ => 0
  | .command _ => 1
  | .exch _ ps => exchangeFrames c ps
  | .done => 0

/-- How many draws INIT makes while no line call can fail. -/
def initDraws (c : Config) : Nat := ((initProgram c).map (microDraws c)).sum

/-- The events of WINDOW_SET (R160). -/
def windowEvents (c : Config) (x0 y0 x1 y1 : Half) : List Event :=
  exchangeEvents c .columnAddressSet (addressParams x0 x1) ++
    exchangeEvents c .rowAddressSet (addressParams y0 y1) ++ frameEvents .command [c.codes.memoryWrite]

/-- The events of a completed micro-step of the initialization program (R76, R141). -/
def microEvents (c : Config) : MicroStep → List Event
  | .cfg l => [.cfg l]
  | .tinit => [.tinit true]
  | .line w => [.line w]
  | .delay ms => [.delay ms]
  | .command cmd => frameEvents .command [c.codes.get cmd]
  | .exch cmd ps => exchangeEvents c cmd ps
  | .done => [.ret .ok]

/-- The events of a frame whose transfer failed after any number of its bytes (R83, R91). -/
def FailedFrame (cls : ByteClass) (bytes : List Byte) (es : List Event) : Prop :=
  ∃ k ≤ bytes.length, es = transferEvents cls bytes false k

/-- The events of a parameter group one of whose transfers failed: what was sent before it, then its frame, then nothing
(R93: "stopping at the first failure"). -/
def FailedParams (f : ParamFraming) (ps : List Byte) (es : List Event) : Prop :=
  match f with
  | .perGroup => FailedFrame .data ps es
  | .perByte => ∃ j b es', ps[j]? = some b ∧ FailedFrame .data [b] es' ∧
      es = ((ps.take j).flatMap fun b => frameEvents .data [b]) ++ es'

/-- The events of an exchange one of whose transfers failed (R63, R91). -/
def FailedExchange (c : Config) (cmd : Cmd) (ps : List Byte) (es : List Event) : Prop :=
  FailedFrame .command [c.codes.get cmd] es ∨
    ∃ es', FailedParams c.paramFraming ps es' ∧ es = frameEvents .command [c.codes.get cmd] ++ es'

/-- The events of a failed WINDOW_SET: the exchanges before the failing frame, then it (R160, R168). -/
def FailedWindow (c : Config) (x0 y0 x1 y1 : Half) (es : List Event) : Prop :=
  FailedExchange c .columnAddressSet (addressParams x0 x1) es ∨
    ∃ es', es = exchangeEvents c .columnAddressSet (addressParams x0 x1) ++ es' ∧
      (FailedExchange c .rowAddressSet (addressParams y0 y1) es' ∨
        ∃ es'', es' = exchangeEvents c .rowAddressSet (addressParams y0 y1) ++ es'' ∧
          FailedFrame .command [c.codes.memoryWrite] es'')

/-- The events of a micro-step that failed, where no line call can fail (R153). -/
def FailedRow (c : Config) : MicroStep → List Event → Prop
  | .cfg _, _ => False
  | .tinit, es => es = [.tinit false]
  | .line _, _ => False
  | .delay _, _ => False
  | .command cmd, es => FailedFrame .command [c.codes.get cmd] es
  | .exch cmd ps, es => FailedExchange c cmd ps es
  | .done, _ => False

/-! ### What a command leaves in the Receiver -/

/-- `C_INIT_STAGE` after a complete command (R108). -/
def stageAfter (r : Receiver) (cmd : Cmd) : Nat :=
  if r.cInitValid = true ∧ initOrder[r.cInitStage]? = some cmd then r.cInitStage + 1 else r.cInitStage

/-- `C_INIT_VALID` after a command byte (R108): lost by a command that is not the next of the order, until the order is
complete. -/
def validAfter (r : Receiver) (cmd : Cmd) : Bool :=
  r.cInitValid && (decide (19 ≤ r.cInitStage) || decide (initOrder[r.cInitStage]? = some cmd))

/-- The Receiver after a complete command that found no group waiting, apart from the command's own effect: the command is
current with all its parameter bytes, no half pixel is pending, the order tracker has moved (R101, R102, R108). -/
def completed (cmd : Cmd) (ps : List Byte) (r : Receiver) : Receiver :=
  { r with
    cHalf := none
    cCmd := some cmd
    cPidx := ps.length
    cPbuf := ps
    cInitStage := stageAfter r cmd
    cInitValid := validAfter r cmd }

/-- The Receiver inside the parameter group of a command that found no group waiting: the command byte has been taken, the
bytes `ps` have arrived, and nothing is committed yet (R101, R104, R108). -/
def insideGroup (cmd : Cmd) (ps : List Byte) (r : Receiver) : Receiver :=
  { r with
    cHalf := none
    cCmd := some cmd
    cPidx := ps.length
    cPbuf := ps
    cInitValid := validAfter r cmd }

/-- The eleven bytes of a WINDOW_SET, each with its class (R161). -/
def windowBytes (c : Config) (x0 y0 x1 y1 : Half) : List (ByteClass × Byte) :=
  [(.command, c.codes.columnAddressSet), (.data, hiByte x0), (.data, loByte x0), (.data, hiByte x1),
   (.data, loByte x1), (.command, c.codes.rowAddressSet), (.data, hiByte y0), (.data, loByte y0),
   (.data, hiByte y1), (.data, loByte y1), (.command, c.codes.memoryWrite)]

/-- The Receiver when the first `n` bytes of a WINDOW_SET have arrived, and no other: none; some of the column exchange, and
the columns only when its last byte is there; the same of the rows; and at last the memory-write command (R101 to R104,
R108, R114, R115, R129). A group that was open at the first byte has ended as R104 says (`endGroup`). -/
def windowCut (c : Config) (x0 y0 x1 y1 : Half) (n : Nat) (r : Receiver) : Receiver :=
  let r0 := endGroup c r
  let r1 : Receiver :=
    { completed .columnAddressSet (addressParams x0 x1) r0 with xs := some x0, xe := some x1 }
  let r2 : Receiver :=
    { completed .rowAddressSet (addressParams y0 y1) r1 with ys := some y0, ye := some y1 }
  if n = 0 then r
  else if n < 5 then insideGroup .columnAddressSet ((addressParams x0 x1).take (n - 1)) r0
  else if n = 5 then r1
  else if n < 10 then insideGroup .rowAddressSet ((addressParams y0 y1).take (n - 6)) r1
  else if n = 10 then r2
  else { completed .memoryWrite [] r2 with wcol := some x0.toNat, wrow := some y0.toNat, cFull := false }

/-- Pixel `i` of a pixel buffer (R42): its high byte, then its low byte. -/
def pixelAt (pb : List Byte) (i : Nat) : Half := joinBytes (pb.getD (2 * i) 0) (pb.getD (2 * i + 1) 0)

/-- The Receiver at the end of a successful INIT (R156). -/
def initReceiver (c : Config) : Receiver :=
  { Receiver.powerOn with
    cCmd := some .displayOn
    xs := some 0
    xe := some (toHalf (c.panelW - 1))
    ys := some 0
    ye := some (toHalf (c.panelH - 1))
    regs :=
      { colorMode := some c.params.colorMode
        memoryAccess := some c.params.memoryAccess
        porchControl := some c.params.porchControl
        gateControl := some c.params.gateControl
        vcoms := some c.params.vcoms
        lcmControl := some c.params.lcmControl
        vdvVrhEnable := some c.params.vdvVrhEnable
        vrh := some c.params.vrh
        vdv := some c.params.vdv
        frameRateControl2 := some c.params.frameRateControl2
        powerControl1 := some c.params.powerControl1
        positiveGamma := some c.params.positiveGamma
        negativeGamma := some c.params.negativeGamma }
    cResetDone := true
    cSleepOut := true
    cNormalOn := true
    cDisplayOn := true
    cInitStage := 19
    cInitValid := true }

/-! ### Invariants -/

/-- The pointer is inside a window that is inside the panel (R129, R130). -/
def PointerOk (c : Config) (r : Receiver) : Prop :=
  ∃ x0 x1 y0 y1 : Half, ∃ col row : Nat,
    WindowOk c r x0 x1 y0 y1 ∧ r.wcol = some col ∧ r.wrow = some row ∧
      x0.toNat ≤ col ∧ col ≤ x1.toNat ∧ y0.toNat ≤ row ∧ row ≤ y1.toNat

/-- The frame memory is in canonical form and lists cells of the panel only (R43). -/
def FrameMemoryOk (c : Config) (m : FrameMemory) : Prop :=
  m.wf ∧ ∀ kv ∈ m, ∃ row col, inPanel c row col = true ∧ kv.1 = fmKey row col

/-- The Receiver's invariant: the frame memory is well-formed; the stage is in range (R26); while armed the window and the
pointer are good (R24); the parameter buffer agrees with its index, which never passes the count (R21); a register
holds nothing or exactly its count of bytes (R25); a half pixel is pending only while armed (R24); a command is current only
after a hardware reset (R100). -/
structure ReceiverOk (c : Config) (r : Receiver) : Prop where
  fm : FrameMemoryOk c r.fm
  stage : r.cInitStage ≤ 19
  pointer : r.cArmed = true → PointerOk c r
  pbuf : r.cPbuf.length = r.cPidx
  pidx : ∀ cmd, r.cCmd = some cmd → r.cPidx ≤ c.nParams cmd
  regs : ∀ reg ps, r.regs.get reg = some ps → ps.length = c.nParams reg.cmd
  half : r.cHalf ≠ none → r.cArmed = true
  current : r.cCmd ≠ none → r.cResetDone = true

/-- The machine's invariant between two steps: good parameters, a good Receiver, `SEQ_PC` in range (R13), and no operation
in flight, which is the model's grain: an operation is one step (log 17). -/
structure State.Inv (s : State) : Prop where
  cfg : s.cfg.Wf
  recv : ReceiverOk s.cfg s.recv
  pc : s.seqPc ≤ 33
  idle : s.inFlight = false

/-- What holds between Host calls when the Host calls nothing but INIT and BLIT (R195): a block that is `READY` has its
lines configured and its transport initialised, and faces a controller that is display-ready (R29, R156). -/
structure State.HostInv (s : State) : Prop where
  inv : s.Inv
  bus : s.seqState = .ready → BusUsable s ∧ Awake s
  ready : s.seqState = .ready → s.recv.controllerReady = true

end Sys2Proof.Machine
end

