-- ==== Sys2Proof/Certificates/Slice0/Obligations.lean ====
section
/-! DEFINITION. The statements for the provers. Every one holds for every value of the parameters of R5 (the state carries
them), unless it names `Config.default`. -/

open Sys2Proof Sys2Proof.Machine

/-! ### Power-on, and what no step does -/

/-- R210, with every row of the tables of R30 (driver side) and R31 (Receiver, "at power-on"). -/
def Obligations.PowerOnState : Prop :=
  State.reset.seqState = .uninit ∧ State.reset.seqPc = 0 ∧
  State.reset.rx0 = none ∧ State.reset.ry0 = none ∧ State.reset.rx1 = none ∧ State.reset.ry1 = none ∧
  State.reset.blen = none ∧ State.reset.bidx = none ∧ State.reset.status = none ∧
  State.reset.cs = ⟨false, none⟩ ∧ State.reset.dc = ⟨false, none⟩ ∧
  State.reset.rst = ⟨false, none⟩ ∧ State.reset.bl = ⟨false, none⟩ ∧
  State.reset.tInit = false ∧ State.reset.trace = [] ∧ State.reset.refused = none ∧
  State.reset.recv.cResetDone = false ∧ State.reset.recv.cCmd = none ∧
  State.reset.recv.cPidx = 0 ∧ State.reset.recv.cPbuf = [] ∧
  State.reset.recv.xs = none ∧ State.reset.recv.xe = none ∧ State.reset.recv.ys = none ∧ State.reset.recv.ye = none ∧
  State.reset.recv.wcol = none ∧ State.reset.recv.wrow = none ∧ State.reset.recv.cHalf = none ∧
  State.reset.recv.cFull = false ∧ (∀ reg, State.reset.recv.regs.get reg = none) ∧
  State.reset.recv.cSleepOut = false ∧ State.reset.recv.cNormalOn = false ∧ State.reset.recv.cDisplayOn = false ∧
  State.reset.recv.cInitStage = 0 ∧ State.reset.recv.cInitValid = false ∧
  State.reset.recv.cBusy = 0 ∧ State.reset.recv.cRstLowMs = 0 ∧
  (∀ row col, fmRead State.reset.recv.fm row col = none)

/-- R5: "fixed for a whole run; no operation changes them". The record in the state is the model's (log 1). -/
def Obligations.ParametersFixed : Prop :=
  ∀ s t : State, step s = .next t → t.cfg = s.cfg

/-- R18: the event history is append-only, whatever runs and however it ends. -/
def Obligations.TraceAppendOnly : Prop :=
  ∀ s t : State, step s = .next t → ∃ es, t.trace = s.trace ++ es

/-- R19: `REFUSED` is set with the reason by a step that refuses, and no step clears it, INIT and the resets among them. -/
def Obligations.RefusedIsSticky : Prop :=
  (∀ (s : State) (r : Refusal), s.refused = none → step s = .refused r →
    ∃ t, markedStep s = .next t ∧ t.refused = some r) ∧
  (∀ (s t : State) (r : Refusal), s.refused = some r → markedStep s = .next t → t.refused = some r) ∧
  (∀ (s t : State), s.refused = none → step s = .next t → t.refused = none)

/-! ### The stream of operations -/

/-- R60 to R75: no bit of an encoding is dropped. Every operation, at every operand its encoding admits. -/
def Obligations.DecodeOfEncode : Prop :=
  ∀ (c : Config) (i : Instr) (rest : List Word), c.Wf → wf c i = true →
    decode c (encode c i ++ rest) = .ok (i, rest)

/-- Whatever decodes is read from exactly the words the encoder writes for it (R65, R75). -/
def Obligations.EncodeOfDecode : Prop :=
  ∀ (c : Config) (ws : List Word) (i : Instr) (rest : List Word),
    decode c ws = .ok (i, rest) → ws = encode c i ++ rest

/-- Words written out from R71, R67, R68 and R75. The default codes of R71 are PRESUMED, and pin 2 for the reset line is a
DESIGN CHOICE (log 2); LOW as 0 and coordinates as integers are the form of a raw call (log 6, DESIGN CHOICE); that a data
byte by itself is PIXEL_DATA is DEDUCED (log 15). -/
def Obligations.WrittenWordsDecode : Prop :=
  decode Config.default [.wire .command 0x01] = .ok (.softwareReset, []) ∧
  decode Config.default [.wire .command 0x2A, .wire .data 0x00, .wire .data 0x0A, .wire .data 0x00, .wire .data 0x64] =
    .ok (.columnAddressSet [0x00, 0x0A, 0x00, 0x64], []) ∧
  decode Config.default [.wire .command 0xD0, .wire .data 0xA4, .wire .data 0xA1, .wire .command 0x29] =
    .ok (.powerControl1 [0xA4, 0xA1], [.wire .command 0x29]) ∧
  decode Config.default [.wire .data 0xF8] = .ok (.pixelData 0xF8, []) ∧
  decode Config.default [.wire .command 0x00] = .ok (.unknownCommand 0x00, []) ∧
  decode Config.default [.call .writeLine [2, 0] []] = .ok (.writeLine (.rst .low), []) ∧
  decode Config.default [.call .blit [0, 0, 0, 0] [0x07, 0xE0]] = .ok (.blit ⟨0, 0, 0, 0⟩ [0x07, 0xE0], [])

/-- A step runs the operation that the words at the head of the stream decode to, on the state without them. The stream is
the model's (log 6). -/
def Obligations.StepRunsDecoded : Prop :=
  ∀ (s : State) (i : Instr) (rest : List Word), s.refused = none → decode s.cfg s.pending = .ok (i, rest) →
    step s = exec i { s with pending := rest }

/-- The other steps: nothing pending, nothing happens (R50); a word that is no operation is refused; a Host write to its
buffer changes nothing, and is refused inside a BLIT (R54, R200); a refused run has no further step (R19). -/
def Obligations.StepWithoutOperation : Prop :=
  (∀ s : State, s.refused = none → s.pending = [] → step s = .next s) ∧
  (∀ (s : State) (w : Word) (ws : List Word) (e : DecodeError), s.refused = none → s.pending = w :: ws →
    w ≠ .hostBufferWrite → decode s.cfg (w :: ws) = .error e → step s = .refused (.undecodable e)) ∧
  (∀ (s : State) (ws : List Word), s.refused = none → s.pending = .hostBufferWrite :: ws →
    s.seqState ≠ .blitRunning → step s = .next { s with pending := ws }) ∧
  (∀ (s : State) (ws : List Word), s.refused = none → s.pending = .hostBufferWrite :: ws →
    s.seqState = .blitRunning → step s = .refused .bufferChangedInFlight) ∧
  (∀ (s : State) (r : Refusal), s.refused = some r → step s = .refused r)

/-! ### The Platform primitives -/

/-- R80, where no line call can fail: the line is configured, its level and every other line are as they were, one event. -/
def Obligations.ConfigureOutputLine : Prop :=
  ∀ (l : Line) (s : State), LinesReliable s →
    ∃ t, exec (.configureOutputLine l) s = .next t ∧
      t.configured l = true ∧ (∀ m, m ≠ l → t.configured m = s.configured m) ∧
      t.cs.level = s.cs.level ∧ t.dc.level = s.dc.level ∧ t.rst.level = s.rst.level ∧ t.bl.level = s.bl.level ∧
      t.trace = s.trace ++ [.cfg l] ∧ t.callResult = some .ok ∧
      { t with cs := s.cs, dc := s.dc, rst := s.rst, bl := s.bl, trace := s.trace, callResult := s.callResult } = s

/-- R81, R103, R144 where no line call can fail: a write to chip-select, command/data-select or the backlight sets that
level and nothing else; the Receiver is untouched. -/
def Obligations.WriteFramingLine : Prop :=
  (∀ (l : CsLevel) (s : State), LinesReliable s → s.cs.configured = true →
    exec (.writeLine (.cs l)) s = .next { s with
      cs := { s.cs with level := some l }, trace := s.trace ++ [.line (.cs l)], callResult := some .ok }) ∧
  (∀ (l : ByteClass) (s : State), LinesReliable s → s.dc.configured = true →
    exec (.writeLine (.dc l)) s = .next { s with
      dc := { s.dc with level := some l }, trace := s.trace ++ [.line (.dc l)], callResult := some .ok }) ∧
  (∀ (l : BlLevel) (s : State), LinesReliable s → s.bl.configured = true →
    exec (.writeLine (.bl l)) s = .next { s with
      bl := { s.bl with level := some l }, trace := s.trace ++ [.line (.bl l)], callResult := some .ok })

/-- R81, R106, R31 (second column) where no line call can fail: LOW starts the count; a rising edge after enough time low
resets the Receiver; after too little it is refused; with no falling edge seen it does nothing. That LOW starts the count
again where the line is already LOW is the model's choice (log 21). -/
def Obligations.WriteResetLine : Prop :=
  ∀ s : State, LinesReliable s → s.rst.configured = true →
    exec (.writeLine (.rst .low)) s = .next { s with
      rst := { s.rst with level := some .low }, trace := s.trace ++ [.line (.rst .low)],
      recv := { s.recv with cRstLowMs := 0 }, callResult := some .ok } ∧
    (s.rst.level = some .low → s.cfg.tRstLow ≤ s.recv.cRstLowMs →
      exec (.writeLine (.rst .high)) s = .next { s with
        rst := { s.rst with level := some .high }, trace := s.trace ++ [.line (.rst .high)], callResult := some .ok,
        recv := { Receiver.powerOn with cResetDone := true, cInitValid := true, cBusy := s.cfg.tRstSettle } }) ∧
    (s.rst.level = some .low → s.recv.cRstLowMs < s.cfg.tRstLow →
      exec (.writeLine (.rst .high)) s = .refused .resetPulseTooShort) ∧
    (s.rst.level ≠ some .low →
      exec (.writeLine (.rst .high)) s = .next { s with
        rst := { s.rst with level := some .high }, trace := s.trace ++ [.line (.rst .high)], callResult := some .ok })

/-- R80, R81 under `LINE_WRITE_CAN_FAIL`: a failed configuration leaves `line.configured` as it was, a failed write leaves the
line at one of its levels, and the Receiver reacts to the level the reset line is left at. That the event is emitted all the
same, and what the Receiver reacts to, is the model's (log 7); so is that a reset line left at LOW starts the count of its
low time again where it was LOW before (log 21), and where the error goes: to the caller, in callResult, with no STATUS
written (log 5). -/
def Obligations.LineCallsThatFail : Prop :=
  ∀ s : State, s.cfg.lineWriteCanFail = true → (s.drawAt 0).outcome ≠ .ok → s.inFlight = false →
    (∀ l : Line, exec (.configureOutputLine l) s = .next { s with
      trace := s.trace ++ [.cfg l], draws := s.draws.tail, drawCount := s.drawCount + 1,
      callResult := some .transportError }) ∧
    (∀ l : CsLevel, s.cs.configured = true → ∃ l', exec (.writeLine (.cs l)) s = .next { s with
      cs := { s.cs with level := some l' }, trace := s.trace ++ [.line (.cs l)],
      draws := s.draws.tail, drawCount := s.drawCount + 1, callResult := some .transportError }) ∧
    (∀ l : ByteClass, s.dc.configured = true → ∃ l', exec (.writeLine (.dc l)) s = .next { s with
      dc := { s.dc with level := some l' }, trace := s.trace ++ [.line (.dc l)],
      draws := s.draws.tail, drawCount := s.drawCount + 1, callResult := some .transportError }) ∧
    (∀ l : BlLevel, s.bl.configured = true → ∃ l', exec (.writeLine (.bl l)) s = .next { s with
      bl := { s.bl with level := some l' }, trace := s.trace ++ [.line (.bl l)],
      draws := s.draws.tail, drawCount := s.drawCount + 1, callResult := some .transportError }) ∧
    (∀ l : RstLevel, s.rst.configured = true → ∃ l',
      (l' = .high ∧ s.rst.level = some .low ∧ s.recv.cRstLowMs < s.cfg.tRstLow ∧
        exec (.writeLine (.rst l)) s = .refused .resetPulseTooShort) ∨
      (¬ (l' = .high ∧ s.rst.level = some .low ∧ s.recv.cRstLowMs < s.cfg.tRstLow) ∧
        exec (.writeLine (.rst l)) s = .next { s with
          rst := { s.rst with level := some l' }, trace := s.trace ++ [.line (.rst l)],
          recv :=
            if l' = .low then { s.recv with cRstLowMs := 0 }
            else if s.rst.level = some .low then
              { Receiver.powerOn with cResetDone := true, cInitValid := true, cBusy := s.cfg.tRstSettle }
            else s.recv
          draws := s.draws.tail, drawCount := s.drawCount + 1, callResult := some .transportError }))

/-- R82: the draw decides; `T_INIT` follows it, on a re-run too; a failure is handed to the caller. -/
def Obligations.TransportInit : Prop :=
  ∀ s : State,
    ((s.drawAt 0).outcome = .ok → exec .transportInit s = .next { s with
      tInit := true, trace := s.trace ++ [.tinit true], draws := s.draws.tail, drawCount := s.drawCount + 1,
      callResult := some .ok }) ∧
    ((s.drawAt 0).outcome ≠ .ok → s.inFlight = false → exec .transportInit s = .next { s with
      tInit := false, trace := s.trace ++ [.tinit false], draws := s.draws.tail, drawCount := s.drawCount + 1,
      callResult := some .transportError })

/-- R83: on `ok` every byte reaches the Receiver, in order; on `fail` a prefix does, of a length the Platform draws; the
primitive touches no line and raises nothing. `r` is what the Receiver makes of the bytes that arrive. -/
def Obligations.TransportWrite : Prop :=
  ∀ (bytes : List Byte) (s : State), s.tInit = true → bytes ≠ [] → s.cfg.transportCanHang = false →
    ((s.drawAt 0).outcome = .ok → ∀ r, takeBytes s.cfg s.pins bytes s.recv = .ok r →
      exec (.transportWrite bytes) s = .next { s with
        trace := s.trace ++ [.xfer bytes true bytes.length], recv := r, draws := s.draws.tail,
        drawCount := s.drawCount + 1, callResult := some .ok }) ∧
    ((s.drawAt 0).outcome ≠ .ok → ∃ k, k ≤ bytes.length ∧
      ((s.drawAt 0).delivered ≤ bytes.length → k = (s.drawAt 0).delivered) ∧
      ∀ r, takeBytes s.cfg s.pins (bytes.take k) s.recv = .ok r →
        exec (.transportWrite bytes) s = .next { s with
          trace := s.trace ++ [.xfer bytes false k], recv := r, draws := s.draws.tail,
          drawCount := s.drawCount + 1, callResult := some .fail })

/-- R81, R83, R86: what is refused before anything reaches the wire. -/
def Obligations.RefusedBeforeTheWire : Prop :=
  (∀ (w : LineWrite) (s : State), s.configured w.line = false →
    exec (.writeLine w) s = .refused .lineNotConfigured) ∧
  (∀ (bytes : List Byte) (s : State), s.tInit = false →
    exec (.transportWrite bytes) s = .refused .transferBeforeInit) ∧
  (∀ s : State, s.tInit = true → exec (.transportWrite []) s = .refused .emptyTransfer) ∧
  (∀ (bytes : List Byte) (n : Nat) (s : State), (n = 0 ∨ n ≠ bytes.length) →
    exec (.sendDataBlock bytes n) s = .refused .badBlockLength)

/-- R87, R107: the event, then the two counters; no line, no transfer, no failure. -/
def Obligations.SleepMs : Prop :=
  ∀ (n : Nat) (s : State), exec (.sleepMs n) s = .next { s with
    trace := s.trace ++ [.delay n], callResult := some .ok,
    recv := { s.recv with
      cBusy := s.recv.cBusy - n,
      cRstLowMs := if s.rst.level = some .low then s.recv.cRstLowMs + n else s.recv.cRstLowMs } }

/-! ### The Bus Framer -/

/-- R84, R60, R91: one command frame; on a failed transfer the frame is complete, chip-select is deasserted and the error is
handed to the caller. Any byte: the Bus Framer does not check it. -/
def Obligations.SendCommand : Prop :=
  ∀ (b : Byte) (s : State), LinesReliable s → BusUsable s → s.cfg.transportCanHang = false →
    ((s.drawAt 0).outcome = .ok → ∀ r, takeBytes s.cfg (framePins s .command) [b] s.recv = .ok r →
      exec (.sendCommand b) s =
        .next { afterBus s .command (frameEvents .command [b]) 1 r with callResult := some .ok }) ∧
    ((s.drawAt 0).outcome ≠ .ok → s.inFlight = false →
      ∀ r, takeBytes s.cfg (framePins s .command) ([b].take (failedCount s [b])) s.recv = .ok r →
      exec (.sendCommand b) s = .next
        { afterBus s .command (transferEvents .command [b] false (failedCount s [b])) 1 r with
          callResult := some .transportError })

/-- R85, R86, R61, R91: one data frame, of one byte or of the whole block, with chip-select asserted once. -/
def Obligations.SendData : Prop :=
  ∀ (bytes : List Byte) (i : Instr) (s : State), bytes ≠ [] →
    ((∃ b, bytes = [b] ∧ i = .sendData b) ∨ i = .sendDataBlock bytes bytes.length) →
    LinesReliable s → BusUsable s → s.cfg.transportCanHang = false →
    ((s.drawAt 0).outcome = .ok → ∀ r, takeBytes s.cfg (framePins s .data) bytes s.recv = .ok r →
      exec i s = .next { afterBus s .data (frameEvents .data bytes) 1 r with callResult := some .ok }) ∧
    ((s.drawAt 0).outcome ≠ .ok → s.inFlight = false →
      ∀ r, takeBytes s.cfg (framePins s .data) (bytes.take (failedCount s bytes)) s.recv = .ok r →
      exec i s = .next
        { afterBus s .data (transferEvents .data bytes false (failedCount s bytes)) 1 r with
          callResult := some .transportError })

/-- R93: one frame for the group under `per_group`, one per byte under `per_byte`, "stopping at the first failure": what was
sent before the failed transfer, its frame, and nothing after it; the Receiver has taken the bytes that arrived, and the
error is handed to the caller (log 5). An empty list sends nothing (log 9). -/
def Obligations.SendParams : Prop :=
  (∀ (ps : List Byte) (s : State) (r : Receiver), ps ≠ [] → LinesReliable s → BusUsable s →
    takeBytes s.cfg (framePins s .data) ps s.recv = .ok r →
    (s.cfg.paramFraming = .perGroup → DrawsOk s 1 → exec (.sendParams ps) s =
      .next { afterBus s .data (frameEvents .data ps) 1 r with callResult := some .ok }) ∧
    (s.cfg.paramFraming = .perByte → DrawsOk s ps.length → exec (.sendParams ps) s =
      .next { afterBus s .data (ps.flatMap fun b => frameEvents .data [b]) ps.length r with callResult := some .ok })) ∧
  (∀ (ps : List Byte) (s : State) (r : Receiver), ps ≠ [] → LinesReliable s → BusUsable s → s.inFlight = false →
    (s.cfg.paramFraming = .perGroup → (s.drawAt 0).outcome = .fail →
      takeBytes s.cfg (framePins s .data) (ps.take (failedCount s ps)) s.recv = .ok r →
      exec (.sendParams ps) s = .next
        { afterBus s .data (transferEvents .data ps false (failedCount s ps)) 1 r with
          callResult := some .transportError }) ∧
    (∀ (j k : Nat) (b : Byte), s.cfg.paramFraming = .perByte → ps[j]? = some b → DrawsOk s j →
      (s.drawAt j).outcome = .fail → k = min (s.drawAt j).delivered 1 →
      takeBytes s.cfg (framePins s .data) (ps.take (j + k)) s.recv = .ok r →
      exec (.sendParams ps) s = .next
        { afterBus s .data (((ps.take j).flatMap fun b => frameEvents .data [b]) ++
            transferEvents .data [b] false k) (j + 1) r with
          callResult := some .transportError })) ∧
  (∀ s : State, exec (.sendParams []) s = .next { s with callResult := some .ok })

/-- R88: on return from an operation that moves bytes in frames, by either path, chip-select is deasserted. Where no line
call can fail: a chip-select write that fails leaves a drawn level (R81). -/
def Obligations.ChipSelectReleased : Prop :=
  ∀ (i : Instr) (s t : State), (isFrameOp i = true ∨ ∃ ps, ps ≠ [] ∧ i = .sendParams ps) → LinesReliable s →
    exec i s = .next t → t.cs.level = some .deasserted

/-- R78, R63: the two framings of a parameter group leave the Receiver in the same state, and put the same bytes on the wire
with the same class. -/
def Obligations.FramingsAgree : Prop :=
  ∀ (cmd : Cmd) (ps : List Byte) (s t : State), LinesReliable s → BusUsable s → DrawsOk s (1 + ps.length) →
    exec (instrOfCmd cmd ps) { s with cfg := { s.cfg with paramFraming := .perGroup } } = .next t →
    ∃ u, exec (instrOfCmd cmd ps) { s with cfg := { s.cfg with paramFraming := .perByte } } = .next u ∧
      u.recv = t.recv ∧ u.cs = t.cs ∧ u.dc = t.dc ∧
      ∃ es es', t.trace = s.trace ++ es ∧ u.trace = s.trace ++ es' ∧
        wireBytes s.dc.level es = wireBytes s.dc.level es'

/-- R12, R13, R14, R90: an operation that moves bytes in frames, with no INIT or BLIT in flight, changes nothing of the
driver but the two framing lines, on either path; the status, the latches, the Sequencer, the other lines and `T_INIT` stay. -/
def Obligations.FramesKeepTheDriver : Prop :=
  ∀ (i : Instr) (s t : State), (isFrameOp i = true ∨ ∃ ps, i = .sendParams ps) → s.inFlight = false →
    exec i s = .next t → KeepsDriver s t

/-- R184 for a call executed by itself inside an operation in flight (log 5): the operation is abandoned, with the optional
release of a BLIT, and the error is returned. -/
def Obligations.ErrorInsideAnOperation : Prop :=
  ∀ s : State, s.inFlight = true → (s.drawAt 0).outcome ≠ .ok →
    exec .transportInit s = .next { s with
      tInit := false
      trace := s.trace ++ [.tinit false] ++
        (if s.seqState = .blitRunning ∧ s.cfg.releaseOnFailure = .always then [.release] else []) ++
        [.ret .transportError]
      draws := s.draws.tail
      drawCount := s.drawCount + 1
      seqState := .failed
      status := some .transportError
      callResult := some .transportError }

/-! ### The wire commands -/

/-- R110, R31 (third column), R108. -/
def Obligations.SoftwareReset : Prop :=
  ∀ s : State, CanSend s 1 → ¬ GroupOpen s.cfg s.recv →
    exec .softwareReset s = .next
      { afterBus s .command (frameEvents .command [s.cfg.codes.softwareReset]) 1
          { Receiver.powerOn with
            cCmd := some .softwareReset
            cResetDone := s.recv.cResetDone
            cInitStage := if s.recv.cInitStage = 0 ∧ s.recv.cInitValid = true then 1 else 0
            cInitValid := decide (s.recv.cInitStage = 0) && s.recv.cInitValid
            cBusy := s.cfg.tSwreset
            cRstLowMs := s.recv.cRstLowMs } with
        callResult := some .ok }

/-- R111, R127, R128: the flag and the busy time of each; nothing else but the command context (R101, D28) and the order
tracker (R108, D29). An open group is in IncompleteGroup, a complete initialization in AfterInitialization; callResult is
the model's (log 5). -/
def Obligations.PowerCommands : Prop :=
  ∀ s : State, CanSend s 1 → ¬ GroupOpen s.cfg s.recv → s.recv.cInitStage < 19 →
    exec .sleepOut s = .next
      { afterBus s .command (frameEvents .command [s.cfg.codes.sleepOut]) 1
          { completed .sleepOut [] s.recv with cSleepOut := true, cBusy := s.cfg.tSlpout } with
        callResult := some .ok } ∧
    exec .normalDisplayOn s = .next
      { afterBus s .command (frameEvents .command [s.cfg.codes.normalDisplayOn]) 1
          { completed .normalDisplayOn [] s.recv with cNormalOn := true, cBusy := s.cfg.tNoron } with
        callResult := some .ok } ∧
    exec .displayOn s = .next
      { afterBus s .command (frameEvents .command [s.cfg.codes.displayOn]) 1
          { completed .displayOn [] s.recv with cDisplayOn := true, cBusy := s.cfg.tDispon } with
        callResult := some .ok }

/-- R112, R113, R116 to R120, R123 to R126: the register takes the whole group; no other register, no window, no cell. -/
def Obligations.ConfigurationCommands : Prop :=
  ∀ (ps : List Byte) (s : State), CanSend s (exchangeFrames s.cfg ps) → ¬ GroupOpen s.cfg s.recv →
    s.recv.cInitStage < 19 →
    ∀ row ∈ [(Instr.colorMode ps, Cmd.colorMode, ConfigReg.colorMode),
        (.memoryAccess ps, .memoryAccess, .memoryAccess), (.porchControl ps, .porchControl, .porchControl),
        (.gateControl ps, .gateControl, .gateControl), (.vcoms ps, .vcoms, .vcoms),
        (.lcmControl ps, .lcmControl, .lcmControl), (.vdvVrhEnable ps, .vdvVrhEnable, .vdvVrhEnable),
        (.frameRateControl2 ps, .frameRateControl2, .frameRateControl2),
        (.powerControl1 ps, .powerControl1, .powerControl1), (.positiveGamma ps, .positiveGamma, .positiveGamma),
        (.negativeGamma ps, .negativeGamma, .negativeGamma)],
      ps.length = s.cfg.counts.get row.2.2 →
      exec row.1 s = .next
        { afterBus s .data (exchangeEvents s.cfg row.2.1 ps) (exchangeFrames s.cfg ps)
            { completed row.2.1 ps s.recv with regs := s.recv.regs.set row.2.2 (some ps) } with
          callResult := some .ok }

/-- R121, R122: VRH and VDV are honoured only once the enable register has been written. -/
def Obligations.VrhAndVdv : Prop :=
  ∀ (ps : List Byte) (s : State), CanSend s (exchangeFrames s.cfg ps) → ¬ GroupOpen s.cfg s.recv →
    s.recv.cInitStage < 19 →
    (ps.length = s.cfg.counts.vrh →
      exec (.vrh ps) s = .next
        { afterBus s .data (exchangeEvents s.cfg .vrh ps) (exchangeFrames s.cfg ps)
            { completed .vrh ps s.recv with
              regs := s.recv.regs.set .vrh (if s.recv.regs.vdvVrhEnable = none then none else some ps) } with
          callResult := some .ok }) ∧
    (ps.length = s.cfg.counts.vdv →
      exec (.vdv ps) s = .next
        { afterBus s .data (exchangeEvents s.cfg .vdv ps) (exchangeFrames s.cfg ps)
            { completed .vdv ps s.recv with
              regs := s.recv.regs.set .vdv (if s.recv.regs.vdvVrhEnable = none then none else some ps) } with
          callResult := some .ok })

/-- R114, R115, R66: the four bytes are two 16-bit bounds, high byte first; nothing is checked; the pointer stays. -/
def Obligations.AddressCommands : Prop :=
  ∀ (p0 p1 p2 p3 : Byte) (s : State), CanSend s (exchangeFrames s.cfg [p0, p1, p2, p3]) →
    ¬ GroupOpen s.cfg s.recv →
    exec (.columnAddressSet [p0, p1, p2, p3]) s = .next
      { afterBus s .data (exchangeEvents s.cfg .columnAddressSet [p0, p1, p2, p3])
          (exchangeFrames s.cfg [p0, p1, p2, p3])
          { completed .columnAddressSet [p0, p1, p2, p3] s.recv with
            xs := some (BitVec.ofNat 16 (p0.toNat * 256 + p1.toNat))
            xe := some (BitVec.ofNat 16 (p2.toNat * 256 + p3.toNat)) } with
        callResult := some .ok } ∧
    exec (.rowAddressSet [p0, p1, p2, p3]) s = .next
      { afterBus s .data (exchangeEvents s.cfg .rowAddressSet [p0, p1, p2, p3])
          (exchangeFrames s.cfg [p0, p1, p2, p3])
          { completed .rowAddressSet [p0, p1, p2, p3] s.recv with
            ys := some (BitVec.ofNat 16 (p0.toNat * 256 + p1.toNat))
            ye := some (BitVec.ofNat 16 (p2.toNat * 256 + p3.toNat)) } with
        callResult := some .ok }

/-- R66, R67, R68: the split of a 16-bit operand and its joining. -/
def Obligations.BigEndianOperands : Prop :=
  (∀ v : Half, (hiByte v).toNat = v.toNat / 256 ∧ (loByte v).toNat = v.toNat % 256 ∧
    joinBytes (hiByte v) (loByte v) = v) ∧
  (∀ h l : Byte, (joinBytes h l).toNat = h.toNat * 256 + l.toNat) ∧
  (∀ a b : Half, addressParams a b = [hiByte a, loByte a, hiByte b, loByte b])

/-- R129: a good window arms the Receiver at its first cell; a window that is not defined, or not inside the panel, is
refused. -/
def Obligations.MemoryWrite : Prop :=
  ∀ s : State, CanSend s 1 → ¬ GroupOpen s.cfg s.recv →
    (∀ x0 x1 y0 y1 : Half, s.recv.xs = some x0 → s.recv.xe = some x1 → s.recv.ys = some y0 → s.recv.ye = some y1 →
      (x0.toNat ≤ x1.toNat ∧ x1.toNat < s.cfg.panelW ∧ y0.toNat ≤ y1.toNat ∧ y1.toNat < s.cfg.panelH →
        exec .memoryWrite s = .next
          { afterBus s .command (frameEvents .command [s.cfg.codes.memoryWrite]) 1
              { completed .memoryWrite [] s.recv with
                wcol := some x0.toNat, wrow := some y0.toNat, cFull := false } with
            callResult := some .ok }) ∧
      (¬ (x0.toNat ≤ x1.toNat ∧ x1.toNat < s.cfg.panelW ∧ y0.toNat ≤ y1.toNat ∧ y1.toNat < s.cfg.panelH) →
        exec .memoryWrite s = .refused .windowOutsidePanel)) ∧
    ((s.recv.xs = none ∨ s.recv.xe = none ∨ s.recv.ys = none ∨ s.recv.ye = none) →
      exec .memoryWrite s = .refused .undefinedWindow)

/-- R130, R44: the first byte of a pixel is held; the second writes one cell, and every other cell keeps what it held; the
pointer moves row-major inside the window and stops at its end; a byte beyond the window is refused. -/
def Obligations.PixelData : Prop :=
  ∀ (b : Byte) (s : State), CanSend s 1 → s.recv.cCmd = some .memoryWrite →
    (s.recv.cFull = true → exec (.pixelData b) s = .refused .pixelBeyondRectangle) ∧
    (s.recv.cFull = false → s.recv.cHalf = none →
      exec (.pixelData b) s = .next
        { afterBus s .data (frameEvents .data [b]) 1 { s.recv with cHalf := some b } with callResult := some .ok }) ∧
    (∀ (h : Byte) (x0 x1 y0 y1 : Half) (col row : Nat), s.recv.cFull = false → s.recv.cHalf = some h →
      WindowOk s.cfg s.recv x0 x1 y0 y1 → s.recv.wcol = some col → s.recv.wrow = some row →
      x0.toNat ≤ col → col ≤ x1.toNat → y0.toNat ≤ row → row ≤ y1.toNat →
      ∃ m, exec (.pixelData b) s = .next
          { afterBus s .data (frameEvents .data [b]) 1
              { s.recv with
                cHalf := none
                fm := m
                wcol := some (if col < x1.toNat then col + 1 else x0.toNat)
                wrow := some (if col < x1.toNat then row else if row < y1.toNat then row + 1 else row)
                cFull := decide (¬ col < x1.toNat ∧ ¬ row < y1.toNat) } with
            callResult := some .ok } ∧
        fmRead m row col = some (BitVec.ofNat 16 (h.toNat * 256 + b.toNat)) ∧
        ∀ row' col', inPanel s.cfg row' col' = true → (row' ≠ row ∨ col' ≠ col) →
          fmRead m row' col' = fmRead s.recv.fm row' col')

/-- R131, R73, R84 (log 18): a command byte that is none of the 20 is refused when it reaches the Receiver, by a transfer that
succeeds or by one that fails after it was delivered; a transfer that fails before that is an ordinary failure. -/
def Obligations.UnknownCommand : Prop :=
  ∀ (b : Byte) (s : State), LinesReliable s → BusUsable s → Awake s → (∀ cmd, s.cfg.codes.get cmd ≠ b) →
    ((s.drawAt 0).outcome = .ok → exec (.unknownCommand b) s = .refused .unknownCommandByte) ∧
    ((s.drawAt 0).outcome = .fail → 1 ≤ (s.drawAt 0).delivered →
      exec (.unknownCommand b) s = .refused .unknownCommandByte) ∧
    ((s.drawAt 0).outcome = .fail → (s.drawAt 0).delivered = 0 → s.inFlight = false →
      exec (.unknownCommand b) s = .next
        { afterBus s .command (transferEvents .command [b] false 0) 1 s.recv with
          callResult := some .transportError })

/-- R104: a command byte that arrives while a group is incomplete voids what that group's command writes, costs the order
its validity before initialization is complete, and otherwise acts as if the group had not been begun. `r` is the Receiver
the command byte then finds. -/
def Obligations.IncompleteGroup : Prop :=
  ∀ (old cmd : Cmd) (ps : List Byte) (s : State), s.recv.cCmd = some old → s.recv.cPidx < s.cfg.nParams old →
    LinesReliable s → BusUsable s → DrawsOk s 1 →
    ∃ r : Receiver, exec (instrOfCmd cmd ps) s = exec (instrOfCmd cmd ps) { s with recv := r } ∧
      r.cCmd = none ∧
      (old = .columnAddressSet → r.xs = none ∧ r.xe = none ∧ r.ys = s.recv.ys ∧ r.ye = s.recv.ye ∧
        r.regs = s.recv.regs) ∧
      (old = .rowAddressSet → r.xs = s.recv.xs ∧ r.xe = s.recv.xe ∧ r.ys = none ∧ r.ye = none ∧
        r.regs = s.recv.regs) ∧
      (∀ reg : ConfigReg, old = reg.cmd → r.xs = s.recv.xs ∧ r.xe = s.recv.xe ∧ r.ys = s.recv.ys ∧
        r.ye = s.recv.ye ∧ r.regs = s.recv.regs.set reg none) ∧
      r.cInitValid = (s.recv.cInitValid && decide (19 ≤ s.recv.cInitStage)) ∧
      { r with
        cCmd := s.recv.cCmd, xs := s.recv.xs, xe := s.recv.xe, ys := s.recv.ys, ye := s.recv.ye,
        regs := s.recv.regs, cInitValid := s.recv.cInitValid } = s.recv

/-- R100, lines 1 to 3, in their order, for the first byte of a transfer. -/
def Obligations.IntakeRefusals : Prop :=
  ∀ (b : Byte) (bs : List Byte) (s : State), s.tInit = true → (s.drawAt 0).outcome = .ok →
    (s.cs.level ≠ some .asserted → exec (.transportWrite (b :: bs)) s = .refused .byteOutsideChipSelect) ∧
    (s.cs.level = some .asserted → (s.rst.level ≠ some .high ∨ s.recv.cResetDone = false) →
      exec (.transportWrite (b :: bs)) s = .refused .byteDuringReset) ∧
    (s.cs.level = some .asserted → s.rst.level = some .high → s.recv.cResetDone = true → 0 < s.recv.cBusy →
      exec (.transportWrite (b :: bs)) s = .refused .byteInBusyWindow)

/-- R102, R104: the data byte that is no pixel. It joins the group of a command that still waits for more than one; the last
byte of a group commits it, as the command's rule says, and moves the order tracker (R108); with no command, after a
command that takes none, or beyond the count it is refused. -/
def Obligations.DataBytes : Prop :=
  ∀ (b : Byte) (s : State), CanSend s 1 →
    (s.recv.cCmd = none → exec (.pixelData b) s = .refused .dataWithNoCommand) ∧
    (∀ cmd, s.recv.cCmd = some cmd → cmd ≠ .memoryWrite →
      (s.cfg.nParams cmd = 0 → exec (.pixelData b) s = .refused .dataAfterParameterless) ∧
      (0 < s.cfg.nParams cmd → s.cfg.nParams cmd ≤ s.recv.cPidx →
        exec (.pixelData b) s = .refused .excessParameterByte) ∧
      (s.recv.cPidx + 1 < s.cfg.nParams cmd →
        exec (.pixelData b) s = .next
          { afterBus s .data (frameEvents .data [b]) 1
              { s.recv with cPbuf := s.recv.cPbuf ++ [b], cPidx := s.recv.cPidx + 1 } with
            callResult := some .ok }) ∧
      (∀ reg : ConfigReg, cmd = reg.cmd → s.recv.cPidx + 1 = s.cfg.nParams cmd →
        exec (.pixelData b) s = .next
          { afterBus s .data (frameEvents .data [b]) 1
              { s.recv with
                cPbuf := s.recv.cPbuf ++ [b], cPidx := s.recv.cPidx + 1, cInitStage := stageAfter s.recv cmd
                regs := s.recv.regs.set reg
                  (if (reg = .vrh ∨ reg = .vdv) ∧ s.recv.regs.vdvVrhEnable = none then none
                  else some (s.recv.cPbuf ++ [b])) } with
            callResult := some .ok }) ∧
      (∀ p0 p1 p2 : Byte, s.recv.cPbuf = [p0, p1, p2] → s.recv.cPidx = 3 →
        (cmd = .columnAddressSet → exec (.pixelData b) s = .next
          { afterBus s .data (frameEvents .data [b]) 1
              { s.recv with
                cPbuf := [p0, p1, p2, b], cPidx := 4, cInitStage := stageAfter s.recv cmd
                xs := some (BitVec.ofNat 16 (p0.toNat * 256 + p1.toNat))
                xe := some (BitVec.ofNat 16 (p2.toNat * 256 + b.toNat)) } with
            callResult := some .ok }) ∧
        (cmd = .rowAddressSet → exec (.pixelData b) s = .next
          { afterBus s .data (frameEvents .data [b]) 1
              { s.recv with
                cPbuf := [p0, p1, p2, b], cPidx := 4, cInitStage := stageAfter s.recv cmd
                ys := some (BitVec.ofNat 16 (p0.toNat * 256 + p1.toNat))
                ye := some (BitVec.ofNat 16 (p2.toNat * 256 + b.toNat)) } with
            callResult := some .ok })))

/-- R108: once initialization is complete only the column, row, memory-write and software-reset commands are taken. -/
def Obligations.AfterInitialization : Prop :=
  ∀ (cmd : Cmd) (ps : List Byte) (s : State), CanSend s 1 → 19 ≤ s.recv.cInitStage →
    cmd ≠ .columnAddressSet → cmd ≠ .rowAddressSet → cmd ≠ .memoryWrite → cmd ≠ .softwareReset →
    exec (instrOfCmd cmd ps) s = .refused .commandAfterInitialization

/-- R211, R26, R106: a complete hardware reset pulse is the only event that makes the order valid, whatever runs: a step after
which `C_INIT_VALID` holds, and before which it did not, is the rising edge of a reset line that was low for at least
`T_RST_LOW`, or an INIT, whose events hold such a pulse. Where no line call can fail. -/
def Obligations.OnlyHardwareResetRevalidates : Prop :=
  ∀ s t : State, LinesReliable s → step s = .next t → s.recv.cInitValid = false → t.recv.cInitValid = true →
    ∃ i rest es, decode s.cfg s.pending = .ok (i, rest) ∧ t.trace = s.trace ++ es ∧
      ((i = .writeLine (.rst .high) ∧ s.rst.level = some .low ∧ s.cfg.tRstLow ≤ s.recv.cRstLowMs ∧
          es = [.line (.rst .high)]) ∨
        (i = .init ∧ ∃ before after, es = before ++
          [.line (.rst .low), .delay s.cfg.tRstLow, .line (.rst .high)] ++ after))

/-- R28: an operation that sends no pixel and resets nothing changes no cell of the frame memory, however it ends. -/
def Obligations.FrameMemoryOnlyByPixels : Prop :=
  ∀ (i : Instr) (s t : State), s.cfg.Wf → sparesFrameMemory i = true → exec i s = .next t → t.recv.fm = s.recv.fm

/-! ### INIT -/

/-- R156: the end state of an INIT in which no transport call fails, from every state no operation is in flight in, and
whatever the Receiver held. The frame: only what the rules name has changed. -/
def Obligations.InitEndState : Prop :=
  ∀ s : State, s.inFlight = false → LinesReliable s → s.cfg.Wf → DrawsOk s (initDraws s.cfg) →
    ∃ t, exec .init s = .next t ∧
      t.seqState = .ready ∧ t.status = some .ok ∧ t.seqPc = 33 ∧
      t.cs = ⟨true, some .deasserted⟩ ∧ t.dc = ⟨true, some .command⟩ ∧
      t.rst = ⟨true, some .high⟩ ∧ t.bl = ⟨true, some .on⟩ ∧ t.tInit = true ∧ t.refused = s.refused ∧
      t.recv.controllerReady = true ∧ t.recv.cCmd = some .displayOn ∧
      t.recv.xs = some 0 ∧ t.recv.xe = some (BitVec.ofNat 16 (s.cfg.panelW - 1)) ∧
      t.recv.ys = some 0 ∧ t.recv.ye = some (BitVec.ofNat 16 (s.cfg.panelH - 1)) ∧
      (∀ reg, t.recv.regs.get reg = some (s.cfg.params.get reg)) ∧
      (∀ row col, fmRead t.recv.fm row col = none) ∧
      { t with
        seqState := s.seqState, status := s.status, seqPc := s.seqPc, cs := s.cs, dc := s.dc, rst := s.rst,
        bl := s.bl, tInit := s.tInit, recv := s.recv, trace := s.trace, draws := s.draws,
        drawCount := s.drawCount } = s

/-- R141, R142 to R151, R155, R156: the events of such an INIT are those of the 34 rows in their order, each delay directly
after the event that needs it, and it sends 19 command bytes and `8 + 28 +` the eleven counts data bytes. -/
def Obligations.InitTrace : Prop :=
  ∀ s : State, s.inFlight = false → LinesReliable s → s.cfg.Wf → DrawsOk s (initDraws s.cfg) →
    ∃ t es, exec .init s = .next t ∧ t.trace = s.trace ++ es ∧
      es = [.cfg .cs, .cfg .dc, .cfg .rst, .cfg .bl, .tinit true,
          .line (.rst .low), .delay s.cfg.tRstLow, .line (.rst .high), .delay s.cfg.tRstSettle, .line (.bl .on)] ++
        frameEvents .command [s.cfg.codes.softwareReset] ++ [.delay s.cfg.tSwreset] ++
        frameEvents .command [s.cfg.codes.sleepOut] ++ [.delay s.cfg.tSlpout] ++
        exchangeEvents s.cfg .colorMode s.cfg.params.colorMode ++
        exchangeEvents s.cfg .memoryAccess s.cfg.params.memoryAccess ++
        exchangeEvents s.cfg .columnAddressSet (addressParams 0 (BitVec.ofNat 16 (s.cfg.panelW - 1))) ++
        exchangeEvents s.cfg .rowAddressSet (addressParams 0 (BitVec.ofNat 16 (s.cfg.panelH - 1))) ++
        exchangeEvents s.cfg .porchControl s.cfg.params.porchControl ++
        exchangeEvents s.cfg .gateControl s.cfg.params.gateControl ++
        exchangeEvents s.cfg .vcoms s.cfg.params.vcoms ++
        exchangeEvents s.cfg .lcmControl s.cfg.params.lcmControl ++
        exchangeEvents s.cfg .vdvVrhEnable s.cfg.params.vdvVrhEnable ++
        exchangeEvents s.cfg .vrh s.cfg.params.vrh ++
        exchangeEvents s.cfg .vdv s.cfg.params.vdv ++
        exchangeEvents s.cfg .frameRateControl2 s.cfg.params.frameRateControl2 ++
        exchangeEvents s.cfg .powerControl1 s.cfg.params.powerControl1 ++
        exchangeEvents s.cfg .positiveGamma s.cfg.params.positiveGamma ++
        exchangeEvents s.cfg .negativeGamma s.cfg.params.negativeGamma ++
        frameEvents .command [s.cfg.codes.normalDisplayOn] ++ [.delay s.cfg.tNoron] ++
        frameEvents .command [s.cfg.codes.displayOn] ++ [.delay s.cfg.tDispon] ++ [.ret .ok] ∧
      ((wireBytes s.dc.level es).filter fun p => p.1 = .command).length = 19 ∧
      ((wireBytes s.dc.level es).filter fun p => p.1 = .data).length =
        8 + 28 + (s.cfg.counts.colorMode + s.cfg.counts.memoryAccess + s.cfg.counts.porchControl +
          s.cfg.counts.gateControl + s.cfg.counts.vcoms + s.cfg.counts.lcmControl + s.cfg.counts.vdvVrhEnable +
          s.cfg.counts.vrh + s.cfg.counts.vdv + s.cfg.counts.frameRateControl2 + s.cfg.counts.powerControl1)

/-- R140, R151, R152, R153, R184, R198: INIT is refused while an operation is in flight; otherwise, where it ends in a next
state, it has either completed or failed, and says which; the latches are as they were. Where no line call can fail, the
events are those of the rows in their order: of all of them, or of the rows before the failing one, of the failing row (a
frame, completed and with chip-select deasserted, or the `transport_init`), and the return; and the lines are where the
completed rows have left them: after row 9 the reset line high and the backlight on. -/
def Obligations.InitOutcome : Prop :=
  (∀ s : State, s.inFlight = true → exec .init s = .refused .operationInFlight) ∧
  (∀ s t : State, exec .init s = .next t →
    (t.rx0 = s.rx0 ∧ t.ry0 = s.ry0 ∧ t.rx1 = s.rx1 ∧ t.ry1 = s.ry1 ∧ t.blen = s.blen ∧ t.bidx = s.bidx) ∧
    ((t.seqState = .ready ∧ t.status = some .ok ∧ t.seqPc = 33 ∧ t.trace.getLast? = some (.ret .ok) ∧
        (LinesReliable s → t.trace = s.trace ++ (initProgram s.cfg).flatMap (microEvents s.cfg))) ∨
     (t.seqState = .failed ∧ t.status = some .transportError ∧ t.seqPc ≤ 32 ∧
       t.trace.getLast? = some (.ret .transportError) ∧
       (LinesReliable s →
         (∃ m es, (initProgram s.cfg)[t.seqPc]? = some m ∧ FailedRow s.cfg m es ∧
           t.trace = s.trace ++ ((initProgram s.cfg).take t.seqPc).flatMap (microEvents s.cfg) ++ es ++
             [.ret .transportError]) ∧
         ((t.seqPc = 4 ∧ t.tInit = false ∧ t.recv = s.recv ∧ t.cs = ⟨true, s.cs.level⟩ ∧ t.dc = ⟨true, s.dc.level⟩ ∧
             t.rst = ⟨true, s.rst.level⟩ ∧ t.bl = ⟨true, s.bl.level⟩) ∨
          (10 ≤ t.seqPc ∧ t.tInit = true ∧ t.cs = ⟨true, some .deasserted⟩ ∧ t.dc.configured = true ∧
             t.rst = ⟨true, some .high⟩ ∧ t.bl = ⟨true, some .on⟩))))))

/-- R154, R191, R211: an INIT that returns `OK` leaves the Receiver in one state, the same from every state it started
in: whatever a failure had left is gone. -/
def Obligations.InitFromAnywhere : Prop :=
  ∀ s t s' t' : State, s.cfg = s'.cfg → s.cfg.Wf → LinesReliable s →
    exec .init s = .next t → t.seqState = .ready → exec .init s' = .next t' → t'.seqState = .ready →
    t.recv = t'.recv ∧ t.recv.controllerReady = true

/-! ### WINDOW_SET -/

/-- R160: after WINDOW_SET of a window inside the panel the Receiver holds it, armed at its first cell. The order tracker does
with its three commands what R108 says: nothing once initialization is complete; before that MEMORY_WRITE is never in
order, and the two address commands advance the stage only from their own place in it. -/
def Obligations.WindowSet : Prop :=
  ∀ (x0 y0 x1 y1 : Half) (s : State), CanSend s (windowFrames s.cfg) → wf s.cfg (.windowSet x0 y0 x1 y1) = true →
    ∃ t, exec (.windowSet x0 y0 x1 y1) s = .next t ∧ t.callResult = some .ok ∧
      t.recv.xs = some x0 ∧ t.recv.xe = some x1 ∧ t.recv.ys = some y0 ∧ t.recv.ye = some y1 ∧
      t.recv.wcol = some x0.toNat ∧ t.recv.wrow = some y0.toNat ∧ t.recv.cCmd = some .memoryWrite ∧
      t.recv.cPidx = 0 ∧ t.recv.cPbuf = [] ∧
      t.recv.cFull = false ∧ t.recv.cHalf = none ∧ t.recv.fm = s.recv.fm ∧
      (19 ≤ s.recv.cInitStage →
        t.recv.cInitStage = s.recv.cInitStage ∧ t.recv.cInitValid = s.recv.cInitValid) ∧
      (s.recv.cInitStage < 19 → t.recv.cInitValid = false) ∧
      (s.recv.cInitStage = 4 → s.recv.cInitValid = true → ¬ GroupOpen s.cfg s.recv → t.recv.cInitStage = 6) ∧
      (s.recv.cInitStage ≠ 4 ∨ s.recv.cInitValid = false ∨ GroupOpen s.cfg s.recv →
        t.recv.cInitStage = s.recv.cInitStage) ∧
      (∀ reg : ConfigReg, s.recv.cCmd = some reg.cmd → s.recv.cPidx < s.cfg.nParams reg.cmd →
        t.recv.regs = s.recv.regs.set reg none) ∧
      ((∀ reg : ConfigReg, s.recv.cCmd ≠ some reg.cmd) ∨ ¬ GroupOpen s.cfg s.recv → t.recv.regs = s.recv.regs) ∧
      { t.recv with
        xs := s.recv.xs, xe := s.recv.xe, ys := s.recv.ys, ye := s.recv.ye, wcol := s.recv.wcol,
        wrow := s.recv.wrow, cCmd := s.recv.cCmd, cPidx := s.recv.cPidx, cPbuf := s.recv.cPbuf,
        cFull := s.recv.cFull, cHalf := s.recv.cHalf, regs := s.recv.regs, cInitStage := s.recv.cInitStage,
        cInitValid := s.recv.cInitValid } = s.recv ∧
      KeepsDriver s t

/-- R161: the 11 bytes of a WINDOW_SET and their classes, under both framings. -/
def Obligations.WindowSetBytes : Prop :=
  ∀ (x0 y0 x1 y1 : Half) (s t : State), wf s.cfg (.windowSet x0 y0 x1 y1) = true → LinesReliable s →
    exec (.windowSet x0 y0 x1 y1) s = .next t → t.callResult = some .ok →
    ∃ es, t.trace = s.trace ++ es ∧
      wireBytes s.dc.level es =
        [(.command, s.cfg.codes.columnAddressSet), (.data, hiByte x0), (.data, loByte x0), (.data, hiByte x1),
         (.data, loByte x1), (.command, s.cfg.codes.rowAddressSet), (.data, hiByte y0), (.data, loByte y0),
         (.data, hiByte y1), (.data, loByte y1), (.command, s.cfg.codes.memoryWrite)]

/-! ### BLIT -/

/-- R172: BLIT is accepted only from `READY`. -/
def Obligations.BlitEntryState : Prop :=
  ∀ (r : Rect) (pb : List Byte) (s : State),
    ((s.seqState = .initRunning ∨ s.seqState = .blitRunning) → exec (.blit r pb) s = .refused .operationInFlight) ∧
    (s.seqState = .uninit → exec (.blit r pb) s = .refused .blitBeforeInitialization) ∧
    (s.seqState = .failed → exec (.blit r pb) s = .refused .blitAfterFailure)

/-- R185, R163, R182, R189: a BLIT whose operands are bad is rejected before any bus activity: the status, the optional
release, the return, and nothing else, whatever the Platform would draw. -/
def Obligations.BlitInvalidArgument : Prop :=
  ∀ (r : Rect) (pb : List Byte) (s : State), s.seqState = .ready →
    ¬ (0 ≤ r.x0 ∧ r.x0 ≤ r.x1 ∧ r.x1 < s.cfg.panelW ∧ 0 ≤ r.y0 ∧ r.y0 ≤ r.y1 ∧ r.y1 < s.cfg.panelH ∧
      (pb.length : Int) = (r.x1 - r.x0 + 1) * (r.y1 - r.y0 + 1) * 2) →
    exec (.blit r pb) s = .next { s with
      status := some .invalidArgument
      trace := s.trace ++ (if s.cfg.releaseOnFailure = .always then [.release] else []) ++ [.ret .invalidArgument] }

/-- R166, R162: what a successful BLIT leaves: every cell of the rectangle holds its pixel, every other cell of the panel what
it held; the window, the pointer, the command context, the latches, the status; the order tracker and the registers as
after the WINDOW_SET in it (R108, R104); and what is unchanged. -/
def Obligations.BlitEffect : Prop :=
  ∀ (x0 y0 w h : Nat) (pb : List Byte) (s : State), s.seqState = .ready → 0 < w → 0 < h →
    x0 + w ≤ s.cfg.panelW → y0 + h ≤ s.cfg.panelH → pb.length = w * h * 2 →
    CanSend s (windowFrames s.cfg + 1) →
    ∃ t, exec (.blit ⟨x0, y0, (x0 + w : Nat) - 1, (y0 + h : Nat) - 1⟩ pb) s = .next t ∧
      (∀ i < w * h, ∃ hi lo, pb[2 * i]? = some hi ∧ pb[2 * i + 1]? = some lo ∧
        fmRead t.recv.fm (y0 + i / w) (x0 + i % w) = some (BitVec.ofNat 16 (hi.toNat * 256 + lo.toNat))) ∧
      (∀ row col, inPanel s.cfg row col = true →
        ¬ (y0 ≤ row ∧ row < y0 + h ∧ x0 ≤ col ∧ col < x0 + w) →
        fmRead t.recv.fm row col = fmRead s.recv.fm row col) ∧
      t.recv.xs = some (BitVec.ofNat 16 x0) ∧ t.recv.xe = some (BitVec.ofNat 16 (x0 + w - 1)) ∧
      t.recv.ys = some (BitVec.ofNat 16 y0) ∧ t.recv.ye = some (BitVec.ofNat 16 (y0 + h - 1)) ∧
      t.recv.cCmd = some .memoryWrite ∧ t.recv.cPidx = 0 ∧ t.recv.cPbuf = [] ∧
      t.recv.cFull = true ∧ t.recv.cHalf = none ∧
      t.recv.wcol = some x0 ∧ t.recv.wrow = some (y0 + h - 1) ∧
      (19 ≤ s.recv.cInitStage →
        t.recv.cInitStage = s.recv.cInitStage ∧ t.recv.cInitValid = s.recv.cInitValid) ∧
      (s.recv.cInitStage < 19 → t.recv.cInitValid = false) ∧
      (s.recv.cInitStage = 4 → s.recv.cInitValid = true → ¬ GroupOpen s.cfg s.recv → t.recv.cInitStage = 6) ∧
      (s.recv.cInitStage ≠ 4 ∨ s.recv.cInitValid = false ∨ GroupOpen s.cfg s.recv →
        t.recv.cInitStage = s.recv.cInitStage) ∧
      t.seqState = .ready ∧ t.status = some .ok ∧
      t.rx0 = some x0 ∧ t.ry0 = some y0 ∧ t.rx1 = some (x0 + w - 1) ∧ t.ry1 = some (y0 + h - 1) ∧
      t.blen = some pb.length ∧ t.bidx = some pb.length ∧
      t.cs.level = some .deasserted ∧ t.dc.level = some .data ∧
      (t.recv.cResetDone = s.recv.cResetDone ∧ t.recv.cSleepOut = s.recv.cSleepOut ∧
        t.recv.cNormalOn = s.recv.cNormalOn ∧ t.recv.cDisplayOn = s.recv.cDisplayOn ∧
        t.recv.cBusy = s.recv.cBusy ∧ t.recv.cRstLowMs = s.recv.cRstLowMs) ∧
      (s.recv.controllerReady = true → t.recv.controllerReady = true) ∧
      (∀ reg : ConfigReg, s.recv.cCmd = some reg.cmd → s.recv.cPidx < s.cfg.nParams reg.cmd →
        t.recv.regs = s.recv.regs.set reg none) ∧
      ((∀ reg : ConfigReg, s.recv.cCmd ≠ some reg.cmd) ∨ ¬ GroupOpen s.cfg s.recv → t.recv.regs = s.recv.regs) ∧
      { t with
        rx0 := s.rx0, ry0 := s.ry0, rx1 := s.rx1, ry1 := s.ry1, blen := s.blen, bidx := s.bidx,
        status := s.status, recv := s.recv, trace := s.trace, draws := s.draws, drawCount := s.drawCount,
        cs := s.cs, dc := s.dc } = s

/-- R162, R164, R165, R51: the events of a BLIT that returned `OK`: the window, then the whole buffer in one frame, then the
release, exactly once and after the burst's chip-select is up, then the return. -/
def Obligations.BlitTrace : Prop :=
  ∀ (r : Rect) (pb : List Byte) (s t : State), LinesReliable s →
    exec (.blit r pb) s = .next t → t.trace.getLast? = some (.ret .ok) →
    t.trace = s.trace ++
      windowEvents s.cfg (BitVec.ofInt 16 r.x0) (BitVec.ofInt 16 r.y0) (BitVec.ofInt 16 r.x1) (BitVec.ofInt 16 r.y1) ++
      frameEvents .data pb ++ [.release, .ret .ok]

/-- R167: the same BLIT twice, both returning `OK`: the same events twice, and the second leaves every cell of the frame
memory as the first did. -/
def Obligations.BlitIsIdempotent : Prop :=
  ∀ (r : Rect) (pb : List Byte) (s t u : State), s.cfg.Wf → LinesReliable s →
    exec (.blit r pb) s = .next t → t.trace.getLast? = some (.ret .ok) →
    exec (.blit r pb) t = .next u → u.trace.getLast? = some (.ret .ok) →
    ∃ es, t.trace = s.trace ++ es ∧ u.trace = t.trace ++ es ∧
      ∀ row col, inPanel s.cfg row col = true → fmRead u.recv.fm row col = fmRead t.recv.fm row col

/-- R168, R184: where an accepted BLIT ends in a next state, it has completed or it has failed. On the failure path the events
are those up to and with the failing frame, of the window or of the burst, and no later frame; chip-select is deasserted,
the release comes only under `RELEASE_ON_FAILURE = always`, the return says so, and the rest stays. A failure inside
WINDOW_SET leaves the Receiver where the bytes that arrived take it, the window half set, and no cell changed. -/
def Obligations.BlitOutcome : Prop :=
  ∀ (r : Rect) (pb : List Byte) (s t : State), s.seqState = .ready → blitValid s.cfg r pb.length = true →
    LinesReliable s → exec (.blit r pb) s = .next t →
    (t.cs.level = some .deasserted ∧ t.rst = s.rst ∧ t.bl = s.bl ∧ t.tInit = s.tInit ∧ t.seqPc = s.seqPc ∧
      t.rx0 = some r.x0.toNat ∧ t.ry0 = some r.y0.toNat ∧ t.rx1 = some r.x1.toNat ∧ t.ry1 = some r.y1.toNat ∧
      t.blen = some pb.length) ∧
    ((t.seqState = .ready ∧ t.status = some .ok ∧ t.bidx = some pb.length ∧
       t.trace = s.trace ++
         windowEvents s.cfg (BitVec.ofInt 16 r.x0) (BitVec.ofInt 16 r.y0) (BitVec.ofInt 16 r.x1) (BitVec.ofInt 16 r.y1) ++
         frameEvents .data pb ++ [.release, .ret .ok]) ∨
     (t.seqState = .failed ∧ t.status = some .transportError ∧ t.bidx = some 0 ∧
       ∃ es, t.trace = s.trace ++ es ++ (if s.cfg.releaseOnFailure = .always then [.release] else []) ++
           [.ret .transportError] ∧ .release ∉ es ∧ es.getLast? = some (.line (.cs .deasserted)) ∧
         ((FailedWindow s.cfg (BitVec.ofInt 16 r.x0) (BitVec.ofInt 16 r.y0) (BitVec.ofInt 16 r.x1)
              (BitVec.ofInt 16 r.y1) es ∧
            (s.cfg.Wf → t.recv.fm = s.recv.fm ∧ ∃ n ≤ 11,
              wireBytes s.dc.level es = (windowBytes s.cfg (BitVec.ofInt 16 r.x0) (BitVec.ofInt 16 r.y0)
                (BitVec.ofInt 16 r.x1) (BitVec.ofInt 16 r.y1)).take n ∧
              t.recv = windowCut s.cfg (BitVec.ofInt 16 r.x0) (BitVec.ofInt 16 r.y0) (BitVec.ofInt 16 r.x1)
                (BitVec.ofInt 16 r.y1) n s.recv)) ∨
          (∃ es', FailedFrame .data pb es' ∧
            es = windowEvents s.cfg (BitVec.ofInt 16 r.x0) (BitVec.ofInt 16 r.y0) (BitVec.ofInt 16 r.x1)
              (BitVec.ofInt 16 r.y1) ++ es'))))

/-- R168, R83, R130: a burst that fails after `k` bytes has written `k div 2` pixels; the odd byte is held; the other cells of
the panel keep what they held. -/
def Obligations.BlitPartialBurst : Prop :=
  ∀ (x0 y0 w h k : Nat) (pb : List Byte) (s : State), s.seqState = .ready → 0 < w → 0 < h →
    x0 + w ≤ s.cfg.panelW → y0 + h ≤ s.cfg.panelH → pb.length = w * h * 2 → CanSend s (windowFrames s.cfg) →
    (s.drawAt (windowFrames s.cfg)).outcome = .fail → (s.drawAt (windowFrames s.cfg)).delivered = k → k ≤ pb.length →
    ∃ t, exec (.blit ⟨x0, y0, (x0 + w : Nat) - 1, (y0 + h : Nat) - 1⟩ pb) s = .next t ∧
      t.seqState = .failed ∧ t.status = some .transportError ∧ t.cs.level = some .deasserted ∧
      t.dc.level = some .data ∧
      (∀ i < k / 2, ∃ hi lo, pb[2 * i]? = some hi ∧ pb[2 * i + 1]? = some lo ∧
        fmRead t.recv.fm (y0 + i / w) (x0 + i % w) = some (BitVec.ofNat 16 (hi.toNat * 256 + lo.toNat))) ∧
      (∀ row col, inPanel s.cfg row col = true →
        (∀ i < k / 2, ¬ (row = y0 + i / w ∧ col = x0 + i % w)) →
        fmRead t.recv.fm row col = fmRead s.recv.fm row col) ∧
      t.recv.cHalf = (if k % 2 = 1 then pb[k - 1]? else none) ∧
      t.recv.cFull = decide (k = pb.length)

/-! ### The machine -/

/-- The invariant at power-on, with the default parameters (log 2). -/
def Obligations.ResetInvariant : Prop :=
  State.reset.Inv ∧ State.reset.HostInv

/-- Every step keeps the invariant: the frame memory stays in canonical form and inside the panel, the stage in range, the
pointer inside an armed window, a register empty or exactly as long as its count, `SEQ_PC` in range, and no operation is
left in flight. That last clause is the model's grain and no rule of the spec: INIT and BLIT are one step each (log 17,
DESIGN CHOICE, unsafe). -/
def Obligations.StepKeepsInvariant : Prop :=
  ∀ s t : State, s.Inv → step s = .next t → t.Inv

/-- No step faults, while the hang of U12 is not allowed: no pixel is ever written outside the panel (R43). -/
def Obligations.StepNeverFaults : Prop :=
  ∀ (s : State) (f : Fault), s.Inv → s.cfg.transportCanHang = false → step s ≠ .fault f

/-- R100, R102, R155, R173 in the large: the Host that calls INIT, and BLIT from `READY`, is never refused and never leaves
the source's behaviour, whatever the transport does at any of its calls; and the block is `READY` only while the controller is
display-ready (R29, R156, R224). -/
def Obligations.HostCallsNeverRefused : Prop :=
  ∀ (i : Instr) (s : State), s.HostInv → isHostOp i = true → LinesReliable s → s.cfg.transportCanHang = false →
    (s.seqState = .ready ∨ i = .init) →
    ∃ t, exec i s = .next t ∧ t.HostInv

/-- R14, R12, R11, R18: with no operation in flight, `STATUS`, the operand latches, `SEQ_STATE` and `SEQ_PC` are written by INIT
and BLIT and by nothing else; only INIT moves `SEQ_PC`; and nothing else returns a status or gives the buffer back. -/
def Obligations.StatusOnlyByHostOperations : Prop :=
  ∀ (i : Instr) (s t : State), s.inFlight = false → exec i s = .next t →
    (isHostOp i = false → t.status = s.status ∧ t.seqState = s.seqState ∧ t.seqPc = s.seqPc ∧
      t.rx0 = s.rx0 ∧ t.ry0 = s.ry0 ∧ t.rx1 = s.rx1 ∧ t.ry1 = s.ry1 ∧ t.blen = s.blen ∧ t.bidx = s.bidx) ∧
    (i ≠ .init → t.seqPc = s.seqPc) ∧
    (isHostOp i = false → ∃ es, t.trace = s.trace ++ es ∧ .release ∉ es ∧ ∀ st, .ret st ∉ es)

/-- R93, R104, R91: a wire command one of whose transfers fails: what was sent before, the failed frame, and nothing after it.
A command frame that fails (V36) leaves the Receiver alone where its byte did not arrive; where it did, the command is
taken, or refused, as by itself, for every command and in every state of the Receiver. A parameter transfer that fails (as
V35's, there inside a BLIT) commits nothing before the last byte of the group has arrived, and the command stays current
with the bytes that did arrive; a last byte that was delivered commits the group although its transfer failed, as if it had
succeeded. callResult is the model's (log 5). -/
def Obligations.ExchangeCutShort : Prop :=
  (∀ (cmd : Cmd) (ps : List Byte) (s : State), LinesReliable s → BusUsable s → s.inFlight = false →
    (s.drawAt 0).outcome = .fail →
    ((s.drawAt 0).delivered = 0 →
      exec (instrOfCmd cmd ps) s = .next
        { afterBus s .command (transferEvents .command [s.cfg.codes.get cmd] false 0) 1 s.recv with
          callResult := some .transportError }) ∧
    (1 ≤ (s.drawAt 0).delivered →
      (∀ u, exec (instrOfCmd cmd []) { s with draws := [⟨.ok, 0, true⟩] } = .next u →
        exec (instrOfCmd cmd ps) s = .next
          { afterBus s .command (transferEvents .command [s.cfg.codes.get cmd] false 1) 1 u.recv with
            callResult := some .transportError }) ∧
      (∀ w, exec (instrOfCmd cmd []) { s with draws := [⟨.ok, 0, true⟩] } = .refused w →
        exec (instrOfCmd cmd ps) s = .refused w) ∧
      (CanSend s 0 → ¬ GroupOpen s.cfg s.recv → Accepts s.recv cmd → 0 < s.cfg.nParams cmd →
        exec (instrOfCmd cmd ps) s = .next
          { afterBus s .command (transferEvents .command [s.cfg.codes.get cmd] false 1) 1
              (insideGroup cmd [] s.recv) with
            callResult := some .transportError }))) ∧
  ∀ (cmd : Cmd) (ps : List Byte) (s : State), CanSend s 1 → ¬ GroupOpen s.cfg s.recv → Accepts s.recv cmd →
    ps ≠ [] → ps.length = s.cfg.nParams cmd → s.inFlight = false →
    (s.cfg.paramFraming = .perGroup → (s.drawAt 1).outcome = .fail →
      ((s.drawAt 1).delivered < ps.length →
        exec (instrOfCmd cmd ps) s = .next
          { afterBus s .data (frameEvents .command [s.cfg.codes.get cmd] ++
              transferEvents .data ps false (s.drawAt 1).delivered) 2
              (insideGroup cmd (ps.take (s.drawAt 1).delivered) s.recv) with
            callResult := some .transportError }) ∧
      (ps.length ≤ (s.drawAt 1).delivered →
        ∃ u, exec (instrOfCmd cmd ps) { s with draws := List.replicate 2 ⟨.ok, 0, true⟩ } = .next u ∧
          exec (instrOfCmd cmd ps) s = .next
            { afterBus s .data (frameEvents .command [s.cfg.codes.get cmd] ++
                transferEvents .data ps false ps.length) 2 u.recv with
              callResult := some .transportError })) ∧
    (∀ (j k : Nat) (b : Byte), s.cfg.paramFraming = .perByte → ps[j]? = some b → DrawsOk s (1 + j) →
      (s.drawAt (1 + j)).outcome = .fail → k = min (s.drawAt (1 + j)).delivered 1 →
      (j + k < ps.length →
        exec (instrOfCmd cmd ps) s = .next
          { afterBus s .data (frameEvents .command [s.cfg.codes.get cmd] ++
              ((ps.take j).flatMap fun b => frameEvents .data [b]) ++ transferEvents .data [b] false k) (2 + j)
              (insideGroup cmd (ps.take (j + k)) s.recv) with
            callResult := some .transportError }) ∧
      (j + k = ps.length →
        ∃ u, exec (instrOfCmd cmd ps) { s with draws := List.replicate (1 + ps.length) ⟨.ok, 0, true⟩ } = .next u ∧
          exec (instrOfCmd cmd ps) s = .next
            { afterBus s .data (frameEvents .command [s.cfg.codes.get cmd] ++
                ((ps.take j).flatMap fun b => frameEvents .data [b]) ++ transferEvents .data [b] false k) (2 + j)
                u.recv with
              callResult := some .transportError }))

/-- R193, R184, R185, R180: "every condition goes to the one caller". What the Host calls returns to it exactly once, at its
end, with the status it leaves in `STATUS`, and hands its condition to nobody else; a Platform or Bus Framer call executed
by itself hands its result to its own caller (callResult, log 5) and returns nothing to the Host, unless it raises inside
an operation of the Host, whose caller then gets it. -/
def Obligations.ConditionsGoToTheCaller : Prop :=
  (∀ (i : Instr) (s t : State), isHostOp i = true → exec i s = .next t →
    ∃ es st, t.trace = s.trace ++ es ++ [.ret st] ∧ (∀ st', .ret st' ∉ es) ∧ t.status = some st ∧
      t.callResult = s.callResult ∧
      (st = .ok ∧ t.seqState = .ready ∨ st = .transportError ∧ t.seqState = .failed ∨
        st = .invalidArgument ∧ t.seqState = s.seqState ∧ i ≠ .init)) ∧
  (∀ (i : Instr) (s t : State), isHostOp i = false → exec i s = .next t →
    t.callResult ≠ none ∧
    (t.callResult = some .transportError → s.inFlight = true →
      ∃ es, t.trace = s.trace ++ es ++ [.ret .transportError] ∧ (∀ st, .ret st ∉ es) ∧
        t.status = some .transportError ∧ t.seqState = .failed) ∧
    (t.callResult ≠ some .transportError ∨ s.inFlight = false →
      ∃ es, t.trace = s.trace ++ es ∧ (∀ st, .ret st ∉ es) ∧ t.status = s.status ∧ t.seqState = s.seqState))

/-- R160, R168, R161: a WINDOW_SET whose transfer number `j` fails (from 0, one transfer a frame): the error is handed to the
caller (callResult, log 5) and the remaining frames are not sent; the bytes that reached the wire are the first `n` of the
eleven, and they alone have moved the Receiver; no cell has changed. -/
def Obligations.WindowSetCutShort : Prop :=
  ∀ (x0 y0 x1 y1 : Half) (j : Nat) (s : State), wf s.cfg (.windowSet x0 y0 x1 y1) = true → CanSend s j →
    j < windowFrames s.cfg → (s.drawAt j).outcome = .fail → s.inFlight = false →
    ∃ t es n, exec (.windowSet x0 y0 x1 y1) s = .next t ∧ t.callResult = some .transportError ∧
      t.trace = s.trace ++ es ∧ FailedWindow s.cfg x0 y0 x1 y1 es ∧ es.length = 4 * (j + 1) ∧
      (∃ bytes, .xfer bytes false (min (s.drawAt j).delivered bytes.length) ∈ es) ∧
      n ≤ 11 ∧ wireBytes s.dc.level es = (windowBytes s.cfg x0 y0 x1 y1).take n ∧
      t.recv = windowCut s.cfg x0 y0 x1 y1 n s.recv ∧ t.recv.fm = s.recv.fm ∧
      t.cs.level = some .deasserted ∧ KeepsDriver s t
end

