-- ==== Sys2Proof/Laws/Memory.lean ====
section
/-! SUPPORT. The laws of the frame memory (R28, R44) and of the split of 16-bit values (R66). -/

namespace Sys2Proof.Machine

/-! ### Bytes of a 16-bit value -/

/-- The Receiver rebuilds what the driver split (R66). -/
@[simp] theorem joinBytes_split (v : Half) : joinBytes (hiByte v) (loByte v) = v := by
  apply BitVec.eq_of_toNat_eq
  simp only [joinBytes, hiByte, loByte, BitVec.toNat_append, BitVec.extractLsb'_toNat]
  have := v.isLt
  rw [Nat.shiftLeft_eq, Nat.shiftRight_eq_div_pow, Nat.shiftRight_eq_div_pow, ← Nat.shiftLeft_eq,
    ← Nat.shiftLeft_add_eq_or_of_lt (by omega), Nat.shiftLeft_eq]
  omega

theorem toHalf_toNat {n : Nat} (h : n < 65536) : (toHalf n).toNat = n := by
  simp [toHalf]
  omega

@[simp] theorem addressParams_length (a b : Half) : (addressParams a b).length = 4 := rfl

/-! ### Keys -/

/-- Cells of a panel have different keys (R43; R5 bounds a panel's width). -/
theorem fmKey_inj {row col row' col' : Nat} (h : col < 65536) (h' : col' < 65536)
    (e : fmKey row col = fmKey row' col') : row = row' ∧ col = col' := by
  unfold fmKey at e
  omega

/-! ### Reading and writing -/

/-- A read of the cell just written gives the value written. -/
@[simp] theorem fmLookup_fmInsert_self (m : FrameMemory) (key : Nat) (v : Half) :
    fmLookup (fmInsert m key v) key = some v := by
  induction m with
  | nil => simp [fmInsert, fmLookup]
  | cons kv m ih =>
    obtain ⟨k, w⟩ := kv
    rcases Nat.lt_trichotomy key k with h | h | h
    · simp [fmInsert, fmLookup, h]
    · simp [fmInsert, fmLookup, h]
    · simp [fmInsert, fmLookup, ih, show ¬ key < k by omega, show key ≠ k by omega, show k ≠ key by omega]

/-- A write leaves every other cell alone. -/
theorem fmLookup_fmInsert_of_ne (m : FrameMemory) {key key' : Nat} (v : Half) (h : key' ≠ key) :
    fmLookup (fmInsert m key v) key' = fmLookup m key' := by
  induction m with
  | nil => simp [fmInsert, fmLookup, Ne.symm h]
  | cons kv m ih =>
    obtain ⟨k, w⟩ := kv
    rcases Nat.lt_trichotomy key k with hk | hk | hk
    · simp [fmInsert, fmLookup, hk, Ne.symm h]
    · subst hk
      simp [fmInsert, fmLookup, Ne.symm h]
    · simp [fmInsert, fmLookup, ih, show ¬ key < k by omega, show key ≠ k by omega]

@[simp] theorem fmRead_fmWrite_self (m : FrameMemory) (row col : Nat) (v : Half) :
    fmRead (fmWrite m row col v) row col = some v :=
  fmLookup_fmInsert_self m _ v

theorem fmRead_fmWrite_of_ne (m : FrameMemory) {row col row' col' : Nat} (v : Half)
    (h : fmKey row' col' ≠ fmKey row col) : fmRead (fmWrite m row col v) row' col' = fmRead m row' col' :=
  fmLookup_fmInsert_of_ne m v h

/-! ### The canonical form -/

/-- An entry after a write is the one written or was there. -/
theorem mem_fmInsert {m : FrameMemory} {key : Nat} {v : Half} {kv : Nat × Half} (h : kv ∈ fmInsert m key v) :
    kv = (key, v) ∨ kv ∈ m := by
  induction m with
  | nil => simpa [fmInsert] using h
  | cons e m ih =>
    obtain ⟨k, w⟩ := e
    unfold fmInsert at h
    split at h
    · simpa using h
    · split at h
      · rcases List.mem_cons.1 h with h | h
        · exact .inl h
        · exact .inr (List.mem_cons_of_mem _ h)
      · rcases List.mem_cons.1 h with h | h
        · exact .inr (h ▸ List.mem_cons_self ..)
        · rcases ih h with h | h
          · exact .inl h
          · exact .inr (List.mem_cons_of_mem _ h)

theorem FrameMemory.wf_nil : FrameMemory.wf [] := by simp [FrameMemory.wf]

/-- A write keeps the canonical form. -/
theorem FrameMemory.wf_fmInsert {m : FrameMemory} (h : m.wf) (key : Nat) (v : Half) :
    FrameMemory.wf (fmInsert m key v) := by
  induction m with
  | nil => simp [fmInsert, FrameMemory.wf]
  | cons e m ih =>
    obtain ⟨k, w⟩ := e
    simp only [FrameMemory.wf, List.map_cons, List.pairwise_cons, List.mem_map] at h
    obtain ⟨hk, hm⟩ := h
    unfold fmInsert
    split
    · rename_i hlt
      simp only [FrameMemory.wf, List.map_cons, List.pairwise_cons, List.mem_cons, List.mem_map]
      refine ⟨?_, hk, hm⟩
      rintro x (rfl | hx)
      · exact hlt
      · exact Nat.lt_trans hlt (hk x hx)
    · split
      · rename_i he
        subst he
        simp only [FrameMemory.wf, List.map_cons, List.pairwise_cons, List.mem_map]
        exact ⟨hk, hm⟩
      · rename_i hlt hne
        simp only [FrameMemory.wf, List.map_cons, List.pairwise_cons, List.mem_map]
        refine ⟨?_, ih hm⟩
        rintro x ⟨kv, hkv, rfl⟩
        rcases mem_fmInsert hkv with rfl | hkv
        · show k < key
          omega
        · exact hk _ ⟨kv, hkv, rfl⟩

theorem FrameMemory.wf_fmWrite {m : FrameMemory} (h : m.wf) (row col : Nat) (v : Half) :
    FrameMemory.wf (fmWrite m row col v) :=
  FrameMemory.wf_fmInsert h _ v

/-- The reset machine's frame memory is in canonical form. -/
theorem reset_fm_wf : State.reset.recv.fm.wf := FrameMemory.wf_nil

/-- A write to a cell of the panel keeps a good frame memory good. -/
theorem FrameMemoryOk.fmWrite {c : Config} {m : FrameMemory} (h : FrameMemoryOk c m) {row col : Nat}
    (hp : inPanel c row col = true) (v : Half) : FrameMemoryOk c (fmWrite m row col v) := by
  refine ⟨FrameMemory.wf_fmWrite h.1 row col v, fun kv hkv => ?_⟩
  rcases mem_fmInsert hkv with rfl | hkv
  · exact ⟨row, col, hp, rfl⟩
  · exact h.2 kv hkv

theorem FrameMemoryOk.nil (c : Config) : FrameMemoryOk c [] :=
  ⟨FrameMemory.wf_nil, by simp⟩

/-- In canonical form two frame memories that read alike everywhere are equal. -/
theorem FrameMemory.wf_ext {m m' : FrameMemory} (h : m.wf) (h' : m'.wf)
    (e : ∀ key, fmLookup m key = fmLookup m' key) : m = m' := by
  have none_of_lt : ∀ {l : FrameMemory} {a : Nat}, (∀ x ∈ l.map Prod.fst, a < x) → fmLookup l a = none := by
    intro l a hl
    induction l with
    | nil => rfl
    | cons kv l ih =>
      obtain ⟨k, w⟩ := kv
      simp only [List.map_cons, List.mem_cons, forall_eq_or_imp] at hl
      simp [fmLookup, show k ≠ a by omega, ih hl.2]
  induction m generalizing m' with
  | nil =>
    cases m' with
    | nil => rfl
    | cons kv m' =>
      have := e kv.1
      simp [fmLookup] at this
  | cons kv m ih =>
    cases m' with
    | nil =>
      have := e kv.1
      simp [fmLookup] at this
    | cons kv' m' =>
      obtain ⟨k, w⟩ := kv
      obtain ⟨k', w'⟩ := kv'
      simp only [FrameMemory.wf, List.map_cons, List.pairwise_cons] at h h'
      have hkk : k = k' := by
        rcases Nat.lt_trichotomy k k' with hlt | heq | hgt
        · have h1 := e k
          have : fmLookup m' k = none := none_of_lt fun x hx => Nat.lt_trans hlt (h'.1 x hx)
          simp [fmLookup, this, show k' ≠ k by omega] at h1
        · exact heq
        · have h1 := e k'
          have : fmLookup m k' = none := none_of_lt fun x hx => Nat.lt_trans hgt (h.1 x hx)
          simp [fmLookup, this, show k ≠ k' by omega] at h1
      subst hkk
      have hw : w = w' := by
        have := e k
        simpa [fmLookup] using this
      subst hw
      congr 1
      refine ih h.2 h'.2 fun key => ?_
      by_cases hkey : k = key
      · subst hkey
        rw [none_of_lt h.1, none_of_lt h'.1]
      · have := e key
        simpa [fmLookup, hkey] using this

end Sys2Proof.Machine
end

