-- ==== Sys2Proof/Laws/Receiver.lean ====
section
/-! SUPPORT. What the Receiver can do: the lookup of a command byte, the intake of the bytes of a frame, the commit of a
parameter group, and the preservation of its invariant. -/

namespace Sys2Proof.Machine

/-! ### Tables -/

theorem Cmd.mem_all (cmd : Cmd) : cmd ∈ Cmd.all := by cases cmd <;> decide

theorem ConfigReg.mem_all (reg : ConfigReg) : reg ∈ ConfigReg.all := by cases reg <;> decide

/-- The lookup answers a command only for its own byte (R101). -/
theorem cmdOf_eq_some {c : Config} {b : Byte} {cmd : Cmd} (h : c.cmdOf b = some cmd) : c.codes.get cmd = b := by
  simpa using List.find?_some h

/-- Distinct command bytes are decoded (R71: "pairwise distinct ... so that the Receiver can decode"). -/
theorem cmdOf_get {c : Config} (h : c.Wf) (cmd : Cmd) : c.cmdOf (c.codes.get cmd) = some cmd := by
  have hn := h.2.2.2.1
  have hinj := List.inj_on_of_nodup_map hn
  unfold Config.cmdOf
  cases hf : Cmd.all.find? (fun x => c.codes.get x == c.codes.get cmd) with
  | none =>
    have := List.find?_eq_none.1 hf cmd (Cmd.mem_all cmd)
    simp at this
  | some x =>
    have hx : c.codes.get x = c.codes.get cmd := by simpa using List.find?_some hf
    rw [hinj (Cmd.mem_all x) (Cmd.mem_all cmd) hx]

/-- The lookup fails exactly on the bytes that are no command's (R73). -/
theorem cmdOf_eq_none {c : Config} {b : Byte} : c.cmdOf b = none ↔ wfUnknown c b = true := by
  simp [Config.cmdOf, wfUnknown]

/-- The count of a configuration command is its entry of the table (R72). -/
@[simp] theorem nParams_cmd (c : Config) (reg : ConfigReg) : c.nParams reg.cmd = c.counts.get reg := by
  cases reg <;> rfl

@[simp] theorem RegTable.get_set_self {α : Type} (t : RegTable α) (reg : ConfigReg) (v : α) :
    (t.set reg v).get reg = v := by
  cases reg <;> rfl

theorem RegTable.get_set_of_ne {α : Type} (t : RegTable α) {reg reg' : ConfigReg} (v : α) (h : reg' ≠ reg) :
    (t.set reg v).get reg' = t.get reg' := by
  cases reg <;> cases reg' <;> first | rfl | exact absurd rfl h

@[simp] theorem RegTable.get_const {α : Type} (v : α) (reg : ConfigReg) : (RegTable.const v).get reg = v := by
  cases reg <;> rfl

/-! ### Intake -/

/-- Inside a command frame of a controller that is awake, the byte is a command (R100). -/
theorem takeByte_command {c : Config} {p : Pins} {r : Receiver} (hcs : p.cs = some .asserted)
    (hdc : p.dc = some .command) (hrst : p.rst = some .high) (hd : r.cResetDone = true) (hb : r.cBusy = 0) (b : Byte) :
    takeByte c p b r = takeCommand c b r := by
  simp [takeByte, hcs, hdc, hrst, hd, hb]

/-- Inside a data frame of a controller that is awake, the byte is data (R100). -/
theorem takeByte_data {c : Config} {p : Pins} {r : Receiver} (hcs : p.cs = some .asserted)
    (hdc : p.dc = some .data) (hrst : p.rst = some .high) (hd : r.cResetDone = true) (hb : r.cBusy = 0) (b : Byte) :
    takeByte c p b r = takeData c b r := by
  simp [takeByte, hcs, hdc, hrst, hd, hb]

@[simp] theorem takeBytes_nil (c : Config) (p : Pins) (r : Receiver) : takeBytes c p [] r = .ok r := rfl

theorem takeBytes_cons (c : Config) (p : Pins) (b : Byte) (bs : List Byte) (r : Receiver) :
    takeBytes c p (b :: bs) r = (takeByte c p b r).bind (takeBytes c p bs) := by
  unfold takeBytes
  cases takeByte c p b r <;> rfl

@[simp] theorem takeBytes_singleton (c : Config) (p : Pins) (b : Byte) (r : Receiver) :
    takeBytes c p [b] r = takeByte c p b r := by
  rw [takeBytes_cons]
  cases takeByte c p b r <;> rfl

/-- Bytes are taken one after the other, however they are grouped in transfers (R50, R78). -/
theorem takeBytes_append (c : Config) (p : Pins) (bs bs' : List Byte) (r : Receiver) :
    takeBytes c p (bs ++ bs') r = (takeBytes c p bs r).bind (takeBytes c p bs') := by
  induction bs generalizing r with
  | nil => rfl
  | cons b bs ih =>
    simp only [List.cons_append, takeBytes_cons]
    cases takeByte c p b r with
    | error e => rfl
    | ok r1 => exact ih r1

/-- A controller that takes a run of bytes takes every prefix of it (R83: any prefix may be what arrived). -/
theorem takeBytes_take {c : Config} {p : Pins} {bs : List Byte} {r r' : Receiver} (h : takeBytes c p bs r = .ok r')
    (k : Nat) : ∃ r1, takeBytes c p (bs.take k) r = .ok r1 := by
  rw [← List.take_append_drop k bs, takeBytes_append] at h
  cases h1 : takeBytes c p (bs.take k) r with
  | ok r1 => exact ⟨r1, rfl⟩
  | error e => simp [h1, Except.bind] at h

/-! ### Commands -/

@[simp] theorem beginCommand_cCmd (cmd : Cmd) (r : Receiver) : (beginCommand cmd r).cCmd = some cmd := rfl
@[simp] theorem beginCommand_cInitStage (cmd : Cmd) (r : Receiver) :
    (beginCommand cmd r).cInitStage = r.cInitStage := rfl
@[simp] theorem beginCommand_cInitValid (cmd : Cmd) (r : Receiver) :
    (beginCommand cmd r).cInitValid = r.cInitValid := rfl

/-- With no group waiting for bytes a new command ends nothing (R104). -/
theorem endGroup_of_closed {c : Config} {r : Receiver} (h : ¬ GroupOpen c r) : endGroup c r = r := by
  unfold endGroup
  cases hc : r.cCmd with
  | none => rfl
  | some cmd => simp [show ¬ r.cPidx < c.nParams cmd from fun hp => h ⟨cmd, hc, hp⟩]

/-- A command byte in its place in the order leaves the validity as it is (R108). -/
theorem trackerStart_inOrder {cmd : Cmd} {r : Receiver} (h : initOrder[r.cInitStage]? = some cmd) :
    trackerStart cmd r = .ok r := by
  have : r.cInitStage < 19 := by
    have := (List.getElem?_eq_some_iff.1 h).1
    simpa [initOrder] using this
  simp [trackerStart, this, h]

/-- A completed command in its place advances the stage (R108). -/
theorem trackerDone_inOrder {cmd : Cmd} {r : Receiver} (h : initOrder[r.cInitStage]? = some cmd)
    (hv : r.cInitValid = true) : trackerDone cmd r = { r with cInitStage := r.cInitStage + 1 } := by
  have : r.cInitStage < 19 := by
    have := (List.getElem?_eq_some_iff.1 h).1
    simpa [initOrder] using this
  simp [trackerDone, this, h, hv]

/-- A command byte of a command (R101). -/
theorem takeCommand_get {c : Config} (h : c.Wf) (cmd : Cmd) (r : Receiver) :
    takeCommand c (c.codes.get cmd) r = runCommand c cmd r := by
  simp [takeCommand, cmdOf_get h]

/-! ### Parameter groups -/

/-- The bytes of a group that is not yet complete after them only accumulate (R102, R104). -/
theorem takeBytes_params_open {c : Config} {p : Pins} (hcs : p.cs = some .asserted) (hdc : p.dc = some .data)
    (hrst : p.rst = some .high) {cmd : Cmd} (hm : cmd ≠ .memoryWrite) (ps : List Byte) (r : Receiver)
    (hd : r.cResetDone = true) (hb : r.cBusy = 0) (hc : r.cCmd = some cmd)
    (hn : r.cPidx + ps.length < c.nParams cmd) :
    takeBytes c p ps r = .ok { r with cPbuf := r.cPbuf ++ ps, cPidx := r.cPidx + ps.length } := by
  induction ps generalizing r with
  | nil => simp
  | cons b ps ih =>
    simp only [List.length_cons] at hn
    rw [takeBytes_cons, takeByte_data hcs hdc hrst hd hb]
    have h1 : takeData c b r = .ok (pushParam b r) := by
      simp [takeData, hc, hm, takeParam, show c.nParams cmd ≠ 0 by omega, show ¬ c.nParams cmd ≤ r.cPidx by omega,
        show r.cPidx + 1 ≠ c.nParams cmd by omega]
    rw [h1]
    show takeBytes c p ps (pushParam b r) = _
    rw [ih (pushParam b r) hd hb hc (by simp [pushParam]; omega)]
    simp [pushParam, Nat.add_assoc, Nat.add_comm 1]

/-- A whole group is taken and commits at its last byte (R102, R104). -/
theorem takeBytes_params {c : Config} {p : Pins} (hcs : p.cs = some .asserted) (hdc : p.dc = some .data)
    (hrst : p.rst = some .high) {cmd : Cmd} (hm : cmd ≠ .memoryWrite) (ps : List Byte) (r : Receiver)
    (hd : r.cResetDone = true) (hb : r.cBusy = 0) (hc : r.cCmd = some cmd) (hi : r.cPidx = 0) (hp : r.cPbuf = [])
    (hne : ps ≠ []) (hn : ps.length = c.nParams cmd) :
    takeBytes c p ps r = .ok (trackerDone cmd (commitEffect cmd { r with cPbuf := ps, cPidx := ps.length })) := by
  obtain ⟨qs, b, rfl⟩ : ∃ qs b, ps = qs ++ [b] := ⟨_, _, (List.dropLast_append_getLast hne).symm⟩
  simp only [List.length_append, List.length_singleton] at hn
  rw [takeBytes_append, takeBytes_params_open hcs hdc hrst hm qs r hd hb hc (by omega)]
  show takeBytes c p [b] _ = _
  rw [takeBytes_singleton, takeByte_data hcs hdc hrst (by exact hd) (by exact hb)]
  simp [takeData, hc, hm, takeParam, pushParam, hi, hp, ← hn]

/-! ### The invariant -/

theorem ReceiverOk.powerOn (c : Config) : ReceiverOk c Receiver.powerOn where
  fm := FrameMemoryOk.nil c
  stage := by simp [Receiver.powerOn]
  pointer := by simp [Receiver.powerOn, Receiver.cArmed]
  pbuf := rfl
  pidx := by simp [Receiver.powerOn]
  regs := by simp [Receiver.powerOn]
  half := by simp [Receiver.powerOn]
  current := by simp [Receiver.powerOn]

theorem ReceiverOk.hardwareReset (c : Config) : ReceiverOk c (hardwareReset c) where
  fm := FrameMemoryOk.nil c
  stage := by simp [Machine.hardwareReset, Receiver.powerOn]
  pointer := by simp [Machine.hardwareReset, Receiver.powerOn, Receiver.cArmed]
  pbuf := rfl
  pidx := by simp [Machine.hardwareReset, Receiver.powerOn]
  regs := by simp [Machine.hardwareReset, Receiver.powerOn]
  half := by simp [Machine.hardwareReset, Receiver.powerOn]
  current := by simp [Machine.hardwareReset]

/-- What the reset line can do (R106): load the low timer, reset, or nothing. -/
theorem resetLine_cases {c : Config} {prev : Option RstLevel} {new : RstLevel} {r r' : Receiver}
    (h : resetLine c prev new r = .ok r') :
    (new = .low ∧ r' = { r with cRstLowMs := 0 }) ∨
    (new = .high ∧ prev = some .low ∧ c.tRstLow ≤ r.cRstLowMs ∧ r' = hardwareReset c) ∨
    (new = .high ∧ prev ≠ some .low ∧ r' = r) := by
  unfold resetLine at h
  split at h
  · exact .inl ⟨rfl, by simpa using h.symm⟩
  · split at h
    · split at h
      · cases h
      · exact .inr (.inl ⟨rfl, ‹_›, by omega, by simpa using h.symm⟩)
    · exact .inr (.inr ⟨rfl, ‹_›, by simpa using h.symm⟩)

theorem ReceiverOk.resetLine {c : Config} {prev : Option RstLevel} {new : RstLevel} {r r' : Receiver}
    (hr : ReceiverOk c r) (h : resetLine c prev new r = .ok r') : ReceiverOk c r' := by
  obtain ⟨-, rfl⟩ | ⟨-, -, -, rfl⟩ | ⟨-, -, rfl⟩ := resetLine_cases h
  · exact ⟨hr.fm, hr.stage, hr.pointer, hr.pbuf, hr.pidx, hr.regs, hr.half, hr.current⟩
  · exact .hardwareReset c
  · exact hr

theorem ReceiverOk.passTime {c : Config} {r : Receiver} (hr : ReceiverOk c r) (l : Option RstLevel) (ms : Nat) :
    ReceiverOk c (passTime l ms r) :=
  ⟨hr.fm, hr.stage, hr.pointer, hr.pbuf, hr.pidx, hr.regs, hr.half, hr.current⟩

theorem regs_set_ok {c : Config} {t : RegTable (Option (List Byte))} {reg : ConfigReg} {v : Option (List Byte)}
    (ht : ∀ reg ps, t.get reg = some ps → ps.length = c.nParams reg.cmd)
    (hv : ∀ ps, v = some ps → ps.length = c.nParams reg.cmd) :
    ∀ reg' ps, (t.set reg v).get reg' = some ps → ps.length = c.nParams reg'.cmd := by
  intro reg' ps h
  by_cases e : reg' = reg
  · subst e
    exact hv ps (by simpa using h)
  · exact ht reg' ps (by rwa [RegTable.get_set_of_ne _ _ e] at h)

/-- What the tracker's completion can change. -/
theorem trackerDone_cases (cmd : Cmd) (r : Receiver) :
    trackerDone cmd r = r ∨ (r.cInitStage < 19 ∧ trackerDone cmd r = { r with cInitStage := r.cInitStage + 1 }) := by
  unfold trackerDone
  split
  · exact .inr ⟨(by tauto), rfl⟩
  · exact .inl rfl

theorem ReceiverOk.trackerDone {c : Config} {r : Receiver} (hr : ReceiverOk c r) (cmd : Cmd) :
    ReceiverOk c (trackerDone cmd r) := by
  rcases trackerDone_cases cmd r with h | ⟨hlt, h⟩ <;> rw [h]
  · exact hr
  · exact ⟨hr.fm, hlt, hr.pointer, hr.pbuf, hr.pidx, hr.regs, hr.half, hr.current⟩

/-- What the tracker's start can change. -/
theorem trackerStart_cases {cmd : Cmd} {r r' : Receiver} (h : trackerStart cmd r = .ok r') :
    r' = r ∨ r' = { r with cInitValid := false } := by
  unfold trackerStart at h
  split at h
  · split at h
    · exact .inl (by simpa using h.symm)
    · exact .inr (by simpa using h.symm)
  · split at h
    · exact .inl (by simpa using h.symm)
    · cases h

/-- A Receiver that has just begun a command: everything but the pointer is good. -/
structure BegunOk (c : Config) (cmd : Cmd) (r : Receiver) : Prop where
  fm : FrameMemoryOk c r.fm
  stage : r.cInitStage ≤ 19
  cmd : r.cCmd = some cmd
  pidx : r.cPidx = 0
  pbuf : r.cPbuf = []
  regs : ∀ reg ps, r.regs.get reg = some ps → ps.length = c.nParams reg.cmd
  half : r.cHalf = none
  current : r.cResetDone = true

theorem endGroup_ok {c : Config} {r : Receiver} (hr : ReceiverOk c r) :
    FrameMemoryOk c (endGroup c r).fm ∧ (endGroup c r).cInitStage ≤ 19 ∧
      (∀ reg ps, (endGroup c r).regs.get reg = some ps → ps.length = c.nParams reg.cmd) ∧
      (endGroup c r).cResetDone = r.cResetDone := by
  unfold endGroup
  cases hc : r.cCmd with
  | none => exact ⟨hr.fm, hr.stage, hr.regs, rfl⟩
  | some cmd =>
    dsimp only
    split
    · cases cmd <;>
        first
        | exact ⟨hr.fm, hr.stage, hr.regs, rfl⟩
        | exact ⟨hr.fm, hr.stage, regs_set_ok hr.regs (by simp), rfl⟩
    · exact ⟨hr.fm, hr.stage, hr.regs, rfl⟩

theorem BegunOk.ok {c : Config} {cmd : Cmd} {r : Receiver} (h : BegunOk c cmd r) (hm : cmd ≠ .memoryWrite) :
    ReceiverOk c r where
  fm := h.fm
  stage := h.stage
  pointer := by simp [Receiver.cArmed, h.cmd, hm]
  pbuf := by simp [h.pbuf, h.pidx]
  pidx := by simp [h.pidx]
  regs := h.regs
  half := by simp [h.half]
  current := by simp [h.current]

/-- Every command's effect at its command byte gives a good Receiver. -/
theorem ReceiverOk.commandEffect {c : Config} {cmd : Cmd} {r r' : Receiver} (hr : BegunOk c cmd r)
    (h : commandEffect c cmd r = .ok r') : ReceiverOk c r' := by
  have keep : ∀ {r1 : Receiver}, cmd ≠ .memoryWrite → Machine.commandEffect c cmd r = .ok r1 →
      Machine.commandEffect c cmd r = .ok r → ReceiverOk c r1 := by
    intro r1 hm h1 h2
    rw [h1] at h2
    obtain rfl : r1 = r := by simpa using h2
    exact hr.ok hm
  cases cmd
  case softwareReset =>
    obtain rfl : softwareResetEffect c r = r' := by simpa [Machine.commandEffect] using h
    unfold softwareResetEffect
    split
    · exact ⟨.nil c, hr.stage, by simp [Receiver.cArmed], rfl, by simp, by simp, by simp, by simp [hr.current]⟩
    · exact ⟨.nil c, by simp, by simp [Receiver.cArmed], rfl, by simp, by simp, by simp, by simp [hr.current]⟩
  case sleepOut =>
    obtain rfl : sleepOutEffect c r = r' := by simpa [Machine.commandEffect] using h
    have := hr.ok (by simp)
    exact ⟨this.fm, this.stage, this.pointer, this.pbuf, this.pidx, this.regs, this.half, this.current⟩
  case normalDisplayOn =>
    obtain rfl : normalDisplayOnEffect c r = r' := by simpa [Machine.commandEffect] using h
    have := hr.ok (by simp)
    exact ⟨this.fm, this.stage, this.pointer, this.pbuf, this.pidx, this.regs, this.half, this.current⟩
  case displayOn =>
    obtain rfl : displayOnEffect c r = r' := by simpa [Machine.commandEffect] using h
    have := hr.ok (by simp)
    exact ⟨this.fm, this.stage, this.pointer, this.pbuf, this.pidx, this.regs, this.half, this.current⟩
  case memoryWrite =>
    simp only [Machine.commandEffect, memoryWriteEffect] at h
    split at h
    · rename_i xs xe ys ye hxs hxe hys hye
      split at h
      · rename_i hw
        obtain rfl := Except.ok.inj h
        refine ⟨hr.fm, hr.stage, fun _ => ?_, by simp [hr.pbuf, hr.pidx], by simp [hr.pidx], hr.regs, by simp,
          by simp [hr.current]⟩
        have hw' := hw
        simp only [windowInPanel, decide_eq_true_eq] at hw'
        exact ⟨xs, xe, ys, ye, _, _, ⟨hxs, hxe, hys, hye, hw⟩, rfl, rfl, Nat.le_refl _, hw'.1, Nat.le_refl _, hw'.2.2.1⟩
      · cases h
    · cases h
  all_goals exact keep (by simp) h rfl

theorem ReceiverOk.runCommand {c : Config} {cmd : Cmd} {r r' : Receiver} (hr : ReceiverOk c r)
    (hd : r.cResetDone = true) (h : runCommand c cmd r = .ok r') : ReceiverOk c r' := by
  obtain ⟨hfm, hst, hregs, hrd⟩ := endGroup_ok hr
  unfold Machine.runCommand at h
  split at h
  · cases h
  · rename_i r1 h1
    have hb : BegunOk c cmd r1 := by
      rcases trackerStart_cases h1 with rfl | rfl
      · exact ⟨hfm, hst, rfl, rfl, rfl, hregs, rfl, hrd.trans hd⟩
      · exact ⟨hfm, hst, rfl, rfl, rfl, hregs, rfl, hrd.trans hd⟩
    split at h
    · cases h
    · rename_i r2 h2
      obtain rfl := Except.ok.inj h
      have := ReceiverOk.commandEffect hb h2
      split
      · exact this.trackerDone cmd
      · exact this

/-- A complete group that commits gives a good Receiver. -/
theorem ReceiverOk.commitEffect {c : Config} {cmd : Cmd} {r : Receiver} (hr : ReceiverOk c r)
    (hn : r.cPidx = c.nParams cmd) (hna : r.cArmed = false) : ReceiverOk c (commitEffect cmd r) := by
  have hp : r.cPbuf.length = c.nParams cmd := hr.pbuf.trans hn
  have hptr : ∀ {r1 : Receiver}, r1.cCmd = r.cCmd → r1.cArmed = true → PointerOk c r1 := by
    intro r1 h1 h2
    simp [Receiver.cArmed, h1] at h2
    simp [Receiver.cArmed, h2] at hna
  have store : ∀ reg : ConfigReg, reg.cmd = cmd → ReceiverOk c (storeReg reg r) := by
    intro reg hreg
    refine ⟨hr.fm, hr.stage, fun h => hptr rfl h, hr.pbuf, hr.pidx,
      regs_set_ok hr.regs ?_, hr.half, hr.current⟩
    intro ps hps
    obtain rfl : r.cPbuf = ps := by simpa using hps
    rw [hreg]
    exact hp
  have clear : ∀ reg : ConfigReg, ReceiverOk c { r with regs := r.regs.set reg none } := fun reg =>
    ⟨hr.fm, hr.stage, fun h => hptr rfl h, hr.pbuf, hr.pidx, regs_set_ok hr.regs (by simp), hr.half, hr.current⟩
  cases cmd
  case columnAddressSet =>
    simp only [Machine.commitEffect, columnAddressSetCommit]
    split
    · exact ⟨hr.fm, hr.stage, fun h => hptr rfl h, hr.pbuf, hr.pidx, hr.regs, hr.half, hr.current⟩
    · exact hr
  case rowAddressSet =>
    simp only [Machine.commitEffect, rowAddressSetCommit]
    split
    · exact ⟨hr.fm, hr.stage, fun h => hptr rfl h, hr.pbuf, hr.pidx, hr.regs, hr.half, hr.current⟩
    · exact hr
  case vrh =>
    simp only [Machine.commitEffect, vrhCommit]
    split
    · exact clear _
    · exact store _ rfl
  case vdv =>
    simp only [Machine.commitEffect, vdvCommit]
    split
    · exact clear _
    · exact store _ rfl
  all_goals first
    | exact hr
    | exact store _ rfl

theorem ReceiverOk.takePixel {c : Config} {b : Byte} {r r' : Receiver} (hr : ReceiverOk c r)
    (ha : r.cArmed = true) (h : takePixel c b r = .ok r') : ReceiverOk c r' := by
  unfold Machine.takePixel at h
  split at h
  · cases h
  · split at h
    · obtain rfl := Except.ok.inj h
      exact ⟨hr.fm, hr.stage, hr.pointer, hr.pbuf, hr.pidx, hr.regs, fun _ => ha, hr.current⟩
    · rename_i hi hh
      split at h
      · rename_i col row xs xe ye hcol hrow hxs hxe hye
        split at h
        · rename_i hin
          obtain rfl := Except.ok.inj h
          obtain ⟨x0, x1, y0, y1, col', row', ⟨h0, h1, h2, h3, hw⟩, hc', hr', hx0, hx1, hy0, hy1⟩ := hr.pointer ha
          rw [hcol] at hc'
          rw [hrow] at hr'
          rw [hxs] at h0
          rw [hxe] at h1
          rw [hye] at h3
          cases hc'; cases hr'; cases h0; cases h1; cases h3
          have hfm := hr.fm.fmWrite hin (joinBytes hi b)
          have hw' := hw
          simp only [windowInPanel, decide_eq_true_eq] at hw'
          unfold storePixel
          split
          · exact ⟨hfm, hr.stage,
              fun _ => ⟨xs, xe, y0, ye, col + 1, row, ⟨hxs, hxe, h2, hye, hw⟩, rfl, hrow, by omega, by omega, hy0, hy1⟩,
              hr.pbuf, hr.pidx, hr.regs, by simp, hr.current⟩
          · split
            · exact ⟨hfm, hr.stage,
                fun _ => ⟨xs, xe, y0, ye, xs.toNat, row + 1, ⟨hxs, hxe, h2, hye, hw⟩, rfl, rfl, Nat.le_refl _, hw'.1,
                  by omega, by omega⟩,
                hr.pbuf, hr.pidx, hr.regs, by simp, hr.current⟩
            · exact ⟨hfm, hr.stage,
                fun _ => ⟨xs, xe, y0, ye, xs.toNat, row, ⟨hxs, hxe, h2, hye, hw⟩, rfl, hrow, Nat.le_refl _, hw'.1,
                  hy0, hy1⟩,
                hr.pbuf, hr.pidx, hr.regs, by simp, hr.current⟩
        · cases h
      · cases h

theorem ReceiverOk.takeParam {c : Config} {cmd : Cmd} {b : Byte} {r r' : Receiver} (hr : ReceiverOk c r)
    (hc : r.cCmd = some cmd) (hm : cmd ≠ .memoryWrite) (h : takeParam c cmd b r = .ok r') : ReceiverOk c r' := by
  have hna : ∀ {r1 : Receiver}, r1.cCmd = r.cCmd → r1.cArmed = false := by
    intro r1 h1
    simp [Receiver.cArmed, h1, hc, hm]
  unfold Machine.takeParam at h
  split at h
  · cases h
  · split at h
    · cases h
    · rename_i h0 hlt
      obtain rfl := Except.ok.inj h
      have hpush : ReceiverOk c (pushParam b r) := by
        refine ⟨hr.fm, hr.stage, fun h => ?_, by simp [pushParam, hr.pbuf], ?_, hr.regs, hr.half, hr.current⟩
        · simp [hna (r1 := pushParam b r) rfl] at h
        · intro cmd' h'
          obtain rfl : cmd = cmd' := Option.some.inj (hc.symm.trans h')
          simp only [pushParam]
          omega
      split
      · rename_i he
        exact (hpush.commitEffect he (hna rfl)).trackerDone cmd
      · exact hpush

theorem ReceiverOk.takeData {c : Config} {b : Byte} {r r' : Receiver} (hr : ReceiverOk c r)
    (h : takeData c b r = .ok r') : ReceiverOk c r' := by
  unfold Machine.takeData at h
  split at h
  · cases h
  · rename_i cmd hc
    split at h
    · rename_i hm
      subst hm
      exact hr.takePixel (by simp [Receiver.cArmed, hc]) h
    · rename_i hm
      exact hr.takeParam hc hm h

/-- A byte is taken only inside chip-select, with the reset line high, after a hardware reset and outside every busy window;
then it is a command or data by its class (R100). -/
theorem takeByte_cases {c : Config} {p : Pins} {b : Byte} {r r' : Receiver} (h : takeByte c p b r = .ok r') :
    p.cs = some .asserted ∧ p.rst = some .high ∧ r.cResetDone = true ∧ r.cBusy = 0 ∧
      ((p.dc = some .command ∧ takeCommand c b r = .ok r') ∨ (p.dc = some .data ∧ takeData c b r = .ok r')) := by
  unfold takeByte at h
  split at h
  · cases h
  · split at h
    · cases h
    · split at h
      · cases h
      · rename_i h1 h2 h3
        simp only [not_or, ne_eq, not_not] at h1 h2
        refine ⟨h1, h2.1, by simpa using h2.2, by omega, ?_⟩
        split at h
        · cases h
        · exact .inl ⟨‹_›, h⟩
        · exact .inr ⟨‹_›, h⟩

theorem ReceiverOk.takeByte {c : Config} {p : Pins} {b : Byte} {r r' : Receiver} (hr : ReceiverOk c r)
    (h : takeByte c p b r = .ok r') : ReceiverOk c r' := by
  obtain ⟨-, -, hd, -, ⟨-, h⟩ | ⟨-, h⟩⟩ := takeByte_cases h
  · unfold takeCommand at h
    split at h
    · cases h
    · exact hr.runCommand hd h
  · exact hr.takeData h

theorem ReceiverOk.takeBytes {c : Config} {p : Pins} {bs : List Byte} {r r' : Receiver} (hr : ReceiverOk c r)
    (h : takeBytes c p bs r = .ok r') : ReceiverOk c r' := by
  induction bs generalizing r with
  | nil =>
    obtain rfl := Except.ok.inj h
    exact hr
  | cons b bs ih =>
    rw [takeBytes_cons] at h
    cases h1 : Machine.takeByte c p b r with
    | error e => simp [h1, Except.bind] at h
    | ok r1 =>
      rw [h1] at h
      exact ih (hr.takeByte h1) h

end Sys2Proof.Machine
end

