-- ==== Sys2Proof/Laws/State.lean ====
section
/-! SUPPORT. One lemma per field per update of the state, so that no proof unfolds a record update. -/

namespace Sys2Proof.Machine

variable (s : State)

/-! ### emit -/

@[simp] theorem State.emit_cfg (e : Event) : (s.emit e).cfg = s.cfg := rfl
@[simp] theorem State.emit_seqState (e : Event) : (s.emit e).seqState = s.seqState := rfl
@[simp] theorem State.emit_seqPc (e : Event) : (s.emit e).seqPc = s.seqPc := rfl
@[simp] theorem State.emit_rx0 (e : Event) : (s.emit e).rx0 = s.rx0 := rfl
@[simp] theorem State.emit_ry0 (e : Event) : (s.emit e).ry0 = s.ry0 := rfl
@[simp] theorem State.emit_rx1 (e : Event) : (s.emit e).rx1 = s.rx1 := rfl
@[simp] theorem State.emit_ry1 (e : Event) : (s.emit e).ry1 = s.ry1 := rfl
@[simp] theorem State.emit_blen (e : Event) : (s.emit e).blen = s.blen := rfl
@[simp] theorem State.emit_bidx (e : Event) : (s.emit e).bidx = s.bidx := rfl
@[simp] theorem State.emit_status (e : Event) : (s.emit e).status = s.status := rfl
@[simp] theorem State.emit_cs (e : Event) : (s.emit e).cs = s.cs := rfl
@[simp] theorem State.emit_dc (e : Event) : (s.emit e).dc = s.dc := rfl
@[simp] theorem State.emit_rst (e : Event) : (s.emit e).rst = s.rst := rfl
@[simp] theorem State.emit_bl (e : Event) : (s.emit e).bl = s.bl := rfl
@[simp] theorem State.emit_tInit (e : Event) : (s.emit e).tInit = s.tInit := rfl
@[simp] theorem State.emit_trace (e : Event) : (s.emit e).trace = s.trace ++ [e] := rfl
@[simp] theorem State.emit_refused (e : Event) : (s.emit e).refused = s.refused := rfl
@[simp] theorem State.emit_recv (e : Event) : (s.emit e).recv = s.recv := rfl
@[simp] theorem State.emit_callResult (e : Event) : (s.emit e).callResult = s.callResult := rfl
@[simp] theorem State.emit_draws (e : Event) : (s.emit e).draws = s.draws := rfl
@[simp] theorem State.emit_drawCount (e : Event) : (s.emit e).drawCount = s.drawCount := rfl
@[simp] theorem State.emit_pending (e : Event) : (s.emit e).pending = s.pending := rfl

/-! ### afterDraw -/

@[simp] theorem State.afterDraw_cfg : (s.afterDraw).cfg = s.cfg := rfl
@[simp] theorem State.afterDraw_seqState : (s.afterDraw).seqState = s.seqState := rfl
@[simp] theorem State.afterDraw_seqPc : (s.afterDraw).seqPc = s.seqPc := rfl
@[simp] theorem State.afterDraw_rx0 : (s.afterDraw).rx0 = s.rx0 := rfl
@[simp] theorem State.afterDraw_ry0 : (s.afterDraw).ry0 = s.ry0 := rfl
@[simp] theorem State.afterDraw_rx1 : (s.afterDraw).rx1 = s.rx1 := rfl
@[simp] theorem State.afterDraw_ry1 : (s.afterDraw).ry1 = s.ry1 := rfl
@[simp] theorem State.afterDraw_blen : (s.afterDraw).blen = s.blen := rfl
@[simp] theorem State.afterDraw_bidx : (s.afterDraw).bidx = s.bidx := rfl
@[simp] theorem State.afterDraw_status : (s.afterDraw).status = s.status := rfl
@[simp] theorem State.afterDraw_cs : (s.afterDraw).cs = s.cs := rfl
@[simp] theorem State.afterDraw_dc : (s.afterDraw).dc = s.dc := rfl
@[simp] theorem State.afterDraw_rst : (s.afterDraw).rst = s.rst := rfl
@[simp] theorem State.afterDraw_bl : (s.afterDraw).bl = s.bl := rfl
@[simp] theorem State.afterDraw_tInit : (s.afterDraw).tInit = s.tInit := rfl
@[simp] theorem State.afterDraw_trace : (s.afterDraw).trace = s.trace := rfl
@[simp] theorem State.afterDraw_refused : (s.afterDraw).refused = s.refused := rfl
@[simp] theorem State.afterDraw_recv : (s.afterDraw).recv = s.recv := rfl
@[simp] theorem State.afterDraw_callResult : (s.afterDraw).callResult = s.callResult := rfl
@[simp] theorem State.afterDraw_draws : (s.afterDraw).draws = s.draws.tail := rfl
@[simp] theorem State.afterDraw_drawCount : (s.afterDraw).drawCount = s.drawCount + 1 := rfl
@[simp] theorem State.afterDraw_pending : (s.afterDraw).pending = s.pending := rfl

/-! ### setRecv -/

@[simp] theorem State.setRecv_cfg (r : Receiver) : (s.setRecv r).cfg = s.cfg := rfl
@[simp] theorem State.setRecv_seqState (r : Receiver) : (s.setRecv r).seqState = s.seqState := rfl
@[simp] theorem State.setRecv_seqPc (r : Receiver) : (s.setRecv r).seqPc = s.seqPc := rfl
@[simp] theorem State.setRecv_rx0 (r : Receiver) : (s.setRecv r).rx0 = s.rx0 := rfl
@[simp] theorem State.setRecv_ry0 (r : Receiver) : (s.setRecv r).ry0 = s.ry0 := rfl
@[simp] theorem State.setRecv_rx1 (r : Receiver) : (s.setRecv r).rx1 = s.rx1 := rfl
@[simp] theorem State.setRecv_ry1 (r : Receiver) : (s.setRecv r).ry1 = s.ry1 := rfl
@[simp] theorem State.setRecv_blen (r : Receiver) : (s.setRecv r).blen = s.blen := rfl
@[simp] theorem State.setRecv_bidx (r : Receiver) : (s.setRecv r).bidx = s.bidx := rfl
@[simp] theorem State.setRecv_status (r : Receiver) : (s.setRecv r).status = s.status := rfl
@[simp] theorem State.setRecv_cs (r : Receiver) : (s.setRecv r).cs = s.cs := rfl
@[simp] theorem State.setRecv_dc (r : Receiver) : (s.setRecv r).dc = s.dc := rfl
@[simp] theorem State.setRecv_rst (r : Receiver) : (s.setRecv r).rst = s.rst := rfl
@[simp] theorem State.setRecv_bl (r : Receiver) : (s.setRecv r).bl = s.bl := rfl
@[simp] theorem State.setRecv_tInit (r : Receiver) : (s.setRecv r).tInit = s.tInit := rfl
@[simp] theorem State.setRecv_trace (r : Receiver) : (s.setRecv r).trace = s.trace := rfl
@[simp] theorem State.setRecv_refused (r : Receiver) : (s.setRecv r).refused = s.refused := rfl
@[simp] theorem State.setRecv_recv (r : Receiver) : (s.setRecv r).recv = r := rfl
@[simp] theorem State.setRecv_callResult (r : Receiver) : (s.setRecv r).callResult = s.callResult := rfl
@[simp] theorem State.setRecv_draws (r : Receiver) : (s.setRecv r).draws = s.draws := rfl
@[simp] theorem State.setRecv_drawCount (r : Receiver) : (s.setRecv r).drawCount = s.drawCount := rfl
@[simp] theorem State.setRecv_pending (r : Receiver) : (s.setRecv r).pending = s.pending := rfl

/-! ### setResult -/

@[simp] theorem State.setResult_cfg (x : CallResult) : (s.setResult x).cfg = s.cfg := rfl
@[simp] theorem State.setResult_seqState (x : CallResult) : (s.setResult x).seqState = s.seqState := rfl
@[simp] theorem State.setResult_seqPc (x : CallResult) : (s.setResult x).seqPc = s.seqPc := rfl
@[simp] theorem State.setResult_rx0 (x : CallResult) : (s.setResult x).rx0 = s.rx0 := rfl
@[simp] theorem State.setResult_ry0 (x : CallResult) : (s.setResult x).ry0 = s.ry0 := rfl
@[simp] theorem State.setResult_rx1 (x : CallResult) : (s.setResult x).rx1 = s.rx1 := rfl
@[simp] theorem State.setResult_ry1 (x : CallResult) : (s.setResult x).ry1 = s.ry1 := rfl
@[simp] theorem State.setResult_blen (x : CallResult) : (s.setResult x).blen = s.blen := rfl
@[simp] theorem State.setResult_bidx (x : CallResult) : (s.setResult x).bidx = s.bidx := rfl
@[simp] theorem State.setResult_status (x : CallResult) : (s.setResult x).status = s.status := rfl
@[simp] theorem State.setResult_cs (x : CallResult) : (s.setResult x).cs = s.cs := rfl
@[simp] theorem State.setResult_dc (x : CallResult) : (s.setResult x).dc = s.dc := rfl
@[simp] theorem State.setResult_rst (x : CallResult) : (s.setResult x).rst = s.rst := rfl
@[simp] theorem State.setResult_bl (x : CallResult) : (s.setResult x).bl = s.bl := rfl
@[simp] theorem State.setResult_tInit (x : CallResult) : (s.setResult x).tInit = s.tInit := rfl
@[simp] theorem State.setResult_trace (x : CallResult) : (s.setResult x).trace = s.trace := rfl
@[simp] theorem State.setResult_refused (x : CallResult) : (s.setResult x).refused = s.refused := rfl
@[simp] theorem State.setResult_recv (x : CallResult) : (s.setResult x).recv = s.recv := rfl
@[simp] theorem State.setResult_callResult (x : CallResult) : (s.setResult x).callResult = some x := rfl
@[simp] theorem State.setResult_draws (x : CallResult) : (s.setResult x).draws = s.draws := rfl
@[simp] theorem State.setResult_drawCount (x : CallResult) : (s.setResult x).drawCount = s.drawCount := rfl
@[simp] theorem State.setResult_pending (x : CallResult) : (s.setResult x).pending = s.pending := rfl

/-! ### setPending -/

@[simp] theorem State.setPending_cfg (ws : List Word) : (s.setPending ws).cfg = s.cfg := rfl
@[simp] theorem State.setPending_seqState (ws : List Word) : (s.setPending ws).seqState = s.seqState := rfl
@[simp] theorem State.setPending_seqPc (ws : List Word) : (s.setPending ws).seqPc = s.seqPc := rfl
@[simp] theorem State.setPending_rx0 (ws : List Word) : (s.setPending ws).rx0 = s.rx0 := rfl
@[simp] theorem State.setPending_ry0 (ws : List Word) : (s.setPending ws).ry0 = s.ry0 := rfl
@[simp] theorem State.setPending_rx1 (ws : List Word) : (s.setPending ws).rx1 = s.rx1 := rfl
@[simp] theorem State.setPending_ry1 (ws : List Word) : (s.setPending ws).ry1 = s.ry1 := rfl
@[simp] theorem State.setPending_blen (ws : List Word) : (s.setPending ws).blen = s.blen := rfl
@[simp] theorem State.setPending_bidx (ws : List Word) : (s.setPending ws).bidx = s.bidx := rfl
@[simp] theorem State.setPending_status (ws : List Word) : (s.setPending ws).status = s.status := rfl
@[simp] theorem State.setPending_cs (ws : List Word) : (s.setPending ws).cs = s.cs := rfl
@[simp] theorem State.setPending_dc (ws : List Word) : (s.setPending ws).dc = s.dc := rfl
@[simp] theorem State.setPending_rst (ws : List Word) : (s.setPending ws).rst = s.rst := rfl
@[simp] theorem State.setPending_bl (ws : List Word) : (s.setPending ws).bl = s.bl := rfl
@[simp] theorem State.setPending_tInit (ws : List Word) : (s.setPending ws).tInit = s.tInit := rfl
@[simp] theorem State.setPending_trace (ws : List Word) : (s.setPending ws).trace = s.trace := rfl
@[simp] theorem State.setPending_refused (ws : List Word) : (s.setPending ws).refused = s.refused := rfl
@[simp] theorem State.setPending_recv (ws : List Word) : (s.setPending ws).recv = s.recv := rfl
@[simp] theorem State.setPending_callResult (ws : List Word) : (s.setPending ws).callResult = s.callResult := rfl
@[simp] theorem State.setPending_draws (ws : List Word) : (s.setPending ws).draws = s.draws := rfl
@[simp] theorem State.setPending_drawCount (ws : List Word) : (s.setPending ws).drawCount = s.drawCount := rfl
@[simp] theorem State.setPending_pending (ws : List Word) : (s.setPending ws).pending = ws := rfl

/-! ### advancePc -/

@[simp] theorem State.advancePc_cfg : (s.advancePc).cfg = s.cfg := rfl
@[simp] theorem State.advancePc_seqState : (s.advancePc).seqState = s.seqState := rfl
@[simp] theorem State.advancePc_seqPc : (s.advancePc).seqPc = s.seqPc + 1 := rfl
@[simp] theorem State.advancePc_rx0 : (s.advancePc).rx0 = s.rx0 := rfl
@[simp] theorem State.advancePc_ry0 : (s.advancePc).ry0 = s.ry0 := rfl
@[simp] theorem State.advancePc_rx1 : (s.advancePc).rx1 = s.rx1 := rfl
@[simp] theorem State.advancePc_ry1 : (s.advancePc).ry1 = s.ry1 := rfl
@[simp] theorem State.advancePc_blen : (s.advancePc).blen = s.blen := rfl
@[simp] theorem State.advancePc_bidx : (s.advancePc).bidx = s.bidx := rfl
@[simp] theorem State.advancePc_status : (s.advancePc).status = s.status := rfl
@[simp] theorem State.advancePc_cs : (s.advancePc).cs = s.cs := rfl
@[simp] theorem State.advancePc_dc : (s.advancePc).dc = s.dc := rfl
@[simp] theorem State.advancePc_rst : (s.advancePc).rst = s.rst := rfl
@[simp] theorem State.advancePc_bl : (s.advancePc).bl = s.bl := rfl
@[simp] theorem State.advancePc_tInit : (s.advancePc).tInit = s.tInit := rfl
@[simp] theorem State.advancePc_trace : (s.advancePc).trace = s.trace := rfl
@[simp] theorem State.advancePc_refused : (s.advancePc).refused = s.refused := rfl
@[simp] theorem State.advancePc_recv : (s.advancePc).recv = s.recv := rfl
@[simp] theorem State.advancePc_callResult : (s.advancePc).callResult = s.callResult := rfl
@[simp] theorem State.advancePc_draws : (s.advancePc).draws = s.draws := rfl
@[simp] theorem State.advancePc_drawCount : (s.advancePc).drawCount = s.drawCount := rfl
@[simp] theorem State.advancePc_pending : (s.advancePc).pending = s.pending := rfl

/-! ### setCs -/

@[simp] theorem State.setCs_cfg (l : CsLevel) : (s.setCs l).cfg = s.cfg := rfl
@[simp] theorem State.setCs_seqState (l : CsLevel) : (s.setCs l).seqState = s.seqState := rfl
@[simp] theorem State.setCs_seqPc (l : CsLevel) : (s.setCs l).seqPc = s.seqPc := rfl
@[simp] theorem State.setCs_rx0 (l : CsLevel) : (s.setCs l).rx0 = s.rx0 := rfl
@[simp] theorem State.setCs_ry0 (l : CsLevel) : (s.setCs l).ry0 = s.ry0 := rfl
@[simp] theorem State.setCs_rx1 (l : CsLevel) : (s.setCs l).rx1 = s.rx1 := rfl
@[simp] theorem State.setCs_ry1 (l : CsLevel) : (s.setCs l).ry1 = s.ry1 := rfl
@[simp] theorem State.setCs_blen (l : CsLevel) : (s.setCs l).blen = s.blen := rfl
@[simp] theorem State.setCs_bidx (l : CsLevel) : (s.setCs l).bidx = s.bidx := rfl
@[simp] theorem State.setCs_status (l : CsLevel) : (s.setCs l).status = s.status := rfl
@[simp] theorem State.setCs_cs (l : CsLevel) : (s.setCs l).cs = { s.cs with level := some l } := rfl
@[simp] theorem State.setCs_dc (l : CsLevel) : (s.setCs l).dc = s.dc := rfl
@[simp] theorem State.setCs_rst (l : CsLevel) : (s.setCs l).rst = s.rst := rfl
@[simp] theorem State.setCs_bl (l : CsLevel) : (s.setCs l).bl = s.bl := rfl
@[simp] theorem State.setCs_tInit (l : CsLevel) : (s.setCs l).tInit = s.tInit := rfl
@[simp] theorem State.setCs_trace (l : CsLevel) : (s.setCs l).trace = s.trace := rfl
@[simp] theorem State.setCs_refused (l : CsLevel) : (s.setCs l).refused = s.refused := rfl
@[simp] theorem State.setCs_recv (l : CsLevel) : (s.setCs l).recv = s.recv := rfl
@[simp] theorem State.setCs_callResult (l : CsLevel) : (s.setCs l).callResult = s.callResult := rfl
@[simp] theorem State.setCs_draws (l : CsLevel) : (s.setCs l).draws = s.draws := rfl
@[simp] theorem State.setCs_drawCount (l : CsLevel) : (s.setCs l).drawCount = s.drawCount := rfl
@[simp] theorem State.setCs_pending (l : CsLevel) : (s.setCs l).pending = s.pending := rfl

/-! ### setDc -/

@[simp] theorem State.setDc_cfg (l : ByteClass) : (s.setDc l).cfg = s.cfg := rfl
@[simp] theorem State.setDc_seqState (l : ByteClass) : (s.setDc l).seqState = s.seqState := rfl
@[simp] theorem State.setDc_seqPc (l : ByteClass) : (s.setDc l).seqPc = s.seqPc := rfl
@[simp] theorem State.setDc_rx0 (l : ByteClass) : (s.setDc l).rx0 = s.rx0 := rfl
@[simp] theorem State.setDc_ry0 (l : ByteClass) : (s.setDc l).ry0 = s.ry0 := rfl
@[simp] theorem State.setDc_rx1 (l : ByteClass) : (s.setDc l).rx1 = s.rx1 := rfl
@[simp] theorem State.setDc_ry1 (l : ByteClass) : (s.setDc l).ry1 = s.ry1 := rfl
@[simp] theorem State.setDc_blen (l : ByteClass) : (s.setDc l).blen = s.blen := rfl
@[simp] theorem State.setDc_bidx (l : ByteClass) : (s.setDc l).bidx = s.bidx := rfl
@[simp] theorem State.setDc_status (l : ByteClass) : (s.setDc l).status = s.status := rfl
@[simp] theorem State.setDc_cs (l : ByteClass) : (s.setDc l).cs = s.cs := rfl
@[simp] theorem State.setDc_dc (l : ByteClass) : (s.setDc l).dc = { s.dc with level := some l } := rfl
@[simp] theorem State.setDc_rst (l : ByteClass) : (s.setDc l).rst = s.rst := rfl
@[simp] theorem State.setDc_bl (l : ByteClass) : (s.setDc l).bl = s.bl := rfl
@[simp] theorem State.setDc_tInit (l : ByteClass) : (s.setDc l).tInit = s.tInit := rfl
@[simp] theorem State.setDc_trace (l : ByteClass) : (s.setDc l).trace = s.trace := rfl
@[simp] theorem State.setDc_refused (l : ByteClass) : (s.setDc l).refused = s.refused := rfl
@[simp] theorem State.setDc_recv (l : ByteClass) : (s.setDc l).recv = s.recv := rfl
@[simp] theorem State.setDc_callResult (l : ByteClass) : (s.setDc l).callResult = s.callResult := rfl
@[simp] theorem State.setDc_draws (l : ByteClass) : (s.setDc l).draws = s.draws := rfl
@[simp] theorem State.setDc_drawCount (l : ByteClass) : (s.setDc l).drawCount = s.drawCount := rfl
@[simp] theorem State.setDc_pending (l : ByteClass) : (s.setDc l).pending = s.pending := rfl

/-! ### setRst -/

@[simp] theorem State.setRst_cfg (l : RstLevel) : (s.setRst l).cfg = s.cfg := rfl
@[simp] theorem State.setRst_seqState (l : RstLevel) : (s.setRst l).seqState = s.seqState := rfl
@[simp] theorem State.setRst_seqPc (l : RstLevel) : (s.setRst l).seqPc = s.seqPc := rfl
@[simp] theorem State.setRst_rx0 (l : RstLevel) : (s.setRst l).rx0 = s.rx0 := rfl
@[simp] theorem State.setRst_ry0 (l : RstLevel) : (s.setRst l).ry0 = s.ry0 := rfl
@[simp] theorem State.setRst_rx1 (l : RstLevel) : (s.setRst l).rx1 = s.rx1 := rfl
@[simp] theorem State.setRst_ry1 (l : RstLevel) : (s.setRst l).ry1 = s.ry1 := rfl
@[simp] theorem State.setRst_blen (l : RstLevel) : (s.setRst l).blen = s.blen := rfl
@[simp] theorem State.setRst_bidx (l : RstLevel) : (s.setRst l).bidx = s.bidx := rfl
@[simp] theorem State.setRst_status (l : RstLevel) : (s.setRst l).status = s.status := rfl
@[simp] theorem State.setRst_cs (l : RstLevel) : (s.setRst l).cs = s.cs := rfl
@[simp] theorem State.setRst_dc (l : RstLevel) : (s.setRst l).dc = s.dc := rfl
@[simp] theorem State.setRst_rst (l : RstLevel) : (s.setRst l).rst = { s.rst with level := some l } := rfl
@[simp] theorem State.setRst_bl (l : RstLevel) : (s.setRst l).bl = s.bl := rfl
@[simp] theorem State.setRst_tInit (l : RstLevel) : (s.setRst l).tInit = s.tInit := rfl
@[simp] theorem State.setRst_trace (l : RstLevel) : (s.setRst l).trace = s.trace := rfl
@[simp] theorem State.setRst_refused (l : RstLevel) : (s.setRst l).refused = s.refused := rfl
@[simp] theorem State.setRst_recv (l : RstLevel) : (s.setRst l).recv = s.recv := rfl
@[simp] theorem State.setRst_callResult (l : RstLevel) : (s.setRst l).callResult = s.callResult := rfl
@[simp] theorem State.setRst_draws (l : RstLevel) : (s.setRst l).draws = s.draws := rfl
@[simp] theorem State.setRst_drawCount (l : RstLevel) : (s.setRst l).drawCount = s.drawCount := rfl
@[simp] theorem State.setRst_pending (l : RstLevel) : (s.setRst l).pending = s.pending := rfl

/-! ### setBl -/

@[simp] theorem State.setBl_cfg (l : BlLevel) : (s.setBl l).cfg = s.cfg := rfl
@[simp] theorem State.setBl_seqState (l : BlLevel) : (s.setBl l).seqState = s.seqState := rfl
@[simp] theorem State.setBl_seqPc (l : BlLevel) : (s.setBl l).seqPc = s.seqPc := rfl
@[simp] theorem State.setBl_rx0 (l : BlLevel) : (s.setBl l).rx0 = s.rx0 := rfl
@[simp] theorem State.setBl_ry0 (l : BlLevel) : (s.setBl l).ry0 = s.ry0 := rfl
@[simp] theorem State.setBl_rx1 (l : BlLevel) : (s.setBl l).rx1 = s.rx1 := rfl
@[simp] theorem State.setBl_ry1 (l : BlLevel) : (s.setBl l).ry1 = s.ry1 := rfl
@[simp] theorem State.setBl_blen (l : BlLevel) : (s.setBl l).blen = s.blen := rfl
@[simp] theorem State.setBl_bidx (l : BlLevel) : (s.setBl l).bidx = s.bidx := rfl
@[simp] theorem State.setBl_status (l : BlLevel) : (s.setBl l).status = s.status := rfl
@[simp] theorem State.setBl_cs (l : BlLevel) : (s.setBl l).cs = s.cs := rfl
@[simp] theorem State.setBl_dc (l : BlLevel) : (s.setBl l).dc = s.dc := rfl
@[simp] theorem State.setBl_rst (l : BlLevel) : (s.setBl l).rst = s.rst := rfl
@[simp] theorem State.setBl_bl (l : BlLevel) : (s.setBl l).bl = { s.bl with level := some l } := rfl
@[simp] theorem State.setBl_tInit (l : BlLevel) : (s.setBl l).tInit = s.tInit := rfl
@[simp] theorem State.setBl_trace (l : BlLevel) : (s.setBl l).trace = s.trace := rfl
@[simp] theorem State.setBl_refused (l : BlLevel) : (s.setBl l).refused = s.refused := rfl
@[simp] theorem State.setBl_recv (l : BlLevel) : (s.setBl l).recv = s.recv := rfl
@[simp] theorem State.setBl_callResult (l : BlLevel) : (s.setBl l).callResult = s.callResult := rfl
@[simp] theorem State.setBl_draws (l : BlLevel) : (s.setBl l).draws = s.draws := rfl
@[simp] theorem State.setBl_drawCount (l : BlLevel) : (s.setBl l).drawCount = s.drawCount := rfl
@[simp] theorem State.setBl_pending (l : BlLevel) : (s.setBl l).pending = s.pending := rfl

/-! ### setTInit -/

@[simp] theorem State.setTInit_cfg (b : Bool) : (s.setTInit b).cfg = s.cfg := rfl
@[simp] theorem State.setTInit_seqState (b : Bool) : (s.setTInit b).seqState = s.seqState := rfl
@[simp] theorem State.setTInit_seqPc (b : Bool) : (s.setTInit b).seqPc = s.seqPc := rfl
@[simp] theorem State.setTInit_rx0 (b : Bool) : (s.setTInit b).rx0 = s.rx0 := rfl
@[simp] theorem State.setTInit_ry0 (b : Bool) : (s.setTInit b).ry0 = s.ry0 := rfl
@[simp] theorem State.setTInit_rx1 (b : Bool) : (s.setTInit b).rx1 = s.rx1 := rfl
@[simp] theorem State.setTInit_ry1 (b : Bool) : (s.setTInit b).ry1 = s.ry1 := rfl
@[simp] theorem State.setTInit_blen (b : Bool) : (s.setTInit b).blen = s.blen := rfl
@[simp] theorem State.setTInit_bidx (b : Bool) : (s.setTInit b).bidx = s.bidx := rfl
@[simp] theorem State.setTInit_status (b : Bool) : (s.setTInit b).status = s.status := rfl
@[simp] theorem State.setTInit_cs (b : Bool) : (s.setTInit b).cs = s.cs := rfl
@[simp] theorem State.setTInit_dc (b : Bool) : (s.setTInit b).dc = s.dc := rfl
@[simp] theorem State.setTInit_rst (b : Bool) : (s.setTInit b).rst = s.rst := rfl
@[simp] theorem State.setTInit_bl (b : Bool) : (s.setTInit b).bl = s.bl := rfl
@[simp] theorem State.setTInit_tInit (b : Bool) : (s.setTInit b).tInit = b := rfl
@[simp] theorem State.setTInit_trace (b : Bool) : (s.setTInit b).trace = s.trace := rfl
@[simp] theorem State.setTInit_refused (b : Bool) : (s.setTInit b).refused = s.refused := rfl
@[simp] theorem State.setTInit_recv (b : Bool) : (s.setTInit b).recv = s.recv := rfl
@[simp] theorem State.setTInit_callResult (b : Bool) : (s.setTInit b).callResult = s.callResult := rfl
@[simp] theorem State.setTInit_draws (b : Bool) : (s.setTInit b).draws = s.draws := rfl
@[simp] theorem State.setTInit_drawCount (b : Bool) : (s.setTInit b).drawCount = s.drawCount := rfl
@[simp] theorem State.setTInit_pending (b : Bool) : (s.setTInit b).pending = s.pending := rfl

/-! ### setSeqState -/

@[simp] theorem State.setSeqState_cfg (q : SeqState) : (s.setSeqState q).cfg = s.cfg := rfl
@[simp] theorem State.setSeqState_seqState (q : SeqState) : (s.setSeqState q).seqState = q := rfl
@[simp] theorem State.setSeqState_seqPc (q : SeqState) : (s.setSeqState q).seqPc = s.seqPc := rfl
@[simp] theorem State.setSeqState_rx0 (q : SeqState) : (s.setSeqState q).rx0 = s.rx0 := rfl
@[simp] theorem State.setSeqState_ry0 (q : SeqState) : (s.setSeqState q).ry0 = s.ry0 := rfl
@[simp] theorem State.setSeqState_rx1 (q : SeqState) : (s.setSeqState q).rx1 = s.rx1 := rfl
@[simp] theorem State.setSeqState_ry1 (q : SeqState) : (s.setSeqState q).ry1 = s.ry1 := rfl
@[simp] theorem State.setSeqState_blen (q : SeqState) : (s.setSeqState q).blen = s.blen := rfl
@[simp] theorem State.setSeqState_bidx (q : SeqState) : (s.setSeqState q).bidx = s.bidx := rfl
@[simp] theorem State.setSeqState_status (q : SeqState) : (s.setSeqState q).status = s.status := rfl
@[simp] theorem State.setSeqState_cs (q : SeqState) : (s.setSeqState q).cs = s.cs := rfl
@[simp] theorem State.setSeqState_dc (q : SeqState) : (s.setSeqState q).dc = s.dc := rfl
@[simp] theorem State.setSeqState_rst (q : SeqState) : (s.setSeqState q).rst = s.rst := rfl
@[simp] theorem State.setSeqState_bl (q : SeqState) : (s.setSeqState q).bl = s.bl := rfl
@[simp] theorem State.setSeqState_tInit (q : SeqState) : (s.setSeqState q).tInit = s.tInit := rfl
@[simp] theorem State.setSeqState_trace (q : SeqState) : (s.setSeqState q).trace = s.trace := rfl
@[simp] theorem State.setSeqState_refused (q : SeqState) : (s.setSeqState q).refused = s.refused := rfl
@[simp] theorem State.setSeqState_recv (q : SeqState) : (s.setSeqState q).recv = s.recv := rfl
@[simp] theorem State.setSeqState_callResult (q : SeqState) : (s.setSeqState q).callResult = s.callResult := rfl
@[simp] theorem State.setSeqState_draws (q : SeqState) : (s.setSeqState q).draws = s.draws := rfl
@[simp] theorem State.setSeqState_drawCount (q : SeqState) : (s.setSeqState q).drawCount = s.drawCount := rfl
@[simp] theorem State.setSeqState_pending (q : SeqState) : (s.setSeqState q).pending = s.pending := rfl

/-! ### setStatus -/

@[simp] theorem State.setStatus_cfg (st : Status) : (s.setStatus st).cfg = s.cfg := rfl
@[simp] theorem State.setStatus_seqState (st : Status) : (s.setStatus st).seqState = s.seqState := rfl
@[simp] theorem State.setStatus_seqPc (st : Status) : (s.setStatus st).seqPc = s.seqPc := rfl
@[simp] theorem State.setStatus_rx0 (st : Status) : (s.setStatus st).rx0 = s.rx0 := rfl
@[simp] theorem State.setStatus_ry0 (st : Status) : (s.setStatus st).ry0 = s.ry0 := rfl
@[simp] theorem State.setStatus_rx1 (st : Status) : (s.setStatus st).rx1 = s.rx1 := rfl
@[simp] theorem State.setStatus_ry1 (st : Status) : (s.setStatus st).ry1 = s.ry1 := rfl
@[simp] theorem State.setStatus_blen (st : Status) : (s.setStatus st).blen = s.blen := rfl
@[simp] theorem State.setStatus_bidx (st : Status) : (s.setStatus st).bidx = s.bidx := rfl
@[simp] theorem State.setStatus_status (st : Status) : (s.setStatus st).status = some st := rfl
@[simp] theorem State.setStatus_cs (st : Status) : (s.setStatus st).cs = s.cs := rfl
@[simp] theorem State.setStatus_dc (st : Status) : (s.setStatus st).dc = s.dc := rfl
@[simp] theorem State.setStatus_rst (st : Status) : (s.setStatus st).rst = s.rst := rfl
@[simp] theorem State.setStatus_bl (st : Status) : (s.setStatus st).bl = s.bl := rfl
@[simp] theorem State.setStatus_tInit (st : Status) : (s.setStatus st).tInit = s.tInit := rfl
@[simp] theorem State.setStatus_trace (st : Status) : (s.setStatus st).trace = s.trace := rfl
@[simp] theorem State.setStatus_refused (st : Status) : (s.setStatus st).refused = s.refused := rfl
@[simp] theorem State.setStatus_recv (st : Status) : (s.setStatus st).recv = s.recv := rfl
@[simp] theorem State.setStatus_callResult (st : Status) : (s.setStatus st).callResult = s.callResult := rfl
@[simp] theorem State.setStatus_draws (st : Status) : (s.setStatus st).draws = s.draws := rfl
@[simp] theorem State.setStatus_drawCount (st : Status) : (s.setStatus st).drawCount = s.drawCount := rfl
@[simp] theorem State.setStatus_pending (st : Status) : (s.setStatus st).pending = s.pending := rfl

/-! ### setBidx -/

@[simp] theorem State.setBidx_cfg (n : Option Nat) : (s.setBidx n).cfg = s.cfg := rfl
@[simp] theorem State.setBidx_seqState (n : Option Nat) : (s.setBidx n).seqState = s.seqState := rfl
@[simp] theorem State.setBidx_seqPc (n : Option Nat) : (s.setBidx n).seqPc = s.seqPc := rfl
@[simp] theorem State.setBidx_rx0 (n : Option Nat) : (s.setBidx n).rx0 = s.rx0 := rfl
@[simp] theorem State.setBidx_ry0 (n : Option Nat) : (s.setBidx n).ry0 = s.ry0 := rfl
@[simp] theorem State.setBidx_rx1 (n : Option Nat) : (s.setBidx n).rx1 = s.rx1 := rfl
@[simp] theorem State.setBidx_ry1 (n : Option Nat) : (s.setBidx n).ry1 = s.ry1 := rfl
@[simp] theorem State.setBidx_blen (n : Option Nat) : (s.setBidx n).blen = s.blen := rfl
@[simp] theorem State.setBidx_bidx (n : Option Nat) : (s.setBidx n).bidx = n := rfl
@[simp] theorem State.setBidx_status (n : Option Nat) : (s.setBidx n).status = s.status := rfl
@[simp] theorem State.setBidx_cs (n : Option Nat) : (s.setBidx n).cs = s.cs := rfl
@[simp] theorem State.setBidx_dc (n : Option Nat) : (s.setBidx n).dc = s.dc := rfl
@[simp] theorem State.setBidx_rst (n : Option Nat) : (s.setBidx n).rst = s.rst := rfl
@[simp] theorem State.setBidx_bl (n : Option Nat) : (s.setBidx n).bl = s.bl := rfl
@[simp] theorem State.setBidx_tInit (n : Option Nat) : (s.setBidx n).tInit = s.tInit := rfl
@[simp] theorem State.setBidx_trace (n : Option Nat) : (s.setBidx n).trace = s.trace := rfl
@[simp] theorem State.setBidx_refused (n : Option Nat) : (s.setBidx n).refused = s.refused := rfl
@[simp] theorem State.setBidx_recv (n : Option Nat) : (s.setBidx n).recv = s.recv := rfl
@[simp] theorem State.setBidx_callResult (n : Option Nat) : (s.setBidx n).callResult = s.callResult := rfl
@[simp] theorem State.setBidx_draws (n : Option Nat) : (s.setBidx n).draws = s.draws := rfl
@[simp] theorem State.setBidx_drawCount (n : Option Nat) : (s.setBidx n).drawCount = s.drawCount := rfl
@[simp] theorem State.setBidx_pending (n : Option Nat) : (s.setBidx n).pending = s.pending := rfl

/-! ### returnStatus -/

@[simp] theorem State.returnStatus_cfg (st : Status) : (s.returnStatus st).cfg = s.cfg := rfl
@[simp] theorem State.returnStatus_seqState (st : Status) : (s.returnStatus st).seqState = s.seqState := rfl
@[simp] theorem State.returnStatus_seqPc (st : Status) : (s.returnStatus st).seqPc = s.seqPc := rfl
@[simp] theorem State.returnStatus_rx0 (st : Status) : (s.returnStatus st).rx0 = s.rx0 := rfl
@[simp] theorem State.returnStatus_ry0 (st : Status) : (s.returnStatus st).ry0 = s.ry0 := rfl
@[simp] theorem State.returnStatus_rx1 (st : Status) : (s.returnStatus st).rx1 = s.rx1 := rfl
@[simp] theorem State.returnStatus_ry1 (st : Status) : (s.returnStatus st).ry1 = s.ry1 := rfl
@[simp] theorem State.returnStatus_blen (st : Status) : (s.returnStatus st).blen = s.blen := rfl
@[simp] theorem State.returnStatus_bidx (st : Status) : (s.returnStatus st).bidx = s.bidx := rfl
@[simp] theorem State.returnStatus_status (st : Status) : (s.returnStatus st).status = some st := rfl
@[simp] theorem State.returnStatus_cs (st : Status) : (s.returnStatus st).cs = s.cs := rfl
@[simp] theorem State.returnStatus_dc (st : Status) : (s.returnStatus st).dc = s.dc := rfl
@[simp] theorem State.returnStatus_rst (st : Status) : (s.returnStatus st).rst = s.rst := rfl
@[simp] theorem State.returnStatus_bl (st : Status) : (s.returnStatus st).bl = s.bl := rfl
@[simp] theorem State.returnStatus_tInit (st : Status) : (s.returnStatus st).tInit = s.tInit := rfl
@[simp] theorem State.returnStatus_trace (st : Status) : (s.returnStatus st).trace = s.trace ++ [.ret st] := rfl
@[simp] theorem State.returnStatus_refused (st : Status) : (s.returnStatus st).refused = s.refused := rfl
@[simp] theorem State.returnStatus_recv (st : Status) : (s.returnStatus st).recv = s.recv := rfl
@[simp] theorem State.returnStatus_callResult (st : Status) : (s.returnStatus st).callResult = s.callResult := rfl
@[simp] theorem State.returnStatus_draws (st : Status) : (s.returnStatus st).draws = s.draws := rfl
@[simp] theorem State.returnStatus_drawCount (st : Status) : (s.returnStatus st).drawCount = s.drawCount := rfl
@[simp] theorem State.returnStatus_pending (st : Status) : (s.returnStatus st).pending = s.pending := rfl

/-! ### configure -/

@[simp] theorem State.configure_cfg (l : Line) : (s.configure l).cfg = s.cfg := by cases l <;> rfl
@[simp] theorem State.configure_seqState (l : Line) : (s.configure l).seqState = s.seqState := by cases l <;> rfl
@[simp] theorem State.configure_seqPc (l : Line) : (s.configure l).seqPc = s.seqPc := by cases l <;> rfl
@[simp] theorem State.configure_rx0 (l : Line) : (s.configure l).rx0 = s.rx0 := by cases l <;> rfl
@[simp] theorem State.configure_ry0 (l : Line) : (s.configure l).ry0 = s.ry0 := by cases l <;> rfl
@[simp] theorem State.configure_rx1 (l : Line) : (s.configure l).rx1 = s.rx1 := by cases l <;> rfl
@[simp] theorem State.configure_ry1 (l : Line) : (s.configure l).ry1 = s.ry1 := by cases l <;> rfl
@[simp] theorem State.configure_blen (l : Line) : (s.configure l).blen = s.blen := by cases l <;> rfl
@[simp] theorem State.configure_bidx (l : Line) : (s.configure l).bidx = s.bidx := by cases l <;> rfl
@[simp] theorem State.configure_status (l : Line) : (s.configure l).status = s.status := by cases l <;> rfl
@[simp] theorem State.configure_cs_level (l : Line) : (s.configure l).cs.level = s.cs.level := by cases l <;> rfl
@[simp] theorem State.configure_dc_level (l : Line) : (s.configure l).dc.level = s.dc.level := by cases l <;> rfl
@[simp] theorem State.configure_rst_level (l : Line) : (s.configure l).rst.level = s.rst.level := by cases l <;> rfl
@[simp] theorem State.configure_bl_level (l : Line) : (s.configure l).bl.level = s.bl.level := by cases l <;> rfl
@[simp] theorem State.configure_tInit (l : Line) : (s.configure l).tInit = s.tInit := by cases l <;> rfl
@[simp] theorem State.configure_trace (l : Line) : (s.configure l).trace = s.trace := by cases l <;> rfl
@[simp] theorem State.configure_refused (l : Line) : (s.configure l).refused = s.refused := by cases l <;> rfl
@[simp] theorem State.configure_recv (l : Line) : (s.configure l).recv = s.recv := by cases l <;> rfl
@[simp] theorem State.configure_callResult (l : Line) : (s.configure l).callResult = s.callResult := by cases l <;> rfl
@[simp] theorem State.configure_draws (l : Line) : (s.configure l).draws = s.draws := by cases l <;> rfl
@[simp] theorem State.configure_drawCount (l : Line) : (s.configure l).drawCount = s.drawCount := by cases l <;> rfl
@[simp] theorem State.configure_pending (l : Line) : (s.configure l).pending = s.pending := by cases l <;> rfl

/-- A line is configured after another one is configured exactly if it was, or is that one. -/
@[simp] theorem State.configured_configure (l m : Line) :
    (s.configure l).configured m = (s.configured m || decide (l = m)) := by
  cases l <;> cases m <;> simp [State.configure, State.configured]

/-! ### Draws -/

@[simp] theorem State.drawAt_emit (e : Event) (n : Nat) : (s.emit e).drawAt n = s.drawAt n := rfl
@[simp] theorem State.drawAt_setRecv (r : Receiver) (n : Nat) : (s.setRecv r).drawAt n = s.drawAt n := rfl
@[simp] theorem State.drawAt_setCs (l : CsLevel) (n : Nat) : (s.setCs l).drawAt n = s.drawAt n := rfl
@[simp] theorem State.drawAt_setDc (l : ByteClass) (n : Nat) : (s.setDc l).drawAt n = s.drawAt n := rfl
@[simp] theorem State.drawAt_setRst (l : RstLevel) (n : Nat) : (s.setRst l).drawAt n = s.drawAt n := rfl
@[simp] theorem State.drawAt_setBl (l : BlLevel) (n : Nat) : (s.setBl l).drawAt n = s.drawAt n := rfl
@[simp] theorem State.drawAt_setTInit (b : Bool) (n : Nat) : (s.setTInit b).drawAt n = s.drawAt n := rfl
@[simp] theorem State.drawAt_advancePc (n : Nat) : s.advancePc.drawAt n = s.drawAt n := rfl
@[simp] theorem State.drawAt_setResult (x : CallResult) (n : Nat) : (s.setResult x).drawAt n = s.drawAt n := rfl
@[simp] theorem State.drawAt_configure (l : Line) (n : Nat) : (s.configure l).drawAt n = s.drawAt n := by
  cases l <;> rfl

/-- After one draw the next draws are the later ones. -/
@[simp] theorem State.drawAt_afterDraw (n : Nat) : s.afterDraw.drawAt n = s.drawAt (n + 1) := by
  unfold State.drawAt
  simp only [State.afterDraw_draws, State.afterDraw_drawCount, List.getElem?_tail]
  rw [Nat.add_assoc, Nat.add_comm 1 n]

/-- Draws depend on the two draw fields alone. -/
theorem State.drawAt_congr {s t : State} (hd : t.draws = s.draws) (hc : t.drawCount = s.drawCount) (n : Nat) :
    t.drawAt n = s.drawAt n := by
  simp [State.drawAt, hd, hc]

/-! ### Results -/

@[simp] theorem Result.bind_ok (s : State) (f : State → Result) : (Result.ok s).bind f = f s := rfl
@[simp] theorem Result.bind_raised (s : State) (f : State → Result) : (Result.raised s).bind f = .raised s := rfl
@[simp] theorem Result.bind_stopped (w : Stop) (f : State → Result) : (Result.stopped w).bind f = .stopped w := rfl

/-- What returned from a sequence: the first part returned and the second did. -/
theorem Result.bind_eq_ok {x : Result} {f : State → Result} {t : State} (h : x.bind f = .ok t) :
    ∃ u, x = .ok u ∧ f u = .ok t := by
  cases x <;> simp_all

/-- What raised from a sequence: the first part did, or it returned and the second did. -/
theorem Result.bind_eq_raised {x : Result} {f : State → Result} {t : State} (h : x.bind f = .raised t) :
    x = .raised t ∨ ∃ u, x = .ok u ∧ f u = .raised t := by
  cases x <;> simp_all

theorem Result.bind_assoc (x : Result) (f g : State → Result) :
    (x.bind f).bind g = x.bind fun t => (f t).bind g := by
  cases x <;> rfl

@[simp] theorem Result.ofExcept_ok {α : Type} (a : α) (f : α → Result) : Result.ofExcept (.ok a) f = f a := rfl
@[simp] theorem Result.ofExcept_error {α : Type} (w : Stop) (f : α → Result) :
    Result.ofExcept (.error w) f = .stopped w := rfl
@[simp] theorem Result.ofExcept_map {α β : Type} (x : Except Stop α) (g : α → β) (f : β → Result) :
    Result.ofExcept (x.map g) f = Result.ofExcept x fun a => f (g a) := by
  cases x <;> rfl

theorem Result.ofExcept_bind {α : Type} (x : Except Stop α) (f : α → Result) (g : State → Result) :
    (Result.ofExcept x f).bind g = Result.ofExcept x fun a => (f a).bind g := by
  cases x <;> rfl

@[simp] theorem endCall_ok (s : State) : endCall (.ok s) = .next (s.setResult .ok) := rfl
@[simp] theorem endCall_stopped (w : Stop) : endCall (.stopped w) = stopOutcome w := rfl
@[simp] theorem endOperation_ok (s : State) : endOperation (.ok s) = .next s := rfl
@[simp] theorem endOperation_raised (s : State) : endOperation (.raised s) = .next (takeTransportError s) := rfl
@[simp] theorem endOperation_stopped (w : Stop) : endOperation (.stopped w) = stopOutcome w := rfl

/-- With no operation in flight, a raised error is only handed to the caller. -/
theorem endCall_raised_idle {s : State} (h : s.inFlight = false) :
    endCall (.raised s) = .next (s.setResult .transportError) := by
  simp [endCall, h]

/-- What a next state after a call is. -/
theorem endCall_eq_next {x : Result} {t : State} (h : endCall x = .next t) :
    (∃ u, x = .ok u ∧ t = u.setResult .ok) ∨
    (∃ u, x = .raised u ∧ t = (if u.inFlight then takeTransportError u else u).setResult .transportError) := by
  match x, h with
  | .ok u, h => exact .inl ⟨u, rfl, by simpa [endCall] using h.symm⟩
  | .raised u, h => exact .inr ⟨u, rfl, by simpa [endCall] using h.symm⟩
  | .stopped (.fault _), h => simp [endCall, stopOutcome] at h
  | .stopped (.refused _), h => simp [endCall, stopOutcome] at h

/-- What a next state after INIT or BLIT is. -/
theorem endOperation_eq_next {x : Result} {t : State} (h : endOperation x = .next t) :
    x = .ok t ∨ ∃ u, x = .raised u ∧ t = takeTransportError u := by
  match x, h with
  | .ok u, h => exact .inl (by simpa [endOperation] using h)
  | .raised u, h => exact .inr ⟨u, rfl, by simpa [endOperation] using h.symm⟩
  | .stopped (.fault _), h => simp [endOperation, stopOutcome] at h
  | .stopped (.refused _), h => simp [endOperation, stopOutcome] at h

end Sys2Proof.Machine
end

