-- ==== Sys2Proof/Laws/Frame.lean ====
section
/-! SUPPORT. One spec lemma per shared operation of the bus: the line calls, the transfer, the frame, the exchange. -/

namespace Sys2Proof.Machine

/-! ### Lines -/

/-- Whether line calls can fail is a parameter. -/
theorem LinesReliable.of_cfg {s t : State} (h : LinesReliable s) (hc : t.cfg = s.cfg) : LinesReliable t := by
  unfold LinesReliable
  rw [hc]
  exact h

@[simp] theorem lineCallOk_of_reliable {s : State} (h : LinesReliable s) : lineCallOk s = true := by
  simp [lineCallOk, show s.cfg.lineWriteCanFail = false from h]

@[simp] theorem afterLineCall_of_reliable {s : State} (h : LinesReliable s) : afterLineCall s = s := by
  simp [afterLineCall, show s.cfg.lineWriteCanFail = false from h]

/-- `configure_output_line` where no line call fails (R80). -/
theorem configureOutputLine_eq {s : State} (h : LinesReliable s) (l : Line) :
    configureOutputLine l s = .ok ((s.emit (.cfg l)).configure l) := by
  simp [configureOutputLine, h]

/-- `write_line` where no line call fails (R81). -/
theorem writeLine_eq {s : State} (h : LinesReliable s) {w : LineWrite} (hc : s.configured w.line = true) :
    writeLine w s = Result.ofExcept (driveLine w (s.emit (.line w))) .ok := by
  simp [writeLine, hc, h]

/-- `write_line` on chip-select (R81, R103: the Receiver is untouched). -/
theorem writeLine_cs {s : State} (h : LinesReliable s) (hc : s.cs.configured = true) (l : CsLevel) :
    writeLine (.cs l) s = .ok ((s.emit (.line (.cs l))).setCs l) := by
  rw [writeLine_eq h (w := .cs l) hc]
  rfl

/-- `write_line` on command/data-select (R81). -/
theorem writeLine_dc {s : State} (h : LinesReliable s) (hc : s.dc.configured = true) (l : ByteClass) :
    writeLine (.dc l) s = .ok ((s.emit (.line (.dc l))).setDc l) := by
  rw [writeLine_eq h (w := .dc l) hc]
  rfl

/-- `write_line` on the backlight (R81, R144). -/
theorem writeLine_bl {s : State} (h : LinesReliable s) (hc : s.bl.configured = true) (l : BlLevel) :
    writeLine (.bl l) s = .ok ((s.emit (.line (.bl l))).setBl l) := by
  rw [writeLine_eq h (w := .bl l) hc]
  rfl

/-- `write_line` on the reset line (R81, R106). -/
theorem writeLine_rst {s : State} (h : LinesReliable s) (hc : s.rst.configured = true) (l : RstLevel) :
    writeLine (.rst l) s = Result.ofExcept (resetLine s.cfg s.rst.level l s.recv) fun r =>
      .ok (((s.emit (.line (.rst l))).setRst l).setRecv r) := by
  rw [writeLine_eq h (w := .rst l) hc]
  simp [driveLine]

/-- A write to a line that is not configured is refused (R81). -/
theorem writeLine_unconfigured {s : State} {w : LineWrite} (hc : s.configured w.line = false) :
    writeLine w s = .stopped (.refused .lineNotConfigured) := by
  simp [writeLine, hc]

/-! ### Frames -/

/-- What a transfer does (R83), by its draw. -/
theorem transportWrite_eq {s : State} (ht : s.tInit = true) {bytes : List Byte} (hb : bytes ≠ []) :
    transportWrite bytes s =
      if (s.drawAt 0).outcome = .ok then
        Result.ofExcept (takeBytes s.cfg s.pins bytes s.recv) fun r =>
          .ok ((s.afterDraw.emit (.xfer bytes true bytes.length)).setRecv r)
      else if (s.drawAt 0).outcome = .hang ∧ s.cfg.transportCanHang = true then .stopped (.fault .transportHang)
      else
        Result.ofExcept (takeBytes s.cfg s.pins (bytes.take (failedCount s bytes)) s.recv) fun r =>
          .raised ((s.afterDraw.emit (.xfer bytes false (failedCount s bytes))).setRecv r) := by
  have hd : ∀ k e, deliver bytes k (s.afterDraw.emit e) =
      (takeBytes s.cfg s.pins (bytes.take k) s.recv).map (s.afterDraw.emit e).setRecv := fun _ _ => rfl
  simp [transportWrite, ht, hb, hd]

theorem endFrame_ofExcept {α : Type} (x : Except Stop α) (f : α → Result) :
    endFrame (Result.ofExcept x f) = Result.ofExcept x fun a => endFrame (f a) := by
  cases x <;> rfl

/-- The machine inside a frame, before its transfer. -/
def inFrame (s : State) (cls : ByteClass) : State :=
  (((s.emit (.line (.dc cls))).setDc cls).emit (.line (.cs .asserted))).setCs .asserted

/-- The first two events of a frame (R60, R89). -/
theorem openFrame_eq {s : State} (hl : LinesReliable s) (hu : BusUsable s) (cls : ByteClass) :
    (writeLine (.dc cls) s).bind (writeLine (.cs .asserted)) = .ok (inFrame s cls) := by
  rw [writeLine_dc hl hu.2.1, Result.bind_ok]
  exact writeLine_cs (s := (s.emit (.line (.dc cls))).setDc cls) (hl.of_cfg (by simp)) (by simpa using hu.1) .asserted

/-- The last event of a frame (R88). -/
theorem closeFrame_eq {s : State} (hl : LinesReliable s) (hu : BusUsable s) (cls : ByteClass) (bytes : List Byte)
    (ok : Bool) (k : Nat) (r : Receiver) :
    writeLine (.cs .deasserted) (((inFrame s cls).afterDraw.emit (.xfer bytes ok k)).setRecv r) =
      .ok (afterBus s cls (transferEvents cls bytes ok k) 1 r) := by
  rw [writeLine_cs (s := ((inFrame s cls).afterDraw.emit (.xfer bytes ok k)).setRecv r) (hl.of_cfg (by simp [inFrame]))
    (by simpa [inFrame] using hu.1)]
  simp [afterBus, transferEvents, inFrame, State.emit, State.afterDraw, State.setRecv, State.setCs, State.setDc]

/-- What a frame does (R60, R61, R84 to R86), by the draw of its one transfer. -/
theorem sendFrame_eq {s : State} (hl : LinesReliable s) (hu : BusUsable s) (cls : ByteClass) {bytes : List Byte}
    (hb : bytes ≠ []) :
    sendFrame cls bytes s =
      if (s.drawAt 0).outcome = .ok then
        Result.ofExcept (takeBytes s.cfg (framePins s cls) bytes s.recv) fun r =>
          .ok (afterBus s cls (frameEvents cls bytes) 1 r)
      else if (s.drawAt 0).outcome = .hang ∧ s.cfg.transportCanHang = true then .stopped (.fault .transportHang)
      else
        Result.ofExcept (takeBytes s.cfg (framePins s cls) (bytes.take (failedCount s bytes)) s.recv) fun r =>
          .raised (afterBus s cls (transferEvents cls bytes false (failedCount s bytes)) 1 r) := by
  have ht : transportWrite bytes (inFrame s cls) =
      if (s.drawAt 0).outcome = .ok then
        Result.ofExcept (takeBytes s.cfg (framePins s cls) bytes s.recv) fun r =>
          .ok (((inFrame s cls).afterDraw.emit (.xfer bytes true bytes.length)).setRecv r)
      else if (s.drawAt 0).outcome = .hang ∧ s.cfg.transportCanHang = true then .stopped (.fault .transportHang)
      else
        Result.ofExcept (takeBytes s.cfg (framePins s cls) (bytes.take (failedCount s bytes)) s.recv) fun r =>
          .raised (((inFrame s cls).afterDraw.emit (.xfer bytes false (failedCount s bytes))).setRecv r) :=
    transportWrite_eq (s := inFrame s cls) (by simpa [inFrame] using hu.2.2) hb
  unfold sendFrame
  rw [openFrame_eq hl hu, Result.bind_ok, ht]
  split
  · rw [endFrame_ofExcept]
    exact congrArg _ (funext fun r => closeFrame_eq hl hu cls bytes true bytes.length r)
  · split
    · rfl
    · rw [endFrame_ofExcept]
      refine congrArg _ (funext fun r => ?_)
      rw [endFrame, closeFrame_eq hl hu, Result.bind_ok]

/-- A frame whose transfer succeeds. -/
theorem sendFrame_ok {s : State} (hl : LinesReliable s) (hu : BusUsable s) (hd : (s.drawAt 0).outcome = .ok)
    {cls : ByteClass} {bytes : List Byte} (hb : bytes ≠ []) {r : Receiver}
    (hr : takeBytes s.cfg (framePins s cls) bytes s.recv = .ok r) :
    sendFrame cls bytes s = .ok (afterBus s cls (frameEvents cls bytes) 1 r) := by
  rw [sendFrame_eq hl hu cls hb, if_pos hd, hr, Result.ofExcept_ok]

/-! ### After frames -/

section
variable (s : State) (cls : ByteClass) (es : List Event) (n : Nat) (r : Receiver)
@[simp] theorem afterBus_cfg : (afterBus s cls es n r).cfg = s.cfg := rfl
@[simp] theorem afterBus_seqState : (afterBus s cls es n r).seqState = s.seqState := rfl
@[simp] theorem afterBus_seqPc : (afterBus s cls es n r).seqPc = s.seqPc := rfl
@[simp] theorem afterBus_rx0 : (afterBus s cls es n r).rx0 = s.rx0 := rfl
@[simp] theorem afterBus_ry0 : (afterBus s cls es n r).ry0 = s.ry0 := rfl
@[simp] theorem afterBus_rx1 : (afterBus s cls es n r).rx1 = s.rx1 := rfl
@[simp] theorem afterBus_ry1 : (afterBus s cls es n r).ry1 = s.ry1 := rfl
@[simp] theorem afterBus_blen : (afterBus s cls es n r).blen = s.blen := rfl
@[simp] theorem afterBus_bidx : (afterBus s cls es n r).bidx = s.bidx := rfl
@[simp] theorem afterBus_status : (afterBus s cls es n r).status = s.status := rfl
@[simp] theorem afterBus_rst : (afterBus s cls es n r).rst = s.rst := rfl
@[simp] theorem afterBus_bl : (afterBus s cls es n r).bl = s.bl := rfl
@[simp] theorem afterBus_tInit : (afterBus s cls es n r).tInit = s.tInit := rfl
@[simp] theorem afterBus_refused : (afterBus s cls es n r).refused = s.refused := rfl
@[simp] theorem afterBus_callResult : (afterBus s cls es n r).callResult = s.callResult := rfl
@[simp] theorem afterBus_pending : (afterBus s cls es n r).pending = s.pending := rfl
@[simp] theorem afterBus_cs : (afterBus s cls es n r).cs = { s.cs with level := some .deasserted } := rfl
@[simp] theorem afterBus_dc : (afterBus s cls es n r).dc = { s.dc with level := some cls } := rfl
@[simp] theorem afterBus_trace : (afterBus s cls es n r).trace = s.trace ++ es := rfl
@[simp] theorem afterBus_draws : (afterBus s cls es n r).draws = s.draws.drop n := rfl
@[simp] theorem afterBus_drawCount : (afterBus s cls es n r).drawCount = s.drawCount + n := rfl
@[simp] theorem afterBus_recv : (afterBus s cls es n r).recv = r := rfl

@[simp] theorem afterBus_drawAt (k : Nat) : (afterBus s cls es n r).drawAt k = s.drawAt (n + k) := by
  simp [State.drawAt, List.getElem?_drop, Nat.add_assoc]

/-- Frames after frames. -/
@[simp] theorem afterBus_afterBus (cls' : ByteClass) (es' : List Event) (n' : Nat) (r' : Receiver) :
    afterBus (afterBus s cls es n r) cls' es' n' r' = afterBus s cls' (es ++ es') (n + n') r' := by
  simp [afterBus, List.append_assoc, Nat.add_assoc]

@[simp] theorem framePins_afterBus (cls' : ByteClass) : framePins (afterBus s cls es n r) cls' = framePins s cls' := rfl

end

theorem BusUsable.afterBus {s : State} (h : BusUsable s) (cls : ByteClass) (es : List Event) (n : Nat) (r : Receiver) :
    BusUsable (afterBus s cls es n r) := by
  simpa [BusUsable] using h

theorem LinesReliable.afterBus {s : State} (h : LinesReliable s) (cls : ByteClass) (es : List Event) (n : Nat)
    (r : Receiver) : LinesReliable (afterBus s cls es n r) := h.of_cfg (by simp)

theorem DrawsOk.afterBus {s : State} {n m : Nat} (h : DrawsOk s (n + m)) (cls : ByteClass) (es : List Event)
    (r : Receiver) : DrawsOk (afterBus s cls es n r) m := fun k hk => by
  rw [afterBus_drawAt]
  exact h _ (by omega)

theorem DrawsOk.mono {s : State} {n m : Nat} (h : DrawsOk s n) (hm : m ≤ n) : DrawsOk s m := fun k hk =>
  h k (by omega)

/-! ### Exchanges -/

/-- Frames of one byte each (R93, `per_byte`). -/
theorem sendEach_ok {s : State} (hl : LinesReliable s) (hu : BusUsable s) (bs : List Byte) (hb : bs ≠ [])
    (hd : DrawsOk s bs.length) {r : Receiver} (hr : takeBytes s.cfg (framePins s .data) bs s.recv = .ok r) :
    sendEach bs s = .ok (afterBus s .data (bs.flatMap fun b => frameEvents .data [b]) bs.length r) := by
  induction bs generalizing s with
  | nil => exact absurd rfl hb
  | cons b bs ih =>
    rw [takeBytes_cons, ← takeBytes_singleton] at hr
    cases h1 : takeBytes s.cfg (framePins s .data) [b] s.recv with
    | error e => simp [h1, Except.bind] at hr
    | ok r1 =>
      rw [h1] at hr
      replace hr : takeBytes s.cfg (framePins s .data) bs r1 = .ok r := hr
      have h2 : sendEach (b :: bs) s = sendEach bs (afterBus s .data (frameEvents .data [b]) 1 r1) := by
        show (sendFrame .data [b] s).bind _ = _
        rw [sendFrame_ok hl hu (hd 0 (by simp)) (by simp) h1, Result.bind_ok]
      rw [h2]
      by_cases hbs : bs = []
      · subst hbs
        obtain rfl : r1 = r := by simpa using hr
        rfl
      · have hd' : DrawsOk s (1 + bs.length) := by
          rw [Nat.add_comm]
          exact hd
        rw [ih (hl.afterBus ..) (hu.afterBus ..) hbs (hd'.afterBus _ _ _) (by simpa using hr)]
        simp [Nat.add_comm]

/-- The parameter bytes of a command (R93), under either framing. -/
theorem sendParams_ok {s : State} (hl : LinesReliable s) (hu : BusUsable s) {ps : List Byte} (hb : ps ≠ [])
    (hd : DrawsOk s (paramFrames s.cfg.paramFraming ps)) {r : Receiver}
    (hr : takeBytes s.cfg (framePins s .data) ps s.recv = .ok r) :
    sendParams ps s = .ok
      (afterBus s .data (paramEvents s.cfg.paramFraming ps) (paramFrames s.cfg.paramFraming ps) r) := by
  unfold sendParams
  simp only [hb, if_false]
  cases hf : s.cfg.paramFraming with
  | perGroup =>
    have hlen : ps.length ≠ 0 := by simpa using hb
    simp only [sendDataBlock, hlen, false_or, ne_eq, not_true_eq_false, if_false, List.take_length, paramEvents, hb,
      paramFrames]
    exact sendFrame_ok hl hu (hd 0 (by simp [hf, paramFrames, hb])) hb hr
  | perByte => exact sendEach_ok hl hu ps hb (by simpa [hf, paramFrames] using hd) hr

@[simp] theorem paramEvents_nil (f : ParamFraming) : paramEvents f [] = [] := by cases f <;> rfl
@[simp] theorem paramFrames_nil (f : ParamFraming) : paramFrames f [] = 0 := by cases f <;> rfl

/-- An exchange that succeeds (R63): the Receiver takes the command byte, then the parameter bytes. -/
theorem exchange_ok {s : State} (hl : LinesReliable s) (hu : BusUsable s) {cmd : Cmd} {ps : List Byte}
    (hd : DrawsOk s (exchangeFrames s.cfg ps)) {r1 r : Receiver}
    (h1 : takeBytes s.cfg (framePins s .command) [s.cfg.codes.get cmd] s.recv = .ok r1)
    (hr : takeBytes s.cfg (framePins s .data) ps r1 = .ok r) :
    exchange cmd ps s = .ok (afterBus s (if ps = [] then .command else .data) (exchangeEvents s.cfg cmd ps)
      (exchangeFrames s.cfg ps) r) := by
  have h2 : exchange cmd ps s =
      sendParams ps (afterBus s .command (frameEvents .command [s.cfg.codes.get cmd]) 1 r1) := by
    show (sendFrame .command [s.cfg.codes.get cmd] s).bind _ = _
    rw [sendFrame_ok hl hu (hd 0 (by simp [exchangeFrames])) (by simp) h1, Result.bind_ok]
  rw [h2]
  by_cases hb : ps = []
  · subst hb
    obtain rfl : r1 = r := by simpa using hr
    simp [sendParams, exchangeEvents, exchangeFrames]
  · rw [sendParams_ok (hl.afterBus ..) (hu.afterBus ..) hb
      (by
        rw [afterBus_cfg]
        exact DrawsOk.afterBus hd _ _ _) (by simpa using hr)]
    simp [exchangeEvents, exchangeFrames, hb]

/-! ### What frames leave alone -/

theorem KeepsDriver.afterBus (s : State) (cls : ByteClass) (es : List Event) (n : Nat) (r : Receiver) :
    KeepsDriver s (afterBus s cls es n r) := by
  constructor <;> simp

theorem KeepsDriver.refl (s : State) : KeepsDriver s s := by
  constructor <;> rfl

theorem KeepsDriver.trans {s t u : State} (h : KeepsDriver s t) (h' : KeepsDriver t u) : KeepsDriver s u := by
  cases h
  cases h'
  constructor <;> simp_all

end Sys2Proof.Machine
end

