-- ==== Sys2Proof/Laws/Commands.lean ====
section
/-! SUPPORT. What each wire command does: at the Receiver, then as an operation of the machine. -/

namespace Sys2Proof.Machine

/-! ### The order tracker -/

/-- The tracker at an accepted command byte (R108). -/
theorem trackerStart_eq {cmd : Cmd} {r : Receiver} (h : Accepts r cmd) :
    trackerStart cmd (beginCommand cmd r) =
      .ok { beginCommand cmd r with cInitValid := validAfter r cmd } := by
  unfold trackerStart validAfter
  simp only [beginCommand_cInitStage]
  by_cases hs : r.cInitStage < 19
  · have hn : ¬ 19 ≤ r.cInitStage := by omega
    by_cases ho : initOrder[r.cInitStage]? = some cmd <;> simp [hs, ho, hn, beginCommand]
  · have hx : expectedAfterInit cmd = true := h.resolve_left hs
    have hn : 19 ≤ r.cInitStage := by omega
    simp [hs, hx, hn, beginCommand]

/-- A command byte that the tracker does not accept (R108). -/
theorem trackerStart_refuses {cmd : Cmd} {r : Receiver} (h : ¬ Accepts r cmd) :
    trackerStart cmd (beginCommand cmd r) = .error (.refused .commandAfterInitialization) := by
  have h1 : ¬ r.cInitStage < 19 := fun hs => h (.inl hs)
  have h2 : ¬ expectedAfterInit cmd = true := fun hs => h (.inr hs)
  simp [trackerStart, h1, h2]

/-- The tracker at completion (R108), from the stage and validity the command found. -/
theorem trackerDone_eq {cmd : Cmd} {r r2 : Receiver} (hs : r2.cInitStage = r.cInitStage)
    (hv : r2.cInitValid = validAfter r cmd) : trackerDone cmd r2 = { r2 with cInitStage := stageAfter r cmd } := by
  have hiff : (r2.cInitStage < 19 ∧ r2.cInitValid = true ∧ initOrder[r2.cInitStage]? = some cmd) ↔
      (r.cInitValid = true ∧ initOrder[r.cInitStage]? = some cmd) := by
    rw [hs, hv]
    constructor
    · rintro ⟨-, h, ho⟩
      exact ⟨by simp [validAfter] at h; exact h.1, ho⟩
    · rintro ⟨h, ho⟩
      have hlt := (List.getElem?_eq_some_iff.1 ho).1
      exact ⟨by simpa [initOrder] using hlt, by simp [validAfter, h, ho], ho⟩
  unfold trackerDone stageAfter
  by_cases h : r.cInitValid = true ∧ initOrder[r.cInitStage]? = some cmd
  · rw [if_pos h, if_pos (hiff.2 h), hs]
  · rw [if_neg h, if_neg (fun h' => h (hiff.1 h')), ← hs]

/-- `trackerDone_eq` against a Receiver written out. -/
theorem trackerDone_to {cmd : Cmd} {r r2 r3 : Receiver} (hs : r2.cInitStage = r.cInitStage)
    (hv : r2.cInitValid = validAfter r cmd) (h : { r2 with cInitStage := stageAfter r cmd } = r3) :
    trackerDone cmd r2 = r3 :=
  (trackerDone_eq hs hv).trans h

/-! ### The command byte -/

/-- A command byte of a parameterless command (R101). -/
theorem runCommand_eq {c : Config} {cmd : Cmd} {r : Receiver} (hg : ¬ GroupOpen c r) (ha : Accepts r cmd) :
    runCommand c cmd r =
      (commandEffect c cmd { beginCommand cmd r with cInitValid := validAfter r cmd }).map
        fun r2 => if c.nParams cmd = 0 then trackerDone cmd r2 else r2 := by
  unfold runCommand
  rw [endGroup_of_closed hg, trackerStart_eq ha]
  simp only
  cases commandEffect c cmd { beginCommand cmd r with cInitValid := validAfter r cmd } <;> rfl

theorem runCommand_refuses {c : Config} {cmd : Cmd} {r : Receiver} (ha : ¬ Accepts (endGroup c r) cmd) :
    runCommand c cmd r = .error (.refused .commandAfterInitialization) := by
  unfold runCommand
  rw [trackerStart_refuses ha]

/-- SLEEP_OUT (R111). -/
theorem runCommand_sleepOut {c : Config} {r : Receiver} (hg : ¬ GroupOpen c r) (ha : Accepts r .sleepOut) :
    runCommand c .sleepOut r = .ok { completed .sleepOut [] r with cSleepOut := true, cBusy := c.tSlpout } := by
  rw [runCommand_eq hg ha]
  show Except.ok (trackerDone _ _) = _
  refine congrArg Except.ok (trackerDone_to (r := r) ?_ ?_ ?_) <;> rfl

/-- NORMAL_DISPLAY_ON (R127). -/
theorem runCommand_normalDisplayOn {c : Config} {r : Receiver} (hg : ¬ GroupOpen c r) (ha : Accepts r .normalDisplayOn) :
    runCommand c .normalDisplayOn r =
      .ok { completed .normalDisplayOn [] r with cNormalOn := true, cBusy := c.tNoron } := by
  rw [runCommand_eq hg ha]
  show Except.ok (trackerDone _ _) = _
  refine congrArg Except.ok (trackerDone_to (r := r) ?_ ?_ ?_) <;> rfl

/-- DISPLAY_ON (R128). -/
theorem runCommand_displayOn {c : Config} {r : Receiver} (hg : ¬ GroupOpen c r) (ha : Accepts r .displayOn) :
    runCommand c .displayOn r = .ok { completed .displayOn [] r with cDisplayOn := true, cBusy := c.tDispon } := by
  rw [runCommand_eq hg ha]
  show Except.ok (trackerDone _ _) = _
  refine congrArg Except.ok (trackerDone_to (r := r) ?_ ?_ ?_) <;> rfl

/-- MEMORY_WRITE (R129). -/
theorem runCommand_memoryWrite {c : Config} {r : Receiver} (hg : ¬ GroupOpen c r) {x0 x1 y0 y1 : Half}
    (hw : WindowOk c r x0 x1 y0 y1) :
    runCommand c .memoryWrite r =
      .ok { completed .memoryWrite [] r with wcol := some x0.toNat, wrow := some y0.toNat, cFull := false } := by
  obtain ⟨h1, h2, h3, h4, h5⟩ := hw
  rw [runCommand_eq hg (.inr rfl)]
  simp only [commandEffect, memoryWriteEffect, beginCommand, h1, h2, h3, h4, h5, Except.map, Config.nParams, if_true]
  refine congrArg Except.ok (trackerDone_to (r := r) ?_ ?_ ?_)
  · rfl
  · rfl
  simp [completed, h1, h2, h3, h4]

/-- SOFTWARE_RESET (R110, R31). -/
theorem runCommand_softwareReset {c : Config} {r : Receiver} (hg : ¬ GroupOpen c r) :
    runCommand c .softwareReset r = .ok
      { Receiver.powerOn with
        cCmd := some .softwareReset
        cResetDone := r.cResetDone
        cInitStage := if r.cInitStage = 0 ∧ r.cInitValid = true then 1 else 0
        cInitValid := decide (r.cInitStage = 0) && r.cInitValid
        cBusy := c.tSwreset
        cRstLowMs := r.cRstLowMs } := by
  have hv : r.cInitStage = 0 → validAfter r .softwareReset = r.cInitValid := by
    intro h
    simp [validAfter, h, initOrder]
  rw [runCommand_eq hg (.inr rfl)]
  simp only [commandEffect, softwareResetEffect, beginCommand, Except.map, Config.nParams, if_true]
  by_cases h0 : r.cInitStage = 0
  · by_cases h1 : r.cInitValid = true
    · simp [trackerDone, hv h0, h0, h1, initOrder, Receiver.powerOn]
    · simp [trackerDone, hv h0, h0, h1, initOrder, Receiver.powerOn]
  · simp [trackerDone, h0, Receiver.powerOn]

/-- The command byte of a command with parameters does nothing but begin its group (R101). -/
theorem runCommand_params {c : Config} {cmd : Cmd} {r : Receiver} (hg : ¬ GroupOpen c r) (ha : Accepts r cmd)
    (hn : c.nParams cmd ≠ 0) :
    runCommand c cmd r = .ok { beginCommand cmd r with cInitValid := validAfter r cmd } := by
  rw [runCommand_eq hg ha]
  cases cmd <;> first | (simp [Config.nParams] at hn; done) | simp [commandEffect, Except.map, hn]

/-! ### The exchange at the Receiver -/

/-- The Receiver's answer to a whole exchange: the command byte, then the group (R101, R102). -/
theorem takeBytes_exchange {c : Config} (hc : c.Wf) {p : Option RstLevel} (hp : p = some .high) {r : Receiver}
    (hd : r.cResetDone = true) (hb : r.cBusy = 0) (hg : ¬ GroupOpen c r) {cmd : Cmd} (ha : Accepts r cmd)
    {ps : List Byte} (hne : ps ≠ []) (hn : ps.length = c.nParams cmd) :
    takeBytes c ⟨some .asserted, some .command, p⟩ [c.codes.get cmd] r =
      .ok { beginCommand cmd r with cInitValid := validAfter r cmd } ∧
    takeBytes c ⟨some .asserted, some .data, p⟩ ps { beginCommand cmd r with cInitValid := validAfter r cmd } =
      .ok (trackerDone cmd (commitEffect cmd
        { beginCommand cmd r with cInitValid := validAfter r cmd, cPbuf := ps, cPidx := ps.length })) := by
  have hn0 : c.nParams cmd ≠ 0 := by
    rw [← hn]
    simpa using hne
  have hm : cmd ≠ .memoryWrite := by
    rintro rfl
    exact hn0 rfl
  constructor
  · rw [takeBytes_singleton, takeByte_command rfl rfl hp hd hb, takeCommand_get hc, runCommand_params hg ha hn0]
  · rw [takeBytes_params rfl rfl hp hm ps _ (by exact hd) (by exact hb) rfl rfl rfl hne hn]

/-! ### As operations of the machine -/

/-- A parameterless command whose byte the Receiver takes (R63, R84). -/
theorem exchange_bare {s : State} (hl : LinesReliable s) (hu : BusUsable s) (ha : Awake s) (hc : s.cfg.Wf)
    (hd : DrawsOk s 1) {cmd : Cmd} {r : Receiver} (hr : runCommand s.cfg cmd s.recv = .ok r) :
    exchange cmd [] s = .ok (afterBus s .command (frameEvents .command [s.cfg.codes.get cmd]) 1 r) := by
  obtain ⟨hrst, hdone, hbusy⟩ := ha
  have h1 : takeBytes s.cfg (framePins s .command) [s.cfg.codes.get cmd] s.recv = .ok r := by
    rw [takeBytes_singleton, takeByte_command rfl rfl hrst hdone hbusy, takeCommand_get hc, hr]
  have := exchange_ok hl hu (cmd := cmd) (ps := []) (by simpa [exchangeFrames] using hd) h1 rfl
  simpa [exchangeEvents, exchangeFrames] using this

/-- A command with its whole group (R63, R102). -/
theorem exchange_group {s : State} (hl : LinesReliable s) (hu : BusUsable s) (ha : Awake s) (hc : s.cfg.Wf)
    (hg : ¬ GroupOpen s.cfg s.recv) {cmd : Cmd} (hacc : Accepts s.recv cmd) {ps : List Byte} (hne : ps ≠ [])
    (hn : ps.length = s.cfg.nParams cmd) (hd : DrawsOk s (exchangeFrames s.cfg ps)) :
    exchange cmd ps s = .ok (afterBus s .data (exchangeEvents s.cfg cmd ps) (exchangeFrames s.cfg ps)
      (trackerDone cmd (commitEffect cmd
        { beginCommand cmd s.recv with cInitValid := validAfter s.recv cmd, cPbuf := ps, cPidx := ps.length }))) := by
  obtain ⟨hrst, hdone, hbusy⟩ := ha
  obtain ⟨h1, h2⟩ := takeBytes_exchange hc hrst hdone hbusy hg hacc hne hn
  have := exchange_ok hl hu hd h1 h2
  simpa [hne] using this

/-- What a completed group of a configuration command leaves (R112, R113, R116 to R120, R123 to R126). -/
theorem commit_storeReg {cmd : Cmd} {reg : ConfigReg} (r : Receiver) (ps : List Byte)
    (hs : ∀ r, commitEffect cmd r = storeReg reg r) :
    trackerDone cmd (commitEffect cmd
      { beginCommand cmd r with cInitValid := validAfter r cmd, cPbuf := ps, cPidx := ps.length }) =
      { completed cmd ps r with regs := r.regs.set reg (some ps) } := by
  rw [hs]
  refine trackerDone_to (r := r) ?_ ?_ ?_ <;> rfl

/-- VRH and VDV: honoured only once the enable register has been written (R121, R122). -/
theorem commit_vrh (r : Receiver) (ps : List Byte) :
    trackerDone .vrh (commitEffect .vrh
      { beginCommand .vrh r with cInitValid := validAfter r .vrh, cPbuf := ps, cPidx := ps.length }) =
      { completed .vrh ps r with
        regs := r.regs.set .vrh (if r.regs.vdvVrhEnable = none then none else some ps) } := by
  by_cases h : r.regs.vdvVrhEnable = none
  · simp only [commitEffect, vrhCommit, beginCommand, h, if_true]
    refine trackerDone_to (r := r) ?_ ?_ ?_ <;> rfl
  · simp only [commitEffect, vrhCommit, beginCommand, h, if_false]
    refine trackerDone_to (r := r) ?_ ?_ ?_ <;> rfl

theorem commit_vdv (r : Receiver) (ps : List Byte) :
    trackerDone .vdv (commitEffect .vdv
      { beginCommand .vdv r with cInitValid := validAfter r .vdv, cPbuf := ps, cPidx := ps.length }) =
      { completed .vdv ps r with
        regs := r.regs.set .vdv (if r.regs.vdvVrhEnable = none then none else some ps) } := by
  by_cases h : r.regs.vdvVrhEnable = none
  · simp only [commitEffect, vdvCommit, beginCommand, h, if_true]
    refine trackerDone_to (r := r) ?_ ?_ ?_ <;> rfl
  · simp only [commitEffect, vdvCommit, beginCommand, h, if_false]
    refine trackerDone_to (r := r) ?_ ?_ ?_ <;> rfl

/-- COLUMN_ADDRESS_SET (R114). -/
theorem commit_columnAddressSet (r : Receiver) (p0 p1 p2 p3 : Byte) :
    trackerDone .columnAddressSet (commitEffect .columnAddressSet
      { beginCommand .columnAddressSet r with
        cInitValid := validAfter r .columnAddressSet, cPbuf := [p0, p1, p2, p3], cPidx := 4 }) =
      { completed .columnAddressSet [p0, p1, p2, p3] r with
        xs := some (joinBytes p0 p1), xe := some (joinBytes p2 p3) } := by
  simp only [commitEffect, columnAddressSetCommit, beginCommand]
  refine trackerDone_to (r := r) ?_ ?_ ?_ <;> rfl

/-- ROW_ADDRESS_SET (R115). -/
theorem commit_rowAddressSet (r : Receiver) (p0 p1 p2 p3 : Byte) :
    trackerDone .rowAddressSet (commitEffect .rowAddressSet
      { beginCommand .rowAddressSet r with
        cInitValid := validAfter r .rowAddressSet, cPbuf := [p0, p1, p2, p3], cPidx := 4 }) =
      { completed .rowAddressSet [p0, p1, p2, p3] r with
        ys := some (joinBytes p0 p1), ye := some (joinBytes p2 p3) } := by
  simp only [commitEffect, rowAddressSetCommit, beginCommand]
  refine trackerDone_to (r := r) ?_ ?_ ?_ <;> rfl

end Sys2Proof.Machine
end

