-- ==== Sys2Proof/Laws/Init.lean ====
section
/-! SUPPORT. The initialization program, row by row: what a run of it does while every call succeeds. -/

namespace Sys2Proof.Machine

/-! ### One row -/

/-- A row that returned is followed by the next row (R152). -/
theorem runProgram_row {s t : State} {m : MicroStep} (f : Nat) (h : (initProgram s.cfg)[s.seqPc]? = some m)
    (hm : m ≠ .done) (ht : microStep m s = .ok t) : runProgram (f + 1) s = runProgram f t.advancePc := by
  rw [runProgram, h]
  cases m with
  | done => exact absurd rfl hm
  | cfg l => simp only [ht, Result.bind_ok]
  | tinit => simp only [ht, Result.bind_ok]
  | line w => simp only [ht, Result.bind_ok]
  | delay ms => simp only [ht, Result.bind_ok]
  | command cmd => simp only [ht, Result.bind_ok]
  | exch cmd ps => simp only [ht, Result.bind_ok]

/-- The terminal row (R151). -/
theorem runProgram_done {s : State} (f : Nat) (h : (initProgram s.cfg)[s.seqPc]? = some .done) :
    runProgram (f + 1) s = .ok (initDone s) := by
  rw [runProgram, h]
  rfl

/-! ### The machine inside INIT -/

/-- The machine inside an INIT entered from `s`, once the lines and the transport are up (R142 to R144): at row `pc`, with
these events and draws behind it. -/
def inInit (s : State) (pc : Nat) (csl : Option CsLevel) (dcl : Option ByteClass) (es : List Event) (n : Nat)
    (r : Receiver) : State :=
  { s with
    seqState := .initRunning
    seqPc := pc
    cs := ⟨true, csl⟩
    dc := ⟨true, dcl⟩
    rst := ⟨true, some .high⟩
    bl := ⟨true, some .on⟩
    tInit := true
    trace := s.trace ++ es
    draws := s.draws.drop n
    drawCount := s.drawCount + n
    recv := r }

section
variable (s : State) (pc : Nat) (csl : Option CsLevel) (dcl : Option ByteClass) (es : List Event) (n : Nat)
  (r : Receiver)

@[simp] theorem inInit_cfg : (inInit s pc csl dcl es n r).cfg = s.cfg := rfl
@[simp] theorem inInit_seqPc : (inInit s pc csl dcl es n r).seqPc = pc := rfl
@[simp] theorem inInit_recv : (inInit s pc csl dcl es n r).recv = r := rfl
@[simp] theorem inInit_rst : (inInit s pc csl dcl es n r).rst = ⟨true, some .high⟩ := rfl
@[simp] theorem inInit_advancePc : (inInit s pc csl dcl es n r).advancePc = inInit s (pc + 1) csl dcl es n r := rfl
@[simp] theorem inInit_drawAt (k : Nat) : (inInit s pc csl dcl es n r).drawAt k = s.drawAt (n + k) := by
  simp [State.drawAt, inInit, List.getElem?_drop, Nat.add_assoc]

@[simp] theorem inInit_afterBus (cls : ByteClass) (es' : List Event) (n' : Nat) (r' : Receiver) :
    afterBus (inInit s pc csl dcl es n r) cls es' n' r' =
      inInit s pc (some .deasserted) (some cls) (es ++ es') (n + n') r' := by
  simp [afterBus, inInit, List.append_assoc, Nat.add_assoc]

@[simp] theorem inInit_sleepMs (ms : Nat) :
    sleepMs ms (inInit s pc csl dcl es n r) =
      inInit s pc csl dcl (es ++ [.delay ms]) n { r with cBusy := r.cBusy - ms } := by
  simp [sleepMs, inInit, State.emit, State.setRecv, passTime, List.append_assoc]

end

theorem inInit_busUsable (s : State) (pc : Nat) (csl : Option CsLevel) (dcl : Option ByteClass) (es : List Event)
    (n : Nat) (r : Receiver) : BusUsable (inInit s pc csl dcl es n r) := ⟨rfl, rfl, rfl⟩

theorem inInit_linesReliable {s : State} (hl : LinesReliable s) (pc : Nat) (csl : Option CsLevel)
    (dcl : Option ByteClass) (es : List Event) (n : Nat) (r : Receiver) :
    LinesReliable (inInit s pc csl dcl es n r) := hl.of_cfg (by simp)

theorem inInit_drawsOk {s : State} {n m : Nat} (hd : DrawsOk s (n + m)) (pc : Nat) (csl : Option CsLevel)
    (dcl : Option ByteClass) (es : List Event) (r : Receiver) : DrawsOk (inInit s pc csl dcl es n r) m := fun k hk => by
  rw [inInit_drawAt]
  exact hd _ (by omega)

/-! ### The Receiver in order -/

/-- The Receiver is awake, between commands, and exactly `k` commands into the order (R108). -/
structure InOrder (c : Config) (k : Nat) (r : Receiver) : Prop where
  stage : r.cInitStage = k
  valid : r.cInitValid = true
  resetDone : r.cResetDone = true
  idle : r.cBusy = 0
  closed : ¬ GroupOpen c r

theorem InOrder.accepts {c : Config} {k : Nat} {r : Receiver} (h : InOrder c k r) {cmd : Cmd}
    (ho : initOrder[k]? = some cmd) : Accepts r cmd := by
  left
  rw [h.stage]
  have := (List.getElem?_eq_some_iff.1 ho).1
  simpa [initOrder] using this

theorem InOrder.validAfter {c : Config} {k : Nat} {r : Receiver} (h : InOrder c k r) {cmd : Cmd}
    (ho : initOrder[k]? = some cmd) : validAfter r cmd = true := by
  simp [Machine.validAfter, h.valid, h.stage, ho]

theorem InOrder.stageAfter {c : Config} {k : Nat} {r : Receiver} (h : InOrder c k r) {cmd : Cmd}
    (ho : initOrder[k]? = some cmd) : stageAfter r cmd = k + 1 := by
  simp [Machine.stageAfter, h.valid, h.stage, ho]

/-- The Receiver after a register exchange in order (R102, R108). -/
def groupRecv (r : Receiver) (cmd : Cmd) (ps : List Byte) : Receiver :=
  { commitEffect cmd { r with cHalf := none, cCmd := some cmd, cPidx := ps.length, cPbuf := ps } with
    cInitStage := r.cInitStage + 1 }

/-- A commit changes window or configuration registers only. -/
theorem commitEffect_keeps (cmd : Cmd) (r : Receiver) :
    (commitEffect cmd r).cInitStage = r.cInitStage ∧ (commitEffect cmd r).cInitValid = r.cInitValid ∧
    (commitEffect cmd r).cResetDone = r.cResetDone ∧ (commitEffect cmd r).cBusy = r.cBusy ∧
    (commitEffect cmd r).cCmd = r.cCmd ∧ (commitEffect cmd r).cPidx = r.cPidx := by
  cases cmd <;> simp only [commitEffect, storeReg, vrhCommit, vdvCommit, columnAddressSetCommit,
    rowAddressSetCommit] <;> (try split) <;> simp

/-- The Receiver is one command further after a register exchange in order. -/
theorem InOrder.groupRecv {c : Config} {k : Nat} {r : Receiver} (h : InOrder c k r) {cmd : Cmd} {ps : List Byte}
    (hn : ps.length = c.nParams cmd) : InOrder c (k + 1) (groupRecv r cmd ps) := by
  obtain ⟨-, h2, h3, h4, h5, h6⟩ :=
    commitEffect_keeps cmd { r with cHalf := none, cCmd := some cmd, cPidx := ps.length, cPbuf := ps }
  refine ⟨congrArg (· + 1) h.stage, h2.trans h.valid, h3.trans h.resetDone, h4.trans h.idle, ?_⟩
  rintro ⟨cmd', hc, hp⟩
  obtain rfl : cmd = cmd' := Option.some.inj (h5.symm.trans hc)
  have hp' : ps.length < c.nParams cmd := lt_of_eq_of_lt h6.symm hp
  omega

/-- What a completed group leaves, in order. -/
theorem InOrder.commit {c : Config} {k : Nat} {r : Receiver} (h : InOrder c k r) {cmd : Cmd}
    (ho : initOrder[k]? = some cmd) (ps : List Byte) :
    trackerDone cmd (commitEffect cmd
      { beginCommand cmd r with cInitValid := Machine.validAfter r cmd, cPbuf := ps, cPidx := ps.length }) =
      Machine.groupRecv r cmd ps := by
  rw [h.validAfter ho, ← h.valid]
  obtain ⟨h1, h2, -⟩ :=
    commitEffect_keeps cmd { r with cHalf := none, cCmd := some cmd, cPidx := ps.length, cPbuf := ps }
  refine trackerDone_to (r := r) h1 (h2.trans ?_) ?_
  · rw [h.validAfter ho]
    exact h.valid
  · rw [h.stageAfter ho]
    simp [Machine.groupRecv, h.stage, beginCommand]

/-! ### The register exchanges of source step 6 -/

/-- A run of register exchanges in order (R147). -/
theorem run_exchanges (rows : List (Cmd × List Byte)) {s : State} (hl : LinesReliable s) (hc : s.cfg.Wf) (f : Nat)
    {pc k n : Nat} {csl : Option CsLevel} {dcl : Option ByteClass} {es : List Event} {r : Receiver}
    (hrow : ∀ i (h : i < rows.length), (initProgram s.cfg)[pc + i]? = some (.exch rows[i].1 rows[i].2))
    (hord : ∀ i (h : i < rows.length), initOrder[k + i]? = some rows[i].1)
    (hlen : ∀ row ∈ rows, row.2 ≠ [] ∧ row.2.length = s.cfg.nParams row.1)
    (hr : InOrder s.cfg k r) (hne : rows ≠ [])
    (hd : DrawsOk s (n + (rows.map fun row => exchangeFrames s.cfg row.2).sum)) :
    runProgram (f + rows.length) (inInit s pc csl dcl es n r) =
      runProgram f (inInit s (pc + rows.length) (some .deasserted) (some .data)
        (es ++ rows.flatMap fun row => exchangeEvents s.cfg row.1 row.2)
        (n + (rows.map fun row => exchangeFrames s.cfg row.2).sum)
        (rows.foldl (fun r row => groupRecv r row.1 row.2) r)) ∧
    InOrder s.cfg (k + rows.length) (rows.foldl (fun r row => groupRecv r row.1 row.2) r) := by
  induction rows generalizing pc k n csl dcl es r with
  | nil => exact absurd rfl hne
  | cons row rows ih =>
    obtain ⟨cmd, ps⟩ := row
    obtain ⟨hps, hpn⟩ := hlen (cmd, ps) (by simp)
    have ho : initOrder[k]? = some cmd := hord 0 (by simp)
    have hrow0 : (initProgram s.cfg)[pc]? = some (.exch cmd ps) := hrow 0 (by simp)
    simp only [List.map_cons, List.sum_cons, ← Nat.add_assoc] at hd
    have hstep : microStep (.exch cmd ps) (inInit s pc csl dcl es n r) =
        .ok (inInit s pc (some .deasserted) (some .data) (es ++ exchangeEvents s.cfg cmd ps)
          (n + exchangeFrames s.cfg ps) (groupRecv r cmd ps)) := by
      have h1 := exchange_group (inInit_linesReliable hl pc csl dcl es n r) (inInit_busUsable ..)
        ⟨rfl, hr.resetDone, hr.idle⟩ hc hr.closed (hr.accepts ho) hps hpn
        (inInit_drawsOk (m := exchangeFrames s.cfg ps) (hd.mono (by omega)) _ _ _ _ _)
      rw [show microStep (.exch cmd ps) (inInit s pc csl dcl es n r) = exchange cmd ps _ from rfl, h1]
      simp only [inInit_cfg, inInit_recv, inInit_afterBus]
      rw [hr.commit ho]
    rw [List.length_cons, ← Nat.add_assoc f, runProgram_row (f + rows.length) hrow0 (by simp) hstep, inInit_advancePc]
    have hr' := hr.groupRecv (cmd := cmd) hpn
    by_cases hrows : rows = []
    · subst hrows
      simpa using hr'
    · have := ih (pc := pc + 1) (k := k + 1) (n := n + exchangeFrames s.cfg ps) (csl := some .deasserted)
        (dcl := some .data) (es := es ++ exchangeEvents s.cfg cmd ps) (r := groupRecv r cmd ps)
        (fun i h => by
          have := hrow (i + 1) (by simpa using h)
          simpa [Nat.add_assoc, Nat.add_comm 1] using this)
        (fun i h => by
          have := hord (i + 1) (by simpa using h)
          simpa [Nat.add_assoc, Nat.add_comm 1] using this)
        (fun row hrow => hlen row (by simp [hrow])) hr' hrows hd
      obtain ⟨h1, h2⟩ := this
      rw [h1]
      constructor
      · simp [Nat.add_assoc, Nat.add_comm 1]
      · simpa [Nat.add_assoc, Nat.add_comm 1] using h2

/-! ### Source steps 1 to 3 -/

/-- The machine inside an INIT entered from `s`, with every line as given. -/
def midInit (s : State) (pc : Nat) (cs : LineState CsLevel) (dc : LineState ByteClass) (rst : LineState RstLevel)
    (bl : LineState BlLevel) (ti : Bool) (es : List Event) (n : Nat) (r : Receiver) : State :=
  { s with
    seqState := .initRunning
    seqPc := pc
    cs := cs
    dc := dc
    rst := rst
    bl := bl
    tInit := ti
    trace := s.trace ++ es
    draws := s.draws.drop n
    drawCount := s.drawCount + n
    recv := r }

theorem enterInit_eq (s : State) :
    enterInit s = midInit s 0 s.cs s.dc s.rst s.bl s.tInit [] 0 s.recv := by
  simp [enterInit, midInit]

section
variable (s : State) (pc : Nat) (cs : LineState CsLevel) (dc : LineState ByteClass) (rst : LineState RstLevel)
  (bl : LineState BlLevel) (ti : Bool) (es : List Event) (n : Nat) (r : Receiver)

@[simp] theorem midInit_cfg : (midInit s pc cs dc rst bl ti es n r).cfg = s.cfg := rfl
@[simp] theorem midInit_seqPc : (midInit s pc cs dc rst bl ti es n r).seqPc = pc := rfl

theorem midInit_linesReliable {s : State} (hl : LinesReliable s) :
    LinesReliable (midInit s pc cs dc rst bl ti es n r) := hl.of_cfg (by simp)

/-- The rows of source step 1: the lines (R142). -/
theorem row_cfg {s : State} (hl : LinesReliable s) (f : Nat) (l : Line)
    (h : (initProgram s.cfg)[pc]? = some (.cfg l)) :
    runProgram (f + 1) (midInit s pc cs dc rst bl ti es n r) =
      runProgram f (midInit s (pc + 1)
        (if l = .cs then ⟨true, cs.level⟩ else cs) (if l = .dc then ⟨true, dc.level⟩ else dc)
        (if l = .rst then ⟨true, rst.level⟩ else rst) (if l = .bl then ⟨true, bl.level⟩ else bl)
        ti (es ++ [.cfg l]) n r) := by
  have hw := configureOutputLine_eq (midInit_linesReliable pc cs dc rst bl ti es n r hl) l
  refine (runProgram_row (m := .cfg l) f h (by simp) hw).trans ?_
  refine congrArg _ ?_
  cases l <;> simp [midInit, State.emit, State.configure, State.advancePc, List.append_assoc]

/-- The transport (R82, R142). -/
theorem row_tinit {s : State} (f : Nat) (hd : (s.drawAt n).outcome = .ok)
    (h : (initProgram s.cfg)[pc]? = some .tinit) :
    runProgram (f + 1) (midInit s pc cs dc rst bl ti es n r) =
      runProgram f (midInit s (pc + 1) cs dc rst bl true (es ++ [.tinit true]) (n + 1) r) := by
  have hd' : ((midInit s pc cs dc rst bl ti es n r).drawAt 0).outcome = .ok := by
    simpa [State.drawAt, midInit, List.getElem?_drop] using hd
  have hw : microStep .tinit (midInit s pc cs dc rst bl ti es n r) =
      .ok (((midInit s pc cs dc rst bl ti es n r).afterDraw.emit (.tinit true)).setTInit true) := by
    simp only [microStep, transportInit, hd', if_true]
  refine (runProgram_row (m := .tinit) f h (by simp) hw).trans ?_
  refine congrArg _ ?_
  simp [midInit, State.emit, State.afterDraw, State.setTInit, State.advancePc, List.append_assoc, Nat.add_assoc]

/-- A delay (R87, R107). -/
theorem row_delay {s : State} (f : Nat) (ms : Nat) (h : (initProgram s.cfg)[pc]? = some (.delay ms)) :
    runProgram (f + 1) (midInit s pc cs dc rst bl ti es n r) =
      runProgram f (midInit s (pc + 1) cs dc rst bl ti (es ++ [.delay ms]) n (passTime rst.level ms r)) := by
  refine (runProgram_row (m := .delay ms) f h (by simp) rfl).trans ?_
  refine congrArg _ ?_
  simp [midInit, sleepMs, State.emit, State.setRecv, State.advancePc, List.append_assoc]

/-- A reset-line edge (R106, R143). -/
theorem row_rst {s : State} (hl : LinesReliable s) (f : Nat) (l : RstLevel) (hc : rst.configured = true)
    {r' : Receiver} (hr : resetLine s.cfg rst.level l r = .ok r')
    (h : (initProgram s.cfg)[pc]? = some (.line (.rst l))) :
    runProgram (f + 1) (midInit s pc cs dc rst bl ti es n r) =
      runProgram f (midInit s (pc + 1) cs dc ⟨true, some l⟩ bl ti (es ++ [.line (.rst l)]) n r') := by
  have hw := writeLine_rst (midInit_linesReliable pc cs dc rst bl ti es n r hl) (by simpa [midInit] using hc) l
  rw [show (midInit s pc cs dc rst bl ti es n r).rst.level = rst.level from rfl,
    show (midInit s pc cs dc rst bl ti es n r).recv = r from rfl, midInit_cfg, hr, Result.ofExcept_ok] at hw
  refine (runProgram_row (m := .line (.rst l)) f h (by simp) hw).trans ?_
  refine congrArg _ ?_
  simp [midInit, State.emit, State.setRst, State.setRecv, State.advancePc, List.append_assoc, hc]

/-- The backlight (R144). -/
theorem row_bl {s : State} (hl : LinesReliable s) (f : Nat) (l : BlLevel) (hc : bl.configured = true)
    (h : (initProgram s.cfg)[pc]? = some (.line (.bl l))) :
    runProgram (f + 1) (midInit s pc cs dc rst bl ti es n r) =
      runProgram f (midInit s (pc + 1) cs dc rst ⟨true, some l⟩ ti (es ++ [.line (.bl l)]) n r) := by
  have hw := writeLine_bl (midInit_linesReliable pc cs dc rst bl ti es n r hl) (by simpa [midInit] using hc) l
  refine (runProgram_row (m := .line (.bl l)) f h (by simp) hw).trans ?_
  refine congrArg _ ?_
  simp [midInit, State.emit, State.setBl, State.advancePc, List.append_assoc, hc]

end

/-- The events of source steps 1 to 3 (R141, rows 0 to 9). -/
def resetEvents (c : Config) : List Event :=
  [.cfg .cs, .cfg .dc, .cfg .rst, .cfg .bl, .tinit true, .line (.rst .low), .delay c.tRstLow, .line (.rst .high),
   .delay c.tRstSettle, .line (.bl .on)]

/-- Source steps 1 to 3 (R142, R143, R144). -/
theorem run_reset {s : State} (hl : LinesReliable s) (hd : DrawsOk s 1) (f : Nat) :
    runProgram (f + 10) (enterInit s) =
      runProgram f (inInit s 10 s.cs.level s.dc.level (resetEvents s.cfg) 1
        { hardwareReset s.cfg with cBusy := 0 }) := by
  rw [enterInit_eq, row_cfg _ _ _ _ _ _ _ _ _ hl (f + 9) .cs rfl, row_cfg _ _ _ _ _ _ _ _ _ hl (f + 8) .dc rfl,
    row_cfg _ _ _ _ _ _ _ _ _ hl (f + 7) .rst rfl, row_cfg _ _ _ _ _ _ _ _ _ hl (f + 6) .bl rfl,
    row_tinit _ _ _ _ _ _ _ _ _ (f + 5) (hd 0 (by simp)) rfl,
    row_rst _ _ _ _ _ _ _ _ _ hl (f + 4) .low (by simp) rfl rfl,
    row_delay _ _ _ _ _ _ _ _ _ (f + 3) s.cfg.tRstLow rfl,
    row_rst _ _ _ _ _ _ _ _ _ hl (f + 2) .high (by simp) (r' := hardwareReset s.cfg) (by simp [resetLine, passTime]) rfl,
    row_delay _ _ _ _ _ _ _ _ _ (f + 1) s.cfg.tRstSettle rfl,
    row_bl _ _ _ _ _ _ _ _ _ hl f .on (by simp) rfl]
  refine congrArg _ ?_
  simp [midInit, inInit, resetEvents, passTime, hardwareReset, Receiver.powerOn]

/-! ### Source steps 4, 5, 7 and 8 -/

/-- A bare command and the delay after it (R145, R146, R149, R150). -/
theorem run_command_delay {s : State} (hl : LinesReliable s) (hc : s.cfg.Wf) (f : Nat) {pc n : Nat}
    {csl : Option CsLevel} {dcl : Option ByteClass} {es : List Event} {r r' : Receiver} (cmd : Cmd) (ms : Nat)
    (h1 : (initProgram s.cfg)[pc]? = some (.command cmd)) (h2 : (initProgram s.cfg)[pc + 1]? = some (.delay ms))
    (hd : DrawsOk s (n + 1)) (hdone : r.cResetDone = true) (hbusy : r.cBusy = 0)
    (hr : runCommand s.cfg cmd r = .ok r') :
    runProgram (f + 2) (inInit s pc csl dcl es n r) =
      runProgram f (inInit s (pc + 2) (some .deasserted) (some .command)
        (es ++ (frameEvents .command [s.cfg.codes.get cmd] ++ [.delay ms])) (n + 1)
        { r' with cBusy := r'.cBusy - ms }) := by
  have hb : takeBytes s.cfg (framePins (inInit s pc csl dcl es n r) .command) [s.cfg.codes.get cmd] r = .ok r' := by
    rw [takeBytes_singleton, takeByte_command rfl rfl rfl hdone hbusy, takeCommand_get hc, hr]
  have hstep : microStep (.command cmd) (inInit s pc csl dcl es n r) =
      .ok (inInit s pc (some .deasserted) (some .command) (es ++ frameEvents .command [s.cfg.codes.get cmd]) (n + 1) r') := by
    have h := sendFrame_ok (inInit_linesReliable hl pc csl dcl es n r) (inInit_busUsable ..)
      (inInit_drawsOk (m := 1) hd _ _ _ _ _ 0 (by simp)) (cls := .command) (bytes := [s.cfg.codes.get cmd]) (by simp) hb
    rwa [inInit_afterBus] at h
  rw [runProgram_row (f + 1) h1 (by simp) hstep, inInit_advancePc,
    runProgram_row (m := .delay ms) f h2 (by simp) rfl, inInit_sleepMs, inInit_advancePc, List.append_assoc]

/-- The register rows of the program (R141, rows 14 to 28). -/
def registerRows (c : Config) : List (Cmd × List Byte) :=
  [(.colorMode, c.params.colorMode), (.memoryAccess, c.params.memoryAccess),
   (.columnAddressSet, fullSpan c.panelW), (.rowAddressSet, fullSpan c.panelH),
   (.porchControl, c.params.porchControl), (.gateControl, c.params.gateControl), (.vcoms, c.params.vcoms),
   (.lcmControl, c.params.lcmControl), (.vdvVrhEnable, c.params.vdvVrhEnable), (.vrh, c.params.vrh),
   (.vdv, c.params.vdv), (.frameRateControl2, c.params.frameRateControl2),
   (.powerControl1, c.params.powerControl1), (.positiveGamma, c.params.positiveGamma),
   (.negativeGamma, c.params.negativeGamma)]

/-- Every parameter group of the program is its command's fixed count (R5, R147). -/
theorem registerRows_length {c : Config} (hc : c.Wf) :
    ∀ row ∈ registerRows c, row.2 ≠ [] ∧ row.2.length = c.nParams row.1 := by
  obtain ⟨-, -, -, -, hp, -⟩ := hc
  have h : ∀ reg : ConfigReg, c.params.get reg ≠ [] ∧ (c.params.get reg).length = c.nParams reg.cmd := by
    intro reg
    obtain ⟨h1, h2⟩ := hp reg (ConfigReg.mem_all reg)
    refine ⟨?_, by rw [h2, nParams_cmd]⟩
    intro h0
    rw [h0] at h2
    simp only [List.length_nil] at h2
    omega
  intro row hrow
  simp only [registerRows, List.mem_cons, List.not_mem_nil, or_false] at hrow
  rcases hrow with rfl | rfl | rfl | rfl | rfl | rfl | rfl | rfl | rfl | rfl | rfl | rfl | rfl | rfl | rfl
  · exact h .colorMode
  · exact h .memoryAccess
  · exact ⟨by simp [fullSpan, addressParams], rfl⟩
  · exact ⟨by simp [fullSpan, addressParams], rfl⟩
  · exact h .porchControl
  · exact h .gateControl
  · exact h .vcoms
  · exact h .lcmControl
  · exact h .vdvVrhEnable
  · exact h .vrh
  · exact h .vdv
  · exact h .frameRateControl2
  · exact h .powerControl1
  · exact h .positiveGamma
  · exact h .negativeGamma

end Sys2Proof.Machine
end

