-- ==== Sys2Proof/Laws/Moves.lean ====
section
/-! SUPPORT. Everything an operation can do, said once: every operation is a sequence of moves, and what every move keeps,
every operation keeps. -/

namespace Sys2Proof.Machine

/-- An event of a line, the transport or the clock; the two others end a BLIT or an INIT (R18). -/
def Event.ofBus : Event → Bool
  | .cfg _ => true
  | .tinit _ => true
  | .line _ => true
  | .xfer _ _ _ => true
  | .delay _ => true
  | .release => false
  | .ret _ => false

/-- One thing an operation does to the machine on its way through the Platform. -/
inductive Move : State → State → Prop where
  | emit (s : State) (e : Event) (he : e.ofBus = true) : Move s (s.emit e)
  | draw (s : State) : Move s s.afterDraw
  | configure (s : State) (l : Line) : Move s (s.configure l)
  | cs (s : State) (l : CsLevel) : Move s (s.setCs l)
  | dc (s : State) (l : ByteClass) : Move s (s.setDc l)
  | bl (s : State) (l : BlLevel) : Move s (s.setBl l)
  | tInit (s : State) (b : Bool) : Move s (s.setTInit b)
  | rst (s : State) (w l : RstLevel) (r : Receiver) (h : resetLine s.cfg s.rst.level l s.recv = .ok r)
      (hl : LinesReliable s → l = w) : Move s (((s.emit (.line (.rst w))).setRst l).setRecv r)
  | bytes (s : State) (bs : List Byte) (r : Receiver) (h : takeBytes s.cfg s.pins bs s.recv = .ok r) :
      Move s (s.setRecv r)
  | sleep (s : State) (n : Nat) : Move s (s.setRecv (passTime s.rst.level n s.recv))

/-- Any number of moves. -/
inductive Moves : State → State → Prop where
  | refl (s : State) : Moves s s
  | step {s t u : State} (h : Move s t) (h' : Moves t u) : Moves s u

theorem Moves.one {s t : State} (h : Move s t) : Moves s t := .step h (.refl t)

theorem Moves.trans {s t u : State} (h : Moves s t) (h' : Moves t u) : Moves s u := by
  induction h with
  | refl => exact h'
  | step hm _ ih => exact .step hm (ih h')

/-- What every move keeps, moves keep. -/
theorem Moves.keeps {P : State → Prop} (hm : ∀ s t, Move s t → P s → P t) {s t : State} (h : Moves s t) (hs : P s) :
    P t := by
  induction h with
  | refl => exact hs
  | step hm' _ ih => exact ih (hm _ _ hm' hs)

/-- No move changes a parameter (R5). -/
theorem Move.cfg {s t : State} (h : Move s t) : t.cfg = s.cfg := by
  cases h with
  | configure l => cases l <;> rfl
  | _ => rfl

/-- Moves append to the trace, and only events of the bus (R18). -/
theorem Moves.trace {s t : State} (h : Moves s t) : ∃ es, t.trace = s.trace ++ es ∧ ∀ e ∈ es, e.ofBus = true := by
  induction h with
  | refl => exact ⟨[], by simp, by simp⟩
  | @step s t u hm _ ih =>
    obtain ⟨es, ht, he⟩ := ih
    have same : t.trace = s.trace → ∃ es, u.trace = s.trace ++ es ∧ ∀ e ∈ es, e.ofBus = true := fun h =>
      ⟨es, by rw [ht, h], he⟩
    have one : ∀ e : Event, e.ofBus = true → t.trace = s.trace ++ [e] →
        ∃ es, u.trace = s.trace ++ es ∧ ∀ e ∈ es, e.ofBus = true := fun e hb h =>
      ⟨e :: es, by rw [ht, h]; simp, by simpa [hb] using he⟩
    cases hm with
    | emit e hb => exact one e hb rfl
    | rst w l r => exact one (.line (.rst w)) rfl rfl
    | configure l => exact same (by cases l <;> rfl)
    | _ => exact same rfl

/-- The state of a result that has one is related to the start. -/
def Result.All (P : State → Prop) : Result → Prop
  | .ok s => P s
  | .raised s => P s
  | .stopped _ => True

theorem Result.All.mono {P Q : State → Prop} {x : Result} (h : x.All P) (hpq : ∀ s, P s → Q s) : x.All Q := by
  cases x with
  | ok s => exact hpq s h
  | raised s => exact hpq s h
  | stopped w => trivial

theorem Result.All.bind {P : State → Prop} {x : Result} {f : State → Result} (h : x.All P)
    (hf : ∀ s, P s → (f s).All P) : (x.bind f).All P := by
  cases x with
  | ok s => exact hf s h
  | raised s => exact h
  | stopped w => trivial

theorem Result.All.bindMoves {s : State} {x : Result} {f : State → Result} (h : x.All (Moves s))
    (hf : ∀ t, (f t).All (Moves t)) : (x.bind f).All (Moves s) :=
  h.bind fun t ht => (hf t).mono fun _ hu => ht.trans hu

/-! ### The operations are moves -/

theorem afterLineCall_moves (s : State) : Moves s (afterLineCall s) := by
  unfold afterLineCall
  split
  · exact .one (.draw s)
  · exact .refl s

theorem configureOutputLine_moves (l : Line) (s : State) : (configureOutputLine l s).All (Moves s) := by
  have h : Moves s ((afterLineCall s).emit (.cfg l)) := (afterLineCall_moves s).trans (.one (.emit _ _ rfl))
  unfold configureOutputLine
  split
  · exact h.trans (.one (.configure _ _))
  · exact h

/-- The event of a line write, and the level the line takes: that of the event, where no line call fails (R81). -/
theorem driveLine_moves {w w' : LineWrite} {s t : State} (h : driveLine w' (s.emit (.line w)) = .ok t)
    (hw : w'.line = w.line) (hl : LinesReliable s → w' = w) : Moves s t := by
  cases w' with
  | cs l =>
    obtain rfl : (s.emit (.line w)).setCs l = t := by simpa [driveLine] using h
    exact .step (.emit s _ rfl) (.one (.cs _ l))
  | dc l =>
    obtain rfl : (s.emit (.line w)).setDc l = t := by simpa [driveLine] using h
    exact .step (.emit s _ rfl) (.one (.dc _ l))
  | bl l =>
    obtain rfl : (s.emit (.line w)).setBl l = t := by simpa [driveLine] using h
    exact .step (.emit s _ rfl) (.one (.bl _ l))
  | rst l =>
    cases w with
    | rst l' =>
      cases hr : resetLine s.cfg s.rst.level l s.recv with
      | error e => simp [driveLine, hr, Except.map] at h
      | ok r =>
        obtain rfl : ((s.emit (.line (.rst l'))).setRst l).setRecv r = t := by
          simpa [driveLine, hr, Except.map] using h
        exact .one (.rst s l' l r hr fun h => by simpa using hl h)
    | cs _ => simp [LineWrite.line] at hw
    | dc _ => simp [LineWrite.line] at hw
    | bl _ => simp [LineWrite.line] at hw

theorem drawnLevel_line (l : Line) (b : Bool) : (drawnLevel l b).line = l := by cases l <;> rfl

theorem writeLine_moves (w : LineWrite) (s : State) : (writeLine w s).All (Moves s) := by
  have hd : ∀ (w' : LineWrite) (f : State → Result), (∀ t, Moves s t → (f t).All (Moves s)) → w'.line = w.line →
      (LinesReliable (afterLineCall s) → w' = w) →
      (Result.ofExcept (driveLine w' ((afterLineCall s).emit (.line w))) f).All (Moves s) := by
    intro w' f hf hw hl
    cases hr : driveLine w' ((afterLineCall s).emit (.line w)) with
    | error e => trivial
    | ok t => exact hf t ((afterLineCall_moves s).trans (driveLine_moves hr hw hl))
  unfold writeLine
  split
  · split
    · exact hd _ _ (fun _ ht => ht) rfl fun _ => rfl
    · rename_i hc
      refine hd _ _ (fun _ ht => ht) (drawnLevel_line _ _) fun hl => absurd (lineCallOk_of_reliable ?_) hc
      refine LinesReliable.of_cfg hl ?_
      unfold afterLineCall
      split <;> simp
  · trivial

theorem transportInit_moves (s : State) : (transportInit s).All (Moves s) := by
  have h : ∀ b, Moves s ((s.afterDraw.emit (.tinit b)).setTInit b) := fun b =>
    .step (.draw s) (.step (.emit _ _ rfl) (.one (.tInit _ _)))
  unfold transportInit
  split
  · exact h true
  · exact h false

theorem transportWrite_moves (bytes : List Byte) (s : State) : (transportWrite bytes s).All (Moves s) := by
  have hd : ∀ (k : Nat) (ok : Bool) (n : Nat) (f : State → Result), (∀ t, Moves s t → (f t).All (Moves s)) →
      (Result.ofExcept (deliver bytes k (s.afterDraw.emit (.xfer bytes ok n))) f).All (Moves s) := by
    intro k ok n f hf
    unfold deliver
    rw [Result.ofExcept_map]
    cases hr : takeBytes (s.afterDraw.emit (.xfer bytes ok n)).cfg (s.afterDraw.emit (.xfer bytes ok n)).pins
      (bytes.take k) (s.afterDraw.emit (.xfer bytes ok n)).recv with
    | error e => trivial
    | ok r => exact hf _ (.step (.draw s) (.step (.emit _ _ rfl) (.one (.bytes _ _ _ hr))))
  unfold transportWrite
  split
  · trivial
  · split
    · trivial
    · split
      · exact hd _ _ _ _ fun _ ht => ht
      · split
        · trivial
        · exact hd _ _ _ _ fun _ ht => ht

theorem sleepMs_moves (n : Nat) (s : State) : Moves s (sleepMs n s) := .step (.emit _ _ rfl) (.one (.sleep _ n))

theorem sendFrame_moves (cls : ByteClass) (bytes : List Byte) (s : State) : (sendFrame cls bytes s).All (Moves s) := by
  unfold sendFrame
  refine ((writeLine_moves _ s).bindMoves fun t => writeLine_moves _ t).bindMoves fun t => ?_
  have h := transportWrite_moves bytes t
  cases ht : transportWrite bytes t with
  | ok u =>
    rw [ht] at h
    exact (writeLine_moves _ u).mono fun _ hv => Moves.trans h hv
  | raised u =>
    rw [ht] at h
    exact (Result.All.bindMoves (f := .raised) (writeLine_moves _ u) fun v => Moves.refl v).mono fun _ hv => Moves.trans h hv
  | stopped w => trivial

theorem sendDataBlock_moves (bytes : List Byte) (n : Nat) (s : State) : (sendDataBlock bytes n s).All (Moves s) := by
  unfold sendDataBlock
  split
  · trivial
  · exact sendFrame_moves _ _ _

theorem sendEach_moves (bs : List Byte) (s : State) : (sendEach bs s).All (Moves s) := by
  induction bs generalizing s with
  | nil => exact .refl s
  | cons b bs ih => exact (sendFrame_moves _ _ s).bindMoves fun t => ih t

theorem sendParams_moves (ps : List Byte) (s : State) : (sendParams ps s).All (Moves s) := by
  unfold sendParams
  split
  · exact .refl s
  · split
    · exact sendDataBlock_moves _ _ _
    · exact sendEach_moves _ _

theorem exchange_moves (cmd : Cmd) (ps : List Byte) (s : State) : (exchange cmd ps s).All (Moves s) :=
  (sendFrame_moves _ _ s).bindMoves fun t => sendParams_moves ps t

theorem windowSet_moves (x0 y0 x1 y1 : Half) (s : State) : (windowSet x0 y0 x1 y1 s).All (Moves s) :=
  ((exchange_moves _ _ s).bindMoves fun t => exchange_moves _ _ t).bindMoves fun t => sendFrame_moves _ _ t

theorem windowSetLatched_moves (s : State) : (windowSetLatched s).All (Moves s) := by
  unfold windowSetLatched
  split
  · exact windowSet_moves _ _ _ _ _
  · trivial

theorem dataBurst_moves (pb : List Byte) (s : State) : (dataBurst pb s).All (Moves s) := by
  unfold dataBurst
  split
  · exact sendDataBlock_moves _ _ _
  · trivial

theorem microStep_moves {m : MicroStep} (hm : m ≠ .done) (s : State) : (microStep m s).All (Moves s) := by
  cases m with
  | cfg l => exact configureOutputLine_moves l s
  | tinit => exact transportInit_moves s
  | line w => exact writeLine_moves w s
  | delay ms => exact sleepMs_moves ms s
  | command cmd => exact sendFrame_moves _ _ s
  | exch cmd ps => exact exchange_moves cmd ps s
  | done => exact absurd rfl hm

/-- The program keeps what every move, the advance of `SEQ_PC` and the terminal step keep. -/
theorem runProgram_all {P : State → Prop} (hm : ∀ s t, Move s t → P s → P t) (ha : ∀ s, P s → P s.advancePc)
    (hd : ∀ s, P s → P (initDone s)) (n : Nat) {s : State} (hs : P s) : (runProgram n s).All P := by
  induction n generalizing s with
  | zero => exact hs
  | succ n ih =>
    unfold runProgram
    split
    · exact hs
    · exact hd s hs
    · rename_i m hne _
      refine Result.All.bind ((microStep_moves hne s).mono fun t ht => ht.keeps hm hs) fun t ht => ih (ha t ht)

/-! ### What every operation keeps -/

/-- A property kept by everything an operation can do. -/
structure Stable (P : State → Prop) : Prop where
  move : ∀ s t, Move s t → P s → P t
  event : ∀ s e, P s → P (s.emit e)
  pc : ∀ s n, P s → P { s with seqPc := n }
  seqState : ∀ s q, P s → P (s.setSeqState q)
  status : ∀ s st, P s → P (s.setStatus st)
  result : ∀ s x, P s → P (s.setResult x)
  bidx : ∀ s n, P s → P (s.setBidx n)
  latches : ∀ s r n, P s → P (enterBlit r n s)

theorem Stable.emit {P : State → Prop} (h : Stable P) {s : State} (e : Event) (hs : P s) : P (s.emit e) :=
  h.event s e hs

theorem Stable.returnStatus {P : State → Prop} (h : Stable P) {s : State} (st : Status) (hs : P s) :
    P (s.returnStatus st) :=
  h.status _ _ (h.emit _ hs)

theorem Stable.releaseOnFailure {P : State → Prop} (h : Stable P) {s : State} (hs : P s) : P s.releaseOnFailure := by
  unfold State.releaseOnFailure
  split
  · exact h.emit _ hs
  · exact hs

theorem Stable.takeTransportError {P : State → Prop} (h : Stable P) {s : State} (hs : P s) :
    P (takeTransportError s) := by
  unfold Machine.takeTransportError
  split
  · exact h.seqState _ _ (h.returnStatus _ (h.releaseOnFailure hs))
  · exact h.seqState _ _ (h.returnStatus _ hs)

theorem Stable.endCall {P : State → Prop} (h : Stable P) {x : Result} (hx : x.All P) {t : State}
    (ht : endCall x = .next t) : P t := by
  obtain ⟨u, rfl, rfl⟩ | ⟨u, rfl, rfl⟩ := endCall_eq_next ht
  · exact h.result _ _ hx
  · refine h.result _ _ ?_
    split
    · exact h.takeTransportError hx
    · exact hx

theorem Stable.endOperation {P : State → Prop} (h : Stable P) {x : Result} (hx : x.All P) {t : State}
    (ht : endOperation x = .next t) : P t := by
  obtain rfl | ⟨u, rfl, rfl⟩ := endOperation_eq_next ht
  · exact hx
  · exact h.takeTransportError hx

theorem Stable.ofMoves {P : State → Prop} (h : Stable P) {s : State} (hs : P s) {x : Result}
    (hx : x.All (Moves s)) : x.All P :=
  hx.mono fun _ ht => ht.keeps h.move hs

theorem Stable.runProgram {P : State → Prop} (h : Stable P) (n : Nat) {s : State} (hs : P s) :
    (runProgram n s).All P :=
  runProgram_all h.move (fun _ => h.pc _ _) (fun _ hs => h.seqState _ _ (h.returnStatus _ hs)) n hs

theorem Stable.runBlit {P : State → Prop} (h : Stable P) (r : Rect) (pb : List Byte) {s : State} (hs : P s) :
    (runBlit r pb s).All P := by
  have h0 := h.latches s r pb.length hs
  refine ((h.ofMoves h0 (windowSetLatched_moves _)).bind fun t ht => h.ofMoves ht (dataBurst_moves pb t)).bind
    fun t ht => ?_
  exact h.seqState _ _ (h.returnStatus _ (h.emit _ (h.bidx _ _ ht)))

/-- Every operation keeps a stable property. -/
theorem Stable.exec {P : State → Prop} (h : Stable P) {i : Instr} {s t : State} (hs : P s)
    (ht : exec i s = .next t) : P t := by
  cases i with
  | init =>
    simp only [Machine.exec, execInit] at ht
    split at ht
    · simp at ht
    · exact h.endOperation (h.runProgram 34 (s := enterInit s) (h.pc _ 0 (h.seqState _ .initRunning hs))) ht
  | blit r pb =>
    simp only [Machine.exec, execBlit] at ht
    split at ht
    · simp at ht
    · simp at ht
    · simp at ht
    · simp at ht
    · split at ht
      · exact h.endOperation (h.runBlit r pb hs) ht
      · obtain rfl : takeInvalidArgument s = t := by simpa using ht
        exact h.returnStatus _ (h.releaseOnFailure hs)
  | configureOutputLine l => exact h.endCall (h.ofMoves hs (configureOutputLine_moves l s)) ht
  | writeLine w => exact h.endCall (h.ofMoves hs (writeLine_moves w s)) ht
  | transportInit => exact h.endCall (h.ofMoves hs (transportInit_moves s)) ht
  | transportWrite bytes =>
    have hx := h.ofMoves hs (transportWrite_moves bytes s)
    simp only [Machine.exec, execTransportWrite] at ht
    cases hw : Machine.transportWrite bytes s with
    | ok u =>
      rw [hw] at ht hx
      obtain rfl : u.setResult .ok = t := by simpa using ht
      exact h.result _ _ hx
    | raised u =>
      rw [hw] at ht hx
      obtain rfl : u.setResult .fail = t := by simpa using ht
      exact h.result _ _ hx
    | stopped w =>
      rw [hw] at ht
      cases w <;> simp [stopOutcome] at ht
  | sleepMs n =>
    obtain rfl : (Machine.sleepMs n s).setResult .ok = t := by simpa [Machine.exec, execSleepMs] using ht
    exact h.result _ _ ((sleepMs_moves n s).keeps h.move hs)
  | sendDataBlock bytes n => exact h.endCall (h.ofMoves hs (sendDataBlock_moves bytes n s)) ht
  | sendParams ps => exact h.endCall (h.ofMoves hs (sendParams_moves ps s)) ht
  | windowSet x0 y0 x1 y1 => exact h.endCall (h.ofMoves hs (windowSet_moves x0 y0 x1 y1 s)) ht
  | pixelData b => exact h.endCall (h.ofMoves hs (sendFrame_moves _ _ s)) ht
  | unknownCommand b => exact h.endCall (h.ofMoves hs (sendFrame_moves _ _ s)) ht
  | sendCommand b => exact h.endCall (h.ofMoves hs (sendFrame_moves _ _ s)) ht
  | sendData b => exact h.endCall (h.ofMoves hs (sendFrame_moves _ _ s)) ht
  | softwareReset => exact h.endCall (h.ofMoves hs (exchange_moves .softwareReset [] s)) ht
  | sleepOut => exact h.endCall (h.ofMoves hs (exchange_moves .sleepOut [] s)) ht
  | normalDisplayOn => exact h.endCall (h.ofMoves hs (exchange_moves .normalDisplayOn [] s)) ht
  | displayOn => exact h.endCall (h.ofMoves hs (exchange_moves .displayOn [] s)) ht
  | memoryWrite => exact h.endCall (h.ofMoves hs (exchange_moves .memoryWrite [] s)) ht
  | colorMode ps => exact h.endCall (h.ofMoves hs (exchange_moves .colorMode ps s)) ht
  | memoryAccess ps => exact h.endCall (h.ofMoves hs (exchange_moves .memoryAccess ps s)) ht
  | columnAddressSet ps => exact h.endCall (h.ofMoves hs (exchange_moves .columnAddressSet ps s)) ht
  | rowAddressSet ps => exact h.endCall (h.ofMoves hs (exchange_moves .rowAddressSet ps s)) ht
  | porchControl ps => exact h.endCall (h.ofMoves hs (exchange_moves .porchControl ps s)) ht
  | gateControl ps => exact h.endCall (h.ofMoves hs (exchange_moves .gateControl ps s)) ht
  | vcoms ps => exact h.endCall (h.ofMoves hs (exchange_moves .vcoms ps s)) ht
  | lcmControl ps => exact h.endCall (h.ofMoves hs (exchange_moves .lcmControl ps s)) ht
  | vdvVrhEnable ps => exact h.endCall (h.ofMoves hs (exchange_moves .vdvVrhEnable ps s)) ht
  | vrh ps => exact h.endCall (h.ofMoves hs (exchange_moves .vrh ps s)) ht
  | vdv ps => exact h.endCall (h.ofMoves hs (exchange_moves .vdv ps s)) ht
  | frameRateControl2 ps => exact h.endCall (h.ofMoves hs (exchange_moves .frameRateControl2 ps s)) ht
  | powerControl1 ps => exact h.endCall (h.ofMoves hs (exchange_moves .powerControl1 ps s)) ht
  | positiveGamma ps => exact h.endCall (h.ofMoves hs (exchange_moves .positiveGamma ps s)) ht
  | negativeGamma ps => exact h.endCall (h.ofMoves hs (exchange_moves .negativeGamma ps s)) ht

/-- What an operation taken from the stream is (R60 to R75). -/
theorem fetch_run {s u : State} {i : Instr} (h : fetch s = .run i u) :
    ∃ ws, decode s.cfg s.pending = .ok (i, ws) ∧ u = s.setPending ws := by
  unfold fetch at h
  split at h
  · cases h
  · split at h
    · cases h
    · cases h
    · rename_i hp
      split at h
      · rename_i j rest hd
        cases h
        exact ⟨rest, by rw [hp, hd], rfl⟩
      · cases h

theorem fetch_hostBufferWrite {s u : State} (h : fetch s = .hostBufferWrite u) : ∃ ws, u = s.setPending ws := by
  unfold fetch at h
  split at h
  · cases h
  · split at h
    · cases h
    · cases h
      exact ⟨_, rfl⟩
    · split at h <;> cases h

/-- The stream decodes to an operation: the next step runs it. -/
theorem fetch_of_decode {s : State} {i : Instr} {ws : List Word} (h0 : s.refused = none)
    (h : decode s.cfg s.pending = .ok (i, ws)) : fetch s = .run i (s.setPending ws) := by
  cases hp : s.pending with
  | nil => simp [hp, decode] at h
  | cons w rest =>
    rw [hp] at h
    cases w with
    | hostBufferWrite => simp [decode] at h
    | wire c b => simp [fetch, h0, hp, h]
    | call n a b => simp [fetch, h0, hp, h]

/-- Every step keeps a stable property that the stream does not enter. -/
theorem Stable.step {P : State → Prop} (h : Stable P) (hp : ∀ s ws, P s → P (s.setPending ws)) {s t : State} (hs : P s)
    (ht : step s = .next t) : P t := by
  unfold Machine.step at ht
  cases hf : fetch s with
  | dead r => simp [hf] at ht
  | undecodable e => simp [hf] at ht
  | idle =>
    obtain rfl : s = t := by simpa [hf] using ht
    exact hs
  | hostBufferWrite u =>
    have hu : P u := by
      obtain ⟨ws, rfl⟩ := fetch_hostBufferWrite hf
      exact hp _ _ hs
    simp only [hf, hostBufferWrite] at ht
    split at ht
    · cases ht
    · obtain rfl : u = t := by simpa using ht
      exact hu
  | run i u =>
    have hu : P u := by
      obtain ⟨ws, -, rfl⟩ := fetch_run hf
      exact hp _ _ hs
    simp only [hf] at ht
    exact h.exec hu ht

end Sys2Proof.Machine
end

