-- ==== Sys2Proof/Laws/Outcome.lean ====
section
/-! SUPPORT. How frames and their sequences end, said once, where no line call can fail: either every frame went out, or the
events are those up to and with the first failed transfer (R84 to R86, R91, R93, R160). -/

namespace Sys2Proof.Machine

/-- An operation on the bus that started at `s`: it returned, after `n` draws that were `ok`, with the events `es`, on a
usable bus with the Receiver awake; or it raised, with events of which `F` holds; or it stopped. -/
def EndsWith (s : State) (es : List Event) (n : Nat) (F : List Event → Prop) : Result → Prop
  | .ok t => BusUsable s ∧ Awake s ∧ DrawsOk s n ∧ ∃ cls r, t = afterBus s cls es n r
  | .raised t => ∃ cls es' m r, t = afterBus s cls es' m r ∧ F es'
  | .stopped _ => True

theorem EndsWith.mono {s : State} {es : List Event} {n : Nat} {F G : List Event → Prop} {x : Result}
    (h : EndsWith s es n F x) (hfg : ∀ es', F es' → G es') : EndsWith s es n G x := by
  cases x with
  | ok t => exact h
  | raised t =>
    obtain ⟨cls, es', m, r, rfl, hf⟩ := h
    exact ⟨cls, es', m, r, rfl, hfg _ hf⟩
  | stopped w => trivial

theorem DrawsOk.join {s : State} {n m : Nat} (h : DrawsOk s n) {cls : ByteClass} {es : List Event} {r : Receiver}
    (h' : DrawsOk (Machine.afterBus s cls es n r) m) : DrawsOk s (n + m) := by
  intro k hk
  by_cases hkn : k < n
  · exact h k hkn
  · have := h' (k - n) (by omega)
    rwa [afterBus_drawAt, show n + (k - n) = k by omega] at this

/-- One operation on the bus after another. -/
theorem EndsWith.bind {s : State} {es es' : List Event} {n n' : Nat} {F F' G : List Event → Prop} {x : Result}
    {f : State → Result} (hl : LinesReliable s) (h : EndsWith s es n F x)
    (hf : ∀ t, LinesReliable t → KeepsDriver s t → EndsWith t es' n' F' (f t))
    (h1 : ∀ e, F e → G e) (h2 : ∀ e, F' e → G (es ++ e)) : EndsWith s (es ++ es') (n + n') G (x.bind f) := by
  cases x with
  | stopped w => trivial
  | raised t =>
    obtain ⟨cls, e, m, r, rfl, hF⟩ := h
    exact ⟨cls, e, m, r, rfl, h1 _ hF⟩
  | ok t =>
    obtain ⟨hu, ha, hd, cls, r, rfl⟩ := h
    have hn := hf _ (hl.afterBus cls es n r) (KeepsDriver.afterBus s cls es n r)
    rw [Result.bind_ok]
    cases he : f (afterBus s cls es n r) with
    | stopped w => trivial
    | ok u =>
      rw [he] at hn
      obtain ⟨-, -, hd', cls', r', rfl⟩ := hn
      exact ⟨hu, ha, hd.join hd', cls', r', by rw [afterBus_afterBus]⟩
    | raised u =>
      rw [he] at hn
      obtain ⟨cls', e, m, r', rfl, hF⟩ := hn
      exact ⟨cls', es ++ e, n + m, r', by rw [afterBus_afterBus], h2 _ hF⟩

/-- A byte is taken only by a Receiver that is awake (R100). -/
theorem awake_of_takeBytes {s : State} {cls : ByteClass} {bytes : List Byte} {r : Receiver} (hb : bytes ≠ [])
    (h : takeBytes s.cfg (framePins s cls) bytes s.recv = .ok r) : Awake s := by
  cases bytes with
  | nil => exact absurd rfl hb
  | cons b bs =>
    rw [takeBytes_cons] at h
    cases h1 : takeByte s.cfg (framePins s cls) b s.recv with
    | error e => simp [h1, Except.bind] at h
    | ok r1 =>
      obtain ⟨-, hrst, hdone, hbusy, -⟩ := takeByte_cases h1
      exact ⟨hrst, hdone, hbusy⟩

/-- How a frame ends (R84 to R86, R91). -/
theorem sendFrame_ends {s : State} (hl : LinesReliable s) (cls : ByteClass) {bytes : List Byte} (hb : bytes ≠ []) :
    EndsWith s (frameEvents cls bytes) 1 (FailedFrame cls bytes) (sendFrame cls bytes s) := by
  by_cases hdc : s.dc.configured = true
  · by_cases hcs : s.cs.configured = true
    · by_cases ht : s.tInit = true
      · have hu : BusUsable s := ⟨hcs, hdc, ht⟩
        rw [sendFrame_eq hl hu cls hb]
        split
        · rename_i hd
          cases he : takeBytes s.cfg (framePins s cls) bytes s.recv with
          | error w => trivial
          | ok r =>
            refine ⟨hu, awake_of_takeBytes hb he, fun k hk => ?_, cls, r, rfl⟩
            obtain rfl : k = 0 := by omega
            exact hd
        · split
          · trivial
          · cases he : takeBytes s.cfg (framePins s cls) (bytes.take (failedCount s bytes)) s.recv with
            | error w => trivial
            | ok r => exact ⟨cls, _, 1, r, rfl, failedCount s bytes, Nat.min_le_right _ _, rfl⟩
      · unfold sendFrame
        rw [writeLine_dc hl hdc, Result.bind_ok,
          writeLine_cs (s := (s.emit (.line (.dc cls))).setDc cls) (hl.of_cfg (by simp)) (by simpa using hcs),
          Result.bind_ok]
        simp [transportWrite, ht, endFrame, EndsWith]
    · unfold sendFrame
      rw [writeLine_dc hl hdc, Result.bind_ok, writeLine_unconfigured (s := (s.emit (.line (.dc cls))).setDc cls)
        (by simpa [State.configured, LineWrite.line] using hcs)]
      trivial
  · unfold sendFrame
    rw [writeLine_unconfigured (by simpa [State.configured, LineWrite.line] using hdc)]
    trivial

/-- How frames of one byte each end (R93, `per_byte`). -/
theorem sendEach_ends {s : State} (hl : LinesReliable s) {bs : List Byte} (hb : bs ≠ []) :
    EndsWith s (bs.flatMap fun b => frameEvents .data [b]) bs.length (FailedParams .perByte bs) (sendEach bs s) := by
  induction bs generalizing s with
  | nil => exact absurd rfl hb
  | cons b bs ih =>
    have h1 := sendFrame_ends hl .data (bytes := [b]) (by simp)
    have hf : ∀ e, FailedFrame .data [b] e → FailedParams .perByte (b :: bs) e := fun e he =>
      ⟨0, b, e, rfl, he, rfl⟩
    by_cases hbs : bs = []
    · subst hbs
      have : sendEach [b] s = sendFrame .data [b] s := by
        show (sendFrame .data [b] s).bind .ok = _
        cases sendFrame .data [b] s <;> rfl
      rw [this]
      simpa using h1.mono hf
    · rw [List.flatMap_cons, List.length_cons, Nat.add_comm]
      refine h1.bind (f := sendEach bs) hl (fun t ht _ => ih ht hbs) hf ?_
      rintro e ⟨j, b', es', hj, he, rfl⟩
      exact ⟨j + 1, b', es', by simpa using hj, he, by simp⟩

/-- How a parameter group ends (R93), under either framing. -/
theorem sendParams_ends {s : State} (hl : LinesReliable s) {ps : List Byte} (hb : ps ≠ []) :
    EndsWith s (paramEvents s.cfg.paramFraming ps) (paramFrames s.cfg.paramFraming ps)
      (FailedParams s.cfg.paramFraming ps) (sendParams ps s) := by
  unfold sendParams
  simp only [hb, if_false]
  cases s.cfg.paramFraming with
  | perGroup =>
    have hlen : ps.length ≠ 0 := by simpa using hb
    simp only [sendDataBlock, hlen, false_or, ne_eq, not_true_eq_false, if_false, List.take_length, paramEvents, hb,
      paramFrames]
    exact sendFrame_ends hl .data hb
  | perByte => exact sendEach_ends hl hb

/-- How an exchange ends (R63). -/
theorem exchange_ends {s : State} (hl : LinesReliable s) (cmd : Cmd) (ps : List Byte) :
    EndsWith s (exchangeEvents s.cfg cmd ps) (exchangeFrames s.cfg ps) (FailedExchange s.cfg cmd ps)
      (exchange cmd ps s) := by
  have h1 := sendFrame_ends hl .command (bytes := [s.cfg.codes.get cmd]) (by simp)
  by_cases hb : ps = []
  · subst hb
    have : exchange cmd [] s = sendFrame .command [s.cfg.codes.get cmd] s := by
      show (sendFrame .command [s.cfg.codes.get cmd] s).bind (sendParams []) = _
      cases sendFrame .command [s.cfg.codes.get cmd] s <;> rfl
    rw [this]
    simpa [exchangeEvents, exchangeFrames] using h1.mono (G := FailedExchange s.cfg cmd []) fun e he => .inl he
  · refine h1.bind (f := sendParams ps) hl (fun t ht hk => ?_) (fun e he => .inl he) (fun e he => .inr ⟨e, he, rfl⟩)
    rw [← hk.cfg]
    exact sendParams_ends ht hb

theorem windowFrames_eq (c : Config) (x0 x1 y0 y1 : Half) :
    windowFrames c = exchangeFrames c (addressParams x0 x1) + exchangeFrames c (addressParams y0 y1) + 1 := by
  unfold windowFrames exchangeFrames paramFrames
  cases c.paramFraming <;> simp [addressParams]

/-- How WINDOW_SET ends (R160). -/
theorem windowSet_ends {s : State} (hl : LinesReliable s) (x0 y0 x1 y1 : Half) :
    EndsWith s (windowEvents s.cfg x0 y0 x1 y1) (windowFrames s.cfg) (FailedWindow s.cfg x0 y0 x1 y1)
      (windowSet x0 y0 x1 y1 s) := by
  have row : ∀ t, LinesReliable t → KeepsDriver s t →
      EndsWith t (exchangeEvents s.cfg .rowAddressSet (addressParams y0 y1))
        (exchangeFrames s.cfg (addressParams y0 y1)) (FailedExchange s.cfg .rowAddressSet (addressParams y0 y1))
        (exchange .rowAddressSet (addressParams y0 y1) t) := fun t ht hk => by
    rw [← hk.cfg]
    exact exchange_ends ht _ _
  have last : ∀ t, LinesReliable t → KeepsDriver s t →
      EndsWith t (frameEvents .command [s.cfg.codes.memoryWrite]) 1 (FailedFrame .command [s.cfg.codes.memoryWrite])
        (sendCommand (t.cfg.codes.get .memoryWrite) t) := fun t ht hk => by
    rw [← hk.cfg]
    exact sendFrame_ends ht .command (by simp)
  rw [windowFrames_eq s.cfg x0 x1 y0 y1]
  refine EndsWith.bind hl (EndsWith.bind (G := fun es =>
      FailedExchange s.cfg .columnAddressSet (addressParams x0 x1) es ∨
        ∃ es', es = exchangeEvents s.cfg .columnAddressSet (addressParams x0 x1) ++ es' ∧
          FailedExchange s.cfg .rowAddressSet (addressParams y0 y1) es') hl (exchange_ends hl _ _) row
      (fun _ he => .inl he) fun e he => .inr ⟨e, rfl, he⟩) last ?_ ?_
  · rintro e (he | ⟨es', rfl, he⟩)
    · exact .inl he
    · exact .inr ⟨es', rfl, .inl he⟩
  · intro e he
    exact .inr ⟨_, List.append_assoc _ _ _, .inr ⟨e, rfl, he⟩⟩

/-! ### The first failed transfer, by its draw -/

/-- A frame whose transfer fails (R91). -/
theorem sendFrame_fails {s : State} (hl : LinesReliable s) (hu : BusUsable s) {cls : ByteClass} {bytes : List Byte}
    (hb : bytes ≠ []) (hd : (s.drawAt 0).outcome = .fail) {r : Receiver}
    (hr : takeBytes s.cfg (framePins s cls) (bytes.take (failedCount s bytes)) s.recv = .ok r) :
    sendFrame cls bytes s = .raised (afterBus s cls (transferEvents cls bytes false (failedCount s bytes)) 1 r) := by
  rw [sendFrame_eq hl hu cls hb, if_neg (by rw [hd]; simp), if_neg (by rw [hd]; simp), hr, Result.ofExcept_ok]

/-- Frames of one byte each, of which the one of byte `j` fails with `k` bytes delivered (R93). -/
theorem sendEach_fails {s : State} (hl : LinesReliable s) (hu : BusUsable s) {ps : List Byte} {j k : Nat} {b : Byte}
    {r : Receiver} (hj : ps[j]? = some b) (hd : DrawsOk s j) (ho : (s.drawAt j).outcome = .fail)
    (hk : k = min (s.drawAt j).delivered 1)
    (hr : takeBytes s.cfg (framePins s .data) (ps.take (j + k)) s.recv = .ok r) :
    sendEach ps s = .raised (afterBus s .data
      (((ps.take j).flatMap fun b => frameEvents .data [b]) ++ transferEvents .data [b] false k) (j + 1) r) := by
  induction ps generalizing s j with
  | nil => simp at hj
  | cons a ps ih =>
    show (sendFrame .data [a] s).bind (sendEach ps) = _
    cases j with
    | zero =>
      obtain rfl : a = b := by simpa using hj
      have hf : failedCount s [a] = k := hk.symm
      have hr' : takeBytes s.cfg (framePins s .data) ([a].take (failedCount s [a])) s.recv = .ok r := by
        rw [hf, ← hr]
        obtain h | h : k = 0 ∨ k = 1 := by omega
        · simp [h]
        · simp [h]
      rw [sendFrame_fails hl hu (by simp) ho hr', hf]
      rfl
    | succ j =>
      rw [show j + 1 + k = j + k + 1 by omega, List.take_succ_cons, takeBytes_cons, ← takeBytes_singleton] at hr
      cases h1 : takeBytes s.cfg (framePins s .data) [a] s.recv with
      | error e => simp [h1, Except.bind] at hr
      | ok r1 =>
        rw [h1] at hr
        replace hr : takeBytes s.cfg (framePins s .data) (ps.take (j + k)) r1 = .ok r := hr
        rw [sendFrame_ok hl hu (hd 0 (by omega)) (by simp) h1, Result.bind_ok,
          ih (hl.afterBus ..) (hu.afterBus ..) (by simpa using hj)
            (DrawsOk.afterBus (by rw [Nat.add_comm]; exact hd) _ _ _)
            (by rw [afterBus_drawAt, Nat.add_comm]; exact ho) (by rw [afterBus_drawAt, Nat.add_comm]; exact hk)
            (by simpa using hr)]
        simp [Nat.add_comm, Nat.add_left_comm]

/-- A group under `per_group` is one frame (R93). -/
theorem sendParams_perGroup {s : State} {ps : List Byte} (hb : ps ≠ []) (hf : s.cfg.paramFraming = .perGroup) :
    sendParams ps s = sendFrame .data ps s := by
  simp [sendParams, hb, hf, sendDataBlock]

/-- A group under `per_byte` is a frame for each byte (R93). -/
theorem sendParams_perByte {s : State} {ps : List Byte} (hb : ps ≠ []) (hf : s.cfg.paramFraming = .perByte) :
    sendParams ps s = sendEach ps s := by
  simp [sendParams, hb, hf]

/-- What a call executed by itself answers when its bus activity raised and nothing was in flight (log 5). -/
theorem endCall_raised_afterBus {s : State} (h : s.inFlight = false) (cls : ByteClass) (es : List Event) (n : Nat)
    (r : Receiver) :
    endCall (.raised (afterBus s cls es n r)) =
      .next { afterBus s cls es n r with callResult := some .transportError } := by
  have h' : (afterBus s cls es n r).inFlight = false := by simpa [State.inFlight] using h
  simp [endCall, h', State.setResult]

end Sys2Proof.Machine
end

