-- ==== Sys2Proof/Laws/PerInstr.lean ====
section
/-! SUPPORT. The round trip of the encoding, per operation: decoding what the encoder wrote gives the operation back, with
every operand, and leaves the words after it. -/

namespace Sys2Proof.Laws.RoundTrip

open Sys2Proof.Machine

/-- Decoding the encoded operation gives it back and leaves the rest of the stream. -/
def Statement (i : Instr) : Prop :=
  ∀ (c : Config) (rest : List Word), c.Wf → wf c i = true → decode c (encode c i ++ rest) = .ok (i, rest)

/-- The group of exactly `n` data words is taken whole. -/
theorem takeParams_map (ps : List Byte) (rest : List Word) :
    takeParams ps.length (ps.map (Word.wire .data) ++ rest) = (ps, rest) := by
  induction ps with
  | nil =>
    unfold takeParams
    cases rest <;> rfl
  | cons b ps ih => simp [takeParams, ih]

/-- The words of an exchange decode to the command with its group. -/
theorem decode_encodeCmd {c : Config} (h : c.Wf) (cmd : Cmd) {ps : List Byte} (hp : ps.length = c.nParams cmd)
    (rest : List Word) : decode c (encodeCmd c cmd ps ++ rest) = .ok (instrOfCmd cmd ps, rest) := by
  simp only [encodeCmd, List.cons_append, decode, cmdOf_get h, ← hp]
  rw [takeParams_map]

theorem wfParams_length {c : Config} {cmd : Cmd} {ps : List Byte} (h : wfParams c cmd ps = true) :
    ps.length = c.nParams cmd := by simpa [wfParams] using h

/-- The identifiers of the lines tell them apart (R5). -/
theorem lineOf_pin {c : Config} (h : c.Wf) (l : Line) : c.lineOf (c.pin l) = some l := by
  obtain ⟨-, -, hn, -⟩ := h
  simp only [List.nodup_cons, List.mem_cons, List.not_mem_nil, or_false, not_or, List.nodup_nil, and_true,
    not_false_eq_true] at hn
  cases l <;> simp [Config.lineOf, Line.all, List.find?, Config.pin] <;> grind

theorem opposite_ne (e : ELevel) : e.opposite ≠ e := by cases e <;> decide

theorem lineWriteOf_electrical (c : Config) (w : LineWrite) : c.lineWriteOf w.line (c.electrical w) = w := by
  cases w with
  | cs l => cases l <;> simp [Config.lineWriteOf, Config.electrical, LineWrite.line, opposite_ne]
  | dc l => cases l <;> simp [Config.lineWriteOf, Config.electrical, LineWrite.line, opposite_ne]
  | rst l => cases l <;> rfl
  | bl l => cases l <;> simp [Config.lineWriteOf, Config.electrical, LineWrite.line, opposite_ne]

theorem ofCode_code (e : ELevel) : ELevel.ofCode e.code = some e := by cases e <;> rfl

theorem halfOf_toNat (v : Half) : halfOf (v.toNat : Int) = some v := by
  have : v.toNat < 65536 := v.isLt
  simp [halfOf, this]

theorem decode_windowSet {c : Config} {n0 n1 n2 n3 : Int} {x0 y0 x1 y1 : Half} (h0 : halfOf n0 = some x0)
    (h1 : halfOf n1 = some y0) (h2 : halfOf n2 = some x1) (h3 : halfOf n3 = some y1) (rest : List Word) :
    decode c (.call .windowSet [n0, n1, n2, n3] [] :: rest) = .ok (.windowSet x0 y0 x1 y1, rest) := by
  simp only [decode, decodeCall, h0, h1, h2, h3]

theorem softwareReset : Statement .softwareReset := fun _ rest h _ => decode_encodeCmd h .softwareReset rfl rest
theorem sleepOut : Statement .sleepOut := fun _ rest h _ => decode_encodeCmd h .sleepOut rfl rest
theorem colorMode (ps : List Byte) : Statement (.colorMode ps) := fun _ rest h hw =>
  decode_encodeCmd h .colorMode (wfParams_length hw) rest
theorem memoryAccess (ps : List Byte) : Statement (.memoryAccess ps) := fun _ rest h hw =>
  decode_encodeCmd h .memoryAccess (wfParams_length hw) rest
theorem columnAddressSet (ps : List Byte) : Statement (.columnAddressSet ps) := fun _ rest h hw =>
  decode_encodeCmd h .columnAddressSet (wfParams_length hw) rest
theorem rowAddressSet (ps : List Byte) : Statement (.rowAddressSet ps) := fun _ rest h hw =>
  decode_encodeCmd h .rowAddressSet (wfParams_length hw) rest
theorem porchControl (ps : List Byte) : Statement (.porchControl ps) := fun _ rest h hw =>
  decode_encodeCmd h .porchControl (wfParams_length hw) rest
theorem gateControl (ps : List Byte) : Statement (.gateControl ps) := fun _ rest h hw =>
  decode_encodeCmd h .gateControl (wfParams_length hw) rest
theorem vcoms (ps : List Byte) : Statement (.vcoms ps) := fun _ rest h hw =>
  decode_encodeCmd h .vcoms (wfParams_length hw) rest
theorem lcmControl (ps : List Byte) : Statement (.lcmControl ps) := fun _ rest h hw =>
  decode_encodeCmd h .lcmControl (wfParams_length hw) rest
theorem vdvVrhEnable (ps : List Byte) : Statement (.vdvVrhEnable ps) := fun _ rest h hw =>
  decode_encodeCmd h .vdvVrhEnable (wfParams_length hw) rest
theorem vrh (ps : List Byte) : Statement (.vrh ps) := fun _ rest h hw =>
  decode_encodeCmd h .vrh (wfParams_length hw) rest
theorem vdv (ps : List Byte) : Statement (.vdv ps) := fun _ rest h hw =>
  decode_encodeCmd h .vdv (wfParams_length hw) rest
theorem frameRateControl2 (ps : List Byte) : Statement (.frameRateControl2 ps) := fun _ rest h hw =>
  decode_encodeCmd h .frameRateControl2 (wfParams_length hw) rest
theorem powerControl1 (ps : List Byte) : Statement (.powerControl1 ps) := fun _ rest h hw =>
  decode_encodeCmd h .powerControl1 (wfParams_length hw) rest
theorem positiveGamma (ps : List Byte) : Statement (.positiveGamma ps) := fun _ rest h hw =>
  decode_encodeCmd h .positiveGamma (wfParams_length hw) rest
theorem negativeGamma (ps : List Byte) : Statement (.negativeGamma ps) := fun _ rest h hw =>
  decode_encodeCmd h .negativeGamma (wfParams_length hw) rest
theorem normalDisplayOn : Statement .normalDisplayOn := fun _ rest h _ => decode_encodeCmd h .normalDisplayOn rfl rest
theorem displayOn : Statement .displayOn := fun _ rest h _ => decode_encodeCmd h .displayOn rfl rest
theorem memoryWrite : Statement .memoryWrite := fun _ rest h _ => decode_encodeCmd h .memoryWrite rfl rest
theorem pixelData (b : Byte) : Statement (.pixelData b) := fun _ _ _ _ => rfl
theorem unknownCommand (b : Byte) : Statement (.unknownCommand b) := fun c rest _ hw => by
  simp [encode, decode, cmdOf_eq_none.2 hw]
theorem configureOutputLine (l : Line) : Statement (.configureOutputLine l) := fun c rest h _ => by
  simp [encode, decode, decodeCall, lineOf_pin h]
theorem writeLine (w : LineWrite) : Statement (.writeLine w) := fun c rest h _ => by
  simp [encode, decode, decodeCall, lineOf_pin h, ofCode_code, lineWriteOf_electrical]
theorem transportInit : Statement .transportInit := fun _ _ _ _ => rfl
theorem transportWrite (bytes : List Byte) : Statement (.transportWrite bytes) := fun _ _ _ _ => rfl
theorem sendCommand (b : Byte) : Statement (.sendCommand b) := fun _ _ _ _ => rfl
theorem sendData (b : Byte) : Statement (.sendData b) := fun _ _ _ _ => rfl
theorem sendDataBlock (bytes : List Byte) (length : Nat) : Statement (.sendDataBlock bytes length) := fun _ _ _ _ => by
  simp [encode, decode, decodeCall]
theorem sleepMs (n : Nat) : Statement (.sleepMs n) := fun c _ _ hw => by
  have : n ≠ 0 := by simpa [wf] using hw
  simp [encode, decode, decodeCall, Nat.pos_of_ne_zero this]
theorem sendParams (ps : List Byte) : Statement (.sendParams ps) := fun _ _ _ _ => rfl
theorem init : Statement .init := fun _ _ _ _ => rfl
theorem windowSet (x0 y0 x1 y1 : Half) : Statement (.windowSet x0 y0 x1 y1) := fun _ rest _ _ =>
  decode_windowSet (halfOf_toNat x0) (halfOf_toNat y0) (halfOf_toNat x1) (halfOf_toNat y1) rest
theorem blit (rect : Rect) (pb : List Byte) : Statement (.blit rect pb) := fun _ _ _ _ => rfl

end Sys2Proof.Laws.RoundTrip
end

