-- ==== Sys2Proof/Laws/Pixels.lean ====
section
/-! SUPPORT. A run of pixel bytes (R70, R130): what the frame memory and the pointer hold after the first `k` pixels of a
window. -/

namespace Sys2Proof.Machine

/-- The frame memory after the first `k` pixels of a run into a window whose first cell is (`y0`, `x0`) and whose width
is `w` (R42, R70). -/
def writePixels (m : FrameMemory) (pb : List Byte) (x0 y0 w : Nat) : Nat → FrameMemory
  | 0 => m
  | k + 1 => fmWrite (writePixels m pb x0 y0 w k) (y0 + k / w) (x0 + k % w) (pixelAt pb k)

/-- The armed Receiver after the first `k` pixels of a window of `w` by `h` cells (R130). -/
def afterPixels (r : Receiver) (pb : List Byte) (x0 y0 w h k : Nat) : Receiver :=
  { r with
    fm := writePixels r.fm pb x0 y0 w k
    wcol := some (if k = w * h then x0 else x0 + k % w)
    wrow := some (if k = w * h then y0 + h - 1 else y0 + k / w)
    cHalf := none
    cFull := decide (k = w * h) }

/-- The cells a run has written hold their pixels (R166). -/
theorem fmRead_writePixels {pb : List Byte} {x0 y0 w : Nat} (hw : 0 < w) (hx : x0 + w ≤ 65536) (m : FrameMemory)
    {k i : Nat} (hi : i < k) :
    fmRead (writePixels m pb x0 y0 w k) (y0 + i / w) (x0 + i % w) = some (pixelAt pb i) := by
  induction k with
  | zero => omega
  | succ k ih =>
    unfold writePixels
    by_cases h : i = k
    · subst h
      exact fmRead_fmWrite_self _ _ _ _
    · have hmi := Nat.mod_lt i hw
      have hmk := Nat.mod_lt k hw
      rw [fmRead_fmWrite_of_ne]
      · exact ih (by omega)
      · intro hc
        obtain ⟨hc1, hc2⟩ := fmKey_inj (by omega) (by omega) hc
        apply h
        have h1 : i / w = k / w := by omega
        have h2 : i % w = k % w := by omega
        rw [← Nat.div_add_mod i w, ← Nat.div_add_mod k w, h1, h2]

/-- The other cells keep what they held (R130: "Cells outside the rectangle are never changed"). -/
theorem fmRead_writePixels_of_ne {pb : List Byte} {x0 y0 w : Nat} (hw : 0 < w) (hx : x0 + w ≤ 65536) (m : FrameMemory)
    {k row col : Nat} (hc : col < 65536) (h : ∀ i < k, ¬ (row = y0 + i / w ∧ col = x0 + i % w)) :
    fmRead (writePixels m pb x0 y0 w k) row col = fmRead m row col := by
  induction k with
  | zero => rfl
  | succ k ih =>
    unfold writePixels
    have hmk := Nat.mod_lt k hw
    rw [fmRead_fmWrite_of_ne]
    · exact ih fun i hi => h i (by omega)
    · exact fun e => h k (by omega) (fmKey_inj (by omega) (by omega) e)

/-- The next cell of a run (R130: the pointer's increment and compare is division and remainder by the width). -/
theorem next_cell {w k : Nat} (hw : 0 < w) :
    (k % w + 1 < w → (k + 1) / w = k / w ∧ (k + 1) % w = k % w + 1) ∧
    (k % w + 1 = w → (k + 1) / w = k / w + 1 ∧ (k + 1) % w = 0) := by
  have hk := Nat.div_add_mod k w
  constructor
  · intro h
    exact (Nat.div_mod_unique hw).2 ⟨by omega, h⟩
  · intro h
    refine (Nat.div_mod_unique hw).2 ⟨?_, hw⟩
    rw [Nat.mul_add]
    omega

/-- One pixel of a run (R130). -/
theorem takeBytes_pixel {c : Config} {p : Pins} (hcs : p.cs = some .asserted) (hdc : p.dc = some .data)
    (hrst : p.rst = some .high) {r : Receiver} (hd : r.cResetDone = true) (hb : r.cBusy = 0)
    (ha : r.cCmd = some .memoryWrite) {xs xe ys ye : Half} (hxs : r.xs = some xs) (hxe : r.xe = some xe)
    (hye : r.ye = some ye) (hx : xs.toNat ≤ xe.toNat) (hxp : xe.toNat < c.panelW) (hy : ys.toNat ≤ ye.toNat)
    (hyp : ye.toNat < c.panelH) (pb : List Byte) {k : Nat}
    (hk : k < (xe.toNat - xs.toNat + 1) * (ye.toNat - ys.toNat + 1)) :
    takeBytes c p [pb.getD (2 * k) 0, pb.getD (2 * k + 1) 0]
      (afterPixels r pb xs.toNat ys.toNat (xe.toNat - xs.toNat + 1) (ye.toNat - ys.toNat + 1) k) =
    .ok (afterPixels r pb xs.toNat ys.toNat (xe.toNat - xs.toNat + 1) (ye.toNat - ys.toNat + 1) (k + 1)) := by
  generalize hw : xe.toNat - xs.toNat + 1 = w at hk ⊢
  generalize hh : ye.toNat - ys.toNat + 1 = h at hk ⊢
  have hw0 : 0 < w := by omega
  have hmod := Nat.mod_lt k hw0
  have hdiv : k / w < h := Nat.div_lt_of_lt_mul hk
  have hne : k ≠ w * h := by omega
  obtain ⟨hn1, hn2⟩ := next_cell (k := k) hw0
  have hdm := Nat.div_add_mod k w
  rw [takeBytes_cons, takeByte_data hcs hdc hrst (by exact hd) (by exact hb)]
  have h1 : takeData c (pb.getD (2 * k) 0) (afterPixels r pb xs.toNat ys.toNat w h k) =
      .ok { afterPixels r pb xs.toNat ys.toNat w h k with cHalf := some (pb.getD (2 * k) 0) } := by
    simp [takeData, takePixel, afterPixels, ha, hne]
  rw [h1]
  show takeBytes c p [_] _ = _
  rw [takeBytes_singleton, takeByte_data hcs hdc hrst (by exact hd) (by exact hb)]
  have hpan : inPanel c (ys.toNat + k / w) (xs.toNat + k % w) = true := by
    simp only [inPanel, decide_eq_true_eq]
    omega
  have h2 : takeData c (pb.getD (2 * k + 1) 0)
      { afterPixels r pb xs.toNat ys.toNat w h k with cHalf := some (pb.getD (2 * k) 0) } =
      .ok (storePixel xs xe ye (ys.toNat + k / w) (xs.toNat + k % w) (pixelAt pb k)
        { afterPixels r pb xs.toNat ys.toNat w h k with cHalf := some (pb.getD (2 * k) 0) }) := by
    simp [takeData, takePixel, afterPixels, ha, hne, hxs, hxe, hye, hpan, pixelAt]
  rw [h2]
  refine congrArg Except.ok ?_
  by_cases hc : k % w + 1 < w
  · obtain ⟨e1, e2⟩ := hn1 hc
    have hlt : xs.toNat + k % w < xe.toNat := by omega
    have hne' : k + 1 ≠ w * h := by
      intro e
      have : (k + 1) % w = 0 := by rw [e]; simp
      omega
    simp [storePixel, afterPixels, writePixels, hlt, hne, hne', e1, e2, Nat.add_assoc]
  · have hcw : k % w + 1 = w := by omega
    obtain ⟨e1, e2⟩ := hn2 hcw
    have hlt : ¬ xs.toNat + k % w < xe.toNat := by omega
    by_cases hr : k / w + 1 < h
    · have hlr : ys.toNat + k / w < ye.toNat := by omega
      have hne' : k + 1 ≠ w * h := by
        intro e
        have : (k + 1) / w = h := by rw [e]; exact Nat.mul_div_cancel_left h hw0
        omega
      simp [storePixel, afterPixels, writePixels, hlt, hlr, hne, hne', e1, e2, Nat.add_assoc]
    · have hlr : ¬ ys.toNat + k / w < ye.toNat := by omega
      have he : k + 1 = w * h := by
        have hq : k / w + 1 = h := by omega
        calc k + 1 = w * (k / w) + (k % w + 1) := by omega
          _ = w * (k / w + 1) := by rw [hcw, Nat.mul_add, Nat.mul_one]
          _ = w * h := by rw [hq]
      have hrow : ys.toNat + k / w = ys.toNat + h - 1 := by omega
      have hrow' : ¬ ys.toNat + h - 1 < ye.toNat := by omega
      simp only [storePixel, afterPixels, writePixels, hlt, hne, he, hrow, hrow', if_true, if_false, decide_true]

/-- A list cut after an even number of bytes grows by a pair. -/
theorem take_two_mul_succ {pb : List Byte} {k : Nat} (h : 2 * k + 1 < pb.length) :
    pb.take (2 * (k + 1)) = pb.take (2 * k) ++ [pb.getD (2 * k) 0, pb.getD (2 * k + 1) 0] := by
  have h0 : 2 * k < pb.length := by omega
  rw [show 2 * (k + 1) = 2 * k + 1 + 1 by omega, List.take_add_one, List.take_add_one]
  simp only [List.getD_eq_getElem?_getD, List.getElem?_eq_getElem h, List.getElem?_eq_getElem h0, Option.toList_some,
    Option.getD_some, List.append_assoc, List.cons_append, List.nil_append]

/-- The first `k` pixels of a run, from a freshly armed Receiver (R70, R130, R166). -/
theorem takeBytes_pixels {c : Config} {p : Pins} (hcs : p.cs = some .asserted) (hdc : p.dc = some .data)
    (hrst : p.rst = some .high) {r : Receiver} (hd : r.cResetDone = true) (hb : r.cBusy = 0)
    (ha : r.cCmd = some .memoryWrite) {xs xe ys ye : Half} (hxs : r.xs = some xs) (hxe : r.xe = some xe)
    (hye : r.ye = some ye) (hx : xs.toNat ≤ xe.toNat) (hxp : xe.toNat < c.panelW) (hy : ys.toNat ≤ ye.toNat)
    (hyp : ye.toNat < c.panelH) (pb : List Byte)
    (hlen : pb.length = (xe.toNat - xs.toNat + 1) * (ye.toNat - ys.toNat + 1) * 2) {k : Nat}
    (hk : k ≤ (xe.toNat - xs.toNat + 1) * (ye.toNat - ys.toNat + 1)) :
    takeBytes c p (pb.take (2 * k))
      (afterPixels r pb xs.toNat ys.toNat (xe.toNat - xs.toNat + 1) (ye.toNat - ys.toNat + 1) 0) =
    .ok (afterPixels r pb xs.toNat ys.toNat (xe.toNat - xs.toNat + 1) (ye.toNat - ys.toNat + 1) k) := by
  induction k with
  | zero => rfl
  | succ k ih =>
    rw [take_two_mul_succ (by omega), takeBytes_append, ih (by omega)]
    exact takeBytes_pixel hcs hdc hrst hd hb ha hxs hxe hye hx hxp hy hyp pb (by omega)

/-- A freshly armed Receiver stands before the first pixel. -/
theorem afterPixels_zero {r : Receiver} {pb : List Byte} {x0 y0 w h : Nat} (hw : 0 < w) (hh : 0 < h)
    (h1 : r.wcol = some x0) (h2 : r.wrow = some y0) (h3 : r.cHalf = none) (h4 : r.cFull = false) :
    afterPixels r pb x0 y0 w h 0 = r := by
  have : 0 ≠ w * h := (Nat.mul_pos hw hh).ne
  cases r
  simp_all [afterPixels, writePixels]

end Sys2Proof.Machine
end

