-- ==== Sys2Proof/Laws/Window.lean ====
section
/-! SUPPORT. Operations on the bus as lists of frames: what a run of frames that is cut by a failed transfer has put on the
wire and done to the Receiver; and WINDOW_SET as such a run (R160, R161, R168). -/

namespace Sys2Proof.Machine

/-! ### Bytes with their classes at the Receiver -/

/-- The Receiver takes bytes, each inside a frame of its class. -/
def takeClassed (c : Config) (rst : Option RstLevel) : List (ByteClass × Byte) → Receiver → Except Stop Receiver
  | [], r => .ok r
  | b :: bs, r => (takeByte c ⟨some .asserted, some b.1, rst⟩ b.2 r).bind (takeClassed c rst bs)

theorem takeClassed_append (c : Config) (rst : Option RstLevel) (bs bs' : List (ByteClass × Byte)) (r : Receiver) :
    takeClassed c rst (bs ++ bs') r = (takeClassed c rst bs r).bind (takeClassed c rst bs') := by
  induction bs generalizing r with
  | nil => rfl
  | cons b bs ih =>
    simp only [List.cons_append, takeClassed]
    cases takeByte c ⟨some .asserted, some b.1, rst⟩ b.2 r with
    | error e => rfl
    | ok r1 => exact ih r1

/-- Bytes of one class are the bytes of one transfer. -/
theorem takeClassed_map (c : Config) (rst : Option RstLevel) (cls : ByteClass) (bs : List Byte) (r : Receiver) :
    takeClassed c rst (bs.map fun b => (cls, b)) r = takeBytes c ⟨some .asserted, some cls, rst⟩ bs r := by
  induction bs generalizing r with
  | nil => rfl
  | cons b bs ih =>
    rw [takeBytes_cons, List.map_cons, takeClassed]
    exact congrArg _ (funext ih)

/-! ### One frame, by its result -/

/-- A frame that does not stop the machine was sent on a usable bus (R81, R83). -/
theorem busUsable_of_sendFrame {s : State} (hl : LinesReliable s) (cls : ByteClass) (bytes : List Byte)
    (h : ∀ w, sendFrame cls bytes s ≠ .stopped w) : BusUsable s := by
  by_cases hdc : s.dc.configured = true
  · by_cases hcs : s.cs.configured = true
    · by_cases ht : s.tInit = true
      · exact ⟨hcs, hdc, ht⟩
      · exfalso
        refine h (.refused .transferBeforeInit) ?_
        unfold sendFrame
        rw [openFrame_lines hl hdc hcs]
        simp [transportWrite, ht, endFrame, inFrame]
    · exact absurd (stopped_cs hdc hcs) (h _)
  · exact absurd (stopped_dc hdc) (h _)
where
  openFrame_lines {s : State} (hl : LinesReliable s) {cls : ByteClass} (hdc : s.dc.configured = true)
      (hcs : s.cs.configured = true) :
      (writeLine (.dc cls) s).bind (writeLine (.cs .asserted)) = .ok (inFrame s cls) := by
    rw [writeLine_dc hl hdc, Result.bind_ok]
    exact writeLine_cs (s := (s.emit (.line (.dc cls))).setDc cls) (hl.of_cfg (by simp)) (by simpa using hcs) .asserted
  stopped_cs (hdc : s.dc.configured = true) (hcs : ¬ s.cs.configured = true) :
      sendFrame cls bytes s = .stopped (.refused .lineNotConfigured) := by
    unfold sendFrame
    rw [writeLine_dc hl hdc, Result.bind_ok, writeLine_unconfigured (s := (s.emit (.line (.dc cls))).setDc cls)
      (by simpa [State.configured, LineWrite.line] using hcs)]
    rfl
  stopped_dc (hdc : ¬ s.dc.configured = true) : sendFrame cls bytes s = .stopped (.refused .lineNotConfigured) := by
    unfold sendFrame
    rw [writeLine_unconfigured (by simpa [State.configured, LineWrite.line] using hdc)]
    rfl

/-- A frame that returned (R84 to R86). -/
theorem sendFrame_returned {s t : State} (hl : LinesReliable s) {cls : ByteClass} {bytes : List Byte} (hb : bytes ≠ [])
    (h : sendFrame cls bytes s = .ok t) :
    ∃ r, t = afterBus s cls (frameEvents cls bytes) 1 r ∧
      takeBytes s.cfg (framePins s cls) bytes s.recv = .ok r := by
  have hu := busUsable_of_sendFrame hl cls bytes (by simp [h])
  rw [sendFrame_eq hl hu cls hb] at h
  split at h
  · cases hr : takeBytes s.cfg (framePins s cls) bytes s.recv with
    | error e => simp [hr, Result.ofExcept] at h
    | ok r =>
      rw [hr, Result.ofExcept_ok] at h
      cases h
      exact ⟨r, rfl, rfl⟩
  · split at h
    · cases h
    · cases hr : takeBytes s.cfg (framePins s cls) (bytes.take (failedCount s bytes)) s.recv <;>
        simp [hr, Result.ofExcept] at h

/-- A frame that raised (R91). -/
theorem sendFrame_raised {s t : State} (hl : LinesReliable s) {cls : ByteClass} {bytes : List Byte} (hb : bytes ≠ [])
    (h : sendFrame cls bytes s = .raised t) :
    ∃ k ≤ bytes.length, ∃ r, t = afterBus s cls (transferEvents cls bytes false k) 1 r ∧
      takeBytes s.cfg (framePins s cls) (bytes.take k) s.recv = .ok r := by
  have hu := busUsable_of_sendFrame hl cls bytes (by simp [h])
  rw [sendFrame_eq hl hu cls hb] at h
  split at h
  · cases hr : takeBytes s.cfg (framePins s cls) bytes s.recv <;> simp [hr, Result.ofExcept] at h
  · split at h
    · cases h
    · cases hr : takeBytes s.cfg (framePins s cls) (bytes.take (failedCount s bytes)) s.recv with
      | error e => simp [hr, Result.ofExcept] at h
      | ok r =>
        rw [hr, Result.ofExcept_ok] at h
        cases h
        exact ⟨_, Nat.min_le_right _ _, r, rfl, hr⟩

/-! ### Runs of frames -/

/-- A frame to be sent: its class and its bytes. -/
abbrev FrameSpec := ByteClass × List Byte

/-- Frames one after the other. -/
def sendFrames : List FrameSpec → State → Result
  | [], s => .ok s
  | f :: fs, s => (sendFrame f.1 f.2 s).bind (sendFrames fs)

/-- The bytes of frames, with their classes. -/
def frameBytes (fs : List FrameSpec) : List (ByteClass × Byte) := fs.flatMap fun f => f.2.map fun b => (f.1, b)

/-- The events of completed frames. -/
def framesEvents (fs : List FrameSpec) : List Event := fs.flatMap fun f => frameEvents f.1 f.2

theorem sendFrames_append (fs gs : List FrameSpec) (s : State) :
    sendFrames (fs ++ gs) s = (sendFrames fs s).bind (sendFrames gs) := by
  induction fs generalizing s with
  | nil => rfl
  | cons f fs ih =>
    simp only [List.cons_append, sendFrames]
    cases sendFrame f.1 f.2 s with
    | ok t => exact ih t
    | raised t => rfl
    | stopped w => rfl

theorem sendFrames_singleton (cls : ByteClass) (bytes : List Byte) (s : State) :
    sendFrames [(cls, bytes)] s = sendFrame cls bytes s := by
  simp only [sendFrames]
  cases sendFrame cls bytes s <;> rfl

/-- Frames that returned: the bytes they carry have moved the Receiver, and nothing else. -/
theorem sendFrames_returned {s t : State} (hl : LinesReliable s) {fs : List FrameSpec} (hne : fs ≠ [])
    (hb : ∀ f ∈ fs, f.2 ≠ []) (h : sendFrames fs s = .ok t) :
    ∃ cls r, t = afterBus s cls (framesEvents fs) fs.length r ∧
      takeClassed s.cfg s.rst.level (frameBytes fs) s.recv = .ok r := by
  induction fs generalizing s with
  | nil => exact absurd rfl hne
  | cons f fs ih =>
    cases h1 : sendFrame f.1 f.2 s with
    | raised u => simp [sendFrames, h1, Result.bind] at h
    | stopped w => simp [sendFrames, h1, Result.bind] at h
    | ok u =>
      obtain ⟨r1, rfl, hr1⟩ := sendFrame_returned hl (hb f (by simp)) h1
      simp only [sendFrames, h1, Result.bind_ok] at h
      have hc : takeClassed s.cfg s.rst.level (f.2.map fun b => (f.1, b)) s.recv = .ok r1 := by
        rw [takeClassed_map]
        exact hr1
      by_cases hfs : fs = []
      · subst hfs
        cases h
        exact ⟨f.1, r1, by simp [framesEvents], by simpa [frameBytes] using hc⟩
      · obtain ⟨cls, r, rfl, hr⟩ := ih (hl.afterBus ..) hfs (fun g hg => hb g (by simp [hg])) h
        refine ⟨cls, r, by simp [framesEvents, Nat.add_comm], ?_⟩
        rw [frameBytes, List.flatMap_cons, takeClassed_append, hc]
        exact hr

/-- Frames that raised: those before the failed one, then it; what arrived has moved the Receiver, and nothing else. -/
theorem sendFrames_raised {s t : State} (hl : LinesReliable s) {fs : List FrameSpec} (hb : ∀ f ∈ fs, f.2 ≠ [])
    (h : sendFrames fs s = .raised t) :
    ∃ j f k r, fs[j]? = some f ∧ k ≤ f.2.length ∧
      t = afterBus s f.1 (framesEvents (fs.take j) ++ transferEvents f.1 f.2 false k) (j + 1) r ∧
      takeClassed s.cfg s.rst.level (frameBytes (fs.take j) ++ (f.2.take k).map fun b => (f.1, b)) s.recv = .ok r := by
  induction fs generalizing s with
  | nil => cases h
  | cons f fs ih =>
    cases h1 : sendFrame f.1 f.2 s with
    | stopped w => simp [sendFrames, h1, Result.bind] at h
    | raised u =>
      obtain ⟨k, hk, r, rfl, hr⟩ := sendFrame_raised hl (hb f (by simp)) h1
      simp only [sendFrames, h1, Result.bind] at h
      cases h
      refine ⟨0, f, k, r, rfl, hk, by simp [framesEvents], ?_⟩
      show takeClassed s.cfg s.rst.level ((f.2.take k).map fun b => (f.1, b)) s.recv = _
      rw [takeClassed_map]
      exact hr
    | ok u =>
      obtain ⟨r1, rfl, hr1⟩ := sendFrame_returned hl (hb f (by simp)) h1
      simp only [sendFrames, h1, Result.bind_ok] at h
      obtain ⟨j, g, k, r, hj, hk, rfl, hr⟩ := ih (hl.afterBus ..) (fun g hg => hb g (by simp [hg])) h
      refine ⟨j + 1, g, k, r, by simpa using hj, hk, by simp [framesEvents, Nat.add_comm], ?_⟩
      rw [List.take_succ_cons, frameBytes, List.flatMap_cons, List.append_assoc, takeClassed_append, takeClassed_map]
      show Except.bind (takeBytes s.cfg (framePins s f.1) f.2 s.recv) _ = _
      rw [hr1]
      exact hr

/-- The first failed transfer, by its draw. -/
theorem sendFrames_fails {s : State} (hl : LinesReliable s) (hu : BusUsable s) {fs : List FrameSpec}
    (hb : ∀ f ∈ fs, f.2 ≠ []) {j k : Nat} {f : FrameSpec} {r : Receiver} (hj : fs[j]? = some f) (hd : DrawsOk s j)
    (ho : (s.drawAt j).outcome = .fail) (hk : k = min (s.drawAt j).delivered f.2.length)
    (hr : takeClassed s.cfg s.rst.level (frameBytes (fs.take j) ++ (f.2.take k).map fun b => (f.1, b)) s.recv = .ok r) :
    sendFrames fs s =
      .raised (afterBus s f.1 (framesEvents (fs.take j) ++ transferEvents f.1 f.2 false k) (j + 1) r) := by
  induction fs generalizing s j with
  | nil => simp at hj
  | cons g fs ih =>
    cases j with
    | zero =>
      obtain rfl : g = f := by simpa using hj
      have hf : failedCount s g.2 = k := hk.symm
      rw [takeClassed_append] at hr
      replace hr : takeClassed s.cfg s.rst.level ((g.2.take k).map fun b => (g.1, b)) s.recv = .ok r := hr
      rw [takeClassed_map] at hr
      rw [sendFrames, sendFrame_fails hl hu (hb g (by simp)) ho (r := r) (by rw [hf]; exact hr), hf]
      rfl
    | succ j =>
      rw [List.take_succ_cons, frameBytes, List.flatMap_cons, List.append_assoc, takeClassed_append,
        takeClassed_map] at hr
      cases h1 : takeBytes s.cfg (framePins s g.1) g.2 s.recv with
      | error e => simp [show takeBytes s.cfg ⟨some .asserted, some g.1, s.rst.level⟩ g.2 s.recv = _ from h1,
          Except.bind] at hr
      | ok r1 =>
        rw [show takeBytes s.cfg ⟨some .asserted, some g.1, s.rst.level⟩ g.2 s.recv = _ from h1] at hr
        rw [sendFrames, sendFrame_ok hl hu (hd 0 (by omega)) (hb g (by simp)) h1, Result.bind_ok,
          ih (hl.afterBus ..) (hu.afterBus ..) (fun g hg => hb g (by simp [hg])) (by simpa using hj)
            (DrawsOk.afterBus (by rw [Nat.add_comm]; exact hd) _ _ _)
            (by rw [afterBus_drawAt, Nat.add_comm]; exact ho) (by rw [afterBus_drawAt, Nat.add_comm]; exact hk)
            hr]
        simp [framesEvents, Nat.add_comm]

/-- The bytes a run of frames cut by a failed transfer has put on the wire. -/
theorem wireBytes_cut (dc : Option ByteClass) (fs : List FrameSpec) (f : FrameSpec) (k : Nat) :
    wireBytes dc (framesEvents fs ++ transferEvents f.1 f.2 false k) =
      frameBytes fs ++ (f.2.take k).map fun b => (f.1, b) := by
  induction fs generalizing dc with
  | nil => simp [framesEvents, frameBytes, transferEvents, wireBytes]
  | cons g fs ih =>
    have hg : wireBytes dc (frameEvents g.1 g.2 ++ (framesEvents fs ++ transferEvents f.1 f.2 false k)) =
        (g.2.map fun b => (g.1, b)) ++ wireBytes (some g.1) (framesEvents fs ++ transferEvents f.1 f.2 false k) := by
      simp [frameEvents, transferEvents, wireBytes]
    rw [framesEvents, List.flatMap_cons, List.append_assoc, ← framesEvents, hg, ih, frameBytes, frameBytes,
      List.flatMap_cons, List.append_assoc]

/-- They are a prefix of the bytes of all the frames. -/
theorem frameBytes_cut {fs : List FrameSpec} {f : FrameSpec} {j k : Nat} (hj : fs[j]? = some f) (hk : k ≤ f.2.length) :
    ∃ n ≤ (frameBytes fs).length,
      frameBytes (fs.take j) ++ ((f.2.take k).map fun b => (f.1, b)) = (frameBytes fs).take n := by
  obtain ⟨hlt, rfl⟩ := List.getElem?_eq_some_iff.1 hj
  have hsplit : frameBytes fs = frameBytes (fs.take j) ++
      ((fs[j].2.map fun b => (fs[j].1, b)) ++ frameBytes (fs.drop (j + 1))) := by
    have hfs : fs = fs.take j ++ fs[j] :: fs.drop (j + 1) := by
      rw [← List.drop_eq_getElem_cons hlt, List.take_append_drop]
    have := congrArg frameBytes hfs
    rwa [frameBytes, frameBytes, List.flatMap_append, List.flatMap_cons] at this
  refine ⟨(frameBytes (fs.take j)).length + k, ?_, ?_⟩
  · rw [hsplit]
    simp
    omega
  · rw [hsplit, List.take_length_add_append, List.take_append_of_le_length (by simpa using hk), List.map_take]

theorem framesEvents_length (fs : List FrameSpec) : (framesEvents fs).length = 4 * fs.length := by
  induction fs with
  | nil => rfl
  | cons f fs ih =>
    rw [framesEvents, List.flatMap_cons, List.length_append, ← framesEvents, ih]
    simp [frameEvents, transferEvents]
    omega

/-! ### Exchanges and WINDOW_SET as runs of frames -/

/-- The frames of a parameter group (R93). -/
def paramSpecs (f : ParamFraming) (ps : List Byte) : List FrameSpec :=
  match f with
  | .perGroup => [(.data, ps)]
  | .perByte => ps.map fun b => (.data, [b])

/-- The frames of an exchange with parameters (R63). -/
def exchangeSpecs (c : Config) (cmd : Cmd) (ps : List Byte) : List FrameSpec :=
  (.command, [c.codes.get cmd]) :: paramSpecs c.paramFraming ps

/-- The frames of WINDOW_SET (R160). -/
def windowSpecs (c : Config) (x0 y0 x1 y1 : Half) : List FrameSpec :=
  exchangeSpecs c .columnAddressSet (addressParams x0 x1) ++ exchangeSpecs c .rowAddressSet (addressParams y0 y1) ++
    [(.command, [c.codes.memoryWrite])]

theorem sendEach_eq (ps : List Byte) (s : State) : sendEach ps s = sendFrames (ps.map fun b => (.data, [b])) s := by
  induction ps generalizing s with
  | nil => rfl
  | cons b ps ih => exact congrArg _ (funext ih)

theorem sendParams_eq {ps : List Byte} (hb : ps ≠ []) (s : State) :
    sendParams ps s = sendFrames (paramSpecs s.cfg.paramFraming ps) s := by
  cases hf : s.cfg.paramFraming with
  | perGroup => rw [sendParams_perGroup hb hf, paramSpecs, sendFrames_singleton]
  | perByte => rw [sendParams_perByte hb hf, sendEach_eq, paramSpecs]

theorem Result.bind_congr {x : Result} {f g : State → Result} (h : ∀ t, x = .ok t → f t = g t) : x.bind f = x.bind g := by
  cases x with
  | ok t => exact h t rfl
  | raised t => rfl
  | stopped w => rfl

theorem exchange_eq {s : State} (hl : LinesReliable s) (cmd : Cmd) {ps : List Byte} (hb : ps ≠ []) :
    exchange cmd ps s = sendFrames (exchangeSpecs s.cfg cmd ps) s := by
  refine Result.bind_congr fun t ht => ?_
  obtain ⟨r, rfl, -⟩ := sendFrame_returned hl (by simp) ht
  exact sendParams_eq hb _

theorem exchangeSpecs_bytes {c : Config} {cmd : Cmd} {ps : List Byte} (hb : ps ≠ []) :
    ∀ f ∈ exchangeSpecs c cmd ps, f.2 ≠ [] := by
  intro f hf
  cases hp : c.paramFraming with
  | perGroup =>
    simp only [exchangeSpecs, hp, paramSpecs, List.mem_cons, List.not_mem_nil, or_false] at hf
    rcases hf with rfl | rfl
    · simp
    · exact hb
  | perByte =>
    simp only [exchangeSpecs, hp, paramSpecs, List.mem_cons, List.mem_map] at hf
    rcases hf with rfl | ⟨b, -, rfl⟩ <;> simp

theorem windowSpecs_bytes (c : Config) (x0 y0 x1 y1 : Half) : ∀ f ∈ windowSpecs c x0 y0 x1 y1, f.2 ≠ [] := by
  intro f hf
  simp only [windowSpecs, List.mem_append, List.mem_singleton] at hf
  rcases hf with (hf | hf) | rfl
  · exact exchangeSpecs_bytes (by simp [addressParams]) f hf
  · exact exchangeSpecs_bytes (by simp [addressParams]) f hf
  · simp

/-- WINDOW_SET is a run of frames (R160). -/
theorem windowSet_eq {s : State} (hl : LinesReliable s) (x0 y0 x1 y1 : Half) :
    windowSet x0 y0 x1 y1 s = sendFrames (windowSpecs s.cfg x0 y0 x1 y1) s := by
  have hx : addressParams x0 x1 ≠ [] := by simp [addressParams]
  have hy : addressParams y0 y1 ≠ [] := by simp [addressParams]
  have two : (exchange .columnAddressSet (addressParams x0 x1) s).bind (exchange .rowAddressSet (addressParams y0 y1)) =
      sendFrames (exchangeSpecs s.cfg .columnAddressSet (addressParams x0 x1) ++
        exchangeSpecs s.cfg .rowAddressSet (addressParams y0 y1)) s := by
    rw [sendFrames_append, exchange_eq hl _ hx]
    refine Result.bind_congr fun t ht => ?_
    obtain ⟨cls, r, rfl, -⟩ := sendFrames_returned hl (by simp [exchangeSpecs]) (exchangeSpecs_bytes hx) ht
    exact exchange_eq (hl.afterBus ..) _ hy
  unfold windowSet windowSpecs
  rw [two, sendFrames_append (exchangeSpecs s.cfg .columnAddressSet (addressParams x0 x1) ++
    exchangeSpecs s.cfg .rowAddressSet (addressParams y0 y1))]
  refine Result.bind_congr fun t ht => ?_
  obtain ⟨cls, r, rfl, -⟩ := sendFrames_returned hl (by simp [exchangeSpecs])
    (fun f hf => windowSpecs_bytes s.cfg x0 y0 x1 y1 f (List.mem_append_left _ hf)) ht
  rw [sendFrames_singleton]
  rfl

theorem windowSpecs_length (c : Config) (x0 y0 x1 y1 : Half) :
    (windowSpecs c x0 y0 x1 y1).length = windowFrames c := by
  unfold windowFrames
  cases h : c.paramFraming <;> simp [windowSpecs, exchangeSpecs, paramSpecs, h, addressParams]

theorem frameBytes_windowSpecs (c : Config) (x0 y0 x1 y1 : Half) :
    frameBytes (windowSpecs c x0 y0 x1 y1) = windowBytes c x0 y0 x1 y1 := by
  cases h : c.paramFraming <;>
    simp [windowSpecs, exchangeSpecs, paramSpecs, h, addressParams, frameBytes, windowBytes, CmdCodes.get]

/-! ### What part of a WINDOW_SET leaves in the Receiver -/

/-- A command byte that begins a group, whatever was open (R101, R104). -/
theorem takeByte_begins {c : Config} (hc : c.Wf) {rst : Option RstLevel} (hrst : rst = some .high) {r : Receiver}
    (hd : r.cResetDone = true) (hb : r.cBusy = 0) {cmd : Cmd} (ha : Accepts (endGroup c r) cmd)
    (hn : c.nParams cmd ≠ 0) :
    takeByte c ⟨some .asserted, some .command, rst⟩ (c.codes.get cmd) r =
      .ok (insideGroup cmd [] (endGroup c r)) := by
  rw [takeByte_command rfl rfl hrst hd hb, takeCommand_get hc]
  unfold runCommand
  rw [trackerStart_eq ha]
  cases cmd <;> first | exact absurd rfl hn | simp [commandEffect, hn, insideGroup, beginCommand]

/-- The group of an address command (R102, R104): `m` of its bytes only accumulate, all of them commit. -/
theorem takeBytes_group {c : Config} {rst : Option RstLevel} (hrst : rst = some .high) {r : Receiver}
    (hd : r.cResetDone = true) (hb : r.cBusy = 0) {cmd : Cmd} (hn : c.nParams cmd ≠ 0) {ps : List Byte}
    (hlen : ps.length = c.nParams cmd) :
    (∀ m < ps.length, takeBytes c ⟨some .asserted, some .data, rst⟩ (ps.take m) (insideGroup cmd [] r) =
      .ok (insideGroup cmd (ps.take m) r)) ∧
    takeBytes c ⟨some .asserted, some .data, rst⟩ ps (insideGroup cmd [] r) =
      .ok (trackerDone cmd (commitEffect cmd
        { beginCommand cmd r with cInitValid := validAfter r cmd, cPbuf := ps, cPidx := ps.length })) := by
  have hm : cmd ≠ .memoryWrite := by
    rintro rfl
    exact hn rfl
  constructor
  · intro m hlt
    rw [takeBytes_params_open rfl rfl hrst hm (ps.take m) (insideGroup cmd [] r) hd hb rfl
      (by simp [insideGroup]; omega)]
    simp [insideGroup]
  · exact takeBytes_params rfl rfl hrst hm ps (insideGroup cmd [] r) hd hb rfl rfl rfl
      (by rintro rfl; exact hn hlen.symm) hlen

@[simp] theorem endGroup_cResetDone (c : Config) (r : Receiver) : (endGroup c r).cResetDone = r.cResetDone := by
  unfold endGroup
  split
  · rfl
  · split
    · rename_i cmd _ _
      cases cmd <;> rfl
    · rfl

@[simp] theorem endGroup_cBusy (c : Config) (r : Receiver) : (endGroup c r).cBusy = r.cBusy := by
  unfold endGroup
  split
  · rfl
  · split
    · rename_i cmd _ _
      cases cmd <;> rfl
    · rfl

@[simp] theorem endGroup_fm (c : Config) (r : Receiver) : (endGroup c r).fm = r.fm := by
  unfold endGroup
  split
  · rfl
  · split
    · rename_i cmd _ _
      cases cmd <;> rfl
    · rfl

/-- No part of a WINDOW_SET changes a cell (R44, R168). -/
theorem windowCut_fm (c : Config) (x0 y0 x1 y1 : Half) (n : Nat) (r : Receiver) :
    (windowCut c x0 y0 x1 y1 n r).fm = r.fm := by
  unfold windowCut
  simp only
  repeat' split
  all_goals simp [completed, insideGroup]

/-- The Receiver after the first `n` bytes of a WINDOW_SET of a window inside the panel (R160, R168). -/
theorem takeClassed_window {c : Config} (hc : c.Wf) {rst : Option RstLevel} {r : Receiver} {x0 y0 x1 y1 : Half}
    (hw : windowInPanel c x0 x1 y0 y1 = true) {n : Nat} (hn : n ≤ 11)
    (ha : n ≠ 0 → rst = some .high ∧ r.cResetDone = true ∧ r.cBusy = 0) :
    takeClassed c rst ((windowBytes c x0 y0 x1 y1).take n) r = .ok (windowCut c x0 y0 x1 y1 n r) := by
  by_cases h0 : n = 0
  · subst h0
    rfl
  obtain ⟨hrst, hd, hb⟩ := ha h0
  have part : ∀ (cmd : Cmd) (a b : Half) (r : Receiver) (m : Nat), c.nParams cmd = 4 → Accepts (endGroup c r) cmd →
      r.cResetDone = true → r.cBusy = 0 → m < 4 →
      takeClassed c rst ((.command, c.codes.get cmd) :: ((addressParams a b).take m).map fun x => (.data, x)) r =
        .ok (insideGroup cmd ((addressParams a b).take m) (endGroup c r)) := by
    intro cmd a b r m h4 hacc hd hb hm
    rw [takeClassed, takeByte_begins hc hrst hd hb hacc (by omega)]
    show takeClassed c rst _ (insideGroup cmd [] (endGroup c r)) = _
    rw [takeClassed_map]
    exact (takeBytes_group hrst (by simpa using hd) (by simpa using hb) (by omega) (by simp [addressParams, h4])).1 m
      (by simp [addressParams, hm])
  have col : ∀ r : Receiver, r.cResetDone = true → r.cBusy = 0 →
      takeClassed c rst ((.command, c.codes.columnAddressSet) :: (addressParams x0 x1).map fun x => (.data, x)) r =
        .ok { completed .columnAddressSet (addressParams x0 x1) (endGroup c r) with xs := some x0, xe := some x1 } := by
    intro r hd hb
    rw [takeClassed, show c.codes.columnAddressSet = c.codes.get .columnAddressSet from rfl,
      takeByte_begins hc hrst hd hb (.inr rfl) (by simp [Config.nParams])]
    show takeClassed c rst _ (insideGroup .columnAddressSet [] (endGroup c r)) = _
    rw [takeClassed_map, (takeBytes_group hrst (by simpa using hd) (by simpa using hb) (by simp [Config.nParams]) rfl).2]
    refine congrArg Except.ok ((commit_columnAddressSet (endGroup c r) (hiByte x0) (loByte x0) (hiByte x1)
      (loByte x1)).trans ?_)
    rw [joinBytes_split, joinBytes_split]
    rfl
  have row : ∀ r : Receiver, r.cResetDone = true → r.cBusy = 0 →
      takeClassed c rst ((.command, c.codes.rowAddressSet) :: (addressParams y0 y1).map fun x => (.data, x)) r =
        .ok { completed .rowAddressSet (addressParams y0 y1) (endGroup c r) with ys := some y0, ye := some y1 } := by
    intro r hd hb
    rw [takeClassed, show c.codes.rowAddressSet = c.codes.get .rowAddressSet from rfl,
      takeByte_begins hc hrst hd hb (.inr rfl) (by simp [Config.nParams])]
    show takeClassed c rst _ (insideGroup .rowAddressSet [] (endGroup c r)) = _
    rw [takeClassed_map, (takeBytes_group hrst (by simpa using hd) (by simpa using hb) (by simp [Config.nParams]) rfl).2]
    refine congrArg Except.ok ((commit_rowAddressSet (endGroup c r) (hiByte y0) (loByte y0) (hiByte y1)
      (loByte y1)).trans ?_)
    rw [joinBytes_split, joinBytes_split]
    rfl
  let r1 : Receiver :=
    { completed .columnAddressSet (addressParams x0 x1) (endGroup c r) with xs := some x0, xe := some x1 }
  let r2 : Receiver := { completed .rowAddressSet (addressParams y0 y1) r1 with ys := some y0, ye := some y1 }
  have hd1 : r1.cResetDone = true := by simpa [r1, completed] using hd
  have hb1 : r1.cBusy = 0 := by simpa [r1, completed] using hb
  have e1 : endGroup c r1 = r1 := endGroup_of_closed (by
    rintro ⟨d, h, hp⟩
    obtain rfl : Cmd.columnAddressSet = d := Option.some.inj h
    simp [r1, completed, addressParams, Config.nParams] at hp)
  have g2 : ¬ GroupOpen c r2 := by
    rintro ⟨d, h, hp⟩
    obtain rfl : Cmd.rowAddressSet = d := Option.some.inj h
    simp [r2, completed, addressParams, Config.nParams] at hp
  have hcol := col r hd hb
  have hrow := row r1 hd1 hb1
  rw [e1] at hrow
  by_cases h5 : n < 5
  · obtain ⟨m, rfl⟩ : ∃ m, n = m + 1 := ⟨n - 1, by omega⟩
    have hcut : windowCut c x0 y0 x1 y1 (m + 1) r =
        insideGroup .columnAddressSet ((addressParams x0 x1).take m) (endGroup c r) := by
      simp [windowCut, h5]
    rw [hcut, ← part .columnAddressSet x0 x1 r m rfl (.inr rfl) hd hb (by omega)]
    have : m = 0 ∨ m = 1 ∨ m = 2 ∨ m = 3 := by omega
    rcases this with rfl | rfl | rfl | rfl <;> rfl
  by_cases h10 : n < 10
  · by_cases he : n = 5
    · subst he
      exact hcol
    · obtain ⟨m, rfl⟩ : ∃ m, n = m + 6 := ⟨n - 6, by omega⟩
      have hcut : windowCut c x0 y0 x1 y1 (m + 6) r =
          insideGroup .rowAddressSet ((addressParams y0 y1).take m) r1 := by
        simp [windowCut, h10, r1]
      have hp := part .rowAddressSet y0 y1 r1 m rfl (.inr rfl) hd1 hb1 (by omega)
      rw [e1] at hp
      rw [hcut, ← hp]
      have hs : (windowBytes c x0 y0 x1 y1).take (m + 6) =
          ((.command, c.codes.columnAddressSet) :: (addressParams x0 x1).map fun x => (.data, x)) ++
            ((.command, c.codes.get .rowAddressSet) :: ((addressParams y0 y1).take m).map fun x => (.data, x)) := by
        have : m = 0 ∨ m = 1 ∨ m = 2 ∨ m = 3 := by omega
        rcases this with rfl | rfl | rfl | rfl <;> rfl
      rw [hs, takeClassed_append, hcol]
      rfl
  have hten : takeClassed c rst
      (((.command, c.codes.columnAddressSet) :: (addressParams x0 x1).map fun x => (.data, x)) ++
        ((.command, c.codes.rowAddressSet) :: (addressParams y0 y1).map fun x => (.data, x))) r = .ok r2 := by
    rw [takeClassed_append, hcol]
    exact hrow
  by_cases he : n = 10
  · subst he
    exact hten
  · obtain rfl : n = 11 := by omega
    have hs : (windowBytes c x0 y0 x1 y1).take 11 =
        (((.command, c.codes.columnAddressSet) :: (addressParams x0 x1).map fun x => (.data, x)) ++
          ((.command, c.codes.rowAddressSet) :: (addressParams y0 y1).map fun x => (.data, x))) ++
          [(.command, c.codes.get .memoryWrite)] := rfl
    rw [hs, takeClassed_append, hten]
    show takeClassed c rst [(.command, c.codes.get .memoryWrite)] r2 = _
    have hb' : takeByte c ⟨some .asserted, some .command, rst⟩ (c.codes.get .memoryWrite) r2 =
        .ok { completed .memoryWrite [] r2 with wcol := some x0.toNat, wrow := some y0.toNat, cFull := false } := by
      rw [takeByte_command rfl rfl hrst (by exact hd1) (by exact hb1), takeCommand_get hc]
      exact runCommand_memoryWrite g2 ⟨rfl, rfl, rfl, rfl, hw⟩
    rw [takeClassed, hb']
    rfl

/-- A Receiver that has taken a byte was awake (R100). -/
theorem awake_of_takeClassed {c : Config} {rst : Option RstLevel} {bs : List (ByteClass × Byte)} {r r' : Receiver}
    (hb : bs ≠ []) (h : takeClassed c rst bs r = .ok r') :
    rst = some .high ∧ r.cResetDone = true ∧ r.cBusy = 0 := by
  cases bs with
  | nil => exact absurd rfl hb
  | cons b bs =>
    rw [takeClassed] at h
    cases h1 : takeByte c ⟨some .asserted, some b.1, rst⟩ b.2 r with
    | error e => simp [h1, Except.bind] at h
    | ok r1 =>
      obtain ⟨-, hrst, hdone, hbusy, -⟩ := takeByte_cases h1
      exact ⟨hrst, hdone, hbusy⟩

/-- A WINDOW_SET that raised: what it has put on the wire, and what that did to the Receiver (R160, R168). -/
theorem windowSet_raised {s t : State} (hl : LinesReliable s) (hc : s.cfg.Wf) {x0 y0 x1 y1 : Half}
    (hw : windowInPanel s.cfg x0 x1 y0 y1 = true) (h : windowSet x0 y0 x1 y1 s = .raised t) :
    ∃ cls es m, ∃ n ≤ 11, t = afterBus s cls es m (windowCut s.cfg x0 y0 x1 y1 n s.recv) ∧
      FailedWindow s.cfg x0 y0 x1 y1 es ∧
      wireBytes s.dc.level es = (windowBytes s.cfg x0 y0 x1 y1).take n := by
  have hE := windowSet_ends hl x0 y0 x1 y1
  rw [h] at hE
  obtain ⟨cls', es', m', r', ht', hF⟩ := hE
  rw [windowSet_eq hl] at h
  obtain ⟨j, f, k, r, hj, hk, rfl, hr⟩ := sendFrames_raised hl (windowSpecs_bytes s.cfg x0 y0 x1 y1) h
  obtain ⟨n, hn, he⟩ := frameBytes_cut hj hk
  rw [frameBytes_windowSpecs] at hn he
  have hn' : n ≤ 11 := hn
  rw [he] at hr
  have hcut := takeClassed_window hc hw (rst := s.rst.level) (r := s.recv) hn' fun h0 =>
    awake_of_takeClassed (by simpa [windowBytes] using h0) hr
  rw [hcut] at hr
  cases hr
  have hes : framesEvents ((windowSpecs s.cfg x0 y0 x1 y1).take j) ++ transferEvents f.1 f.2 false k = es' :=
    List.append_cancel_left (congrArg State.trace ht' : s.trace ++ _ = s.trace ++ _)
  refine ⟨_, _, _, n, hn', rfl, hes ▸ hF, ?_⟩
  rw [wireBytes_cut, he]

end Sys2Proof.Machine
end

