-- ==== Sys2Proof/Tests/Slice0.lean ====
section
/-! SUPPORT. Tests. Expected results are those of spec/95_test_vectors.md (V1 to V39, P1 to P6) or of the rule named; the
default command bytes and parameter bytes stand in them as there. The last part shows, for every statement with
hypotheses, a state and operands that meet them. -/

namespace Sys2Proof.Tests

open Sys2Proof.Machine

/-! ### Helpers -/

/-- A call that succeeds. -/
def good : PlatformDraw := ⟨.ok, 0, true⟩

/-- A call that fails, after `k` bytes where it is a transfer. -/
def bad (k : Nat) : PlatformDraw := ⟨.fail, k, true⟩

/-- Power-on, with a Platform whose next calls succeed. -/
def powerOn : State := { State.reset with draws := List.replicate 48 good }

/-- "Fresh" (95_test_vectors.md section 4): the lines and the transport are up and the controller has been reset. -/
def fresh : State :=
  { powerOn with
    cs := ⟨true, none⟩
    dc := ⟨true, none⟩
    rst := ⟨true, some .high⟩
    bl := ⟨true, none⟩
    tInit := true
    recv := { Receiver.powerOn with cResetDone := true, cInitValid := true } }

/-- Fresh, with another Receiver. -/
def freshWith (f : Receiver → Receiver) : State := { fresh with recv := f fresh.recv }

/-- Inside a frame of a class. -/
def inside (cls : ByteClass) : State := { fresh with cs := ⟨true, some .asserted⟩, dc := ⟨true, some cls⟩ }

/-- After INIT (R156), with the lines as there. -/
def ready : State :=
  { fresh with
    seqState := .ready
    seqPc := 33
    status := some .ok
    cs := ⟨true, some .deasserted⟩
    dc := ⟨true, some .command⟩
    bl := ⟨true, some .on⟩
    recv := initReceiver Config.default }

/-- Another list of draws. -/
def withDraws (s : State) (ds : List PlatformDraw) : State := { s with draws := ds }

/-- A state in which line calls can fail, and the next one does. -/
def flaky (s : State) : State := { s with cfg := { s.cfg with lineWriteCanFail := true }, draws := [bad 0] }

/-- One observation of the next state. -/
def obs {α : Type} (i : Instr) (s : State) (f : State → α) : Option α :=
  match exec i s with
  | .next t => some (f t)
  | .fault _ => none
  | .refused _ => none

/-- The reason of a refusal. -/
def refusal (x : Host.Outcome State Fault Refusal) : Option Refusal :=
  match x with
  | .refused r => some r
  | .next _ => none
  | .fault _ => none

/-- The step ends in a next state. -/
def isNext (x : Host.Outcome State Fault Refusal) : Bool :=
  match x with
  | .next _ => true
  | .fault _ => false
  | .refused _ => false

/-! ### Well-formedness: what each check refuses -/

theorem test_wf_params_short : ∀ i ∈ [Instr.colorMode [], .memoryAccess [], .columnAddressSet [0, 0, 0],
    .rowAddressSet [0, 0, 0], .porchControl [0], .gateControl [], .vcoms [], .lcmControl [], .vdvVrhEnable [],
    .vrh [], .vdv [], .frameRateControl2 [], .powerControl1 [0], .positiveGamma [0], .negativeGamma [0]],
    wf Config.default i = false := by decide

theorem test_wf_params_long : ∀ i ∈ [Instr.colorMode [0, 0], .columnAddressSet [0, 0, 0, 0xEF, 0],
    .powerControl1 [0, 0, 0]], wf Config.default i = false := by decide

theorem test_wf_unknown_is_known : wf Config.default (.unknownCommand 0x2A) = false := by decide

theorem test_wf_empty_transfer : wf Config.default (.transportWrite []) = false := by decide

theorem test_wf_bad_block : wf Config.default (.sendDataBlock [1, 2, 3] 2) = false ∧
    wf Config.default (.sendDataBlock [] 0) = false := by decide

theorem test_wf_sleep_zero : wf Config.default (.sleepMs 0) = false := by decide

theorem test_wf_params_empty : wf Config.default (.sendParams []) = false := by decide

theorem test_wf_window : ∀ i ∈ [Instr.windowSet 0 0 240 9, .windowSet 0 0 0 320, .windowSet 5 0 4 0, .windowSet 0 10 0 9],
    wf Config.default i = false := by decide

theorem test_wf_good : ∀ i ∈ [Instr.colorMode [0x55], .columnAddressSet [0, 0, 0, 0xEF], .unknownCommand 0x00,
    .transportWrite [1], .sendDataBlock [1, 2] 2, .sleepMs 1, .sendParams [1], .windowSet 0 0 239 319],
    wf Config.default i = true := by decide

/-- Parameters that break one constraint of R5 each. -/
def badConfigs : List Config :=
  [{ Config.default with panelW := 0 }, { Config.default with panelH := 65537 },
   { Config.default with lineBl := 0 }, { Config.default with tRstLow := 0 }, { Config.default with statusOk := 1 },
   { Config.default with codes := { CmdCodes.default with vdv := 0x2A } },
   { Config.default with counts := { Config.defaultCounts with vrh := 2 } },
   { Config.default with
     counts := { Config.defaultCounts with positiveGamma := 13 }
     params := { Config.defaultParams with positiveGamma := List.replicate 13 0 } }]

theorem test_config_good : Config.default.Wf := by decide

theorem test_config_bad : ∀ c ∈ badConfigs, ¬ c.Wf := by decide

/-! ### Decoding: words written out from R71, R67, R68, R75 -/

theorem test_decode_bare : ∀ p ∈ [((0b00000001 : Byte), Instr.softwareReset), (0b00010001, .sleepOut),
    (0b00010011, .normalDisplayOn), (0b00101001, .displayOn), (0b00101100, .memoryWrite)],
    decode Config.default [.wire .command p.1] = .ok (p.2, []) := by decide

theorem test_decode_one_parameter : ∀ p ∈ [((0b00111010 : Byte), Instr.colorMode [0x55]), (0b00110110, .memoryAccess [0x55]),
    (0b10110111, .gateControl [0x55]), (0b10111011, .vcoms [0x55]), (0b11000000, .lcmControl [0x55]),
    (0b11000010, .vdvVrhEnable [0x55]), (0b11000011, .vrh [0x55]), (0b11000100, .vdv [0x55]),
    (0b11000110, .frameRateControl2 [0x55])],
    decode Config.default [.wire .command p.1, .wire .data 0b01010101] = .ok (p.2, []) := by decide

theorem test_decode_more_parameters :
    decode Config.default [.wire .command 0b11010000, .wire .data 0xA4, .wire .data 0xA1] =
      .ok (.powerControl1 [0xA4, 0xA1], []) ∧
    decode Config.default [.wire .command 0b10110010, .wire .data 0x0C, .wire .data 0x0C, .wire .data 0x00,
      .wire .data 0x33, .wire .data 0x33] = .ok (.porchControl [0x0C, 0x0C, 0x00, 0x33, 0x33], []) := by decide

theorem test_decode_gamma :
    decode Config.default (.wire .command 0b11100000 :: List.replicate 14 (.wire .data 0x0D)) =
      .ok (.positiveGamma (List.replicate 14 0x0D), []) ∧
    decode Config.default (.wire .command 0b11100001 :: List.replicate 15 (.wire .data 0x0D)) =
      .ok (.negativeGamma (List.replicate 14 0x0D), [.wire .data 0x0D]) := by decide

/-- V2, third and sixth row. -/
theorem test_decode_address :
    decode Config.default [.wire .command 0b00101010, .wire .data 0x00, .wire .data 0x0A, .wire .data 0x00,
      .wire .data 0x64] = .ok (.columnAddressSet [0x00, 0x0A, 0x00, 0x64], []) ∧
    decode Config.default [.wire .command 0b00101011, .wire .data 0x00, .wire .data 0x14, .wire .data 0x01,
      .wire .data 0x2C] = .ok (.rowAddressSet [0x00, 0x14, 0x01, 0x2C], []) := by decide

/-- A group that the stream cuts short is read as it stands (R104). -/
theorem test_decode_partial : decode Config.default [.wire .command 0x2A, .wire .data 0x00, .wire .command 0x2B] =
    .ok (.columnAddressSet [0x00], [.wire .command 0x2B]) := by decide

theorem test_decode_bytes : decode Config.default [.wire .data 0b11111000] = .ok (.pixelData 0xF8, []) ∧
    decode Config.default [.wire .command 0b00000000] = .ok (.unknownCommand 0x00, []) := by decide

theorem test_decode_platform :
    decode Config.default [.call .configureOutputLine [2] []] = .ok (.configureOutputLine .rst, []) ∧
    decode Config.default [.call .writeLine [0, 0] []] = .ok (.writeLine (.cs .asserted), []) ∧
    decode Config.default [.call .writeLine [1, 1] []] = .ok (.writeLine (.dc .data), []) ∧
    decode Config.default [.call .writeLine [3, 1] []] = .ok (.writeLine (.bl .on), []) ∧
    decode Config.default [.call .transportInit [] []] = .ok (.transportInit, []) ∧
    decode Config.default [.call .transportWrite [] [1, 2]] = .ok (.transportWrite [1, 2], []) ∧
    decode Config.default [.call .sleepMs [150] []] = .ok (.sleepMs 150, []) := by decide

theorem test_decode_framer :
    decode Config.default [.call .sendCommand [] [0x2A]] = .ok (.sendCommand 0x2A, []) ∧
    decode Config.default [.call .sendData [] [0xEF]] = .ok (.sendData 0xEF, []) ∧
    decode Config.default [.call .sendDataBlock [2] [1, 2, 3]] = .ok (.sendDataBlock [1, 2, 3] 2, []) ∧
    decode Config.default [.call .sendParams [] [1, 2]] = .ok (.sendParams [1, 2], []) := by decide

theorem test_decode_sequencer :
    decode Config.default [.call .init [] []] = .ok (.init, []) ∧
    decode Config.default [.call .windowSet [1, 2, 3, 256] []] = .ok (.windowSet 1 2 3 256, []) ∧
    decode Config.default [.call .blit [-1, 0, 0, 0] [0, 0]] = .ok (.blit ⟨-1, 0, 0, 0⟩ [0, 0], []) := by decide

theorem test_decode_refuses :
    decode Config.default [] = .error .nothingPending ∧
    decode Config.default [.call .configureOutputLine [4] []] = .error .unknownLine ∧
    decode Config.default [.call .writeLine [0, 2] []] = .error .badArguments ∧
    decode Config.default [.call .sleepMs [0] []] = .error .badArguments ∧
    decode Config.default [.call .windowSet [0, 0, 65536, 0] []] = .error .badArguments ∧
    decode Config.default [.hostBufferWrite] = .error .notAnOperation := by decide

theorem test_table_words : decodeTableWord 8 0x01 = some .softwareReset ∧
    decodeTableWord 16 0x553A = some (.colorMode [0x55]) ∧
    decodeTableWord 40 0x64000A002A = some (.columnAddressSet [0x00, 0x0A, 0x00, 0x64]) ∧
    decodeTableWord 8 0x2A = some (.columnAddressSet [0, 0, 0, 0]) ∧
    decodeTableWord 8 0xFF = some (.unknownCommand 0xFF) := by decide

/-! ### Platform primitives (V5 to V7, V14, V15, V37) -/

theorem test_configure : obs (.configureOutputLine .rst) powerOn (fun t => (t.rst, t.trace)) =
    some (⟨true, none⟩, [.cfg .rst]) := by decide

theorem test_write_unconfigured : refusal (exec (.writeLine (.cs .asserted)) powerOn) = some .lineNotConfigured := by
  decide

theorem test_reset_pulse_accepted : obs (.writeLine (.rst .high))
    { fresh with rst := ⟨true, some .low⟩, recv := { Receiver.powerOn with cRstLowMs := 10 } }
    (fun t => (t.recv.cResetDone, t.recv.cInitValid, t.recv.cBusy)) = some (true, true, 120) := by decide

theorem test_transport_init_fails : obs .transportInit (withDraws powerOn [bad 0])
    (fun t => (t.tInit, t.trace, t.callResult)) = some (false, [.tinit false], some .transportError) := by decide

theorem test_transfer_before_init : refusal (exec (.transportWrite [0x01]) powerOn) = some .transferBeforeInit := by decide

theorem test_transfer_outside_chip_select : refusal (exec (.transportWrite [0x01]) fresh) =
    some .byteOutsideChipSelect := by decide

theorem test_sleep : obs (.sleepMs 150) (freshWith fun r => { r with cBusy := 151 })
    (fun t => (t.recv.cBusy, t.trace)) = some (1, [.delay 150]) := by decide

theorem test_line_call_fails : obs (.writeLine (.cs .deasserted)) (flaky fresh)
    (fun t => (t.cs.level, t.callResult)) = some (some .asserted, some .transportError) := by decide

/-! ### Bus Framer (V8 to V13) -/

theorem test_send_command : obs (.sendCommand 0x2A) fresh (fun t => (t.trace, t.dc.level, t.cs.level)) =
    some ([.line (.dc .command), .line (.cs .asserted), .xfer [0x2A] true 1, .line (.cs .deasserted)],
      some .command, some .deasserted) := by decide

theorem test_send_command_fails : obs (.sendCommand 0x2A) (withDraws fresh [bad 0])
    (fun t => (t.trace, t.callResult, t.recv.cCmd)) =
    some ([.line (.dc .command), .line (.cs .asserted), .xfer [0x2A] false 0, .line (.cs .deasserted)],
      some .transportError, none) := by decide

theorem test_send_data : obs (.sendData 0xEF) (freshWith fun r => { r with cCmd := some .columnAddressSet })
    (fun t => (t.trace, t.recv.cPidx)) =
    some ([.line (.dc .data), .line (.cs .asserted), .xfer [0xEF] true 1, .line (.cs .deasserted)], 1) := by decide

theorem test_send_data_block : obs (.sendDataBlock [0x00, 0x00, 0x00, 0xEF] 4)
    (freshWith fun r => { r with cCmd := some .columnAddressSet })
    (fun t => (t.trace, t.recv.xs, t.recv.xe)) =
    some ([.line (.dc .data), .line (.cs .asserted), .xfer [0x00, 0x00, 0x00, 0xEF] true 4, .line (.cs .deasserted)],
      some 0, some 239) := by decide

theorem test_bad_blocks : refusal (exec (.sendDataBlock [] 0) fresh) = some .badBlockLength ∧
    refusal (exec (.sendDataBlock [1, 2, 3] 2) fresh) = some .badBlockLength := by decide

theorem test_send_params : obs (.sendParams [0x00, 0x0A, 0x00, 0x64])
    { (freshWith fun r => { r with cCmd := some .columnAddressSet }) with
      cfg := { Config.default with paramFraming := .perByte } }
    (fun t => (t.trace.length, t.recv.xs, t.recv.xe)) = some (16, some 10, some 100) := by decide

/-! ### The wire commands (V17 to V28) -/

theorem test_software_reset : obs .softwareReset fresh
    (fun t => (t.recv.cCmd, t.recv.cInitStage, t.recv.cInitValid, t.recv.cBusy)) =
    some (some .softwareReset, 1, true, 150) := by decide

/-- V28, second half. -/
theorem test_software_reset_late : obs .softwareReset ready
    (fun t => (t.recv.cInitStage, t.recv.cInitValid, t.recv.cBusy, t.recv.xs)) = some (0, false, 150, none) := by decide

/-- Stage `n` of the order, with the Receiver idle. -/
def atStage (n : Nat) : State := freshWith fun r => { r with cInitStage := n }

theorem test_sleep_out : obs .sleepOut (atStage 1)
    (fun t => (t.recv.cSleepOut, t.recv.cInitStage, t.recv.cBusy)) = some (true, 2, 10) := by decide

theorem test_command_after_init : refusal (exec .sleepOut ready) = some .commandAfterInitialization := by decide

theorem test_color_mode : obs (.colorMode [0x55]) (atStage 2)
    (fun t => (t.recv.regs.colorMode, t.recv.cInitStage, t.recv.cCmd, t.recv.cPidx)) =
    some (some [0x55], 3, some .colorMode, 1) := by decide

/-- V20: sleep-out skipped. -/
theorem test_out_of_order : obs (.colorMode [0x55]) (atStage 1)
    (fun t => (t.recv.regs.colorMode, t.recv.cInitValid, t.recv.cInitStage)) = some (some [0x55], false, 1) := by decide

theorem test_memory_access : obs (.memoryAccess [0x00]) (atStage 3)
    (fun t => (t.recv.regs.memoryAccess, t.recv.regs.colorMode, t.recv.cInitStage)) = some (some [0x00], none, 4) := by
  decide

theorem test_column_address : obs (.columnAddressSet [0x00, 0xEE, 0x00, 0xEF]) (atStage 4)
    (fun t => (t.recv.xs, t.recv.xe, t.recv.ys, t.recv.cInitStage)) = some (some 238, some 239, none, 5) := by decide

theorem test_row_address : obs (.rowAddressSet [0x01, 0x3E, 0x01, 0x3F]) (atStage 5)
    (fun t => (t.recv.ys, t.recv.ye, t.recv.xs, t.recv.cInitStage)) = some (some 318, some 319, none, 6) := by decide

theorem test_porch_control : obs (.porchControl [0x0C, 0x0C, 0x00, 0x33, 0x33]) (atStage 6)
    (fun t => (t.recv.regs.porchControl, t.recv.cInitStage)) = some (some [0x0C, 0x0C, 0x00, 0x33, 0x33], 7) := by decide

theorem test_gate_control : obs (.gateControl [0x35]) (atStage 7)
    (fun t => (t.recv.regs.gateControl, t.recv.cInitStage)) = some (some [0x35], 8) := by decide

theorem test_vcoms : obs (.vcoms [0x19]) (atStage 8)
    (fun t => (t.recv.regs.vcoms, t.recv.cInitStage)) = some (some [0x19], 9) := by decide

theorem test_lcm_control : obs (.lcmControl [0x2C]) (atStage 9)
    (fun t => (t.recv.regs.lcmControl, t.recv.cInitStage)) = some (some [0x2C], 10) := by decide

theorem test_vdv_vrh_enable : obs (.vdvVrhEnable [0x01]) (atStage 10)
    (fun t => (t.recv.regs.vdvVrhEnable, t.recv.cInitStage)) = some (some [0x01], 11) := by decide

/-- V21. -/
theorem test_vrh_not_honoured : obs (.vrh [0x12]) fresh (fun t => (t.recv.regs.vrh, t.recv.cInitValid)) =
    some (none, false) := by decide

theorem test_vrh_honoured :
    obs (.vrh [0x12]) (freshWith fun r => { r with regs := r.regs.set .vdvVrhEnable (some [0x01]) })
      (fun t => (t.recv.regs.vrh, t.recv.cInitValid)) = some (some [0x12], false) := by decide

theorem test_vdv_not_honoured : obs (.vdv [0x20]) fresh (fun t => t.recv.regs.vdv) = some none := by decide

theorem test_vdv_honoured :
    obs (.vdv [0x20]) (freshWith fun r => { r with regs := r.regs.set .vdvVrhEnable (some [0x00]), cInitStage := 12 })
      (fun t => (t.recv.regs.vdv, t.recv.cInitStage)) = some (some [0x20], 13) := by decide

theorem test_frame_rate : obs (.frameRateControl2 [0x0F]) (atStage 13)
    (fun t => (t.recv.regs.frameRateControl2, t.recv.cInitStage)) = some (some [0x0F], 14) := by decide

theorem test_power_control : obs (.powerControl1 [0xA4, 0xA1]) (atStage 14)
    (fun t => (t.recv.regs.powerControl1, t.recv.cInitStage)) = some (some [0xA4, 0xA1], 15) := by decide

theorem test_positive_gamma : obs (.positiveGamma (List.replicate 14 0x0D)) (atStage 15)
    (fun t => (t.recv.regs.positiveGamma, t.recv.cInitStage)) = some (some (List.replicate 14 0x0D), 16) := by decide

theorem test_positive_gamma_short : obs (.positiveGamma (List.replicate 13 0x0D)) (atStage 15)
    (fun t => (t.recv.regs.positiveGamma, t.recv.cInitStage)) = some (none, 15) := by decide

theorem test_negative_gamma : obs (.negativeGamma (List.replicate 14 0x2C)) (atStage 16)
    (fun t => (t.recv.regs.negativeGamma, t.recv.cInitStage)) = some (some (List.replicate 14 0x2C), 17) := by decide

theorem test_normal_display_on : obs .normalDisplayOn (atStage 17)
    (fun t => (t.recv.cNormalOn, t.recv.cInitStage, t.recv.cBusy)) = some (true, 18, 10) := by decide

theorem test_display_on : obs .displayOn (atStage 18)
    (fun t => (t.recv.cDisplayOn, t.recv.cInitStage, t.recv.cBusy)) = some (true, 19, 100) := by decide

/-- A fresh Receiver with a window. -/
def windowed (xs xe ys ye : Half) : State :=
  freshWith fun r => { r with xs := some xs, xe := some xe, ys := some ys, ye := some ye }

/-- A fresh Receiver, armed at the first cell of a window. -/
def armed (xs xe ys ye : Half) : State :=
  freshWith fun r =>
    { r with
      xs := some xs, xe := some xe, ys := some ys, ye := some ye
      cCmd := some .memoryWrite, wcol := some xs.toNat, wrow := some ys.toNat }

/-- V24. -/
theorem test_memory_write : obs .memoryWrite (windowed 0 1 0 0)
    (fun t => (t.recv.cArmed, t.recv.wcol, t.recv.wrow, t.recv.cFull)) = some (true, some 0, some 0, false) := by decide

/-- V26. -/
theorem test_memory_write_refused : refusal (exec .memoryWrite (windowed 5 4 0 0)) = some .windowOutsidePanel ∧
    refusal (exec .memoryWrite (windowed 0 240 0 0)) = some .windowOutsidePanel ∧
    refusal (exec .memoryWrite fresh) = some .undefinedWindow := by decide

/-- V24: the last pixel of the window. -/
theorem test_pixel_last : obs (.pixelData 0x00)
    (freshWith fun _ => { (armed 0 1 0 0).recv with wcol := some 1, cHalf := some 0xF8 })
    (fun t => (fmRead t.recv.fm 0 1, t.recv.cFull, t.recv.wcol, t.recv.wrow, t.recv.cHalf)) =
    some (some 0xF800, true, some 0, some 0, none) := by decide

theorem test_pixel_beyond : refusal (exec (.pixelData 0x12) (freshWith fun _ => { (armed 0 1 0 0).recv with cFull := true })) =
    some .pixelBeyondRectangle := by decide

/-- V27. -/
theorem test_unknown_command : refusal (exec (.unknownCommand 0x00) fresh) = some .unknownCommandByte := by decide

theorem test_unknown_command_lost : obs (.unknownCommand 0x00) (withDraws fresh [bad 0])
    (fun t => (t.trace, t.callResult)) =
    some (transferEvents .command [0x00] false 0, some .transportError) := by decide

/-! ### INIT, WINDOW_SET, BLIT (V1, V30 to V39, P1, P2) -/

/-- V39: 151 events, the end state, the last row. -/
theorem test_init : obs .init powerOn
    (fun t => (t.trace.length, t.status, t.seqPc, t.recv.controllerReady, t.recv.ye)) =
    some (151, some .ok, 33, true, some 319) := by decide +kernel

/-- V36, with `k = 1`. -/
theorem test_init_fails : obs .init (withDraws powerOn [good, bad 1])
    (fun t => (t.trace.length, t.seqState, t.seqPc, t.bl.level, t.recv.cInitStage, t.recv.cBusy)) =
    some (15, .failed, 10, some .on, 1, 150) := by decide

/-- V2, the row with the carry into the high byte is on the row axis here. -/
theorem test_window_set : obs (.windowSet 10 20 100 300) ready
    (fun t => (wireBytes none t.trace, t.recv.ye)) =
    some ([(.command, 0x2A), (.data, 0x00), (.data, 0x0A), (.data, 0x00), (.data, 0x64), (.command, 0x2B), (.data, 0x00),
      (.data, 0x14), (.data, 0x01), (.data, 0x2C), (.command, 0x2C)], some 300) := by decide

/-- P2. -/
theorem test_blit : obs (.blit ⟨238, 318, 239, 319⟩ [0xF8, 0x00, 0x07, 0xE0, 0x00, 0x1F, 0xFF, 0xFF]) ready
    (fun t => ((fmRead t.recv.fm 318 239, fmRead t.recv.fm 319 238), (t.recv.wcol, t.recv.wrow, t.recv.cFull),
      (t.trace.length, t.seqState))) =
    some ((some 0x07E0, some 0x001F), (some 238, some 319, true), (26, .ready)) := by decide

/-- V34. -/
theorem test_blit_fails : obs (.blit ⟨238, 318, 239, 319⟩ [0xF8, 0x00, 0x07, 0xE0, 0x00, 0x1F, 0xFF, 0xFF])
    (withDraws ready [good, good, good, good, good, bad 5])
    (fun t => ((fmRead t.recv.fm 318 239, fmRead t.recv.fm 319 238, t.recv.cHalf), (t.trace.length, t.status, t.seqState))) =
    some ((some 0x07E0, none, some 0x00), (25, some .transportError, .failed)) := by decide

/-! ### Witnesses: every statement's hypotheses are met, each clause's at a boundary -/

/-- A state with words in the stream. -/
def withWords (s : State) (ws : List Word) : State := { s with pending := ws }

theorem drawsOk_fresh : DrawsOk fresh 48 := by unfold DrawsOk; decide

theorem canSend_fresh {n : Nat} (h : n ≤ 48) : CanSend fresh n :=
  ⟨rfl, ⟨rfl, rfl, rfl⟩, ⟨rfl, rfl, rfl⟩, test_config_good, fun k hk => drawsOk_fresh k (by omega)⟩

theorem canSend_ready {n : Nat} (h : n ≤ 48) : CanSend ready n :=
  ⟨rfl, ⟨rfl, rfl, rfl⟩, ⟨rfl, rfl, rfl⟩, test_config_good, fun k hk => drawsOk_fresh k (by omega)⟩

theorem canSend_freshWith {n : Nat} (h : n ≤ 48) (f : Receiver → Receiver) (hd : (f fresh.recv).cResetDone = true)
    (hb : (f fresh.recv).cBusy = 0) : CanSend (freshWith f) n :=
  ⟨rfl, ⟨rfl, rfl, rfl⟩, ⟨rfl, hd, hb⟩, test_config_good, fun k hk => drawsOk_fresh k (by omega)⟩

theorem closed_fresh : ¬ GroupOpen fresh.cfg fresh.recv := by
  rintro ⟨cmd, h, -⟩
  cases h

theorem closed_none {c : Config} {r : Receiver} (h : r.cCmd = none) : ¬ GroupOpen c r := by
  rintro ⟨cmd, h', -⟩
  rw [h] at h'
  cases h'

theorem freshOk : ReceiverOk Config.default fresh.recv :=
  (ReceiverOk.hardwareReset Config.default).passTime (some .high) 120

theorem initOk : ReceiverOk Config.default (initReceiver Config.default) where
  fm := FrameMemoryOk.nil _
  stage := by decide
  pointer := by simp [Receiver.cArmed, initReceiver]
  pbuf := rfl
  pidx := by simp [initReceiver, Receiver.powerOn]
  regs := by
    intro reg ps h
    cases reg <;> obtain rfl := Option.some.inj h <;> rfl
  half := by simp [initReceiver, Receiver.powerOn]
  current := by simp [initReceiver]

theorem witness_ParametersFixed_TraceAppendOnly :
    isNext (step (withWords fresh [.call .init [] []])) = true := by decide +kernel

theorem witness_RefusedIsSticky :
    (powerOn.refused = none ∧ refusal (step (withWords powerOn [.call .blit [0, 0, 0, 0] [0, 0]])) =
      some .blitBeforeInitialization) ∧
    (({ powerOn with refused := some .emptyTransfer } : State).refused = some .emptyTransfer ∧
      isNext (markedStep { powerOn with refused := some .emptyTransfer }) = true) ∧
    isNext (step (withWords fresh [.call .init [] []])) = true := by decide +kernel

theorem witness_DecodeOfEncode : Config.default.Wf ∧ wf Config.default (.windowSet 0 0 239 319) = true ∧
    wf Config.default (.positiveGamma (List.replicate 14 0xFF)) = true := by decide

theorem witness_EncodeOfDecode :
    decode Config.default [.wire .command 0x2A, .wire .data 0x00, .wire .command 0x2B] =
      .ok (.columnAddressSet [0x00], [.wire .command 0x2B]) := by decide

theorem witness_StepRunsDecoded : fresh.refused = none ∧
    decode fresh.cfg (withWords fresh [.wire .command 0x01]).pending = .ok (.softwareReset, []) := by decide

theorem witness_StepWithoutOperation :
    (fresh.refused = none ∧ fresh.pending = []) ∧
    decode fresh.cfg [.call .sleepMs [0] []] = .error .badArguments ∧
    ready.seqState ≠ .blitRunning ∧ ({ ready with seqState := .blitRunning } : State).seqState = .blitRunning ∧
    ({ ready with refused := some .emptyTransfer } : State).refused = some .emptyTransfer := by decide

theorem witness_ConfigureOutputLine : LinesReliable powerOn := rfl

theorem witness_WriteFramingLine : LinesReliable fresh ∧ fresh.cs.configured = true ∧ fresh.dc.configured = true ∧
    fresh.bl.configured = true := ⟨rfl, rfl, rfl, rfl⟩

/-- The reset line held low for `n` milliseconds. -/
def heldLow (n : Nat) : State :=
  { fresh with rst := ⟨true, some .low⟩, recv := { Receiver.powerOn with cRstLowMs := n } }

/-- The limit of R106 is 10: 10 milliseconds are enough, 9 are not. -/
theorem witness_WriteResetLine : LinesReliable (heldLow 10) ∧ (heldLow 10).rst.configured = true ∧
    ((heldLow 10).rst.level = some .low ∧ (heldLow 10).cfg.tRstLow ≤ (heldLow 10).recv.cRstLowMs) ∧
    (LinesReliable (heldLow 9) ∧ (heldLow 9).rst.level = some .low ∧
      (heldLow 9).recv.cRstLowMs < (heldLow 9).cfg.tRstLow) ∧
    fresh.rst.level ≠ some .low := by
  refine ⟨rfl, rfl, ?_, ⟨rfl, ?_⟩, ?_⟩ <;> decide

theorem witness_LineCallsThatFail : (flaky (heldLow 9)).cfg.lineWriteCanFail = true ∧
    ((flaky (heldLow 9)).drawAt 0).outcome ≠ .ok ∧ (flaky (heldLow 9)).inFlight = false ∧
    (flaky (heldLow 9)).cs.configured = true ∧ (flaky (heldLow 9)).dc.configured = true ∧
    (flaky (heldLow 9)).bl.configured = true ∧ (flaky (heldLow 9)).rst.configured = true := by decide

theorem witness_TransportInit : (powerOn.drawAt 0).outcome = .ok ∧
    ((withDraws powerOn [bad 0]).drawAt 0).outcome ≠ .ok ∧ (withDraws powerOn [bad 0]).inFlight = false := by decide

theorem witness_TransportWrite : (inside .command).tInit = true ∧ (inside .command).cfg.transportCanHang = false ∧
    ((inside .command).drawAt 0).outcome = .ok ∧
    (∃ r, takeBytes (inside .command).cfg (inside .command).pins [0x01] (inside .command).recv = .ok r) ∧
    ((withDraws (inside .command) [bad 1]).drawAt 0).outcome ≠ .ok ∧
    ((withDraws (inside .command) [bad 1]).drawAt 0).delivered ≤ [(0x01 : Byte)].length :=
  ⟨rfl, rfl, rfl, ⟨_, rfl⟩, by decide, by decide⟩

theorem witness_RefusedBeforeTheWire : powerOn.configured .rst = false ∧ powerOn.tInit = false ∧ fresh.tInit = true ∧
    (2 = 0 ∨ 2 ≠ [(1 : Byte), 2, 3].length) ∧ (0 = 0 ∨ 0 ≠ ([] : List Byte).length) := by decide

theorem witness_SendCommand : LinesReliable fresh ∧ BusUsable fresh ∧ fresh.cfg.transportCanHang = false ∧
    (fresh.drawAt 0).outcome = .ok ∧
    (∃ r, takeBytes fresh.cfg (framePins fresh .command) [0x2A] fresh.recv = .ok r) ∧
    ((withDraws fresh [bad 1]).drawAt 0).outcome ≠ .ok ∧ (withDraws fresh [bad 1]).inFlight = false ∧
    failedCount (withDraws fresh [bad 1]) [0x2A] = 1 :=
  ⟨rfl, ⟨rfl, rfl, rfl⟩, rfl, rfl, ⟨_, rfl⟩, by decide, rfl, rfl⟩

/-- Fresh, with the command byte of COLUMN_ADDRESS_SET taken. -/
def columnBegun : State := freshWith fun r => { r with cCmd := some .columnAddressSet }

theorem witness_SendData : LinesReliable columnBegun ∧ BusUsable columnBegun ∧ columnBegun.cfg.transportCanHang = false ∧
    (columnBegun.drawAt 0).outcome = .ok ∧
    (∃ r, takeBytes columnBegun.cfg (framePins columnBegun .data) [0x00] columnBegun.recv = .ok r) ∧
    (∃ r, takeBytes columnBegun.cfg (framePins columnBegun .data) [0x00, 0x00, 0x00, 0xEF] columnBegun.recv = .ok r) ∧
    ((withDraws columnBegun [bad 4]).drawAt 0).outcome ≠ .ok ∧ (withDraws columnBegun [bad 4]).inFlight = false ∧
    failedCount (withDraws columnBegun [bad 4]) [0x00, 0x00, 0x00, 0xEF] = 4 :=
  ⟨rfl, ⟨rfl, rfl, rfl⟩, rfl, rfl, ⟨_, rfl⟩, ⟨_, rfl⟩, by decide, rfl, rfl⟩

/-- The same, one frame for each parameter byte. -/
def columnBegunPerByte : State := { columnBegun with cfg := { Config.default with paramFraming := .perByte } }

theorem witness_SendParams : LinesReliable columnBegun ∧ BusUsable columnBegun ∧ DrawsOk columnBegun 1 ∧
    columnBegun.cfg.paramFraming = .perGroup ∧
    (∃ r, takeBytes columnBegun.cfg (framePins columnBegun .data) [0x00, 0x00, 0x00, 0xEF] columnBegun.recv = .ok r) ∧
    LinesReliable columnBegunPerByte ∧ BusUsable columnBegunPerByte ∧ DrawsOk columnBegunPerByte 4 ∧
    columnBegunPerByte.cfg.paramFraming = .perByte ∧
    (∃ r, takeBytes columnBegunPerByte.cfg (framePins columnBegunPerByte .data) [0x00, 0x00, 0x00, 0xEF]
      columnBegunPerByte.recv = .ok r) :=
  ⟨rfl, ⟨rfl, rfl, rfl⟩, by unfold DrawsOk; decide, rfl, ⟨_, rfl⟩, rfl, ⟨rfl, rfl, rfl⟩, by unfold DrawsOk; decide, rfl,
    ⟨_, rfl⟩⟩

/-- A group that fails after two of its bytes, and, byte by byte, at its second and at its last byte. -/
theorem witness_SendParams_fails :
    (let s := withDraws columnBegun [bad 2]
    s.inFlight = false ∧ (s.drawAt 0).outcome = .fail ∧
      ∃ r, takeBytes s.cfg (framePins s .data) ([0, 1, 0, 2].take (failedCount s [0, 1, 0, 2])) s.recv = .ok r) ∧
    (let s := withDraws columnBegunPerByte [good, bad 0]
    [(0 : Byte), 1, 0, 2][1]? = some 1 ∧ DrawsOk s 1 ∧ (s.drawAt 1).outcome = .fail ∧
      0 = min (s.drawAt 1).delivered 1 ∧
      ∃ r, takeBytes s.cfg (framePins s .data) ([0, 1, 0, 2].take (1 + 0)) s.recv = .ok r) ∧
    (let s := withDraws columnBegunPerByte [good, good, good, bad 1]
    [(0 : Byte), 1, 0, 2][3]? = some 2 ∧ DrawsOk s 3 ∧ (s.drawAt 3).outcome = .fail ∧
      1 = min (s.drawAt 3).delivered 1 ∧
      ∃ r, takeBytes s.cfg (framePins s .data) ([0, 1, 0, 2].take (3 + 1)) s.recv = .ok r) :=
  ⟨⟨rfl, rfl, _, rfl⟩, ⟨rfl, by unfold DrawsOk; decide, rfl, rfl, _, rfl⟩,
    ⟨rfl, by unfold DrawsOk; decide, rfl, rfl, _, rfl⟩⟩

theorem witness_ChipSelectReleased_FramesKeepTheDriver : LinesReliable columnBegun ∧ columnBegun.inFlight = false ∧
    (isFrameOp (.sendCommand 0x2A) = true ∧ isNext (exec (.sendCommand 0x2A) columnBegun) = true) ∧
    isNext (exec (.sendCommand 0x2A) (withDraws columnBegun [bad 0])) = true ∧
    isNext (exec (.sendParams [0x00]) columnBegun) = true := by
  refine ⟨rfl, rfl, ?_⟩
  decide

theorem witness_FramingsAgree : LinesReliable fresh ∧ BusUsable fresh ∧ DrawsOk fresh (1 + 4) ∧
    isNext (exec (instrOfCmd .columnAddressSet [0x00, 0x00, 0x00, 0xEF])
      { fresh with cfg := { fresh.cfg with paramFraming := .perGroup } }) = true :=
  ⟨rfl, ⟨rfl, rfl, rfl⟩, by unfold DrawsOk; decide, by decide⟩

theorem witness_ErrorInsideAnOperation :
    ({ withDraws powerOn [bad 0] with seqState := .blitRunning } : State).inFlight = true ∧
    ({ withDraws powerOn [bad 0] with seqState := .initRunning } : State).inFlight = true ∧
    ((withDraws powerOn [bad 0]).drawAt 0).outcome ≠ .ok := by decide

theorem witness_SoftwareReset : CanSend fresh 1 ∧ ¬ GroupOpen fresh.cfg fresh.recv :=
  ⟨canSend_fresh (by decide), closed_fresh⟩

theorem witness_PowerCommands : CanSend (atStage 18) 1 ∧ ¬ GroupOpen (atStage 18).cfg (atStage 18).recv ∧
    (atStage 18).recv.cInitStage < 19 :=
  ⟨canSend_freshWith (by decide) _ rfl rfl, closed_none rfl, by decide⟩

theorem witness_ConfigurationCommands :
    CanSend (atStage 18) (exchangeFrames (atStage 18).cfg [0x55]) ∧
    CanSend (atStage 18) (exchangeFrames (atStage 18).cfg (List.replicate 14 0x0D)) ∧
    ¬ GroupOpen (atStage 18).cfg (atStage 18).recv ∧ (atStage 18).recv.cInitStage < 19 ∧
    [(0x55 : Byte)].length = (atStage 18).cfg.counts.get .colorMode ∧
    (List.replicate 14 (0x0D : Byte)).length = (atStage 18).cfg.counts.get .positiveGamma :=
  ⟨canSend_freshWith (by decide) _ rfl rfl, canSend_freshWith (by decide) _ rfl rfl, closed_none rfl, by decide, rfl, rfl⟩

theorem witness_VrhAndVdv : CanSend fresh (exchangeFrames fresh.cfg [0x12]) ∧ ¬ GroupOpen fresh.cfg fresh.recv ∧
    fresh.recv.cInitStage < 19 ∧ [(0x12 : Byte)].length = fresh.cfg.counts.vrh ∧
    [(0x12 : Byte)].length = fresh.cfg.counts.vdv :=
  ⟨canSend_fresh (by decide), closed_fresh, by decide, rfl, rfl⟩

theorem witness_AddressCommands : CanSend ready (exchangeFrames ready.cfg [0x00, 0x00, 0x00, 0xEF]) ∧
    ¬ GroupOpen ready.cfg ready.recv := by
  refine ⟨canSend_ready (by decide), ?_⟩
  rintro ⟨cmd, h, hp⟩
  obtain rfl := Option.some.inj h
  exact absurd hp (by decide)

theorem witness_MemoryWrite : CanSend (windowed 0 239 0 319) 1 ∧
    ¬ GroupOpen (windowed 0 239 0 319).cfg (windowed 0 239 0 319).recv ∧
    (((0 : Half).toNat ≤ (239 : Half).toNat ∧ (239 : Half).toNat < (windowed 0 239 0 319).cfg.panelW) ∧
      (0 : Half).toNat ≤ (319 : Half).toNat ∧ (319 : Half).toNat < (windowed 0 239 0 319).cfg.panelH) ∧
    (CanSend (windowed 0 240 0 319) 1 ∧ ¬ (240 : Half).toNat < (windowed 0 240 0 319).cfg.panelW) ∧
    (CanSend fresh 1 ∧ fresh.recv.xs = none) :=
  ⟨canSend_freshWith (by decide) _ rfl rfl, closed_none rfl, by decide,
    ⟨canSend_freshWith (by decide) _ rfl rfl, by decide⟩, canSend_fresh (by decide), rfl⟩

/-- The last pixel of the panel is half written. -/
def lastHalf : State :=
  freshWith fun _ => { (armed 0 239 0 319).recv with wcol := some 239, wrow := some 319, cHalf := some 0xF8 }

theorem witness_PixelData :
    (CanSend (armed 0 239 0 319) 1 ∧ (armed 0 239 0 319).recv.cCmd = some .memoryWrite ∧
      (armed 0 239 0 319).recv.cFull = false ∧ (armed 0 239 0 319).recv.cHalf = none) ∧
    (CanSend (freshWith fun _ => { (armed 0 239 0 319).recv with cFull := true }) 1) ∧
    (CanSend lastHalf 1 ∧ lastHalf.recv.cCmd = some .memoryWrite ∧ lastHalf.recv.cFull = false ∧
      lastHalf.recv.cHalf = some 0xF8 ∧ WindowOk lastHalf.cfg lastHalf.recv 0 239 0 319 ∧
      lastHalf.recv.wcol = some 239 ∧ lastHalf.recv.wrow = some 319 ∧
      (0 : Half).toNat ≤ 239 ∧ 239 ≤ (239 : Half).toNat ∧ (0 : Half).toNat ≤ 319 ∧ 319 ≤ (319 : Half).toNat) :=
  ⟨⟨canSend_freshWith (by decide) _ rfl rfl, rfl, rfl, rfl⟩, canSend_freshWith (by decide) _ rfl rfl,
    canSend_freshWith (by decide) _ rfl rfl, rfl, rfl, rfl, ⟨rfl, rfl, rfl, rfl, by decide⟩, rfl, rfl, by decide⟩

theorem witness_UnknownCommand : LinesReliable fresh ∧ BusUsable fresh ∧ Awake fresh ∧
    (∀ cmd, fresh.cfg.codes.get cmd ≠ 0xFF) ∧ (fresh.drawAt 0).outcome = .ok ∧
    ((withDraws fresh [bad 1]).drawAt 0).outcome = .fail ∧ 1 ≤ ((withDraws fresh [bad 1]).drawAt 0).delivered ∧
    ((withDraws fresh [bad 0]).drawAt 0).outcome = .fail ∧ ((withDraws fresh [bad 0]).drawAt 0).delivered = 0 ∧
    (withDraws fresh [bad 0]).inFlight = false :=
  ⟨rfl, ⟨rfl, rfl, rfl⟩, ⟨rfl, rfl, rfl⟩, by intro cmd; cases cmd <;> decide, rfl, rfl, by decide, rfl, rfl, rfl⟩

/-- A group of four that lacks its last byte, and a group of one that lacks it. -/
theorem witness_IncompleteGroup :
    let s := freshWith fun r => { r with cCmd := some .columnAddressSet, cPidx := 3, cPbuf := [0, 0, 0] }
    let u := freshWith fun r => { r with cCmd := some .rowAddressSet, cPidx := 0 }
    let v := freshWith fun r => { r with cCmd := some ConfigReg.vrh.cmd, cPidx := 0 }
    (s.recv.cPidx < s.cfg.nParams .columnAddressSet ∧ u.recv.cPidx < u.cfg.nParams .rowAddressSet ∧
      v.recv.cPidx < v.cfg.nParams ConfigReg.vrh.cmd) ∧
    (LinesReliable s ∧ BusUsable s ∧ DrawsOk s 1) := by
  refine ⟨by decide, rfl, ⟨rfl, rfl, rfl⟩, ?_⟩
  unfold DrawsOk
  decide

theorem witness_IntakeRefusals : fresh.tInit = true ∧ (fresh.drawAt 0).outcome = .ok ∧ fresh.cs.level ≠ some .asserted ∧
    (inside .command).cs.level = some .asserted ∧ (inside .command).rst.level = some .high ∧
    ({ inside .command with recv := Receiver.powerOn } : State).recv.cResetDone = false ∧
    0 < ({ inside .command with recv := { fresh.recv with cBusy := 1 } } : State).recv.cBusy := by decide

theorem witness_DataBytes : CanSend fresh 1 ∧ fresh.recv.cCmd = none ∧
    CanSend ready 1 ∧ ready.recv.cCmd = some .displayOn ∧ ready.cfg.nParams .displayOn = 0 ∧
    (CanSend (freshWith fun r => { r with cCmd := some .columnAddressSet, cPidx := 4 }) 1 ∧
      0 < fresh.cfg.nParams .columnAddressSet ∧ fresh.cfg.nParams .columnAddressSet ≤ 4) ∧
    (CanSend (freshWith fun r => { r with cCmd := some .columnAddressSet, cPidx := 2 }) 1 ∧
      2 + 1 < fresh.cfg.nParams .columnAddressSet) :=
  ⟨canSend_fresh (by decide), rfl, canSend_ready (by decide), rfl, rfl,
    ⟨canSend_freshWith (by decide) _ rfl rfl, by decide⟩, canSend_freshWith (by decide) _ rfl rfl, by decide⟩

/-- The last byte of a group of one, of VRH with and without the enable register, and of both address groups. -/
theorem witness_DataBytes_commit :
    (let s := freshWith fun r => { r with cCmd := some ConfigReg.colorMode.cmd }
    CanSend s 1 ∧ s.recv.cPidx + 1 = s.cfg.nParams ConfigReg.colorMode.cmd) ∧
    (let s := freshWith fun r => { r with cCmd := some ConfigReg.vrh.cmd }
    CanSend s 1 ∧ s.recv.cPidx + 1 = s.cfg.nParams ConfigReg.vrh.cmd ∧ s.recv.regs.vdvVrhEnable = none) ∧
    (∀ cmd : Cmd, CanSend (freshWith fun r => { r with cCmd := some cmd, cPidx := 3, cPbuf := [0, 10, 0] }) 1) :=
  ⟨⟨canSend_freshWith (by decide) _ rfl rfl, rfl⟩, ⟨canSend_freshWith (by decide) _ rfl rfl, rfl, rfl⟩,
    fun _ => canSend_freshWith (by decide) _ rfl rfl⟩

theorem witness_AfterInitialization : CanSend ready 1 ∧ 19 ≤ ready.recv.cInitStage ∧
    Cmd.sleepOut ≠ .columnAddressSet ∧ Cmd.sleepOut ≠ .rowAddressSet ∧ Cmd.sleepOut ≠ .memoryWrite ∧
    Cmd.sleepOut ≠ .softwareReset := ⟨canSend_ready (by decide), by decide⟩

theorem witness_OnlyHardwareResetRevalidates : LinesReliable (heldLow 10) ∧ (heldLow 10).recv.cInitValid = false ∧
    obs (.writeLine (.rst .high)) (heldLow 10) (fun t => t.recv.cInitValid) = some true ∧
    isNext (step (withWords (heldLow 10) [.call .writeLine [2, 1] []])) = true := by
  refine ⟨rfl, rfl, ?_⟩
  decide

/-- The other way to a valid order: an INIT, here one that fails after its reset pulse (V36). -/
theorem witness_OnlyHardwareResetRevalidates_init : powerOn.recv.cInitValid = false ∧
    obs .init (withDraws powerOn [good, bad 0]) (fun t => t.recv.cInitValid) = some true := by decide

theorem witness_FrameMemoryOnlyByPixels : fresh.cfg.Wf ∧ sparesFrameMemory (.columnAddressSet [0, 0, 0, 1]) = true ∧
    isNext (exec (.columnAddressSet [0, 0, 0, 1]) fresh) = true ∧
    isNext (exec (.windowSet 0 0 239 319) ready) = true := by decide

theorem witness_InitEndState_InitTrace : powerOn.inFlight = false ∧ LinesReliable powerOn ∧ powerOn.cfg.Wf ∧
    DrawsOk powerOn (initDraws powerOn.cfg) :=
  ⟨rfl, rfl, by decide, fun k hk => drawsOk_fresh k (by
    have : initDraws powerOn.cfg ≤ 48 := by decide
    omega)⟩

/-- In flight; failing at `transport_init` (V37), and at the first command with its byte lost (V36). -/
theorem witness_InitOutcome : ({ powerOn with seqState := .initRunning } : State).inFlight = true ∧
    isNext (exec .init (withDraws powerOn [bad 0])) = true ∧
    obs .init (withDraws powerOn [bad 0]) (fun t => t.seqPc) = some 4 ∧
    obs .init (withDraws powerOn [good, bad 0]) (fun t => (t.seqPc, t.rst.level, t.bl.level, t.cs.level)) =
      some (10, some .high, some .on, some .deasserted) ∧
    LinesReliable (withDraws powerOn [bad 0]) := by
  refine ⟨rfl, ?_, ?_, ?_, rfl⟩ <;> decide

theorem witness_InitFromAnywhere : powerOn.cfg = ready.cfg ∧ powerOn.cfg.Wf ∧ LinesReliable powerOn ∧
    obs .init powerOn (fun t => t.seqState) = some .ready ∧ obs .init ready (fun t => t.seqState) = some .ready := by
  refine ⟨rfl, by decide, rfl, ?_, ?_⟩ <;> decide +kernel

theorem witness_WindowSet_WindowSetBytes : CanSend ready (windowFrames ready.cfg) ∧
    wf ready.cfg (.windowSet 0 0 239 319) = true ∧
    obs (.windowSet 0 0 239 319) ready (fun t => t.callResult) = some (some .ok) :=
  ⟨canSend_ready (by decide), by decide, by decide⟩

/-- Before initialization is complete: in its place in the order, out of it, and with a group open. -/
theorem witness_WindowSet_order :
    (CanSend (atStage 4) (windowFrames (atStage 4).cfg) ∧ (atStage 4).recv.cInitStage = 4 ∧
      (atStage 4).recv.cInitValid = true ∧ ¬ GroupOpen (atStage 4).cfg (atStage 4).recv) ∧
    (CanSend (atStage 5) (windowFrames (atStage 5).cfg) ∧ (atStage 5).recv.cInitStage ≠ 4) ∧
    (let s := freshWith fun r => { r with cCmd := some ConfigReg.vrh.cmd, cInitStage := 4 }
    CanSend s (windowFrames s.cfg) ∧ s.recv.cCmd = some ConfigReg.vrh.cmd ∧
      s.recv.cPidx < s.cfg.nParams ConfigReg.vrh.cmd ∧ GroupOpen s.cfg s.recv) :=
  ⟨⟨canSend_freshWith (by decide) _ rfl rfl, rfl, rfl, closed_none rfl⟩,
    ⟨canSend_freshWith (by decide) _ rfl rfl, by decide⟩,
    canSend_freshWith (by decide) _ rfl rfl, rfl, by decide, ⟨_, rfl, by decide⟩⟩

theorem witness_BlitEntryState : ({ powerOn with seqState := .blitRunning } : State).seqState = .blitRunning ∧
    powerOn.seqState = .uninit ∧ ({ powerOn with seqState := .failed } : State).seqState = .failed := by decide

/-- V30: the first column beyond the panel; V31: one byte too few. -/
theorem witness_BlitInvalidArgument : ready.seqState = .ready ∧ ¬ (240 : Int) < ready.cfg.panelW ∧
    ¬ (((List.replicate 3 (0 : Byte)).length : Int) = (1 - 0 + 1) * (0 - 0 + 1) * 2) := by decide

theorem witness_BlitEffect_BlitPartialBurst : ready.seqState = .ready ∧ 238 + 2 ≤ ready.cfg.panelW ∧
    318 + 2 ≤ ready.cfg.panelH ∧ (List.replicate 8 (0 : Byte)).length = 2 * 2 * 2 ∧
    CanSend ready (windowFrames ready.cfg + 1) ∧
    (let s := withDraws ready [good, good, good, good, good, bad 8]
     CanSend s (windowFrames s.cfg) ∧ (s.drawAt (windowFrames s.cfg)).outcome = .fail ∧
      (s.drawAt (windowFrames s.cfg)).delivered = 8) := by
  refine ⟨rfl, by decide, by decide, rfl, canSend_ready (by decide), ⟨rfl, ⟨rfl, rfl, rfl⟩, ⟨rfl, rfl, rfl⟩, by decide, ?_⟩,
    by decide, by decide⟩
  unfold DrawsOk
  decide

/-- A BLIT before initialization is complete: in its place in the order, out of it, and with a group open. -/
theorem witness_BlitEffect_order :
    (let s : State := { atStage 4 with seqState := .ready }
    CanSend s (windowFrames s.cfg + 1) ∧ s.recv.cInitStage = 4 ∧ s.recv.cInitValid = true ∧
      ¬ GroupOpen s.cfg s.recv) ∧
    ({ atStage 5 with seqState := .ready } : State).recv.cInitStage ≠ 4 ∧
    (let s : State := { freshWith fun r => { r with cCmd := some ConfigReg.vrh.cmd } with seqState := .ready }
    CanSend s (windowFrames s.cfg + 1) ∧ s.recv.cCmd = some ConfigReg.vrh.cmd ∧
      s.recv.cPidx < s.cfg.nParams ConfigReg.vrh.cmd ∧ GroupOpen s.cfg s.recv) := by
  refine ⟨⟨⟨rfl, ⟨rfl, rfl, rfl⟩, ⟨rfl, rfl, rfl⟩, by decide, ?_⟩, rfl, rfl, closed_none rfl⟩, by decide,
    ⟨rfl, ⟨rfl, rfl, rfl⟩, ⟨rfl, rfl, rfl⟩, by decide, ?_⟩, rfl, by decide, _, rfl, by decide⟩ <;>
  · unfold DrawsOk
    decide

theorem witness_BlitTrace : LinesReliable ready ∧
    obs (.blit ⟨0, 0, 0, 0⟩ [0x07, 0xE0]) ready (fun t => t.trace.getLast?) = some (some (.ret .ok)) :=
  ⟨rfl, by decide⟩

/-- The state after the pixel of P1, for the second call. -/
def afterPixel : State :=
  match exec (.blit ⟨0, 0, 0, 0⟩ [0x07, 0xE0]) ready with
  | .next t => t
  | .fault _ => ready
  | .refused _ => ready

theorem witness_BlitIsIdempotent : ready.cfg.Wf ∧ LinesReliable ready ∧
    exec (.blit ⟨0, 0, 0, 0⟩ [0x07, 0xE0]) ready = .next afterPixel ∧
    afterPixel.trace.getLast? = some (.ret .ok) ∧
    obs (.blit ⟨0, 0, 0, 0⟩ [0x07, 0xE0]) afterPixel (fun t => t.trace.getLast?) = some (some (.ret .ok)) :=
  ⟨by decide, rfl, rfl, by decide +kernel, by decide +kernel⟩

/-- Completed, cut in the window after one byte (before and after its first group), and cut in the burst. -/
theorem witness_BlitOutcome : ready.seqState = .ready ∧ blitValid ready.cfg ⟨239, 319, 239, 319⟩ 2 = true ∧
    LinesReliable ready ∧ ready.cfg.Wf ∧ isNext (exec (.blit ⟨239, 319, 239, 319⟩ [0, 0]) ready) = true ∧
    isNext (exec (.blit ⟨239, 319, 239, 319⟩ [0, 0]) (withDraws ready [bad 1])) = true ∧
    isNext (exec (.blit ⟨239, 319, 239, 319⟩ [0, 0]) (withDraws ready [good, good, bad 1])) = true ∧
    isNext (exec (.blit ⟨239, 319, 239, 319⟩ [0, 0]) (withDraws ready [good, good, good, good, good, bad 1])) = true := by
  refine ⟨rfl, by decide, rfl, ?_⟩
  decide

/-- The failure inside the window, with what V35 says of it: the column group cut after two of its four bytes. -/
theorem witness_BlitOutcome_window : obs (.blit ⟨1, 2, 2, 3⟩ (List.replicate 8 0)) (withDraws ready [good, bad 2])
    (fun t => (t.trace.drop 6, t.recv.cPidx, t.recv.xs, t.recv.xe)) =
    some ([.xfer [0x00, 0x01, 0x00, 0x02] false 2, .line (.cs .deasserted), .ret .transportError],
      2, some 0, some 239) := by decide

theorem witness_StepKeepsInvariant_StepNeverFaults :
    (withWords fresh [.wire .command 0x01]).Inv ∧ (withWords fresh [.wire .command 0x01]).cfg.transportCanHang = false ∧
    isNext (step (withWords fresh [.wire .command 0x01])) = true :=
  ⟨⟨by decide, freshOk, by decide, rfl⟩, rfl, by decide⟩

theorem witness_HostCallsNeverRefused : ready.HostInv ∧ isHostOp (.blit ⟨0, 0, 240, 9⟩ []) = true ∧
    LinesReliable ready ∧ ready.cfg.transportCanHang = false ∧ ready.seqState = .ready := by
  have h : ready.Inv := ⟨by decide, initOk, by decide, rfl⟩
  exact ⟨⟨h, fun _ => ⟨⟨rfl, rfl, rfl⟩, ⟨rfl, rfl, rfl⟩⟩, fun _ => by decide⟩, rfl, rfl, rfl, rfl⟩

/-- Fresh, with one frame for each parameter byte. -/
def freshPerByte : State := { fresh with cfg := { Config.default with paramFraming := .perByte } }

/-- A command frame that fails without and with its byte (V36), of a command that is taken and of one that is refused. -/
theorem witness_ExchangeCutShort_command :
    (let s := withDraws fresh [bad 0]
    LinesReliable s ∧ BusUsable s ∧ s.inFlight = false ∧ (s.drawAt 0).outcome = .fail ∧ (s.drawAt 0).delivered = 0) ∧
    (let s := withDraws fresh [bad 1]
    (s.drawAt 0).outcome = .fail ∧ 1 ≤ (s.drawAt 0).delivered ∧
      isNext (exec (instrOfCmd .softwareReset []) { s with draws := [⟨.ok, 0, true⟩] }) = true ∧
      refusal (exec (instrOfCmd .memoryWrite []) { s with draws := [⟨.ok, 0, true⟩] }) = some .undefinedWindow ∧
      CanSend s 0 ∧ ¬ GroupOpen s.cfg s.recv ∧ Accepts s.recv .positiveGamma ∧ 0 < s.cfg.nParams .positiveGamma) :=
  ⟨⟨rfl, ⟨rfl, rfl, rfl⟩, rfl, rfl, rfl⟩, rfl, by decide, by decide, by decide,
    ⟨rfl, ⟨rfl, rfl, rfl⟩, ⟨rfl, rfl, rfl⟩, by decide, fun _ h => absurd h (by omega)⟩, closed_none rfl, .inl (by decide),
    by decide⟩

/-- A column group cut after two bytes and after all four, and byte by byte at its second and at its last byte. -/
theorem witness_ExchangeCutShort :
    (let s := withDraws fresh [good, bad 2]
    CanSend s 1 ∧ ¬ GroupOpen s.cfg s.recv ∧ Accepts s.recv .columnAddressSet ∧
      [(0 : Byte), 1, 0, 2].length = s.cfg.nParams .columnAddressSet ∧ s.inFlight = false ∧
      s.cfg.paramFraming = .perGroup ∧ (s.drawAt 1).outcome = .fail ∧ (s.drawAt 1).delivered < 4) ∧
    (4 ≤ ((withDraws fresh [good, bad 4]).drawAt 1).delivered) ∧
    (let s := withDraws freshPerByte [good, good, bad 0]
    CanSend s 1 ∧ ¬ GroupOpen s.cfg s.recv ∧ Accepts s.recv .columnAddressSet ∧
      [(0 : Byte), 1, 0, 2].length = s.cfg.nParams .columnAddressSet ∧ s.inFlight = false ∧
      s.cfg.paramFraming = .perByte ∧ [(0 : Byte), 1, 0, 2][1]? = some 1 ∧ DrawsOk s (1 + 1) ∧
      (s.drawAt (1 + 1)).outcome = .fail ∧ 0 = min (s.drawAt (1 + 1)).delivered 1 ∧ 1 + 0 < 4) ∧
    (let s := withDraws freshPerByte [good, good, good, good, bad 1]
    CanSend s 1 ∧ ¬ GroupOpen s.cfg s.recv ∧ [(0 : Byte), 1, 0, 2][3]? = some 2 ∧ DrawsOk s (1 + 3) ∧
      (s.drawAt (1 + 3)).outcome = .fail ∧ 1 = min (s.drawAt (1 + 3)).delivered 1 ∧ 3 + 1 = 4) :=
  ⟨⟨⟨rfl, ⟨rfl, rfl, rfl⟩, ⟨rfl, rfl, rfl⟩, by decide, by unfold DrawsOk; decide⟩, closed_fresh, .inr rfl, rfl, rfl, rfl,
      rfl, by decide⟩, by decide,
    ⟨⟨rfl, ⟨rfl, rfl, rfl⟩, ⟨rfl, rfl, rfl⟩, by decide, by unfold DrawsOk; decide⟩, closed_none rfl, .inr rfl, rfl, rfl,
      rfl, rfl, by unfold DrawsOk; decide, rfl, rfl, by decide⟩,
    ⟨rfl, ⟨rfl, rfl, rfl⟩, ⟨rfl, rfl, rfl⟩, by decide, by unfold DrawsOk; decide⟩, closed_none rfl, rfl,
    by unfold DrawsOk; decide, rfl, rfl, rfl⟩

/-- The first and the last transfer of a WINDOW_SET failing, under both framings. -/
theorem witness_WindowSetCutShort : wf ready.cfg (.windowSet 0 0 239 319) = true ∧
    (let s := withDraws ready [bad 0]
    CanSend s 0 ∧ 0 < windowFrames s.cfg ∧ (s.drawAt 0).outcome = .fail ∧ s.inFlight = false) ∧
    (let s := withDraws ready [good, good, good, good, bad 1]
    CanSend s 4 ∧ 4 < windowFrames s.cfg ∧ (s.drawAt 4).outcome = .fail) ∧
    (let s := withDraws freshPerByte (List.replicate 10 good ++ [bad 1])
    CanSend s 10 ∧ 10 < windowFrames s.cfg ∧ (s.drawAt 10).outcome = .fail) := by
  refine ⟨by decide, ⟨⟨rfl, ⟨rfl, rfl, rfl⟩, ⟨rfl, rfl, rfl⟩, by decide, ?_⟩, by decide, rfl, rfl⟩,
    ⟨⟨rfl, ⟨rfl, rfl, rfl⟩, ⟨rfl, rfl, rfl⟩, by decide, ?_⟩, by decide, rfl⟩,
    ⟨rfl, ⟨rfl, rfl, rfl⟩, ⟨rfl, rfl, rfl⟩, by decide, ?_⟩, by decide, rfl⟩ <;>
  · unfold DrawsOk
    decide

/-- A failed INIT, a rejected BLIT, a primitive that fails by itself and one that fails inside an operation. -/
theorem witness_ConditionsGoToTheCaller :
    obs .init (withDraws powerOn [bad 0]) (fun t => t.status) = some (some .transportError) ∧
    obs (.blit ⟨0, 0, 240, 9⟩ []) ready (fun t => t.status) = some (some .invalidArgument) ∧
    obs .transportInit (withDraws powerOn [bad 0]) (fun t => (t.callResult, t.status)) =
      some (some .transportError, none) ∧
    (let s : State := { withDraws powerOn [bad 0] with seqState := .initRunning }
    s.inFlight = true ∧ obs .transportInit s (fun t => (t.callResult, t.status)) =
      some (some .transportError, some .transportError)) := by decide

theorem witness_StatusOnlyByHostOperations : fresh.inFlight = false ∧
    isHostOp (.sendCommand 0x2A) = false ∧ isNext (exec (.sendCommand 0x2A) (withDraws fresh [bad 0])) = true ∧
    isNext (exec (.blit ⟨0, 0, 0, 0⟩ []) ready) = true := by decide

end Sys2Proof.Tests
end

section
/-! What no step changes (00_scope.md R5, 10_state.md R32). -/

namespace Sys2Proof.Machine

/-- No part of an operation writes the parameters: the Platform's moves keep them by `Move.cfg`, and the driver's own
updates write other fields. -/
theorem stable_cfg (c : Config) : Stable fun s => s.cfg = c where
  move _ _ hm hs := hm.cfg.trans hs
  event _ _ hs := hs
  pc _ _ hs := hs
  seqState _ _ hs := hs
  status _ _ hs := hs
  result _ _ hs := hs
  bidx _ _ hs := hs
  latches _ _ _ hs := hs

/-- A step keeps the parameters; the fetch writes the stream only. -/
theorem step_cfg {s t : State} (h : step s = .next t) : t.cfg = s.cfg :=
  (stable_cfg s.cfg).step (fun _ _ hs => hs) rfl h

/-- Settles O2: the equality with the parameters of the start is stable under everything an operation does. -/
theorem parametersFixed : Obligations.ParametersFixed :=
  fun _ _ => step_cfg

end Sys2Proof.Machine
end

section
/-! The operations by their form: the twenty wire commands as one case, and what a call executed by itself ends in. -/

namespace Sys2Proof.Machine

/-- The parameter bytes a wire command sends: the five commands without a group send none (R72). -/
def groupOf (cmd : Cmd) (ps : List Byte) : List Byte :=
  match cmd with
  | .softwareReset | .sleepOut | .normalDisplayOn | .displayOn | .memoryWrite => []
  | .colorMode | .memoryAccess | .columnAddressSet | .rowAddressSet | .porchControl | .gateControl | .vcoms
  | .lcmControl | .vdvVrhEnable | .vrh | .vdv | .frameRateControl2 | .powerControl1 | .positiveGamma
  | .negativeGamma => ps

/-- A wire command is its exchange (R63, R77). -/
theorem exec_instrOfCmd (cmd : Cmd) (ps : List Byte) (s : State) :
    exec (instrOfCmd cmd ps) s = endCall (exchange cmd (groupOf cmd ps) s) := by
  cases cmd <;> rfl

/-- The forms of an operation, so that a proof about all of them treats the twenty wire commands once. -/
inductive InstrForm : Instr → Prop where
  | wire (cmd : Cmd) (ps : List Byte) : InstrForm (instrOfCmd cmd ps)
  | pixelData (b : Byte) : InstrForm (.pixelData b)
  | unknownCommand (b : Byte) : InstrForm (.unknownCommand b)
  | configureOutputLine (l : Line) : InstrForm (.configureOutputLine l)
  | writeLine (w : LineWrite) : InstrForm (.writeLine w)
  | transportInit : InstrForm .transportInit
  | transportWrite (bytes : List Byte) : InstrForm (.transportWrite bytes)
  | sendCommand (b : Byte) : InstrForm (.sendCommand b)
  | sendData (b : Byte) : InstrForm (.sendData b)
  | sendDataBlock (bytes : List Byte) (n : Nat) : InstrForm (.sendDataBlock bytes n)
  | sleepMs (n : Nat) : InstrForm (.sleepMs n)
  | sendParams (ps : List Byte) : InstrForm (.sendParams ps)
  | init : InstrForm .init
  | windowSet (x0 y0 x1 y1 : Half) : InstrForm (.windowSet x0 y0 x1 y1)
  | blit (r : Rect) (pb : List Byte) : InstrForm (.blit r pb)

/-- Every operation has one of the forms. -/
theorem instrForm : ∀ i, InstrForm i
  | .softwareReset => .wire .softwareReset []
  | .sleepOut => .wire .sleepOut []
  | .colorMode ps => .wire .colorMode ps
  | .memoryAccess ps => .wire .memoryAccess ps
  | .columnAddressSet ps => .wire .columnAddressSet ps
  | .rowAddressSet ps => .wire .rowAddressSet ps
  | .porchControl ps => .wire .porchControl ps
  | .gateControl ps => .wire .gateControl ps
  | .vcoms ps => .wire .vcoms ps
  | .lcmControl ps => .wire .lcmControl ps
  | .vdvVrhEnable ps => .wire .vdvVrhEnable ps
  | .vrh ps => .wire .vrh ps
  | .vdv ps => .wire .vdv ps
  | .frameRateControl2 ps => .wire .frameRateControl2 ps
  | .powerControl1 ps => .wire .powerControl1 ps
  | .positiveGamma ps => .wire .positiveGamma ps
  | .negativeGamma ps => .wire .negativeGamma ps
  | .normalDisplayOn => .wire .normalDisplayOn []
  | .displayOn => .wire .displayOn []
  | .memoryWrite => .wire .memoryWrite []
  | .pixelData b => .pixelData b
  | .unknownCommand b => .unknownCommand b
  | .configureOutputLine l => .configureOutputLine l
  | .writeLine w => .writeLine w
  | .transportInit => .transportInit
  | .transportWrite bytes => .transportWrite bytes
  | .sendCommand b => .sendCommand b
  | .sendData b => .sendData b
  | .sendDataBlock bytes n => .sendDataBlock bytes n
  | .sleepMs n => .sleepMs n
  | .sendParams ps => .sendParams ps
  | .init => .init
  | .windowSet x0 y0 x1 y1 => .windowSet x0 y0 x1 y1
  | .blit r pb => .blit r pb

/-- A call that leaves no operation in flight only hands its result to its caller (R84, log 5). -/
theorem endCall_idle {P : State → Prop} {x : Result} {t : State} (hx : x.All P) (hP : ∀ u, P u → u.inFlight = false)
    (ht : endCall x = .next t) : ∃ u res, P u ∧ t = u.setResult res := by
  obtain ⟨u, rfl, rfl⟩ | ⟨u, rfl, rfl⟩ := endCall_eq_next ht
  · exact ⟨u, _, hx, rfl⟩
  · exact ⟨u, _, hx, by rw [hP u hx]; rfl⟩

/-- What a next state after `transport_write` is (R83). -/
theorem exec_transportWrite_eq_next {P : State → Prop} {bytes : List Byte} {s t : State}
    (hx : (transportWrite bytes s).All P) (ht : exec (.transportWrite bytes) s = .next t) :
    ∃ u res, P u ∧ t = u.setResult res := by
  simp only [exec, execTransportWrite] at ht
  cases hw : transportWrite bytes s with
  | ok u =>
    rw [hw] at ht hx
    cases ht
    exact ⟨u, _, hx, rfl⟩
  | raised u =>
    rw [hw] at ht hx
    cases ht
    exact ⟨u, _, hx, rfl⟩
  | stopped w =>
    rw [hw] at ht
    cases w <;> cases ht

/-- What a next state after BLIT is: it was called from `READY`, and it ran, or its operands were rejected (R162, R172). -/
theorem exec_blit_eq_next {r : Rect} {pb : List Byte} {s t : State} (ht : exec (.blit r pb) s = .next t) :
    s.seqState = .ready ∧
      ((blitValid s.cfg r pb.length = true ∧ endOperation (runBlit r pb s) = .next t) ∨
        (blitValid s.cfg r pb.length = false ∧ t = takeInvalidArgument s)) := by
  simp only [exec, execBlit] at ht
  split at ht
  case h_5 hready =>
    refine ⟨hready, ?_⟩
    split at ht
    case isTrue hv => exact .inl ⟨hv, ht⟩
    case isFalse hv => exact .inr ⟨by simpa using hv, by cases ht; rfl⟩
  all_goals cases ht

end Sys2Proof.Machine
end

section
/-! What the moves of an operation leave of the Sequencer (10_state.md R11 to R14, R18, R19). -/

namespace Sys2Proof.Machine

/-- The Sequencer's items, `STATUS` and the sticky mark, which the Platform's moves leave alone. -/
structure KeepsSequencer (s t : State) : Prop where
  seqState : t.seqState = s.seqState
  seqPc : t.seqPc = s.seqPc
  rx0 : t.rx0 = s.rx0
  ry0 : t.ry0 = s.ry0
  rx1 : t.rx1 = s.rx1
  ry1 : t.ry1 = s.ry1
  blen : t.blen = s.blen
  bidx : t.bidx = s.bidx
  status : t.status = s.status
  refused : t.refused = s.refused

theorem KeepsSequencer.refl (s : State) : KeepsSequencer s s := by
  constructor <;> rfl

theorem KeepsSequencer.trans {s t u : State} (h : KeepsSequencer s t) (h' : KeepsSequencer t u) :
    KeepsSequencer s u := by
  cases h
  cases h'
  constructor <;> simp_all

theorem Move.keepsSequencer {s t : State} (h : Move s t) : KeepsSequencer s t := by
  cases h with
  | configure l => constructor <;> simp
  | _ => constructor <;> rfl

theorem Moves.keepsSequencer {s t : State} (h : Moves s t) : KeepsSequencer s t :=
  h.keeps (fun _ _ hm hs => hs.trans hm.keepsSequencer) (.refl s)

/-- Moves neither begin nor end an operation. -/
theorem Moves.idle {s t : State} (h : Moves s t) (hs : s.inFlight = false) : t.inFlight = false := by
  simpa [State.inFlight, h.keepsSequencer.seqState] using hs

/-- With no operation in flight, every operation but the Host's two is moves and a result for its caller. -/
theorem exec_moves_of_idle {i : Instr} {s t : State} (hi : isHostOp i = false) (hs : s.inFlight = false)
    (ht : exec i s = .next t) : ∃ u res, Moves s u ∧ t = u.setResult res := by
  have call : ∀ {x : Result}, x.All (Moves s) → endCall x = .next t → ∃ u res, Moves s u ∧ t = u.setResult res :=
    fun hx he => endCall_idle hx (fun _ hu => hu.idle hs) he
  cases instrForm i with
  | wire cmd ps =>
    rw [exec_instrOfCmd] at ht
    exact call (exchange_moves cmd _ s) ht
  | pixelData b => exact call (sendFrame_moves _ _ s) ht
  | unknownCommand b => exact call (sendFrame_moves _ _ s) ht
  | configureOutputLine l => exact call (configureOutputLine_moves l s) ht
  | writeLine w => exact call (writeLine_moves w s) ht
  | transportInit => exact call (transportInit_moves s) ht
  | transportWrite bytes => exact exec_transportWrite_eq_next (transportWrite_moves bytes s) ht
  | sendCommand b => exact call (sendFrame_moves _ _ s) ht
  | sendData b => exact call (sendFrame_moves _ _ s) ht
  | sendDataBlock bytes n => exact call (sendDataBlock_moves bytes n s) ht
  | sleepMs n => exact call (x := .ok (sleepMs n s)) (sleepMs_moves n s) ht
  | sendParams ps => exact call (sendParams_moves ps s) ht
  | windowSet x0 y0 x1 y1 => exact call (windowSet_moves x0 y0 x1 y1 s) ht
  | init => cases hi
  | blit r pb => cases hi

@[simp] theorem State.releaseOnFailure_seqPc (s : State) : s.releaseOnFailure.seqPc = s.seqPc := by
  unfold State.releaseOnFailure
  split <;> rfl

@[simp] theorem takeTransportError_seqPc (s : State) : (takeTransportError s).seqPc = s.seqPc := by
  unfold takeTransportError
  split <;> simp

/-- The body of a BLIT moves no `SEQ_PC` (R13). -/
theorem runBlit_seqPc (r : Rect) (pb : List Byte) (s : State) :
    (runBlit r pb s).All fun t => t.seqPc = s.seqPc := by
  have body := (windowSetLatched_moves (enterBlit r pb.length s)).bindMoves (dataBurst_moves pb)
  exact (body.mono fun t ht => ht.keepsSequencer.seqPc).bind fun t ht => ht

/-- BLIT leaves `SEQ_PC` alone however it ends (R13). -/
theorem exec_blit_seqPc {r : Rect} {pb : List Byte} {s t : State} (ht : exec (.blit r pb) s = .next t) :
    t.seqPc = s.seqPc := by
  obtain ⟨-, ⟨-, hrun⟩ | ⟨-, rfl⟩⟩ := exec_blit_eq_next ht
  · have body := runBlit_seqPc r pb s
    obtain hx | ⟨u, hx, rfl⟩ := endOperation_eq_next hrun
    · rwa [hx] at body
    · rw [hx] at body
      exact (takeTransportError_seqPc u).trans body
  · simp [takeInvalidArgument]

/-- The trace begins with that of the start, whatever an operation does (R18). -/
theorem stable_trace (tr : List Event) : Stable fun s => ∃ es, s.trace = tr ++ es where
  move s t hm hs := by
    obtain ⟨es, hs⟩ := hs
    obtain ⟨es', ht, -⟩ := (Moves.one hm).trace
    exact ⟨es ++ es', by rw [ht, hs, List.append_assoc]⟩
  event s e hs := by
    obtain ⟨es, hs⟩ := hs
    exact ⟨es ++ [e], by rw [State.emit_trace, hs, List.append_assoc]⟩
  pc _ _ hs := hs
  seqState _ _ hs := hs
  status _ _ hs := hs
  result _ _ hs := hs
  bidx _ _ hs := hs
  latches _ _ _ hs := hs

/-- No part of an operation sets the sticky mark or clears it (R19, log 8). -/
theorem stable_refused (m : Option Refusal) : Stable fun s => s.refused = m where
  move _ _ hm hs := hm.keepsSequencer.refused.trans hs
  event _ _ hs := hs
  pc _ _ hs := hs
  seqState _ _ hs := hs
  status _ _ hs := hs
  result _ _ hs := hs
  bidx _ _ hs := hs
  latches _ _ _ hs := hs

/-- A marked run has no further step (R19). -/
theorem step_of_refused {s : State} {r : Refusal} (h : s.refused = some r) : step s = .refused r := by
  simp [step, fetch, h]

/-- A refused step leaves the state with the mark (R19, log 8). -/
theorem markedStep_of_refused {s : State} {r : Refusal} (h : step s = .refused r) :
    markedStep s = .next (s.markRefused r) := by
  simp [markedStep, h]

theorem State.markRefused_of_none {s : State} (h : s.refused = none) (r : Refusal) :
    (s.markRefused r).refused = some r := by
  simp [State.markRefused, h]

theorem State.markRefused_of_some {s : State} {r : Refusal} (h : s.refused = some r) (r' : Refusal) :
    s.markRefused r' = s := by
  simp [State.markRefused, h]

/-- Settles O3: that the trace begins with that of the start is stable under everything an operation does. -/
theorem traceAppendOnly : Obligations.TraceAppendOnly :=
  fun s _ ht => (stable_trace s.trace).step (fun _ _ hs => hs) ⟨[], by simp⟩ ht

/-- Settles O4: a refused step marks, a marked run only refuses, and no completing step writes the mark. -/
theorem refusedIsSticky : Obligations.RefusedIsSticky := by
  refine ⟨fun s r h0 h => ⟨_, markedStep_of_refused h, State.markRefused_of_none h0 r⟩, fun s t r hr h => ?_,
    fun s t h0 h => (stable_refused none).step (fun _ _ hs => hs) h0 h⟩
  rw [markedStep_of_refused (step_of_refused hr), State.markRefused_of_some hr] at h
  cases h
  exact hr

/-- Settles O57: an operation that is not the Host's is moves, which keep the Sequencer and emit events of the bus only;
and a BLIT leaves `SEQ_PC` alone. -/
theorem statusOnlyByHostOperations : Obligations.StatusOnlyByHostOperations := by
  intro i s t hs ht
  refine ⟨fun hi => ?_, fun hi => ?_, fun hi => ?_⟩
  · obtain ⟨u, res, hm, rfl⟩ := exec_moves_of_idle hi hs ht
    obtain ⟨hstate, hpc, hx0, hy0, hx1, hy1, hlen, hidx, hstatus, -⟩ := hm.keepsSequencer
    exact ⟨hstatus, hstate, hpc, hx0, hy0, hx1, hy1, hlen, hidx⟩
  · by_cases hh : isHostOp i = true
    · cases i with
      | init => exact absurd rfl hi
      | blit r pb => exact exec_blit_seqPc ht
      | _ => cases hh
    · obtain ⟨u, res, hm, rfl⟩ := exec_moves_of_idle (by simpa using hh) hs ht
      exact hm.keepsSequencer.seqPc
  · obtain ⟨u, res, hm, rfl⟩ := exec_moves_of_idle hi hs ht
    obtain ⟨es, htr, hbus⟩ := hm.trace
    exact ⟨es, htr, fun hmem => (by cases hbus _ hmem), fun st hmem => (by cases hbus _ hmem)⟩

end Sys2Proof.Machine
end

section
/-! A frame where line calls can fail (10_state.md R12 to R16, 40_bus_framer.md R84 to R86, R91): what it leaves of the
driver, and which of its bytes the Receiver has taken. -/

namespace Sys2Proof.Machine

/-! ### One line write -/

@[simp] theorem afterLineCall_recv (s : State) : (afterLineCall s).recv = s.recv := by
  unfold afterLineCall
  split <;> rfl

@[simp] theorem afterLineCall_cfg (s : State) : (afterLineCall s).cfg = s.cfg := by
  unfold afterLineCall
  split <;> rfl

@[simp] theorem afterLineCall_dc (s : State) : (afterLineCall s).dc = s.dc := by
  unfold afterLineCall
  split <;> rfl

@[simp] theorem afterLineCall_rst (s : State) : (afterLineCall s).rst = s.rst := by
  unfold afterLineCall
  split <;> rfl

theorem KeepsDriver.afterLineCall (s : State) : KeepsDriver s (afterLineCall s) := by
  unfold Machine.afterLineCall
  split <;> constructor <;> rfl

/-- A write that returned drove the line to the level asked for (R81). -/
theorem writeLine_eq_ok {w : LineWrite} {s t : State} (h : writeLine w s = .ok t) :
    driveLine w ((afterLineCall s).emit (.line w)) = .ok t := by
  unfold writeLine at h
  split at h
  · split at h
    · cases hd : driveLine w ((afterLineCall s).emit (.line w)) <;> simp_all
    · cases hd : driveLine (drawnLevel w.line (s.drawAt 0).level) ((afterLineCall s).emit (.line w)) <;> simp_all
  · cases h

/-- A write that returned or raised drove the line to one of its levels (R81, D9). -/
theorem writeLine_all {P : State → Prop} {w : LineWrite} {s : State}
    (hP : ∀ w' t, w'.line = w.line → driveLine w' ((afterLineCall s).emit (.line w)) = .ok t → P t) :
    (writeLine w s).All P := by
  unfold writeLine
  split
  · split
    · cases hd : driveLine w ((afterLineCall s).emit (.line w)) with
      | ok t => exact hP w t rfl hd
      | error e => trivial
    · cases hd : driveLine (drawnLevel w.line (s.drawAt 0).level) ((afterLineCall s).emit (.line w)) with
      | ok t => exact hP _ t (drawnLevel_line _ _) hd
      | error e => trivial
  · trivial

/-- A level of another line than reset is nothing to the Receiver (R103, R144). -/
theorem driveLine_recv {w : LineWrite} {s t : State} (hw : w.line ≠ .rst) (h : driveLine w s = .ok t) :
    t.recv = s.recv := by
  cases w with
  | rst l => exact absurd rfl hw
  | _ l =>
    cases h
    rfl

/-- A level of a framing line is all that changes of the driver (R81). -/
theorem driveLine_keepsDriver {w : LineWrite} {s t : State} (hw : w.line = .cs ∨ w.line = .dc)
    (h : driveLine w s = .ok t) : KeepsDriver s t := by
  cases w with
  | cs l =>
    cases h
    constructor <;> rfl
  | dc l =>
    cases h
    constructor <;> rfl
  | rst l => simp [LineWrite.line] at hw
  | bl l => simp [LineWrite.line] at hw

theorem writeLine_recv {w : LineWrite} (hw : w.line ≠ .rst) (s : State) :
    (writeLine w s).All fun t => t.recv = s.recv :=
  writeLine_all fun _ _ hl hd => (driveLine_recv (hl ▸ hw) hd).trans (by simp)

theorem KeepsDriver.emit {s t : State} (h : KeepsDriver s t) (e : Event) : KeepsDriver s (t.emit e) :=
  h.trans (by constructor <;> rfl)

theorem writeLine_keepsDriver {w : LineWrite} (hw : w.line = .cs ∨ w.line = .dc) (s : State) :
    (writeLine w s).All (KeepsDriver s) :=
  writeLine_all fun _ _ hl hd =>
    ((KeepsDriver.afterLineCall s).emit _).trans (driveLine_keepsDriver (hl ▸ hw) hd)

/-! ### One transfer -/

/-- A transfer that returned: the Receiver took every byte (R83). -/
theorem transportWrite_eq_ok {bytes : List Byte} {s t : State} (h : transportWrite bytes s = .ok t) :
    ∃ r, takeBytes s.cfg s.pins bytes s.recv = .ok r ∧
      t = (s.afterDraw.emit (.xfer bytes true bytes.length)).setRecv r := by
  by_cases ht : s.tInit = true
  · by_cases hb : bytes = []
    · simp [transportWrite, ht, hb] at h
    · rw [transportWrite_eq ht hb] at h
      split at h
      · cases hr : takeBytes s.cfg s.pins bytes s.recv <;> simp_all
      · split at h
        · cases h
        · cases hr : takeBytes s.cfg s.pins (bytes.take (failedCount s bytes)) s.recv <;> simp_all
  · simp [transportWrite, ht] at h

/-- A transfer that failed: the Receiver took the first of its bytes (R83, D10). -/
theorem transportWrite_eq_raised {bytes : List Byte} {s t : State} (h : transportWrite bytes s = .raised t) :
    ∃ k r, takeBytes s.cfg s.pins (bytes.take k) s.recv = .ok r ∧
      t = (s.afterDraw.emit (.xfer bytes false k)).setRecv r := by
  by_cases ht : s.tInit = true
  · by_cases hb : bytes = []
    · simp [transportWrite, ht, hb] at h
    · rw [transportWrite_eq ht hb] at h
      split at h
      · cases hr : takeBytes s.cfg s.pins bytes s.recv <;> simp_all
      · split at h
        · cases h
        · cases hr : takeBytes s.cfg s.pins (bytes.take (failedCount s bytes)) s.recv with
          | error e => simp [hr] at h
          | ok r =>
            rw [hr] at h
            cases h
            exact ⟨_, r, hr, rfl⟩
  · simp [transportWrite, ht] at h

theorem transportWrite_keepsDriver (bytes : List Byte) (s : State) :
    (transportWrite bytes s).All (KeepsDriver s) := by
  cases h : transportWrite bytes s with
  | ok t =>
    obtain ⟨r, -, rfl⟩ := transportWrite_eq_ok h
    constructor <;> rfl
  | raised t =>
    obtain ⟨k, r, -, rfl⟩ := transportWrite_eq_raised h
    constructor <;> rfl
  | stopped w => trivial

/-! ### One frame -/

/-- The end of a frame keeps what its last chip-select write keeps (R84, R91). -/
theorem Result.All.endFrame {P : State → Prop} {x : Result} (hx : x.All P)
    (hP : ∀ u, P u → (writeLine (.cs .deasserted) u).All P) : (endFrame x).All P := by
  cases x with
  | ok u => exact hP u hx
  | raised u => exact (hP u hx).bind fun _ hv => hv
  | stopped w => trivial

/-- Inside a frame the Receiver sees the frame's class and an asserted chip-select (R60, R61). -/
theorem openFrame_eq_ok {cls : ByteClass} {s t : State}
    (h : (writeLine (.dc cls) s).bind (writeLine (.cs .asserted)) = .ok t) :
    t.cfg = s.cfg ∧ t.pins = framePins s cls ∧ t.recv = s.recv := by
  obtain ⟨u, hdc, hcs⟩ := Result.bind_eq_ok h
  obtain rfl := Except.ok.inj (writeLine_eq_ok hdc)
  obtain rfl := Except.ok.inj (writeLine_eq_ok hcs)
  simp [State.pins, framePins]

theorem openFrame_recv (cls : ByteClass) (s : State) :
    ((writeLine (.dc cls) s).bind (writeLine (.cs .asserted))).All fun t => t.recv = s.recv :=
  (writeLine_recv (w := .dc cls) (by simp [LineWrite.line]) s).bind fun u hu =>
    (writeLine_recv (w := .cs .asserted) (by simp [LineWrite.line]) u).mono fun _ ht => ht.trans hu

theorem sendFrame_keepsDriver (cls : ByteClass) (bytes : List Byte) (s : State) :
    (sendFrame cls bytes s).All (KeepsDriver s) := by
  have cs : ∀ l u, KeepsDriver s u → (writeLine (.cs l) u).All (KeepsDriver s) := fun l u hu =>
    (writeLine_keepsDriver (w := .cs l) (.inl rfl) u).mono fun _ hv => hu.trans hv
  have opened := (writeLine_keepsDriver (w := .dc cls) (.inr rfl) s).bind (cs .asserted)
  refine opened.bind fun u hu => ?_
  have sent := (transportWrite_keepsDriver bytes u).mono fun _ hv => hu.trans hv
  exact sent.endFrame (cs .deasserted)

/-- A frame that returned: the Receiver took every byte, whether or not line calls can fail (R84 to R86). -/
theorem takeBytes_of_sendFrame_ok {cls : ByteClass} {bytes : List Byte} {s t : State}
    (h : sendFrame cls bytes s = .ok t) : takeBytes s.cfg (framePins s cls) bytes s.recv = .ok t.recv := by
  obtain ⟨u, hopen, h⟩ := Result.bind_eq_ok h
  obtain ⟨hcfg, hpins, hrecv⟩ := openFrame_eq_ok hopen
  cases hw : transportWrite bytes u with
  | ok v =>
    rw [hw] at h
    obtain ⟨r, hr, rfl⟩ := transportWrite_eq_ok hw
    have hclose := driveLine_recv (by simp [LineWrite.line]) (writeLine_eq_ok h)
    rw [← hcfg, ← hpins, ← hrecv, hr, hclose]
    simp
  | raised v =>
    rw [hw] at h
    obtain ⟨_, -, h⟩ := Result.bind_eq_ok h
    cases h
  | stopped w =>
    rw [hw] at h
    cases h

/-- A frame that returned or raised: the Receiver took the first of its bytes, or none (R83, R91, D9). -/
theorem takeBytes_of_sendFrame (cls : ByteClass) (bytes : List Byte) (s : State) :
    (sendFrame cls bytes s).All fun t => ∃ k, takeBytes s.cfg (framePins s cls) (bytes.take k) s.recv = .ok t.recv := by
  have hopened := openFrame_recv cls s
  unfold sendFrame
  cases hopen : (writeLine (.dc cls) s).bind (writeLine (.cs .asserted)) with
  | stopped w => trivial
  | raised u =>
    rw [hopen] at hopened
    exact ⟨0, congrArg Except.ok hopened.symm⟩
  | ok u =>
    obtain ⟨hcfg, hpins, hrecv⟩ := openFrame_eq_ok hopen
    rw [← hcfg, ← hpins, ← hrecv]
    have sent : (transportWrite bytes u).All fun v => ∃ k, takeBytes u.cfg u.pins (bytes.take k) u.recv = .ok v.recv := by
      cases hw : transportWrite bytes u with
      | ok v =>
        obtain ⟨r, hr, rfl⟩ := transportWrite_eq_ok hw
        exact ⟨bytes.length, by rw [List.take_length]; exact hr⟩
      | raised v =>
        obtain ⟨k, r, hr, rfl⟩ := transportWrite_eq_raised hw
        exact ⟨k, hr⟩
      | stopped w => trivial
    refine sent.endFrame fun v ⟨k, hk⟩ => (writeLine_recv (by simp [LineWrite.line]) v).mono fun t ht => ⟨k, ?_⟩
    rw [hk, ht]

/-! ### Sequences of frames -/

/-- The frames of a parameter group keep what each of them keeps (R93). -/
theorem sendParams_all {P : State → Prop} (hP : ∀ bytes u, P u → (sendFrame .data bytes u).All P) (ps : List Byte)
    {s : State} (hs : P s) : (sendParams ps s).All P := by
  have each : ∀ (bs : List Byte) (u : State), P u → (sendEach bs u).All P := by
    intro bs
    induction bs with
    | nil => exact fun u hu => hu
    | cons b bs ih => exact fun u hu => (hP [b] u hu).bind ih
  unfold sendParams
  split
  · exact hs
  · split
    · unfold sendDataBlock
      split
      · trivial
      · exact hP _ s hs
    · exact each ps s hs

theorem sendParams_keepsDriver (ps : List Byte) (s : State) : (sendParams ps s).All (KeepsDriver s) :=
  sendParams_all (fun bytes u hu => (sendFrame_keepsDriver .data bytes u).mono fun _ hv => hu.trans hv) ps (.refl s)

theorem exchange_keepsDriver (cmd : Cmd) (ps : List Byte) (s : State) : (exchange cmd ps s).All (KeepsDriver s) :=
  (sendFrame_keepsDriver .command _ s).bind fun u hu => (sendParams_keepsDriver ps u).mono fun _ hv => hu.trans hv

theorem sendDataBlock_keepsDriver (bytes : List Byte) (n : Nat) (s : State) :
    (sendDataBlock bytes n s).All (KeepsDriver s) := by
  unfold sendDataBlock
  split
  · trivial
  · exact sendFrame_keepsDriver _ _ s

theorem windowSet_keepsDriver (x0 y0 x1 y1 : Half) (s : State) : (windowSet x0 y0 x1 y1 s).All (KeepsDriver s) :=
  ((exchange_keepsDriver .columnAddressSet _ s).bind fun u hu =>
    (exchange_keepsDriver .rowAddressSet _ u).mono fun _ hv => hu.trans hv).bind fun u hu =>
      (sendFrame_keepsDriver .command _ u).mono fun _ hv => hu.trans hv

/-- Settles O23: each form that moves bytes in frames keeps the driver, and with nothing in flight its call ends in a
result for its caller only. -/
theorem framesKeepTheDriver : Obligations.FramesKeepTheDriver := by
  intro i s t hi hs ht
  have call : ∀ {x : Result}, x.All (KeepsDriver s) → endCall x = .next t → KeepsDriver s t := by
    intro x hx he
    obtain ⟨u, res, hu, rfl⟩ := endCall_idle hx (fun u hu => by simpa [State.inFlight, hu.seqState] using hs) he
    exact hu.trans (by constructor <;> rfl)
  cases instrForm i with
  | wire cmd ps =>
    rw [exec_instrOfCmd] at ht
    exact call (exchange_keepsDriver cmd _ s) ht
  | pixelData b => exact call (sendFrame_keepsDriver _ _ s) ht
  | unknownCommand b => exact call (sendFrame_keepsDriver _ _ s) ht
  | sendCommand b => exact call (sendFrame_keepsDriver _ _ s) ht
  | sendData b => exact call (sendFrame_keepsDriver _ _ s) ht
  | sendDataBlock bytes n => exact call (sendDataBlock_keepsDriver bytes n s) ht
  | sendParams ps => exact call (sendParams_keepsDriver ps s) ht
  | windowSet x0 y0 x1 y1 => exact call (windowSet_keepsDriver x0 y0 x1 y1 s) ht
  | _ => simp [isFrameOp] at hi

end Sys2Proof.Machine
end

section
/-! The cells of the frame memory (10_state.md R28): no command byte but SOFTWARE_RESET's and no parameter byte writes one. -/

namespace Sys2Proof.Machine

/-! ### At the Receiver -/

@[simp] theorem trackerDone_fm (cmd : Cmd) (r : Receiver) : (trackerDone cmd r).fm = r.fm := by
  obtain h | ⟨-, h⟩ := trackerDone_cases cmd r <;> rw [h]

@[simp] theorem trackerDone_cCmd (cmd : Cmd) (r : Receiver) : (trackerDone cmd r).cCmd = r.cCmd := by
  obtain h | ⟨-, h⟩ := trackerDone_cases cmd r <;> rw [h]

theorem trackerStart_keepsCells {cmd : Cmd} {r r' : Receiver} (h : trackerStart cmd r = .ok r') :
    r'.fm = r.fm ∧ r'.cCmd = r.cCmd := by
  obtain rfl | rfl := trackerStart_cases h
  · exact ⟨rfl, rfl⟩
  · exact ⟨rfl, rfl⟩

/-- MEMORY_WRITE moves the pointer and writes no cell (R129). -/
theorem memoryWriteEffect_keepsCells {c : Config} {r r' : Receiver} (h : memoryWriteEffect c r = .ok r') :
    r'.fm = r.fm ∧ r'.cCmd = r.cCmd := by
  unfold memoryWriteEffect at h
  split at h
  · split at h
    · cases h
      exact ⟨rfl, rfl⟩
    · cases h
  · cases h

/-- Only SOFTWARE_RESET clears cells at its command byte (R110). -/
theorem commandEffect_keepsCells {c : Config} {cmd : Cmd} {r r' : Receiver} (hm : cmd ≠ .softwareReset)
    (h : commandEffect c cmd r = .ok r') : r'.fm = r.fm ∧ r'.cCmd = r.cCmd := by
  cases cmd with
  | softwareReset => exact absurd rfl hm
  | memoryWrite => exact memoryWriteEffect_keepsCells h
  | _ =>
    cases h
    exact ⟨rfl, rfl⟩

/-- After a command byte other than SOFTWARE_RESET's the command is current and the cells are as they were (R101). -/
theorem runCommand_keepsCells {c : Config} {cmd : Cmd} {r r' : Receiver} (hm : cmd ≠ .softwareReset)
    (h : runCommand c cmd r = .ok r') : r'.fm = r.fm ∧ r'.cCmd = some cmd := by
  unfold runCommand at h
  split at h
  · cases h
  · rename_i r1 hstart
    obtain ⟨hfm1, hcmd1⟩ := trackerStart_keepsCells hstart
    have hfm1 : r1.fm = r.fm := hfm1.trans (endGroup_fm c r)
    split at h
    · cases h
    · rename_i r2 heffect
      obtain ⟨hfm2, hcmd2⟩ := commandEffect_keepsCells hm heffect
      cases h
      split
      · simp [hfm2, hfm1, hcmd2, hcmd1]
      · exact ⟨hfm2.trans hfm1, hcmd2.trans hcmd1⟩

/-- The bytes of a command frame that arrived: its one byte, or nothing (R83, R84). -/
theorem takeBytes_command_keepsCells {c : Config} (hc : c.Wf) {p : Pins} (hp : p.dc = some .command) {cmd : Cmd}
    (hm : cmd ≠ .softwareReset) {k : Nat} {r r' : Receiver}
    (h : takeBytes c p ([c.codes.get cmd].take k) r = .ok r') :
    r'.fm = r.fm ∧ (0 < k → r'.cCmd = some cmd) := by
  cases k with
  | zero =>
    cases h
    exact ⟨rfl, fun h => absurd h (Nat.lt_irrefl 0)⟩
  | succ k =>
    rw [List.take_succ_cons, List.take_nil, takeBytes_singleton] at h
    obtain ⟨-, -, -, -, ⟨-, h⟩ | ⟨hd, -⟩⟩ := takeByte_cases h
    · rw [takeCommand_get hc] at h
      obtain ⟨hfm, hcmd⟩ := runCommand_keepsCells hm h
      exact ⟨hfm, fun _ => hcmd⟩
    · simp [hp] at hd

/-- A commit writes window or configuration registers only (R102). -/
@[simp] theorem commitEffect_fm (cmd : Cmd) (r : Receiver) : (commitEffect cmd r).fm = r.fm := by
  cases cmd with
  | columnAddressSet =>
    simp only [commitEffect, columnAddressSetCommit]
    split <;> rfl
  | rowAddressSet =>
    simp only [commitEffect, rowAddressSetCommit]
    split <;> rfl
  | vrh =>
    simp only [commitEffect, vrhCommit]
    split <;> rfl
  | vdv =>
    simp only [commitEffect, vdvCommit]
    split <;> rfl
  | _ => rfl

/-- A parameter byte writes no cell and leaves its command current (R102). -/
theorem takeParam_keepsCells {c : Config} {cmd : Cmd} {b : Byte} {r r' : Receiver} (h : takeParam c cmd b r = .ok r') :
    r'.fm = r.fm ∧ r'.cCmd = r.cCmd := by
  unfold takeParam at h
  split at h
  · cases h
  · split at h
    · cases h
    · cases h
      split
      · obtain ⟨-, -, -, -, hcmd, -⟩ := commitEffect_keeps cmd (pushParam b r)
        exact ⟨by simp [pushParam], by rw [trackerDone_cCmd, hcmd]; rfl⟩
      · exact ⟨rfl, rfl⟩

/-- Data bytes under a command other than MEMORY_WRITE are parameters: they write no cell (R102). -/
theorem takeBytes_params_keepsCells {c : Config} {p : Pins} (hp : p.dc = some .data) {cmd : Cmd}
    (hm : cmd ≠ .memoryWrite) {bs : List Byte} {r r' : Receiver} (hr : r.cCmd = some cmd)
    (h : takeBytes c p bs r = .ok r') : r'.fm = r.fm ∧ r'.cCmd = some cmd := by
  induction bs generalizing r with
  | nil =>
    cases h
    exact ⟨rfl, hr⟩
  | cons b bs ih =>
    rw [takeBytes_cons] at h
    cases hb : takeByte c p b r with
    | error e =>
      rw [hb] at h
      cases h
    | ok r1 =>
      rw [hb] at h
      obtain ⟨-, -, -, -, ⟨hd, -⟩ | ⟨-, hdata⟩⟩ := takeByte_cases hb
      · simp [hp] at hd
      · simp only [takeData, hr, if_neg hm] at hdata
        obtain ⟨hfm, hcmd⟩ := takeParam_keepsCells hdata
        obtain ⟨hfm', hcmd'⟩ := ih (hcmd.trans hr) h
        exact ⟨hfm'.trans hfm, hcmd'⟩

/-! ### On the bus -/

theorem Result.All.and {P Q : State → Prop} {x : Result} (hP : x.All P) (hQ : x.All Q) : x.All fun t => P t ∧ Q t := by
  cases x with
  | ok t => exact ⟨hP, hQ⟩
  | raised t => exact ⟨hP, hQ⟩
  | stopped w => trivial

/-- A command frame writes no cell, and leaves its command current where it returned (R84, R101). -/
theorem commandFrame_keepsCells {cmd : Cmd} (hm : cmd ≠ .softwareReset) {s : State} (hc : s.cfg.Wf) :
    ((sendCommand (s.cfg.codes.get cmd) s).All fun t => t.recv.fm = s.recv.fm) ∧
      ∀ t, sendCommand (s.cfg.codes.get cmd) s = .ok t → t.recv.cCmd = some cmd := by
  refine ⟨(takeBytes_of_sendFrame .command _ s).mono fun t ⟨k, hk⟩ =>
    (takeBytes_command_keepsCells hc rfl hm hk).1, fun t ht => ?_⟩
  exact (takeBytes_command_keepsCells hc rfl hm (k := 1) (takeBytes_of_sendFrame_ok ht)).2 Nat.one_pos

/-- A parameter group under its command writes no cell (R102). -/
theorem sendParams_keepsCells {cmd : Cmd} (hm : cmd ≠ .memoryWrite) (ps : List Byte) {s : State}
    (hs : s.recv.cCmd = some cmd) : (sendParams ps s).All fun t => t.recv.fm = s.recv.fm := by
  have group : (sendParams ps s).All fun t => t.recv.fm = s.recv.fm ∧ t.recv.cCmd = some cmd := by
    refine sendParams_all (fun bytes u hu => (takeBytes_of_sendFrame .data bytes u).mono fun t ⟨k, hk⟩ => ?_) ps
      ⟨rfl, hs⟩
    obtain ⟨hfm, hcmd⟩ := takeBytes_params_keepsCells rfl hm hu.2 hk
    exact ⟨hfm.trans hu.1, hcmd⟩
  exact group.mono fun _ ht => ht.1

/-- An exchange writes no cell, unless it is SOFTWARE_RESET's or carries pixels (R28). -/
theorem exchange_keepsCells {cmd : Cmd} {ps : List Byte} (hr : cmd ≠ .softwareReset) (hp : cmd = .memoryWrite → ps = [])
    {s : State} (hc : s.cfg.Wf) : (exchange cmd ps s).All fun t => t.recv.fm = s.recv.fm := by
  obtain ⟨hcells, hcurrent⟩ := commandFrame_keepsCells hr hc
  unfold exchange
  cases hx : sendCommand (s.cfg.codes.get cmd) s with
  | stopped w => trivial
  | raised u =>
    rw [hx] at hcells
    exact hcells
  | ok u =>
    rw [hx] at hcells
    rw [Result.bind_ok]
    by_cases hm : cmd = .memoryWrite
    · rw [hp hm]
      exact hcells
    · exact (sendParams_keepsCells hm ps (hcurrent u hx)).mono fun _ ht => ht.trans hcells

/-- WINDOW_SET writes no cell (R160). -/
theorem windowSet_keepsCells (x0 y0 x1 y1 : Half) {s : State} (hc : s.cfg.Wf) :
    (windowSet x0 y0 x1 y1 s).All fun t => t.recv.fm = s.recv.fm := by
  have exch : ∀ (cmd : Cmd) (ps : List Byte), cmd ≠ .softwareReset → cmd ≠ .memoryWrite → ∀ u,
      u.cfg.Wf ∧ u.recv.fm = s.recv.fm →
      (exchange cmd ps u).All fun t => t.cfg.Wf ∧ t.recv.fm = s.recv.fm := fun cmd ps hr hm u ⟨hu, hfm⟩ =>
    ((exchange_keepsDriver cmd ps u).and (exchange_keepsCells hr (fun h => absurd h hm) hu)).mono
      fun t ⟨hk, ht⟩ => ⟨hk.cfg ▸ hu, ht.trans hfm⟩
  have window := (exch .columnAddressSet (addressParams x0 x1) (by simp) (by simp) s ⟨hc, rfl⟩).bind
    (exch .rowAddressSet (addressParams y0 y1) (by simp) (by simp))
  refine (window.bind fun u ⟨hu, hfm⟩ => ?_).mono fun t ht => ht.2
  exact ((sendFrame_keepsDriver .command _ u).and (commandFrame_keepsCells (cmd := .memoryWrite) (by simp) hu).1).mono
    fun t ⟨hk, ht⟩ => ⟨hk.cfg ▸ hu, ht.trans hfm⟩

/-! ### As operations -/

theorem configureOutputLine_recv (l : Line) (s : State) : (configureOutputLine l s).All fun t => t.recv = s.recv := by
  unfold configureOutputLine
  split
  · simp [Result.All]
  · simp [Result.All]

theorem transportInit_recv (s : State) : (transportInit s).All fun t => t.recv = s.recv := by
  unfold transportInit
  split
  · exact rfl
  · exact rfl

@[simp] theorem takeTransportError_recv (s : State) : (takeTransportError s).recv = s.recv := by
  unfold takeTransportError State.releaseOnFailure
  split
  · split <;> rfl
  · rfl

/-- The end of a call leaves the Receiver alone (R84, R184). -/
theorem endCall_recv {P : Receiver → Prop} {x : Result} {t : State} (hx : x.All fun u => P u.recv)
    (ht : endCall x = .next t) : P t.recv := by
  obtain ⟨u, rfl, rfl⟩ | ⟨u, rfl, rfl⟩ := endCall_eq_next ht
  · exact hx
  · rw [State.setResult_recv]
    split
    · rw [takeTransportError_recv]
      exact hx
    · exact hx

/-- Settles O39: each form that sends no pixel and resets nothing keeps the cells, and so does the end of its call. -/
theorem frameMemoryOnlyByPixels : Obligations.FrameMemoryOnlyByPixels := by
  intro i s t hc hi ht
  have call : ∀ {x : Result}, (x.All fun u => u.recv.fm = s.recv.fm) → endCall x = .next t → t.recv.fm = s.recv.fm :=
    fun hx he => endCall_recv (P := fun r => r.fm = s.recv.fm) hx he
  have still : ∀ {x : Result}, (x.All fun u => u.recv = s.recv) → endCall x = .next t → t.recv.fm = s.recv.fm :=
    fun hx he => call (hx.mono fun _ hu => congrArg Receiver.fm hu) he
  cases instrForm i with
  | wire cmd ps =>
    rw [exec_instrOfCmd] at ht
    refine call (exchange_keepsCells ?_ ?_ hc) ht
    · rintro rfl
      cases hi
    · rintro rfl
      rfl
  | configureOutputLine l => exact still (configureOutputLine_recv l s) ht
  | writeLine w =>
    refine still (writeLine_recv (w := w) ?_ s) ht
    cases w with
    | rst l => cases hi
    | _ => simp [LineWrite.line]
  | transportInit => exact still (transportInit_recv s) ht
  | sleepMs n => exact call (x := .ok (sleepMs n s)) rfl ht
  | windowSet x0 y0 x1 y1 => exact call (windowSet_keepsCells x0 y0 x1 y1 hc) ht
  | _ => cases hi

end Sys2Proof.Machine
end

section
/-! The state at power-on (10_state.md R30, R31). -/

namespace Sys2Proof.Machine

/-- Settles O1: each item is a field of the state at power-on; the registers are one table of `none`, and no cell is
listed. -/
theorem powerOnState : Obligations.PowerOnState := by
  unfold Obligations.PowerOnState
  have regs : ∀ reg, State.reset.recv.regs.get reg = none := RegTable.get_const none
  have cells : ∀ row col, fmRead State.reset.recv.fm row col = none := fun _ _ => rfl
  simp only [regs, cells]
  simp [State.reset, Receiver.powerOn]

theorem State.Inv.reset : State.reset.Inv where
  cfg := by decide
  recv := .powerOn Config.default
  pc := Nat.zero_le 33
  idle := rfl

/-- Settles O53: the Receiver at power-on is good, and a block that is `UNINIT` owes the Host nothing. -/
theorem resetInvariant : Obligations.ResetInvariant := by
  have notReady : State.reset.seqState ≠ .ready := by decide
  exact ⟨.reset, .reset, fun h => absurd h notReady, fun h => absurd h notReady⟩

end Sys2Proof.Machine
end

section
/-! The steps that run no operation (20_memory.md R50, R54, 60_exceptions.md R200, 10_state.md R19). -/

namespace Sys2Proof.Machine

theorem fetch_of_nil {s : State} (h0 : s.refused = none) (hp : s.pending = []) : fetch s = .idle := by
  simp [fetch, h0, hp]

theorem fetch_of_hostBufferWrite {s : State} {ws : List Word} (h0 : s.refused = none)
    (hp : s.pending = .hostBufferWrite :: ws) : fetch s = .hostBufferWrite (s.setPending ws) := by
  simp [fetch, h0, hp]

/-- The stream decodes to no operation: the fetch hands on why. -/
theorem fetch_of_decode_error {s : State} {w : Word} {ws : List Word} {e : DecodeError} (h0 : s.refused = none)
    (hp : s.pending = w :: ws) (hw : w ≠ .hostBufferWrite) (hd : decode s.cfg (w :: ws) = .error e) :
    fetch s = .undecodable e := by
  cases w with
  | hostBufferWrite => exact absurd rfl hw
  | wire c b => simp [fetch, h0, hp, hd]
  | call n a b => simp [fetch, h0, hp, hd]

/-- Settles O9: what the fetch answers in each of the cases is what the step does with it. -/
theorem stepWithoutOperation : Obligations.StepWithoutOperation := by
  refine ⟨fun s h0 hp => ?idle, fun s w ws e h0 hp hw hd => ?undecodable, fun s ws h0 hp hq => ?write,
    fun s ws h0 hp hq => ?writeInBlit, fun s r hr => step_of_refused hr⟩
  case idle => rw [step, fetch_of_nil h0 hp]
  case undecodable => rw [step, fetch_of_decode_error h0 hp hw hd]
  case write =>
    rw [step, fetch_of_hostBufferWrite h0 hp]
    exact if_neg hq
  case writeInBlit =>
    rw [step, fetch_of_hostBufferWrite h0 hp]
    exact if_pos hq

end Sys2Proof.Machine
end

section
/-! What every step keeps: the Receiver's invariant (10_state.md R21 to R28), `SEQ_PC` in range (R13), and no operation left in
flight (log 17). -/

namespace Sys2Proof.Machine

/-! ### One step, by what the fetch answers -/

/-- What a next state of a step is: the state with another stream, or what an operation taken from the stream leaves. -/
theorem step_eq_next {s t : State} (h : step s = .next t) :
    ∃ ws, t = s.setPending ws ∨ ∃ i, exec i (s.setPending ws) = .next t := by
  unfold step at h
  cases hf : fetch s with
  | dead r => simp [hf] at h
  | undecodable e => simp [hf] at h
  | idle =>
    obtain rfl : s = t := by simpa [hf] using h
    exact ⟨s.pending, .inl rfl⟩
  | hostBufferWrite u =>
    obtain ⟨ws, rfl⟩ := fetch_hostBufferWrite hf
    simp only [hf, hostBufferWrite] at h
    split at h
    · cases h
    · exact ⟨ws, .inl (by simpa using h.symm)⟩
  | run i u =>
    obtain ⟨ws, -, rfl⟩ := fetch_run hf
    exact ⟨ws, .inr ⟨i, by simpa [hf] using h⟩⟩

/-! ### The Receiver -/

/-- The parameters are `c` and the Receiver is good for them, between two steps or inside an operation. -/
structure ReceiverGood (c : Config) (s : State) : Prop where
  cfg : s.cfg = c
  recv : ReceiverOk c s.recv

/-- The three moves that reach the Receiver keep it good: the reset line, bytes and time (R100 to R107). -/
theorem Move.receiverOk {s t : State} (h : Move s t) (hr : ReceiverOk s.cfg s.recv) : ReceiverOk s.cfg t.recv := by
  cases h with
  | rst w l r h => exact hr.resetLine h
  | bytes bs r h => exact hr.takeBytes h
  | sleep n => exact hr.passTime s.rst.level n
  | configure l => cases l <;> exact hr
  | _ => exact hr

theorem stable_receiverGood (c : Config) : Stable (ReceiverGood c) where
  move s t hm hs := by
    obtain ⟨rfl, hr⟩ := hs
    exact ⟨hm.cfg, hm.receiverOk hr⟩
  event _ _ hs := ⟨hs.cfg, hs.recv⟩
  pc _ _ hs := ⟨hs.cfg, hs.recv⟩
  seqState _ _ hs := ⟨hs.cfg, hs.recv⟩
  status _ _ hs := ⟨hs.cfg, hs.recv⟩
  result _ _ hs := ⟨hs.cfg, hs.recv⟩
  bidx _ _ hs := ⟨hs.cfg, hs.recv⟩
  latches _ _ _ hs := ⟨hs.cfg, hs.recv⟩

/-! ### The program of INIT -/

/-- After a part of which more holds than is wanted in the end. -/
theorem Result.All.bindWeaken {P Q : State → Prop} {x : Result} {f : State → Result} (h : x.All P)
    (hPQ : ∀ s, P s → Q s) (hf : ∀ s, P s → (f s).All Q) : (x.bind f).All Q := by
  cases x with
  | ok s => exact hf s h
  | raised s => exact hPQ s h
  | stopped w => trivial

/-- Every row before the last is followed by another; the last is terminal (R141, R151). -/
theorem initProgram_row (c : Config) {pc : Nat} (h : pc ≤ 33) :
    (pc = 33 ∧ (initProgram c)[pc]? = some .done) ∨
      (pc < 33 ∧ ∃ m, (initProgram c)[pc]? = some m ∧ m ≠ .done) := by
  obtain rfl | hlt := Nat.eq_or_lt_of_le h
  · exact .inl ⟨rfl, rfl⟩
  · refine .inr ⟨hlt, ?_⟩
    interval_cases pc <;> exact ⟨_, rfl, nofun⟩

/-- What a run of the program from a row of it does: the terminal step, or its row and the rows after it (R152). -/
theorem runProgram_succ (f : Nat) {s : State} (h : s.seqPc ≤ 33) :
    (s.seqPc = 33 ∧ runProgram (f + 1) s = .ok (initDone s)) ∨
      (s.seqPc < 33 ∧ ∃ m, m ≠ .done ∧
        runProgram (f + 1) s = (microStep m s).bind fun t => runProgram f t.advancePc) := by
  obtain ⟨hpc, hrow⟩ | ⟨hpc, m, hrow, hm⟩ := initProgram_row s.cfg h
  · exact .inl ⟨hpc, runProgram_done f hrow⟩
  · refine .inr ⟨hpc, m, hm, ?_⟩
    rw [runProgram, hrow]
    cases m with
    | done => exact absurd rfl hm
    | _ => rfl

/-- A row moves no `SEQ_PC`; the program advances it between rows (R152). -/
theorem microStep_seqPc {m : MicroStep} (hm : m ≠ .done) (s : State) :
    (microStep m s).All fun t => t.seqPc = s.seqPc :=
  (microStep_moves hm s).mono fun _ ht => ht.keepsSequencer.seqPc

/-- `SEQ_PC` stays in range, whether the program returns or raises (R13). -/
theorem runProgram_seqPc_le (f : Nat) {s : State} (h : s.seqPc ≤ 33) :
    (runProgram f s).All fun t => t.seqPc ≤ 33 := by
  induction f generalizing s with
  | zero => exact h
  | succ f ih =>
    obtain ⟨-, heq⟩ | ⟨hpc, m, hm, heq⟩ := runProgram_succ f h
    · rw [heq]
      exact h
    · rw [heq]
      refine (microStep_seqPc hm s).bindWeaken (fun t ht => ht.trans_le h) fun t ht => ih ?_
      rw [State.advancePc_seqPc, ht]
      exact hpc

/-- A program that is given a row to run for every row left returns from its terminal step: `READY` (R151). -/
theorem runProgram_ok_ready {f : Nat} {s t : State} (hpc : s.seqPc ≤ 33) (hf : 33 < s.seqPc + f)
    (h : runProgram f s = .ok t) : t.seqState = .ready := by
  induction f generalizing s with
  | zero => omega
  | succ f ih =>
    obtain ⟨-, heq⟩ | ⟨hlt, m, hm, heq⟩ := runProgram_succ f hpc
    · rw [heq] at h
      cases h
      rfl
    · rw [heq] at h
      obtain ⟨u, hu, hrest⟩ := Result.bind_eq_ok h
      have same := microStep_seqPc hm s
      rw [hu] at same
      have next : u.advancePc.seqPc = s.seqPc + 1 := congrArg (· + 1) same
      exact ih (by omega) (by omega) hrest

/-! ### Between two steps no operation is in flight -/

/-- A failure that is taken abandons the operation: `FAILED` (R184). -/
@[simp] theorem takeTransportError_idle (s : State) : (takeTransportError s).inFlight = false := rfl

theorem State.idle_of_ready {s : State} (h : s.seqState = .ready) : s.inFlight = false := by
  simp [State.inFlight, h]

/-- INIT and BLIT end at rest: `READY` where the body returns, `FAILED` where its failure is taken (R151, R162, R184). -/
theorem endOperation_idle {x : Result} {t : State} (hx : ∀ u, x = .ok u → u.seqState = .ready)
    (ht : endOperation x = .next t) : t.inFlight = false := by
  obtain hok | ⟨u, -, rfl⟩ := endOperation_eq_next ht
  · exact State.idle_of_ready (hx t hok)
  · exact takeTransportError_idle u

/-- What a next state after INIT is: no operation was in flight, and the program ended in it (R140, R153). -/
theorem exec_init_eq_next {s t : State} (ht : exec .init s = .next t) :
    s.inFlight = false ∧ endOperation (runProgram 34 (enterInit s)) = .next t := by
  simp only [exec, execInit] at ht
  split at ht
  case isTrue => cases ht
  case isFalse hs => exact ⟨by simpa using hs, ht⟩

theorem exec_init_idle {s t : State} (ht : exec .init s = .next t) : t.inFlight = false := by
  obtain ⟨-, hrun⟩ := exec_init_eq_next ht
  exact endOperation_idle (fun _ => runProgram_ok_ready (s := enterInit s) (Nat.zero_le 33) (by simp [enterInit])) hrun

theorem exec_init_seqPc_le {s t : State} (ht : exec .init s = .next t) : t.seqPc ≤ 33 := by
  obtain ⟨-, hrun⟩ := exec_init_eq_next ht
  have program := runProgram_seqPc_le 34 (s := enterInit s) (Nat.zero_le 33)
  obtain hx | ⟨u, hx, rfl⟩ := endOperation_eq_next hrun
  · rwa [hx] at program
  · rw [hx] at program
    rwa [takeTransportError_seqPc]

@[simp] theorem State.releaseOnFailure_seqState (s : State) : s.releaseOnFailure.seqState = s.seqState := by
  unfold State.releaseOnFailure
  split <;> rfl

/-- A rejected BLIT leaves `SEQ_STATE` alone (R185). -/
@[simp] theorem takeInvalidArgument_seqState (s : State) : (takeInvalidArgument s).seqState = s.seqState :=
  s.releaseOnFailure_seqState

theorem exec_blit_idle {r : Rect} {pb : List Byte} {s t : State} (ht : exec (.blit r pb) s = .next t) :
    t.inFlight = false := by
  obtain ⟨hready, ⟨-, hrun⟩ | ⟨-, rfl⟩⟩ := exec_blit_eq_next ht
  · refine endOperation_idle (fun u hu => ?_) hrun
    obtain ⟨v, -, hv⟩ := Result.bind_eq_ok hu
    cases hv
    rfl
  · apply State.idle_of_ready
    rwa [takeInvalidArgument_seqState]

/-- With no operation in flight none is left in flight by any operation: INIT and BLIT end what they begin, and the others
begin none (R11, R198). -/
theorem exec_idle {i : Instr} {s t : State} (hs : s.inFlight = false) (ht : exec i s = .next t) : t.inFlight = false := by
  by_cases hi : isHostOp i = true
  · cases i with
    | init => exact exec_init_idle ht
    | blit r pb => exact exec_blit_idle ht
    | _ => cases hi
  · obtain ⟨u, res, hm, rfl⟩ := exec_moves_of_idle (by simpa using hi) hs ht
    exact hm.idle hs

/-- No operation leaves `SEQ_PC` out of range: only INIT moves it (R13). -/
theorem exec_seqPc_le {i : Instr} {s t : State} (hs : s.inFlight = false) (hpc : s.seqPc ≤ 33)
    (ht : exec i s = .next t) : t.seqPc ≤ 33 := by
  by_cases hi : i = .init
  · subst hi
    exact exec_init_seqPc_le ht
  · obtain ⟨-, same, -⟩ := statusOnlyByHostOperations i s t hs ht
    exact (same hi).trans_le hpc

theorem State.Inv.setPending {s : State} (h : s.Inv) (ws : List Word) : (s.setPending ws).Inv :=
  ⟨h.cfg, h.recv, h.pc, h.idle⟩

/-- Every operation keeps the invariant. -/
theorem State.Inv.exec {i : Instr} {s t : State} (h : s.Inv) (ht : exec i s = .next t) : t.Inv := by
  obtain ⟨hcfg, hrecv⟩ := (stable_receiverGood s.cfg).exec ⟨rfl, h.recv⟩ ht
  rw [← hcfg] at hrecv
  exact ⟨hcfg ▸ h.cfg, hrecv, exec_seqPc_le h.idle h.pc ht, exec_idle h.idle ht⟩

/-- Settles O54: a step takes words from the stream, and runs at most one operation. -/
theorem stepKeepsInvariant : Obligations.StepKeepsInvariant := by
  intro s t h ht
  obtain ⟨ws, rfl | ⟨i, hi⟩⟩ := step_eq_next ht
  · exact h.setPending ws
  · exact (h.setPending ws).exec hi

end Sys2Proof.Machine
end

section
/-! Why no step faults (20_memory.md R43, 41_wire_commands.md R129, R130): the pointer of an armed Receiver is inside the panel,
and a transfer that cannot hang (U12) does not. -/

namespace Sys2Proof.Machine

/-! ### The Receiver -/

/-- An answer that is no fault: it is a value or a refusal. -/
def Faultless {α : Type} (x : Except Stop α) : Prop := ∀ f, x ≠ .error (.fault f)

theorem Faultless.ok {α : Type} (a : α) : Faultless (.ok a) := nofun

theorem Faultless.refused {α : Type} (r : Refusal) : Faultless (.error (.refused r) : Except Stop α) := nofun

theorem Faultless.error {α β : Type} {w : Stop} (h : Faultless (.error w : Except Stop α)) :
    Faultless (.error w : Except Stop β) :=
  fun f hf => h f (by cases hf; rfl)

theorem resetLine_faultless (c : Config) (prev : Option RstLevel) (new : RstLevel) (r : Receiver) :
    Faultless (resetLine c prev new r) := by
  unfold resetLine
  split
  · exact .ok _
  · split
    · split
      · exact .refused _
      · exact .ok _
    · exact .ok _

theorem trackerStart_faultless (cmd : Cmd) (r : Receiver) : Faultless (trackerStart cmd r) := by
  unfold trackerStart
  split
  · split
    · exact .ok _
    · exact .ok _
  · split
    · exact .ok _
    · exact .refused _

theorem memoryWriteEffect_faultless (c : Config) (r : Receiver) : Faultless (memoryWriteEffect c r) := by
  unfold memoryWriteEffect
  split
  · split
    · exact .ok _
    · exact .refused _
  · exact .refused _

theorem commandEffect_faultless (c : Config) (cmd : Cmd) (r : Receiver) : Faultless (commandEffect c cmd r) := by
  cases cmd with
  | memoryWrite => exact memoryWriteEffect_faultless c r
  | _ => exact .ok _

theorem takeCommand_faultless (c : Config) (b : Byte) (r : Receiver) : Faultless (takeCommand c b r) := by
  unfold takeCommand
  split
  · exact .refused _
  · rename_i cmd _
    unfold runCommand
    split
    case h_1 e he => exact (he ▸ trackerStart_faultless cmd _).error
    case h_2 r1 _ =>
      split
      case h_1 e he => exact (he ▸ commandEffect_faultless c cmd r1).error
      case h_2 => exact .ok _

/-- The window of R129 is inside the panel, and the pointer inside the window (R43, R130). -/
theorem PointerOk.inPanel {c : Config} {r : Receiver} (h : PointerOk c r) {row col : Nat} (hrow : r.wrow = some row)
    (hcol : r.wcol = some col) : inPanel c row col = true := by
  obtain ⟨x0, x1, y0, y1, col', row', ⟨-, -, -, -, hw⟩, hc, hr, -, hx, -, hy⟩ := h
  obtain rfl : col = col' := Option.some.inj (hcol.symm.trans hc)
  obtain rfl : row = row' := Option.some.inj (hrow.symm.trans hr)
  simp only [windowInPanel, decide_eq_true_eq] at hw
  simp only [Machine.inPanel, decide_eq_true_eq]
  omega

/-- A pixel of an armed Receiver has its cell (R43, R130). -/
theorem ReceiverOk.takePixel_faultless {c : Config} {r : Receiver} (hr : ReceiverOk c r) (ha : r.cArmed = true)
    (b : Byte) : Faultless (Machine.takePixel c b r) := by
  unfold Machine.takePixel
  split
  · exact .refused _
  · split
    · exact .ok _
    · split
      · rename_i hcol hrow _ _ _
        rw [if_pos ((hr.pointer ha).inPanel hrow hcol)]
        exact .ok _
      · exact .refused _

theorem takeParam_faultless (c : Config) (cmd : Cmd) (b : Byte) (r : Receiver) : Faultless (takeParam c cmd b r) := by
  unfold takeParam
  split
  · exact .refused _
  · split
    · exact .refused _
    · exact .ok _

theorem ReceiverOk.takeData_faultless {c : Config} {r : Receiver} (hr : ReceiverOk c r) (b : Byte) :
    Faultless (Machine.takeData c b r) := by
  unfold Machine.takeData
  split
  · exact .refused _
  · rename_i cmd hcmd
    split
    · rename_i hm
      exact hr.takePixel_faultless (by simp [Receiver.cArmed, hcmd, hm]) b
    · exact takeParam_faultless c cmd b r

theorem ReceiverOk.takeByte_faultless {c : Config} {r : Receiver} (hr : ReceiverOk c r) (p : Pins) (b : Byte) :
    Faultless (Machine.takeByte c p b r) := by
  unfold Machine.takeByte
  split
  · exact .refused _
  · split
    · exact .refused _
    · split
      · exact .refused _
      · split
        · exact .refused _
        · exact takeCommand_faultless c b r
        · exact hr.takeData_faultless b

theorem ReceiverOk.takeBytes_faultless {c : Config} (p : Pins) (bs : List Byte) {r : Receiver} (hr : ReceiverOk c r) :
    Faultless (Machine.takeBytes c p bs r) := by
  induction bs generalizing r with
  | nil => exact .ok r
  | cons b bs ih =>
    rw [takeBytes_cons]
    cases h : Machine.takeByte c p b r with
    | error w => exact (h ▸ hr.takeByte_faultless p b).error
    | ok r1 => exact ih (hr.takeByte h)

/-! ### The operations -/

/-- A result that is no fault, and whose state has a Receiver that is good for `c`. -/
def Result.Safe (c : Config) : Result → Prop
  | .ok s => ReceiverGood c s
  | .raised s => ReceiverGood c s
  | .stopped w => ∃ r, w = .refused r

theorem Result.safe_refused (c : Config) (r : Refusal) : (Result.stopped (.refused r)).Safe c := ⟨r, rfl⟩

theorem Result.Safe.bind {c : Config} {x : Result} {f : State → Result} (h : x.Safe c)
    (hf : ∀ s, ReceiverGood c s → (f s).Safe c) : (x.bind f).Safe c := by
  cases x with
  | ok s => exact hf s h
  | raised s => exact h
  | stopped w => exact h

/-- An operation that is moves keeps the Receiver good; it is safe when it does not stop with a fault. -/
theorem ReceiverGood.safe {c : Config} {s : State} (hs : ReceiverGood c s) {x : Result} (hx : x.All (Moves s))
    (hf : ∀ f, x ≠ .stopped (.fault f)) : x.Safe c := by
  have good := (stable_receiverGood c).ofMoves hs hx
  cases x with
  | ok t => exact good
  | raised t => exact good
  | stopped w =>
    cases w with
    | fault f => exact absurd rfl (hf f)
    | refused r => exact ⟨r, rfl⟩

/-- Going on from a faultless answer with what never faults gives no fault. -/
theorem Faultless.ofExcept {α : Type} {x : Except Stop α} (h : Faultless x) {g : α → Result}
    (hg : ∀ a f, g a ≠ .stopped (.fault f)) (f : Fault) : Result.ofExcept x g ≠ .stopped (.fault f) := by
  cases x with
  | ok a => exact hg a f
  | error w =>
    intro hw
    cases hw
    exact h f rfl

theorem driveLine_faultless (w : LineWrite) (s : State) : Faultless (driveLine w s) := by
  cases w with
  | rst l =>
    have answer := resetLine_faultless s.cfg s.rst.level l s.recv
    simp only [driveLine]
    cases h : resetLine s.cfg s.rst.level l s.recv with
    | ok r => exact .ok _
    | error e => exact (h ▸ answer).error
  | _ l => exact .ok _

section
variable {c : Config} {s : State} (hs : ReceiverGood c s)
include hs

theorem ReceiverGood.configureOutputLine (l : Line) : (configureOutputLine l s).Safe c := by
  refine hs.safe (configureOutputLine_moves l s) fun f => ?_
  unfold Machine.configureOutputLine
  split <;> exact nofun

theorem ReceiverGood.writeLine (w : LineWrite) : (writeLine w s).Safe c := by
  refine hs.safe (writeLine_moves w s) fun f => ?_
  unfold Machine.writeLine
  split
  · split
    · exact (driveLine_faultless _ _).ofExcept (by simp) f
    · exact (driveLine_faultless _ _).ofExcept (by simp) f
  · exact nofun

theorem ReceiverGood.transportInit : (transportInit s).Safe c := by
  refine hs.safe (transportInit_moves s) fun f => ?_
  unfold Machine.transportInit
  split <;> exact nofun

theorem ReceiverGood.sleepMs (n : Nat) : ReceiverGood c (sleepMs n s) :=
  (sleepMs_moves n s).keeps (stable_receiverGood c).move hs

variable (hc : c.transportCanHang = false)
include hc

theorem ReceiverGood.transportWrite (bytes : List Byte) : (transportWrite bytes s).Safe c := by
  refine hs.safe (transportWrite_moves bytes s) fun f => ?_
  have noHang : s.cfg.transportCanHang = false := hs.cfg ▸ hc
  have taken : ∀ bs, Faultless (takeBytes s.cfg s.pins bs s.recv) := fun bs =>
    ReceiverOk.takeBytes_faultless s.pins bs (hs.cfg.symm ▸ hs.recv)
  by_cases ht : s.tInit = true
  · by_cases hb : bytes = []
    · simp [Machine.transportWrite, ht, hb]
    · rw [transportWrite_eq ht hb]
      simp only [noHang, Bool.false_eq_true, and_false, if_false]
      split
      · exact (taken _).ofExcept (by simp) f
      · exact (taken _).ofExcept (by simp) f
  · simp [Machine.transportWrite, ht]

theorem ReceiverGood.sendFrame (cls : ByteClass) (bytes : List Byte) : (sendFrame cls bytes s).Safe c := by
  refine ((hs.writeLine (.dc cls)).bind fun t ht => ht.writeLine _).bind fun t ht => ?_
  have transfer := ht.transportWrite hc bytes
  cases hx : Machine.transportWrite bytes t with
  | ok u =>
    rw [hx] at transfer
    exact ReceiverGood.writeLine transfer (.cs .deasserted)
  | raised u =>
    rw [hx] at transfer
    exact (ReceiverGood.writeLine transfer (.cs .deasserted)).bind fun v hv => hv
  | stopped w =>
    rw [hx] at transfer
    exact transfer

theorem ReceiverGood.sendDataBlock (bytes : List Byte) (n : Nat) : (sendDataBlock bytes n s).Safe c := by
  unfold Machine.sendDataBlock
  split
  · exact Result.safe_refused c _
  · exact hs.sendFrame hc .data _

theorem ReceiverGood.sendEach (bs : List Byte) : (sendEach bs s).Safe c := by
  induction bs generalizing s with
  | nil => exact hs
  | cons b bs ih => exact (hs.sendFrame hc .data [b]).bind fun t ht => ih ht

theorem ReceiverGood.sendParams (ps : List Byte) : (sendParams ps s).Safe c := by
  unfold Machine.sendParams
  split
  · exact hs
  · split
    · exact hs.sendDataBlock hc ps ps.length
    · exact hs.sendEach hc ps

theorem ReceiverGood.exchange (cmd : Cmd) (ps : List Byte) : (exchange cmd ps s).Safe c :=
  (hs.sendFrame hc .command _).bind fun _ ht => ht.sendParams hc ps

theorem ReceiverGood.windowSet (x0 y0 x1 y1 : Half) : (windowSet x0 y0 x1 y1 s).Safe c :=
  ((hs.exchange hc .columnAddressSet _).bind fun _ ht => ht.exchange hc .rowAddressSet _).bind
    fun _ ht => ht.sendFrame hc .command _

theorem ReceiverGood.windowSetLatched : (windowSetLatched s).Safe c := by
  unfold Machine.windowSetLatched
  split
  · exact hs.windowSet hc _ _ _ _
  · exact Result.safe_refused c _

theorem ReceiverGood.dataBurst (pb : List Byte) : (dataBurst pb s).Safe c := by
  unfold Machine.dataBurst
  split
  · exact hs.sendDataBlock hc _ _
  · exact Result.safe_refused c _

theorem ReceiverGood.runBlit (r : Rect) (pb : List Byte) : (runBlit r pb s).Safe c := by
  have entered := (stable_receiverGood c).latches s r pb.length hs
  refine ((entered.windowSetLatched hc).bind fun t ht => ht.dataBurst hc pb).bind fun t ht => ?_
  exact ⟨ht.cfg, ht.recv⟩

theorem ReceiverGood.microStep (m : MicroStep) : (microStep m s).Safe c := by
  cases m with
  | cfg l => exact hs.configureOutputLine l
  | tinit => exact hs.transportInit
  | line w => exact hs.writeLine w
  | delay ms => exact hs.sleepMs ms
  | command cmd => exact hs.sendFrame hc .command _
  | exch cmd ps => exact hs.exchange hc cmd ps
  | done => exact ⟨hs.cfg, hs.recv⟩

theorem ReceiverGood.runProgram (f : Nat) : (runProgram f s).Safe c := by
  induction f generalizing s with
  | zero => exact hs
  | succ f ih =>
    unfold Machine.runProgram
    split
    · exact hs
    · exact hs.microStep hc .done
    · exact (hs.microStep hc _).bind fun t ht => ih ⟨ht.cfg, ht.recv⟩

end

/-! ### The ends of operations -/

theorem endCall_ne_fault {c : Config} {x : Result} (hx : x.Safe c) (f : Fault) : endCall x ≠ .fault f := by
  cases x with
  | ok s => exact nofun
  | raised s => exact nofun
  | stopped w =>
    obtain ⟨r, rfl⟩ := hx
    exact nofun

theorem endOperation_ne_fault {c : Config} {x : Result} (hx : x.Safe c) (f : Fault) : endOperation x ≠ .fault f := by
  cases x with
  | ok s => exact nofun
  | raised s => exact nofun
  | stopped w =>
    obtain ⟨r, rfl⟩ := hx
    exact nofun

theorem execTransportWrite_ne_fault {c : Config} {bytes : List Byte} {s : State} (hx : (transportWrite bytes s).Safe c)
    (f : Fault) : execTransportWrite bytes s ≠ .fault f := by
  unfold execTransportWrite
  cases hw : transportWrite bytes s with
  | ok t => exact nofun
  | raised t => exact nofun
  | stopped w =>
    rw [hw] at hx
    obtain ⟨r, rfl⟩ := hx
    exact nofun

theorem execInit_ne_fault {c : Config} {s : State} (hs : ReceiverGood c s) (hc : c.transportCanHang = false)
    (f : Fault) : execInit s ≠ .fault f := by
  unfold execInit
  split
  · exact nofun
  · exact endOperation_ne_fault (ReceiverGood.runProgram (s := enterInit s) ⟨hs.cfg, hs.recv⟩ hc 34) f

theorem execBlit_ne_fault {c : Config} {s : State} (hs : ReceiverGood c s) (hc : c.transportCanHang = false)
    (r : Rect) (pb : List Byte) (f : Fault) : execBlit r pb s ≠ .fault f := by
  unfold execBlit
  split
  case h_5 =>
    split
    · exact endOperation_ne_fault (hs.runBlit hc r pb) f
    · exact nofun
  all_goals exact nofun

theorem exec_ne_fault {c : Config} {s : State} (hs : ReceiverGood c s) (hc : c.transportCanHang = false) (i : Instr)
    (f : Fault) : exec i s ≠ .fault f := by
  cases instrForm i with
  | wire cmd ps =>
    rw [exec_instrOfCmd]
    exact endCall_ne_fault (hs.exchange hc cmd _) f
  | pixelData b => exact endCall_ne_fault (hs.sendFrame hc .data [b]) f
  | unknownCommand b => exact endCall_ne_fault (hs.sendFrame hc .command [b]) f
  | configureOutputLine l => exact endCall_ne_fault (hs.configureOutputLine l) f
  | writeLine w => exact endCall_ne_fault (hs.writeLine w) f
  | transportInit => exact endCall_ne_fault hs.transportInit f
  | transportWrite bytes => exact execTransportWrite_ne_fault (hs.transportWrite hc bytes) f
  | sendCommand b => exact endCall_ne_fault (hs.sendFrame hc .command [b]) f
  | sendData b => exact endCall_ne_fault (hs.sendFrame hc .data [b]) f
  | sendDataBlock bytes n => exact endCall_ne_fault (hs.sendDataBlock hc bytes n) f
  | sleepMs n => exact nofun
  | sendParams ps => exact endCall_ne_fault (hs.sendParams hc ps) f
  | init => exact execInit_ne_fault hs hc f
  | windowSet x0 y0 x1 y1 => exact endCall_ne_fault (hs.windowSet hc x0 y0 x1 y1) f
  | blit r pb => exact execBlit_ne_fault hs hc r pb f

/-- A step that faults runs an operation that faults. -/
theorem step_eq_fault {s : State} {f : Fault} (h : step s = .fault f) : ∃ i ws, exec i (s.setPending ws) = .fault f := by
  unfold step at h
  cases hf : fetch s with
  | dead r => simp [hf] at h
  | undecodable e => simp [hf] at h
  | idle => simp [hf] at h
  | hostBufferWrite u =>
    simp only [hf, hostBufferWrite] at h
    split at h <;> cases h
  | run i u =>
    obtain ⟨ws, -, rfl⟩ := fetch_run hf
    exact ⟨i, ws, by simpa [hf] using h⟩

/-- Settles O55: with a good Receiver every pixel has its cell, so no operation a step runs can fault. -/
theorem stepNeverFaults : Obligations.StepNeverFaults := by
  intro s f h hc hstep
  obtain ⟨i, ws, hi⟩ := step_eq_fault hstep
  have taken : ReceiverGood s.cfg (s.setPending ws) := ⟨rfl, h.recv⟩
  exact exec_ne_fault taken hc i f hi

end Sys2Proof.Machine
end

section
/-! The decoder and the encoder, case by case (30_encoding.md R60 to R63, R65, R71, R72, R75), and the round trip of the
encoding in both directions. -/

namespace Sys2Proof.Machine

/-! ### The words of an exchange -/

/-- The words of a wire command are its exchange (R63, R72). -/
theorem encode_instrOfCmd (c : Config) (cmd : Cmd) (ps : List Byte) :
    encode c (instrOfCmd cmd ps) = encodeCmd c cmd (groupOf cmd ps) := by
  cases cmd <;> rfl

/-- A wire command is the same operation with its group only. -/
@[simp] theorem instrOfCmd_groupOf (cmd : Cmd) (ps : List Byte) : instrOfCmd cmd (groupOf cmd ps) = instrOfCmd cmd ps := by
  cases cmd <;> rfl

/-- A well-formed wire command sends as many parameter bytes as its count says (R72). -/
theorem groupOf_length {c : Config} {cmd : Cmd} {ps : List Byte} (h : wf c (instrOfCmd cmd ps) = true) :
    (groupOf cmd ps).length = c.nParams cmd := by
  cases cmd
  case softwareReset | sleepOut | normalDisplayOn | displayOn | memoryWrite => rfl
  all_goals exact Laws.RoundTrip.wfParams_length h

@[simp] theorem takeParams_zero (ws : List Word) : takeParams 0 ws = ([], ws) := by
  rw [takeParams]
  simp

/-- The bytes taken and the words left are the stream (R65). -/
theorem takeParams_append (n : Nat) (ws : List Word) :
    (takeParams n ws).1.map (Word.wire .data) ++ (takeParams n ws).2 = ws := by
  induction n, ws using takeParams.induct with
  | case1 n b ws ih => simp [takeParams, ih]
  | case2 n ws h => rw [takeParams] <;> simp_all

/-- The bytes a command takes from the stream are its group: none where its count is 0 (R72). -/
theorem groupOf_takeParams (c : Config) (cmd : Cmd) (ws : List Word) :
    groupOf cmd (takeParams (c.nParams cmd) ws).1 = (takeParams (c.nParams cmd) ws).1 := by
  cases cmd
  case softwareReset | sleepOut | normalDisplayOn | displayOn | memoryWrite => simp [groupOf, Config.nParams]
  all_goals rfl

/-! ### The operands of a call, read backwards -/

/-- The line found is one with the identifier asked for (R80, R81). -/
theorem pin_of_lineOf {c : Config} {id : Int} {l : Line} (h : c.lineOf id = some l) : (c.pin l : Int) = id := by
  simpa using List.find?_some h

theorem code_of_ofCode {n : Int} {e : ELevel} (h : ELevel.ofCode n = some e) : e.code = n := by
  unfold ELevel.ofCode at h
  split at h
  case isTrue h0 =>
    cases h
    exact h0.symm
  case isFalse =>
    split at h
    case isTrue h1 =>
      cases h
      exact h1.symm
    case isFalse => cases h

@[simp] theorem lineWriteOf_line (c : Config) (l : Line) (e : ELevel) : (c.lineWriteOf l e).line = l := by
  cases l <;> rfl

/-- An electrical level that is not one of the two is the other (R81). -/
theorem opposite_eq_of_ne {e e' : ELevel} (h : e ≠ e') : e'.opposite = e := by
  revert h
  cases e <;> cases e' <;> decide

/-- The abstract level read from an electrical one is driven at it (R81). -/
@[simp] theorem electrical_lineWriteOf (c : Config) (l : Line) (e : ELevel) : c.electrical (c.lineWriteOf l e) = e := by
  cases l with
  | rst => cases e <;> rfl
  | _ =>
    simp only [Config.lineWriteOf]
    split
    case isTrue h => exact h.symm
    case isFalse h => exact opposite_eq_of_ne h

/-- A coordinate that fits 16 bits is the value of its half-word (R160). -/
theorem toNat_of_halfOf {n : Int} {v : Half} (h : halfOf n = some v) : (v.toNat : Int) = n := by
  unfold halfOf at h
  split at h
  case isTrue hn =>
    cases h
    rw [BitVec.toNat_ofNat, Nat.mod_eq_of_lt (by omega), Int.toNat_of_nonneg hn.1]
  case isFalse => cases h

/-- A call that decodes is the one word of its operation, operand by operand (R75). -/
theorem encode_of_decodeCall {c : Config} {name : CallName} {args : List Int} {bytes : List Byte} {i : Instr}
    (h : decodeCall c name args bytes = .ok i) : encode c i = [.call name args bytes] := by
  unfold decodeCall at h
  split at h
  case h_1 id =>
    cases hl : c.lineOf id with
    | none => simp [hl] at h
    | some l =>
      simp only [hl, Except.ok.injEq] at h
      simp [← h, encode, pin_of_lineOf hl]
  case h_2 id lv =>
    cases hl : c.lineOf id with
    | none => simp [hl] at h
    | some l =>
      cases he : ELevel.ofCode lv with
      | none => simp [hl, he] at h
      | some e =>
        simp only [hl, he, Except.ok.injEq] at h
        simp [← h, encode, pin_of_lineOf hl, code_of_ofCode he]
  case h_7 n =>
    split at h
    case isTrue hn =>
      cases h
      simp [encode, hn]
    case isFalse => cases h
  case h_8 n =>
    split at h
    case isTrue hn =>
      cases h
      simp [encode, hn.le]
    case isFalse => cases h
  case h_11 x0 y0 x1 y1 =>
    split at h
    case h_1 h0 h1 h2 h3 =>
      cases h
      simp only [encode, toNat_of_halfOf h0, toNat_of_halfOf h1, toNat_of_halfOf h2, toNat_of_halfOf h3]
    case h_2 => cases h
  case h_13 => cases h
  all_goals
    cases h
    rfl

/-! ### The round trip -/

/-- Settles O6: by the head of the stream. An exchange's words are its command byte and the bytes taken after it; a call's
one word holds its operands, each of them read back from what it decodes to. -/
theorem encodeOfDecode : Obligations.EncodeOfDecode := by
  intro c ws i rest h
  match ws with
  | [] => cases h
  | .wire .command b :: ws =>
    cases hb : c.cmdOf b with
    | none =>
      obtain ⟨rfl, rfl⟩ : .unknownCommand b = i ∧ ws = rest := by simpa [decode, hb] using h
      rfl
    | some cmd =>
      obtain ⟨rfl, rfl⟩ : instrOfCmd cmd (takeParams (c.nParams cmd) ws).1 = i ∧
          (takeParams (c.nParams cmd) ws).2 = rest := by simpa [decode, hb] using h
      rw [encode_instrOfCmd, groupOf_takeParams, encodeCmd, List.cons_append, takeParams_append, cmdOf_eq_some hb]
  | .wire .data b :: ws =>
    cases h
    rfl
  | .call name args bytes :: ws =>
    cases hc : decodeCall c name args bytes with
    | error e => simp [decode, hc] at h
    | ok j =>
      obtain ⟨rfl, rfl⟩ : j = i ∧ ws = rest := by simpa [decode, hc] using h
      rw [encode_of_decodeCall hc, List.singleton_append]
  | .hostBufferWrite :: ws => cases h

/-- A well-formed wire command decodes from its exchange (R63, R72). -/
theorem decode_encode_instrOfCmd (cmd : Cmd) (ps : List Byte) : Laws.RoundTrip.Statement (instrOfCmd cmd ps) := by
  intro c rest hc hw
  rw [encode_instrOfCmd, Laws.RoundTrip.decode_encodeCmd hc cmd (groupOf_length hw) rest, instrOfCmd_groupOf]

/-- Settles O5: the round trip of each form of an operation, the twenty wire commands as one. -/
theorem decodeOfEncode : Obligations.DecodeOfEncode := by
  intro c i rest hc hw
  suffices Laws.RoundTrip.Statement i from this c rest hc hw
  cases instrForm i with
  | wire cmd ps => exact decode_encode_instrOfCmd cmd ps
  | pixelData b => exact Laws.RoundTrip.pixelData b
  | unknownCommand b => exact Laws.RoundTrip.unknownCommand b
  | configureOutputLine l => exact Laws.RoundTrip.configureOutputLine l
  | writeLine w => exact Laws.RoundTrip.writeLine w
  | transportInit => exact Laws.RoundTrip.transportInit
  | transportWrite bytes => exact Laws.RoundTrip.transportWrite bytes
  | sendCommand b => exact Laws.RoundTrip.sendCommand b
  | sendData b => exact Laws.RoundTrip.sendData b
  | sendDataBlock bytes n => exact Laws.RoundTrip.sendDataBlock bytes n
  | sleepMs n => exact Laws.RoundTrip.sleepMs n
  | sendParams ps => exact Laws.RoundTrip.sendParams ps
  | init => exact Laws.RoundTrip.init
  | windowSet x0 y0 x1 y1 => exact Laws.RoundTrip.windowSet x0 y0 x1 y1
  | blit r pb => exact Laws.RoundTrip.blit r pb

/-- Settles O7: seven fixed words, by evaluation of the decoder. -/
theorem writtenWordsDecode : Obligations.WrittenWordsDecode := by
  unfold Obligations.WrittenWordsDecode
  decide

/-- Settles O8: the fetch hands the step the decoded operation and the state without its words. -/
theorem stepRunsDecoded : Obligations.StepRunsDecoded := by
  intro s i rest h0 hd
  rw [step, fetch_of_decode h0 hd]
  rfl

/-! ### The split of a 16-bit operand -/

theorem hiByte_toNat (v : Half) : (hiByte v).toNat = v.toNat / 256 := by
  have := v.isLt
  simp only [hiByte, BitVec.extractLsb'_toNat, Nat.shiftRight_eq_div_pow]
  omega

theorem loByte_toNat (v : Half) : (loByte v).toNat = v.toNat % 256 := by
  simp [loByte, BitVec.extractLsb'_toNat]

theorem joinBytes_toNat (h l : Byte) : (joinBytes h l).toNat = h.toNat * 256 + l.toNat := by
  rw [joinBytes, BitVec.toNat_append, ← Nat.shiftLeft_add_eq_or_of_lt l.isLt, Nat.shiftLeft_eq]

/-- Settles O30: the values of the two bytes and of their joining, and the bytes of a group as they are defined. -/
theorem bigEndianOperands : Obligations.BigEndianOperands :=
  ⟨fun v => ⟨hiByte_toNat v, loByte_toNat v, joinBytes_split v⟩, joinBytes_toNat, fun _ _ => rfl⟩

end Sys2Proof.Machine
end

section
/-! The two framings of a parameter group (30_encoding.md R78, D6; 41_wire_commands.md R103): under either of them the
Receiver takes the same bytes and the trace holds the same bytes on the wire. -/

namespace Sys2Proof.Machine

/-! ### The framing is nothing to the Receiver -/

/-- The parameters with another `PARAM_FRAMING` (R78). -/
def cfgWithFraming (c : Config) (f : ParamFraming) : Config := { c with paramFraming := f }

/-- The machine with another `PARAM_FRAMING`. -/
def State.withFraming (s : State) (f : ParamFraming) : State := { s with cfg := cfgWithFraming s.cfg f }

/-- No rule of the Receiver reads the framing (R103). -/
theorem takeBytes_withFraming (c : Config) (f : ParamFraming) (p : Pins) (bs : List Byte) (r : Receiver) :
    takeBytes (cfgWithFraming c f) p bs r = takeBytes c p bs r := by
  have byte : ∀ b r, takeByte (cfgWithFraming c f) p b r = takeByte c p b r := fun _ _ => rfl
  induction bs generalizing r with
  | nil => rfl
  | cons b bs ih =>
    rw [takeBytes_cons, takeBytes_cons, byte]
    exact congrArg _ (funext ih)

/-! ### The bytes on the wire -/

/-- A frame puts its bytes on the wire, each with the frame's class (R60, R61). -/
theorem wireBytes_frameEvents_append (dc : Option ByteClass) (cls : ByteClass) (bytes : List Byte) (es : List Event) :
    wireBytes dc (frameEvents cls bytes ++ es) = bytes.map (fun b => (cls, b)) ++ wireBytes (some cls) es := by
  simp [frameEvents, transferEvents, wireBytes]

/-- A parameter group puts its bytes on the wire as data, under either framing (R78). -/
theorem wireBytes_paramEvents (dc : Option ByteClass) (f : ParamFraming) (ps : List Byte) :
    wireBytes dc (paramEvents f ps) = ps.map fun b => (.data, b) := by
  cases f with
  | perGroup =>
    by_cases hb : ps = []
    · subst hb
      simp [wireBytes]
    · simpa [paramEvents, hb, wireBytes] using wireBytes_frameEvents_append dc .data ps []
  | perByte =>
    simp only [paramEvents]
    induction ps generalizing dc with
    | nil => simp [wireBytes]
    | cons b ps ih =>
      rw [List.flatMap_cons, wireBytes_frameEvents_append, ih]
      rfl

/-- An exchange puts its command byte and its group on the wire (R63). -/
theorem wireBytes_exchangeEvents (dc : Option ByteClass) (c : Config) (cmd : Cmd) (ps : List Byte) :
    wireBytes dc (exchangeEvents c cmd ps) = (.command, c.codes.get cmd) :: ps.map fun b => (.data, b) := by
  rw [exchangeEvents, wireBytes_frameEvents_append, wireBytes_paramEvents]
  rfl

/-! ### An exchange under each framing -/

theorem exchangeFrames_le (c : Config) (ps : List Byte) : exchangeFrames c ps ≤ 1 + ps.length := by
  have hps : ps ≠ [] → 0 < ps.length := List.length_pos_of_ne_nil
  unfold exchangeFrames paramFrames
  split
  · split
    · omega
    · have := hps ‹_›
      omega
  · exact le_rfl

theorem groupOf_length_le (cmd : Cmd) (ps : List Byte) : (groupOf cmd ps).length ≤ ps.length := by
  cases cmd
  case softwareReset | sleepOut | normalDisplayOn | displayOn | memoryWrite => exact Nat.zero_le _
  all_goals exact le_rfl

/-- A frame whose draw is `ok` ends as the Receiver's answer to its bytes does. -/
theorem sendFrame_of_draw {s : State} (hl : LinesReliable s) (hu : BusUsable s) (hd : (s.drawAt 0).outcome = .ok)
    (cls : ByteClass) {bytes : List Byte} (hb : bytes ≠ []) :
    sendFrame cls bytes s = Result.ofExcept (takeBytes s.cfg (framePins s cls) bytes s.recv) fun r =>
      .ok (afterBus s cls (frameEvents cls bytes) 1 r) := by
  rw [sendFrame_eq hl hu cls hb, if_pos hd]

/-- While the draws are `ok`, an exchange under `per_group` that does not stop the machine has had all its bytes taken. -/
theorem takeBytes_of_exchange_perGroup {s : State} (hl : LinesReliable s) (hu : BusUsable s)
    (hf : s.cfg.paramFraming = .perGroup) {cmd : Cmd} {ps : List Byte} (hd : DrawsOk s (1 + ps.length))
    (h : ∀ w, exchange cmd ps s ≠ .stopped w) :
    ∃ r1 r, takeBytes s.cfg (framePins s .command) [s.cfg.codes.get cmd] s.recv = .ok r1 ∧
      takeBytes s.cfg (framePins s .data) ps r1 = .ok r := by
  rw [exchange, sendCommand, sendFrame_of_draw hl hu (hd 0 (by omega)) .command (by simp)] at h
  cases h1 : takeBytes s.cfg (framePins s .command) [s.cfg.codes.get cmd] s.recv with
  | error w => exact absurd (by rw [h1]; rfl) (h w)
  | ok r1 =>
    refine ⟨r1, ?_⟩
    by_cases hb : ps = []
    · exact ⟨r1, rfl, by rw [hb, takeBytes_nil]⟩
    · have hpos : 0 < ps.length := List.length_pos_of_ne_nil hb
      rw [h1, Result.ofExcept_ok, Result.bind_ok, sendParams_perGroup hb (by simpa using hf),
        sendFrame_of_draw (hl.afterBus ..) (hu.afterBus ..) (by simpa using hd 1 (by omega)) .data hb] at h
      cases h2 : takeBytes s.cfg (framePins s .data) ps r1 with
      | error w => exact absurd (by simp [h2]) (h w)
      | ok r => exact ⟨r, rfl, rfl⟩

/-- An exchange whose bytes the Receiver takes returns under either framing, with the Receiver at the same state. -/
theorem exchange_withFraming {s : State} (hl : LinesReliable s) (hu : BusUsable s) {cmd : Cmd} {ps : List Byte}
    (hd : DrawsOk s (1 + ps.length)) {r1 r : Receiver}
    (h1 : takeBytes s.cfg (framePins s .command) [s.cfg.codes.get cmd] s.recv = .ok r1)
    (h2 : takeBytes s.cfg (framePins s .data) ps r1 = .ok r) (f : ParamFraming) :
    exchange cmd ps (s.withFraming f) = .ok
      (afterBus (s.withFraming f) (if ps = [] then .command else .data) (exchangeEvents (cfgWithFraming s.cfg f) cmd ps)
        (exchangeFrames (cfgWithFraming s.cfg f) ps) r) := by
  have draws : DrawsOk (s.withFraming f) (1 + ps.length) := hd
  refine exchange_ok (s := s.withFraming f) hl hu (draws.mono (exchangeFrames_le _ _)) (r1 := r1) ?_ ?_
  · exact (takeBytes_withFraming ..).trans h1
  · exact (takeBytes_withFraming ..).trans h2

/-- Settles O22: the run under `per_group` shows that the Receiver takes the command byte and the group; so it does under
`per_byte`, and either trace holds those bytes and no other. -/
theorem framingsAgree : Obligations.FramingsAgree := by
  intro cmd ps s t hl hu hd h
  change exec _ (s.withFraming .perGroup) = _ at h
  have draws : DrawsOk s (1 + (groupOf cmd ps).length) :=
    hd.mono (Nat.add_le_add_left (groupOf_length_le cmd ps) 1)
  rw [exec_instrOfCmd] at h
  obtain ⟨r1, r, h1, h2⟩ := takeBytes_of_exchange_perGroup (s := s.withFraming .perGroup) hl hu rfl draws
    fun w hw => by
      rw [hw] at h
      cases w <;> cases h
  have returns := exchange_withFraming hl hu draws ((takeBytes_withFraming ..).symm.trans h1)
    ((takeBytes_withFraming ..).symm.trans h2)
  rw [returns .perGroup] at h
  cases h
  refine ⟨_, (exec_instrOfCmd cmd ps (s.withFraming .perByte)).trans (congrArg endCall (returns .perByte)), rfl, rfl, rfl,
    _, _, rfl, rfl, ?_⟩
  rw [wireBytes_exchangeEvents, wireBytes_exchangeEvents]
  rfl

end Sys2Proof.Machine
end

section
/-! The Platform primitives executed by themselves (40_bus_framer.md R80 to R83, R87): what each leaves, on success and on
failure, and what is refused before the wire. A theorem that settles an obligation stands under `Platform.` where the model's
own function has its name. -/

namespace Sys2Proof.Machine

/-! ### A line takes a level -/

/-- The rising edge of a pulse that was too short (R106). -/
def PulseTooShort (c : Config) (prev : Option RstLevel) (new : RstLevel) (r : Receiver) : Prop :=
  new = .high ∧ prev = some .low ∧ r.cRstLowMs < c.tRstLow

/-- The Receiver after the reset line took a level that is not refused (R106). -/
def afterResetLine (c : Config) (prev : Option RstLevel) (new : RstLevel) (r : Receiver) : Receiver :=
  if new = .low then { r with cRstLowMs := 0 } else if prev = some .low then hardwareReset c else r

theorem resetLine_of_tooShort {c : Config} {prev : Option RstLevel} {new : RstLevel} {r : Receiver}
    (h : PulseTooShort c prev new r) : resetLine c prev new r = .error (.refused .resetPulseTooShort) := by
  obtain ⟨rfl, hprev, hms⟩ := h
  simp [resetLine, hprev, hms]

/-- Only a pulse that was too short is refused; every other level acts on the Receiver (R106). -/
theorem resetLine_of_not_tooShort {c : Config} {prev : Option RstLevel} {new : RstLevel} {r : Receiver}
    (h : ¬ PulseTooShort c prev new r) : resetLine c prev new r = .ok (afterResetLine c prev new r) := by
  cases new with
  | low => rfl
  | high =>
    by_cases hprev : prev = some .low
    · have hms : ¬ r.cRstLowMs < c.tRstLow := fun hms => h ⟨rfl, hprev, hms⟩
      simp [resetLine, afterResetLine, hprev, hms]
    · simp [resetLine, afterResetLine, hprev]

theorem driveLine_rst_of_tooShort {s : State} {l : RstLevel} (h : PulseTooShort s.cfg s.rst.level l s.recv) :
    driveLine (.rst l) s = .error (.refused .resetPulseTooShort) := by
  rw [driveLine, resetLine_of_tooShort h]
  rfl

theorem driveLine_rst_of_not_tooShort {s : State} {l : RstLevel} (h : ¬ PulseTooShort s.cfg s.rst.level l s.recv) :
    driveLine (.rst l) s = .ok ((s.setRst l).setRecv (afterResetLine s.cfg s.rst.level l s.recv)) := by
  rw [driveLine, resetLine_of_not_tooShort h]
  rfl

/-- The trace is nothing to a line. -/
theorem driveLine_emit (w : LineWrite) (s : State) (e : Event) :
    driveLine w (s.emit e) = (driveLine w s).map fun t => t.emit e := by
  cases w with
  | rst l =>
    simp only [driveLine, State.emit_cfg, State.emit_rst, State.emit_recv]
    cases resetLine s.cfg s.rst.level l s.recv <;> rfl
  | _ l => rfl

/-- The draws are nothing to a line. -/
theorem driveLine_afterDraw (w : LineWrite) (s : State) :
    driveLine w s.afterDraw = (driveLine w s).map State.afterDraw := by
  cases w with
  | rst l =>
    simp only [driveLine, State.afterDraw_cfg, State.afterDraw_rst, State.afterDraw_recv]
    cases resetLine s.cfg s.rst.level l s.recv <;> rfl
  | _ l => rfl

/-! ### Line calls where none can fail -/

section
variable {s : State} (hl : LinesReliable s)
include hl

/-- A configuration by itself that does not fail (R80). -/
theorem exec_configureOutputLine_of_reliable (l : Line) :
    exec (.configureOutputLine l) s = .next (((s.emit (.cfg l)).configure l).setResult .ok) :=
  congrArg endCall (configureOutputLine_eq hl l)

/-- A write by itself that does not fail: `t` is the machine with the level taken (R81). -/
theorem exec_writeLine_of_reliable {w : LineWrite} (hc : s.configured w.line = true) {t : State}
    (ht : driveLine w s = .ok t) :
    exec (.writeLine w) s = .next { t with trace := t.trace ++ [.line w], callResult := some .ok } := by
  show endCall (writeLine w s) = _
  rw [writeLine_eq hl hc, driveLine_emit, ht]
  rfl

/-- A write by itself of a level that is refused (R81, R106). -/
theorem exec_writeLine_refused {w : LineWrite} (hc : s.configured w.line = true) {r : Refusal}
    (hr : driveLine w s = .error (.refused r)) : exec (.writeLine w) s = .refused r := by
  show endCall (writeLine w s) = _
  rw [writeLine_eq hl hc, driveLine_emit, hr]
  rfl

end

/-- Settles O10: configuring writes the one flag, whichever line it is. -/
theorem Platform.configureOutputLine : Obligations.ConfigureOutputLine := by
  intro l s hl
  refine ⟨_, exec_configureOutputLine_of_reliable hl l, ?_⟩
  have flag : (((s.emit (.cfg l)).configure l).setResult .ok).configured l = true := by cases l <;> rfl
  have others : ∀ m, m ≠ l → (((s.emit (.cfg l)).configure l).setResult .ok).configured m = s.configured m := by
    intro m hm
    have kept := (s.emit (.cfg l)).configured_configure l m
    rw [decide_eq_false (Ne.symm hm), Bool.or_false] at kept
    exact kept
  refine ⟨flag, others, ?_⟩
  cases l <;> exact ⟨rfl, rfl, rfl, rfl, rfl, rfl, rfl⟩

/-- Settles O11: the three lines whose level is nothing to the Receiver. -/
theorem writeFramingLine : Obligations.WriteFramingLine :=
  ⟨fun l _ hl hc => exec_writeLine_of_reliable hl (w := .cs l) hc rfl,
    fun l _ hl hc => exec_writeLine_of_reliable hl (w := .dc l) hc rfl,
    fun l _ hl hc => exec_writeLine_of_reliable hl (w := .bl l) hc rfl⟩

/-- Settles O12: LOW and a rising edge with no pulse before it are never too short; a pulse's rising edge is, exactly below
the limit. -/
theorem writeResetLine : Obligations.WriteResetLine := by
  intro s hl hc
  have accepted := fun l (h : ¬ PulseTooShort s.cfg s.rst.level l s.recv) =>
    exec_writeLine_of_reliable hl (w := .rst l) hc (driveLine_rst_of_not_tooShort h)
  refine ⟨accepted .low ?low, fun hlow hms => ?pulse, fun hlow hms => ?tooShort, fun hlow => ?noPulse⟩
  case low => exact fun h => nomatch h.1
  case pulse =>
    rw [accepted .high fun ⟨_, _, hlt⟩ => Nat.not_lt.2 hms hlt]
    simp only [afterResetLine, hlow]
    rfl
  case tooShort =>
    exact exec_writeLine_refused hl (w := .rst .high) hc (driveLine_rst_of_tooShort ⟨rfl, hlow, hms⟩)
  case noPulse =>
    rw [accepted .high fun ⟨_, hprev, _⟩ => hlow hprev]
    simp only [afterResetLine, hlow]
    rfl

/-! ### Line calls that fail -/

section
variable {s : State} (hf : s.cfg.lineWriteCanFail = true) (hd : (s.drawAt 0).outcome ≠ .ok)
include hf hd

/-- A configuration that fails has emitted its event and configured nothing (R80, log 7). -/
theorem configureOutputLine_fails (l : Line) : configureOutputLine l s = .raised (s.afterDraw.emit (.cfg l)) := by
  simp [configureOutputLine, lineCallOk, afterLineCall, hf, hd]

/-- A write that fails drives the line to the drawn one of its levels (R81, log 7). -/
theorem writeLine_fails {w : LineWrite} (hc : s.configured w.line = true) :
    writeLine w s = Result.ofExcept (driveLine (drawnLevel w.line (s.drawAt 0).level) s) fun t =>
      .raised (t.afterDraw.emit (.line w)) := by
  have failed : writeLine w s = Result.ofExcept
      (driveLine (drawnLevel w.line (s.drawAt 0).level) (s.afterDraw.emit (.line w))) .raised := by
    simp [writeLine, lineCallOk, afterLineCall, hf, hd, hc]
  rw [failed, driveLine_emit, driveLine_afterDraw, Result.ofExcept_map, Result.ofExcept_map]

/-- A write by itself that fails: `t` is the machine with the drawn level taken (R81, log 7). -/
theorem exec_writeLine_fails {w : LineWrite} (hc : s.configured w.line = true) {t : State}
    (ht : driveLine (drawnLevel w.line (s.drawAt 0).level) s = .ok t) (hs : t.inFlight = false) :
    exec (.writeLine w) s = .next { t with
      trace := t.trace ++ [.line w], draws := t.draws.tail, drawCount := t.drawCount + 1,
      callResult := some .transportError } := by
  show endCall (writeLine w s) = _
  rw [writeLine_fails hf hd hc, ht, Result.ofExcept_ok]
  exact endCall_raised_idle (s := t.afterDraw.emit (.line w)) hs

/-- A write by itself that fails and is refused for the level drawn (R106, log 7). -/
theorem exec_writeLine_fails_refused {w : LineWrite} (hc : s.configured w.line = true) {r : Refusal}
    (hr : driveLine (drawnLevel w.line (s.drawAt 0).level) s = .error (.refused r)) :
    exec (.writeLine w) s = .refused r := by
  show endCall (writeLine w s) = _
  rw [writeLine_fails hf hd hc, hr]
  rfl

end

/-- Settles O13: each failed call raises with its event emitted; the reset line's drawn level acts on the Receiver as a
written one does. -/
theorem lineCallsThatFail : Obligations.LineCallsThatFail := by
  intro s hf hd hs
  refine ⟨fun l => ?cfg, fun l hc => ?cs, fun l hc => ?dc, fun l hc => ?bl, fun l hc => ?rst⟩
  case cfg =>
    show endCall (configureOutputLine l s) = _
    rw [configureOutputLine_fails hf hd]
    exact endCall_raised_idle (s := s.afterDraw.emit (.cfg l)) hs
  case cs => exact ⟨_, exec_writeLine_fails hf hd (w := .cs l) hc rfl hs⟩
  case dc => exact ⟨_, exec_writeLine_fails hf hd (w := .dc l) hc rfl hs⟩
  case bl => exact ⟨_, exec_writeLine_fails hf hd (w := .bl l) hc rfl hs⟩
  case rst =>
    obtain ⟨l', hdrawn⟩ : ∃ l', drawnLevel (LineWrite.rst l).line (s.drawAt 0).level = .rst l' := ⟨_, rfl⟩
    refine ⟨l', ?_⟩
    by_cases hshort : PulseTooShort s.cfg s.rst.level l' s.recv
    · have refused := driveLine_rst_of_tooShort hshort
      rw [← hdrawn] at refused
      obtain ⟨hhigh, hlow, hms⟩ := hshort
      exact .inl ⟨hhigh, hlow, hms, exec_writeLine_fails_refused hf hd (w := .rst l) hc refused⟩
    · have taken := driveLine_rst_of_not_tooShort hshort
      rw [← hdrawn] at taken
      exact .inr ⟨hshort, exec_writeLine_fails hf hd (w := .rst l) hc taken hs⟩

/-! ### Transport and time -/

/-- Settles O14: the draw decides between the two ends. -/
theorem Platform.transportInit : Obligations.TransportInit := by
  refine fun s => ⟨fun hd => ?_, fun hd hs => ?_⟩
  · show endCall (Machine.transportInit s) = _
    rw [Machine.transportInit, if_pos hd, endCall_ok]
    simp only [State.setResult, State.setTInit, State.emit, State.afterDraw]
  · show endCall (Machine.transportInit s) = _
    rw [Machine.transportInit, if_neg hd, endCall_raised_idle (s := (s.afterDraw.emit _).setTInit false) hs]
    simp only [State.setResult, State.setTInit, State.emit, State.afterDraw]

/-- A transfer whose draw is not `ok` returns `fail`, where it cannot hang (R83, U12). -/
theorem transportWrite_fails {s : State} (ht : s.tInit = true) {bytes : List Byte} (hb : bytes ≠ [])
    (hh : s.cfg.transportCanHang = false) (hd : (s.drawAt 0).outcome ≠ .ok) :
    transportWrite bytes s =
      Result.ofExcept (takeBytes s.cfg s.pins (bytes.take (failedCount s bytes)) s.recv) fun r =>
        .raised ((s.afterDraw.emit (.xfer bytes false (failedCount s bytes))).setRecv r) := by
  rw [transportWrite_eq ht hb, if_neg hd, if_neg (by simp [hh])]

/-- Settles O15: all the bytes on `ok`; else as many as the draw says, which is cut to the length of the transfer. -/
theorem Platform.transportWrite : Obligations.TransportWrite := by
  intro bytes s ht hb hh
  refine ⟨fun hd r hr => ?_, fun hd => ⟨failedCount s bytes, Nat.min_le_right _ _, fun hle => Nat.min_eq_left hle,
    fun r hr => ?_⟩⟩
  · show execTransportWrite bytes s = _
    rw [execTransportWrite, transportWrite_eq ht hb, if_pos hd, hr]
    rfl
  · show execTransportWrite bytes s = _
    rw [execTransportWrite, transportWrite_fails ht hb hh hd, hr]
    rfl

/-- Settles O16: each refusal is the first test of its call. -/
theorem refusedBeforeTheWire : Obligations.RefusedBeforeTheWire := by
  refine ⟨fun w s hc => ?line, fun bytes s ht => ?beforeInit, fun s ht => ?empty, fun bytes n s hn => ?block⟩
  case line => exact congrArg endCall (writeLine_unconfigured hc)
  case beforeInit =>
    show execTransportWrite bytes s = _
    rw [execTransportWrite, transportWrite, if_pos ht]
    rfl
  case empty =>
    show execTransportWrite [] s = _
    rw [execTransportWrite, transportWrite, if_neg (by simp [ht]), if_pos rfl]
    rfl
  case block =>
    show endCall (sendDataBlock bytes n s) = _
    rw [sendDataBlock, if_pos hn]
    rfl

/-- Settles O17: the event and the passage of time are all of it. -/
theorem Platform.sleepMs : Obligations.SleepMs := fun _ _ => rfl

end Sys2Proof.Machine
end

section
/-! The Bus Framer's operations and `send_params` executed by themselves (40_bus_framer.md R84 to R86, R88, R91, R93): the
frames of each, on success and on failure. A theorem that settles an obligation stands under `Framer.` where the model's own
function has its name. -/

namespace Sys2Proof.Machine

/-! ### One frame -/

/-- What a call executed by itself answers when its bus activity returned (log 5). -/
theorem endCall_ok_afterBus (s : State) (cls : ByteClass) (es : List Event) (n : Nat) (r : Receiver) :
    endCall (.ok (afterBus s cls es n r)) = .next { afterBus s cls es n r with callResult := some .ok } := rfl

/-- A frame whose transfer fails where it cannot hang, whatever its draw is called (R83, R91, U12). -/
theorem sendFrame_fails_of_ne_ok {s : State} (hl : LinesReliable s) (hu : BusUsable s)
    (hh : s.cfg.transportCanHang = false) (hd : (s.drawAt 0).outcome ≠ .ok) {cls : ByteClass} {bytes : List Byte}
    (hb : bytes ≠ []) {r : Receiver}
    (hr : takeBytes s.cfg (framePins s cls) (bytes.take (failedCount s bytes)) s.recv = .ok r) :
    sendFrame cls bytes s = .raised (afterBus s cls (transferEvents cls bytes false (failedCount s bytes)) 1 r) := by
  rw [sendFrame_eq hl hu cls hb, if_neg hd, if_neg (by simp [hh]), hr, Result.ofExcept_ok]

/-- Settles O18: the one frame of a command byte. -/
theorem Framer.sendCommand : Obligations.SendCommand := by
  refine fun b s hl hu hh => ⟨fun hd r hr => ?_, fun hd hs r hr => ?_⟩
  · show endCall (sendFrame .command [b] s) = _
    rw [sendFrame_ok hl hu hd (by simp) hr, endCall_ok_afterBus]
  · show endCall (sendFrame .command [b] s) = _
    rw [sendFrame_fails_of_ne_ok hl hu hh hd (by simp) hr, endCall_raised_afterBus hs]

/-- A block of its own length is one data frame (R86). -/
theorem sendDataBlock_length {bytes : List Byte} (hb : bytes ≠ []) (s : State) :
    sendDataBlock bytes bytes.length s = sendFrame .data bytes s := by
  simp [sendDataBlock, hb]

/-- Settles O19: one byte and a whole block are the same data frame. -/
theorem Framer.sendData : Obligations.SendData := by
  intro bytes i s hb hi hl hu hh
  have frame : exec i s = endCall (sendFrame .data bytes s) := by
    obtain ⟨b, rfl, rfl⟩ | rfl := hi
    · rfl
    · exact congrArg endCall (sendDataBlock_length hb s)
  rw [frame]
  refine ⟨fun hd r hr => ?_, fun hd hs r hr => ?_⟩
  · rw [sendFrame_ok hl hu hd hb hr, endCall_ok_afterBus]
  · rw [sendFrame_fails_of_ne_ok hl hu hh hd hb hr, endCall_raised_afterBus hs]

/-! ### A parameter group -/

/-- Settles O20: a group is one frame under `per_group` and one for each byte under `per_byte`, and the first failed transfer
is the last. -/
theorem Framer.sendParams : Obligations.SendParams := by
  refine ⟨fun ps s r hb hl hu hr => ⟨fun hf hd => ?group, fun hf hd => ?bytes⟩,
    fun ps s r hb hl hu hs => ⟨fun hf hd hr => ?groupFails, fun j k b hf hj hd ho hk hr => ?byteFails⟩, fun s => rfl⟩
  case group =>
    show endCall (Machine.sendParams ps s) = _
    rw [sendParams_perGroup hb hf, sendFrame_ok hl hu (hd 0 Nat.one_pos) hb hr, endCall_ok_afterBus]
  case bytes =>
    show endCall (Machine.sendParams ps s) = _
    rw [sendParams_perByte hb hf, sendEach_ok hl hu ps hb hd hr, endCall_ok_afterBus]
  case groupFails =>
    show endCall (Machine.sendParams ps s) = _
    rw [sendParams_perGroup hb hf, sendFrame_fails hl hu hb hd hr, endCall_raised_afterBus hs]
  case byteFails =>
    show endCall (Machine.sendParams ps s) = _
    rw [sendParams_perByte hb hf, sendEach_fails hl hu hj hd ho hk hr, endCall_raised_afterBus hs]

/-! ### Chip-select on return -/

/-- However frames end, chip-select is deasserted (R88, R91). -/
theorem EndsWith.released {s : State} {es : List Event} {n : Nat} {F : List Event → Prop} {x : Result}
    (h : EndsWith s es n F x) : x.All fun t => t.cs.level = some .deasserted := by
  cases x with
  | ok t =>
    obtain ⟨-, -, -, cls, r, rfl⟩ := h
    rfl
  | raised t =>
    obtain ⟨cls, es', m, r, rfl, -⟩ := h
    rfl
  | stopped w => trivial

@[simp] theorem takeTransportError_cs (s : State) : (takeTransportError s).cs = s.cs := by
  unfold takeTransportError State.releaseOnFailure
  split
  · split <;> rfl
  · rfl

/-- The end of a call leaves chip-select alone (R84, R184). -/
theorem endCall_released {x : Result} {t : State} (hx : x.All fun u => u.cs.level = some .deasserted)
    (ht : endCall x = .next t) : t.cs.level = some .deasserted := by
  obtain ⟨u, rfl, rfl⟩ | ⟨u, rfl, rfl⟩ := endCall_eq_next ht
  · exact hx
  · rw [State.setResult_cs]
    split
    · rw [takeTransportError_cs]
      exact hx
    · exact hx

/-- A block is refused, or is a frame of at least one byte (R86). -/
theorem sendDataBlock_released {s : State} (hl : LinesReliable s) (bytes : List Byte) (n : Nat) :
    (sendDataBlock bytes n s).All fun t => t.cs.level = some .deasserted := by
  by_cases hn : n = 0 ∨ n ≠ bytes.length
  · rw [sendDataBlock, if_pos hn]
    trivial
  · obtain ⟨hn0, rfl⟩ : n ≠ 0 ∧ n = bytes.length := by simpa [not_or] using hn
    have hb : bytes ≠ [] := List.ne_nil_of_length_pos (Nat.pos_of_ne_zero hn0)
    rw [sendDataBlock_length hb]
    exact (sendFrame_ends hl .data hb).released

/-- Settles O21: each form is frames on the bus, and the last event of a frame deasserts chip-select, however it ends. -/
theorem chipSelectReleased : Obligations.ChipSelectReleased := by
  intro i s t hi hl ht
  cases instrForm i with
  | wire cmd ps =>
    rw [exec_instrOfCmd] at ht
    exact endCall_released (exchange_ends hl cmd _).released ht
  | pixelData b => exact endCall_released (sendFrame_ends hl .data (bytes := [b]) (by simp)).released ht
  | unknownCommand b => exact endCall_released (sendFrame_ends hl .command (bytes := [b]) (by simp)).released ht
  | sendCommand b => exact endCall_released (sendFrame_ends hl .command (bytes := [b]) (by simp)).released ht
  | sendData b => exact endCall_released (sendFrame_ends hl .data (bytes := [b]) (by simp)).released ht
  | sendDataBlock bytes n => exact endCall_released (sendDataBlock_released hl bytes n) ht
  | windowSet x0 y0 x1 y1 => exact endCall_released (windowSet_ends hl x0 y0 x1 y1).released ht
  | sendParams ps =>
    have hb : ps ≠ [] := by simpa [isFrameOp] using hi
    exact endCall_released (sendParams_ends hl hb).released ht
  | _ => simp [isFrameOp] at hi

end Sys2Proof.Machine
end

section
/-! A wire command one of whose transfers fails (40_bus_framer.md R84, R91, R93; 41_wire_commands.md R101 to R104): what its
command frame or its parameter group has put on the wire, and what the bytes that arrived did to the Receiver. -/

namespace Sys2Proof.Machine

/-! ### The command frame -/

/-- An exchange with no parameters is its command frame (R63). -/
theorem exchange_nil (cmd : Cmd) (s : State) : exchange cmd [] s = sendFrame .command [s.cfg.codes.get cmd] s := by
  show (sendFrame .command [s.cfg.codes.get cmd] s).bind .ok = _
  cases sendFrame .command [s.cfg.codes.get cmd] s <;> rfl

@[simp] theorem groupOf_nil (cmd : Cmd) : groupOf cmd [] = [] := by cases cmd <;> rfl

section
variable {s : State} (hl : LinesReliable s) (hu : BusUsable s) (cmd : Cmd)
include hl hu

/-- A wire command sent bare, whose transfer succeeds, ends as the Receiver's answer to its byte does (R84). -/
theorem exec_bare_of_draw (hd : (s.drawAt 0).outcome = .ok) :
    exec (instrOfCmd cmd []) s = endCall
      (Result.ofExcept (takeByte s.cfg (framePins s .command) (s.cfg.codes.get cmd) s.recv) fun r =>
        .ok (afterBus s .command (frameEvents .command [s.cfg.codes.get cmd]) 1 r)) := by
  rw [exec_instrOfCmd, groupOf_nil, exchange_nil, sendFrame_of_draw hl hu hd .command (by simp), takeBytes_singleton]

/-- A wire command sent bare that returned: the Receiver took its byte. -/
theorem takeByte_of_exec_bare_next (hd : (s.drawAt 0).outcome = .ok) {u : State}
    (h : exec (instrOfCmd cmd []) s = .next u) :
    takeByte s.cfg (framePins s .command) (s.cfg.codes.get cmd) s.recv = .ok u.recv := by
  rw [exec_bare_of_draw hl hu cmd hd] at h
  cases hb : takeByte s.cfg (framePins s .command) (s.cfg.codes.get cmd) s.recv with
  | ok r =>
    rw [hb] at h
    cases h
    rfl
  | error w =>
    rw [hb] at h
    cases w <;> cases h

/-- A wire command sent bare that was refused: the Receiver refused its byte. -/
theorem takeByte_of_exec_bare_refused (hd : (s.drawAt 0).outcome = .ok) {w : Refusal}
    (h : exec (instrOfCmd cmd []) s = .refused w) :
    takeByte s.cfg (framePins s .command) (s.cfg.codes.get cmd) s.recv = .error (.refused w) := by
  rw [exec_bare_of_draw hl hu cmd hd] at h
  cases hb : takeByte s.cfg (framePins s .command) (s.cfg.codes.get cmd) s.recv with
  | ok r =>
    rw [hb] at h
    cases h
  | error w' =>
    rw [hb] at h
    cases w' <;> cases h
    rfl

variable (hd : (s.drawAt 0).outcome = .fail) (ps : List Byte)
include hd

/-- A wire command whose command frame fails before its byte arrived (R83, R91). -/
theorem exec_commandFails_undelivered (hs : s.inFlight = false) (hk : (s.drawAt 0).delivered = 0) :
    exec (instrOfCmd cmd ps) s = .next
      { afterBus s .command (transferEvents .command [s.cfg.codes.get cmd] false 0) 1 s.recv with
        callResult := some .transportError } := by
  have undelivered : failedCount s [s.cfg.codes.get cmd] = 0 := by simp [failedCount, hk]
  rw [exec_instrOfCmd, exchange, sendCommand, sendFrame_fails hl hu (by simp) hd (r := s.recv) (by simp [undelivered]),
    undelivered, Result.bind_raised, endCall_raised_afterBus hs]

/-- A wire command whose command frame fails although its byte arrived ends as the Receiver's answer to the byte does. -/
theorem exec_commandFails_delivered (hk : 1 ≤ (s.drawAt 0).delivered) :
    exec (instrOfCmd cmd ps) s = endCall
      (Result.ofExcept (takeByte s.cfg (framePins s .command) (s.cfg.codes.get cmd) s.recv) fun r =>
        .raised (afterBus s .command (transferEvents .command [s.cfg.codes.get cmd] false 1) 1 r)) := by
  have delivered : failedCount s [s.cfg.codes.get cmd] = 1 := Nat.min_eq_right hk
  rw [exec_instrOfCmd, exchange, sendCommand, sendFrame_eq hl hu .command (by simp), if_neg (by simp [hd]),
    if_neg (by simp [hd]), Result.ofExcept_bind, delivered, List.take_succ_cons, List.take_nil, takeBytes_singleton]
  rfl

end

/-! ### The parameter group -/

/-- A command that has parameters sends those it is given (R72). -/
theorem exec_instrOfCmd_of_nParams {c : Config} {cmd : Cmd} (hn : c.nParams cmd ≠ 0) (ps : List Byte) (s : State) :
    exec (instrOfCmd cmd ps) s = endCall (exchange cmd ps s) := by
  cases cmd
  case softwareReset | sleepOut | normalDisplayOn | displayOn | memoryWrite => exact absurd rfl hn
  all_goals rfl

/-- Draws that are listed as `ok` are `ok`. -/
theorem drawsOk_replicate (s : State) (n : Nat) : DrawsOk { s with draws := List.replicate n ⟨.ok, 0, true⟩ } n := by
  intro k hk
  simp [State.drawAt, hk]

/-- The command byte of a command with parameters begins its group, where none was open (R101). -/
theorem CanSend.takeByte_begins {s : State} {n : Nat} (h : CanSend s n) (hg : ¬ GroupOpen s.cfg s.recv) {cmd : Cmd}
    (ha : Accepts s.recv cmd) (hn : s.cfg.nParams cmd ≠ 0) :
    takeByte s.cfg (framePins s .command) (s.cfg.codes.get cmd) s.recv = .ok (insideGroup cmd [] s.recv) := by
  obtain ⟨hrst, hdone, hbusy⟩ := h.awake
  have closed := endGroup_of_closed hg
  have begun := Machine.takeByte_begins h.cfg hrst hdone hbusy (closed.symm ▸ ha) hn
  rwa [closed] at begun

/-- A group that is not whole only accumulates (R102, R104). -/
theorem CanSend.takeBytes_cutGroup {s : State} {n : Nat} (h : CanSend s n) {cmd : Cmd} {ps : List Byte}
    (hn : ps.length = s.cfg.nParams cmd) {m : Nat} (hm : m < ps.length) :
    takeBytes s.cfg (framePins s .data) (ps.take m) (insideGroup cmd [] s.recv) =
      .ok (insideGroup cmd (ps.take m) s.recv) := by
  obtain ⟨hrst, hdone, hbusy⟩ := h.awake
  exact (takeBytes_group hrst hdone hbusy (by omega) hn).1 m hm

section
variable {s : State} (h : CanSend s 1) (hg : ¬ GroupOpen s.cfg s.recv) {cmd : Cmd} (ha : Accepts s.recv cmd)
  {ps : List Byte} (hb : ps ≠ []) (hn : ps.length = s.cfg.nParams cmd)
include hb hn

theorem nParams_ne_zero_of_group : s.cfg.nParams cmd ≠ 0 := by
  rw [← hn]
  simpa using hb

include h hg ha

/-- A wire command whose command frame succeeds goes on with its parameter group (R63). -/
theorem exec_eq_sendParams :
    exec (instrOfCmd cmd ps) s = endCall (sendParams ps
      (afterBus s .command (frameEvents .command [s.cfg.codes.get cmd]) 1 (insideGroup cmd [] s.recv))) := by
  have hn0 := nParams_ne_zero_of_group hb hn
  have begun := h.takeByte_begins hg ha hn0
  rw [← takeBytes_singleton] at begun
  rw [exec_instrOfCmd_of_nParams hn0, exchange, sendCommand,
    sendFrame_ok h.lines h.bus (h.draws 0 Nat.one_pos) (by simp) begun, Result.bind_ok]

/-- The one frame of the group fails under `per_group`: `r` is what the bytes that arrived leave (R93, R91). -/
theorem exec_groupFails (hs : s.inFlight = false) (hf : s.cfg.paramFraming = .perGroup)
    (hd : (s.drawAt 1).outcome = .fail) {k : Nat} (hk : min (s.drawAt 1).delivered ps.length = k) {r : Receiver}
    (hr : takeBytes s.cfg (framePins s .data) (ps.take k) (insideGroup cmd [] s.recv) = .ok r) :
    exec (instrOfCmd cmd ps) s = .next
      { afterBus s .data (frameEvents .command [s.cfg.codes.get cmd] ++ transferEvents .data ps false k) 2 r with
        callResult := some .transportError } := by
  rw [exec_eq_sendParams h hg ha hb hn, sendParams_perGroup hb (by simpa using hf)]
  have count : failedCount (afterBus s .command (frameEvents .command [s.cfg.codes.get cmd]) 1
      (insideGroup cmd [] s.recv)) ps = k := by simpa [failedCount] using hk
  rw [sendFrame_fails (h.lines.afterBus ..) (h.bus.afterBus ..) hb (by simpa using hd) (by simpa [count] using hr), count,
    afterBus_afterBus, endCall_raised_afterBus hs]

/-- The frame of byte `j` of the group fails under `per_byte`: `r` is what the bytes that arrived leave (R93, R91). -/
theorem exec_byteFails (hs : s.inFlight = false) (hf : s.cfg.paramFraming = .perByte) {j k : Nat} {b : Byte}
    (hj : ps[j]? = some b) (hd : DrawsOk s (1 + j)) (ho : (s.drawAt (1 + j)).outcome = .fail)
    (hk : k = min (s.drawAt (1 + j)).delivered 1) {r : Receiver}
    (hr : takeBytes s.cfg (framePins s .data) (ps.take (j + k)) (insideGroup cmd [] s.recv) = .ok r) :
    exec (instrOfCmd cmd ps) s = .next
      { afterBus s .data (frameEvents .command [s.cfg.codes.get cmd] ++
          ((ps.take j).flatMap fun b => frameEvents .data [b]) ++ transferEvents .data [b] false k) (2 + j) r with
        callResult := some .transportError } := by
  rw [exec_eq_sendParams h hg ha hb hn, sendParams_perByte hb (by simpa using hf),
    sendEach_fails (h.lines.afterBus ..) (h.bus.afterBus ..) hj (DrawsOk.afterBus hd _ _ _) (by simpa using ho)
      (by simpa using hk) (by simpa using hr),
    afterBus_afterBus, endCall_raised_afterBus hs, List.append_assoc, show 1 + (j + 1) = 2 + j by omega]

/-- A whole group leaves the Receiver where the successful exchange leaves it (R102). -/
theorem takeBytes_wholeGroup {n : Nat} (hd : exchangeFrames s.cfg ps ≤ n) :
    ∃ u, exec (instrOfCmd cmd ps) { s with draws := List.replicate n ⟨.ok, 0, true⟩ } = .next u ∧
      takeBytes s.cfg (framePins s .data) ps (insideGroup cmd [] s.recv) = .ok u.recv := by
  obtain ⟨hrst, hdone, hbusy⟩ := h.awake
  have hn0 := nParams_ne_zero_of_group hb hn
  have sent := exchange_group (s := { s with draws := List.replicate n ⟨.ok, 0, true⟩ }) h.lines h.bus h.awake h.cfg hg ha
    hb hn ((drawsOk_replicate s n).mono hd)
  exact ⟨_, (exec_instrOfCmd_of_nParams hn0 ps _).trans (congrArg endCall sent),
    (takeBytes_group hrst hdone hbusy hn0 hn).2⟩

end

/-! ### The obligation -/

/-- Settles O58: what a cut exchange has sent is its command frame or the frames of its group up to the failed one, and the
Receiver has taken the bytes of them that arrived. -/
theorem exchangeCutShort : Obligations.ExchangeCutShort := by
  refine ⟨fun cmd ps s hl hu hs hd => ⟨exec_commandFails_undelivered hl hu cmd hd ps hs, fun hk => ?command⟩,
    fun cmd ps s h hg ha hb hn hs => ⟨fun hf hd => ⟨fun hlt => ?group, fun hle => ?wholeGroup⟩,
      fun j k b hf hj hd ho hk => ⟨fun hlt => ?byte, fun hlast => ?lastByte⟩⟩⟩
  case command =>
    rw [exec_commandFails_delivered hl hu cmd hd ps hk]
    refine ⟨fun u hnext => ?taken, fun w hrefused => ?refused, fun h hg ha hn => ?begins⟩
    case taken =>
      have taken : takeByte s.cfg (framePins s .command) (s.cfg.codes.get cmd) s.recv = .ok u.recv :=
        takeByte_of_exec_bare_next (s := { s with draws := [⟨.ok, 0, true⟩] }) hl hu cmd rfl hnext
      rw [taken, Result.ofExcept_ok, endCall_raised_afterBus hs]
    case refused =>
      have refused : takeByte s.cfg (framePins s .command) (s.cfg.codes.get cmd) s.recv = .error (.refused w) :=
        takeByte_of_exec_bare_refused (s := { s with draws := [⟨.ok, 0, true⟩] }) hl hu cmd rfl hrefused
      rw [refused]
      rfl
    case begins =>
      rw [h.takeByte_begins hg ha (Nat.ne_of_gt hn), Result.ofExcept_ok, endCall_raised_afterBus hs]
  case group =>
    exact exec_groupFails h hg ha hb hn hs hf hd (Nat.min_eq_left hlt.le) (h.takeBytes_cutGroup hn hlt)
  case wholeGroup =>
    obtain ⟨u, hok, hu⟩ := takeBytes_wholeGroup h hg ha hb hn (n := 2) (by simp [exchangeFrames, paramFrames, hf, hb])
    exact ⟨u, hok, exec_groupFails h hg ha hb hn hs hf hd (Nat.min_eq_right hle) (by rwa [List.take_length])⟩
  case byte => exact exec_byteFails h hg ha hb hn hs hf hj hd ho hk (h.takeBytes_cutGroup hn hlt)
  case lastByte =>
    obtain ⟨u, hok, hu⟩ := takeBytes_wholeGroup h hg ha hb hn (exchangeFrames_le s.cfg ps)
    exact ⟨u, hok, exec_byteFails h hg ha hb hn hs hf hj hd ho hk (by rwa [hlast, List.take_length])⟩

end Sys2Proof.Machine
end

section
/-! The wire commands executed by themselves (41_wire_commands.md R101, R110 to R129): the command byte at the Receiver, then
the whole exchange, as the operation that sends it. A theorem that settles an obligation stands under `Wire.` where its own
name is that of a command. -/

namespace Sys2Proof.Machine

/-! ### The command byte, taken or refused -/

/-- Inside the command frame of a usable bus the Receiver runs the command (R100, R101). -/
theorem CanSend.takeByte_get {s : State} {n : Nat} (h : CanSend s n) (cmd : Cmd) :
    takeByte s.cfg (framePins s .command) (s.cfg.codes.get cmd) s.recv = runCommand s.cfg cmd s.recv := by
  obtain ⟨hrst, hdone, hbusy⟩ := h.awake
  rw [takeByte_command rfl rfl hrst hdone hbusy, takeCommand_get h.cfg]

/-- A wire command sent bare whose byte the Receiver takes (R63, R84). -/
theorem CanSend.exec_bare {s : State} (h : CanSend s 1) {cmd : Cmd} {r : Receiver}
    (hr : runCommand s.cfg cmd s.recv = .ok r) :
    exec (instrOfCmd cmd []) s = .next
      { afterBus s .command (frameEvents .command [s.cfg.codes.get cmd]) 1 r with callResult := some .ok } := by
  rw [exec_bare_of_draw h.lines h.bus cmd (h.draws 0 Nat.one_pos), h.takeByte_get, hr]
  rfl

/-- A wire command whose byte the Receiver refuses, whatever parameters were to follow it (R19). -/
theorem CanSend.exec_refused {s : State} (h : CanSend s 1) {cmd : Cmd} {w : Refusal}
    (hr : runCommand s.cfg cmd s.recv = .error (.refused w)) (ps : List Byte) :
    exec (instrOfCmd cmd ps) s = .refused w := by
  rw [exec_instrOfCmd, exchange, sendCommand, sendFrame_of_draw h.lines h.bus (h.draws 0 Nat.one_pos) .command (by simp),
    takeBytes_singleton, h.takeByte_get, hr]
  rfl

/-! ### Commands without parameters -/

/-- Settles O25: SOFTWARE_RESET is taken at every stage. -/
theorem Wire.softwareReset : Obligations.SoftwareReset :=
  fun _ h hg => h.exec_bare (cmd := .softwareReset) (runCommand_softwareReset hg)

/-- Settles O26: before initialization is complete the order tracker accepts each of the three. -/
theorem powerCommands : Obligations.PowerCommands :=
  fun _ h hg hs =>
    ⟨h.exec_bare (cmd := .sleepOut) (runCommand_sleepOut hg (.inl hs)),
      h.exec_bare (cmd := .normalDisplayOn) (runCommand_normalDisplayOn hg (.inl hs)),
      h.exec_bare (cmd := .displayOn) (runCommand_displayOn hg (.inl hs))⟩

/-- MEMORY_WRITE ends as its window check does, where that refuses (R129). -/
theorem runCommand_memoryWrite_refused {c : Config} {r : Receiver} (hg : ¬ GroupOpen c r) {w : Refusal}
    (hw : memoryWriteEffect c { beginCommand .memoryWrite r with cInitValid := validAfter r .memoryWrite } =
      .error (.refused w)) :
    runCommand c .memoryWrite r = .error (.refused w) := by
  rw [runCommand_eq hg (.inr rfl), commandEffect, hw]
  rfl

/-- A window that is inverted or outside the panel (R129). -/
theorem memoryWriteEffect_outside {c : Config} {r : Receiver} {x0 x1 y0 y1 : Half} (hx0 : r.xs = some x0)
    (hx1 : r.xe = some x1) (hy0 : r.ys = some y0) (hy1 : r.ye = some y1) (hw : windowInPanel c x0 x1 y0 y1 = false) :
    memoryWriteEffect c r = .error (.refused .windowOutsidePanel) := by
  simp [memoryWriteEffect, hx0, hx1, hy0, hy1, hw]

/-- A window of which a bound holds nothing (R129). -/
theorem memoryWriteEffect_undefined {c : Config} {r : Receiver}
    (h : r.xs = none ∨ r.xe = none ∨ r.ys = none ∨ r.ye = none) :
    memoryWriteEffect c r = .error (.refused .undefinedWindow) := by
  unfold memoryWriteEffect
  split
  · simp_all
  · rfl

/-- Settles O31: the window is checked as it stood before the command byte, which leaves it alone. -/
theorem Wire.memoryWrite : Obligations.MemoryWrite := by
  intro s h hg
  refine ⟨fun x0 x1 y0 y1 hx0 hx1 hy0 hy1 => ⟨fun inside => ?inside, fun outside => ?outside⟩, fun undefined => ?undefined⟩
  case inside =>
    have window : WindowOk s.cfg s.recv x0 x1 y0 y1 := ⟨hx0, hx1, hy0, hy1, decide_eq_true inside⟩
    exact h.exec_bare (cmd := .memoryWrite) (runCommand_memoryWrite hg window)
  case outside =>
    exact h.exec_refused (cmd := .memoryWrite) (runCommand_memoryWrite_refused hg
      (memoryWriteEffect_outside hx0 hx1 hy0 hy1 (decide_eq_false outside))) []
  case undefined =>
    exact h.exec_refused (cmd := .memoryWrite) (runCommand_memoryWrite_refused hg
      (memoryWriteEffect_undefined undefined)) []

/-! ### Commands with parameters -/

/-- A wire command with its whole group (R63, R102): `r` is what the commit and the order tracker leave. -/
theorem CanSend.exec_group {s : State} {cmd : Cmd} {ps : List Byte} (h : CanSend s (exchangeFrames s.cfg ps))
    (hg : ¬ GroupOpen s.cfg s.recv) (ha : Accepts s.recv cmd) (hb : ps ≠ []) (hn : ps.length = s.cfg.nParams cmd)
    {r : Receiver} (hr : trackerDone cmd (commitEffect cmd
      { beginCommand cmd s.recv with cInitValid := validAfter s.recv cmd, cPbuf := ps, cPidx := ps.length }) = r) :
    exec (instrOfCmd cmd ps) s = .next
      { afterBus s .data (exchangeEvents s.cfg cmd ps) (exchangeFrames s.cfg ps) r with callResult := some .ok } := by
  rw [exec_instrOfCmd_of_nParams (nParams_ne_zero_of_group hb hn),
    exchange_group h.lines h.bus h.awake h.cfg hg ha hb hn h.draws, hr]
  rfl

/-- A configuration command takes at least one byte (R5), so its whole group is not empty. -/
theorem CanSend.group_ne_nil {s : State} {n : Nat} (h : CanSend s n) {reg : ConfigReg} {ps : List Byte}
    (hn : ps.length = s.cfg.counts.get reg) : ps ≠ [] := by
  obtain ⟨-, -, -, -, counts, -⟩ := h.cfg
  obtain ⟨positive, -⟩ := counts reg (ConfigReg.mem_all reg)
  rintro rfl
  simp only [List.length_nil] at hn
  omega

/-- A configuration command before initialization is complete (R102, R108). -/
theorem CanSend.exec_configuration {s : State} {ps : List Byte} (h : CanSend s (exchangeFrames s.cfg ps))
    (hg : ¬ GroupOpen s.cfg s.recv) (hs : s.recv.cInitStage < 19) {reg : ConfigReg}
    (hn : ps.length = s.cfg.counts.get reg) {r : Receiver}
    (hr : trackerDone reg.cmd (commitEffect reg.cmd { beginCommand reg.cmd s.recv with
      cInitValid := validAfter s.recv reg.cmd, cPbuf := ps, cPidx := ps.length }) = r) :
    exec (instrOfCmd reg.cmd ps) s = .next
      { afterBus s .data (exchangeEvents s.cfg reg.cmd ps) (exchangeFrames s.cfg ps) r with callResult := some .ok } :=
  h.exec_group hg (.inl hs) (h.group_ne_nil hn) (hn.trans (nParams_cmd s.cfg reg).symm) hr

/-- Every configuration command but VRH and VDV stores its group without a condition (R112, R113, R116 to R120, R123 to
R126). -/
theorem commitEffect_unconditional {reg : ConfigReg} (hvrh : reg ≠ .vrh) (hvdv : reg ≠ .vdv) (r : Receiver) :
    commitEffect reg.cmd r = storeReg reg r := by
  cases reg
  case vrh => exact absurd rfl hvrh
  case vdv => exact absurd rfl hvdv
  all_goals rfl

/-- The registers whose command stores its group without a condition: all but VRH and VDV. -/
def unconditionalRegs : List ConfigReg :=
  [.colorMode, .memoryAccess, .porchControl, .gateControl, .vcoms, .lcmControl, .vdvVrhEnable, .frameRateControl2,
   .powerControl1, .positiveGamma, .negativeGamma]

/-- Settles O27: the eleven rows are one, read from the register. -/
theorem configurationCommands : Obligations.ConfigurationCommands := by
  intro ps s h hg hs row hrow hn
  obtain ⟨reg, hreg, rfl⟩ : ∃ reg ∈ unconditionalRegs, (instrOfCmd reg.cmd ps, reg.cmd, reg) = row := List.mem_map.1 hrow
  have hvrh : reg ≠ .vrh := by
    rintro rfl
    exact absurd hreg (by decide)
  have hvdv : reg ≠ .vdv := by
    rintro rfl
    exact absurd hreg (by decide)
  exact h.exec_configuration hg hs hn (commit_storeReg s.recv ps (commitEffect_unconditional hvrh hvdv))

/-- Settles O28: what each of the two leaves is decided by the enable register when the group commits. -/
theorem vrhAndVdv : Obligations.VrhAndVdv :=
  fun ps s h hg hs =>
    ⟨fun hn => h.exec_configuration (reg := .vrh) hg hs hn (commit_vrh s.recv ps),
      fun hn => h.exec_configuration (reg := .vdv) hg hs hn (commit_vdv s.recv ps)⟩

/-- The joining of two bytes is the value of R66. -/
theorem joinBytes_eq_ofNat (h l : Byte) : joinBytes h l = BitVec.ofNat 16 (h.toNat * 256 + l.toNat) := by
  rw [← joinBytes_toNat, BitVec.ofNat_toNat, BitVec.setWidth_eq]

/-- Settles O29: the four bytes are a whole group, and the two commands are taken at every stage. -/
theorem addressCommands : Obligations.AddressCommands := by
  intro p0 p1 p2 p3 s h hg
  simp only [← joinBytes_eq_ofNat]
  exact ⟨h.exec_group hg (.inr rfl) (by simp) rfl (commit_columnAddressSet s.recv p0 p1 p2 p3),
    h.exec_group hg (.inr rfl) (by simp) rfl (commit_rowAddressSet s.recv p0 p1 p2 p3)⟩

/-! ### A complete initialization -/

/-- The end of an open group leaves the stage alone (R104). -/
@[simp] theorem endGroup_cInitStage (c : Config) (r : Receiver) : (endGroup c r).cInitStage = r.cInitStage := by
  unfold endGroup
  split
  · rfl
  · rename_i cmd _
    split
    · cases cmd <;> rfl
    · rfl

/-- The four commands that a complete initialization expects, and no other (R108). -/
theorem expectedAfterInit_iff (cmd : Cmd) : expectedAfterInit cmd = true ↔
    cmd = .columnAddressSet ∨ cmd = .rowAddressSet ∨ cmd = .memoryWrite ∨ cmd = .softwareReset := by
  cases cmd <;> decide

/-- Settles O37: the order tracker refuses the command byte, and no parameter is sent. -/
theorem afterInitialization : Obligations.AfterInitialization := by
  intro cmd ps s h hs hcolumn hrow hwrite hreset
  have notAccepted : ¬ Accepts (endGroup s.cfg s.recv) cmd := by
    rintro (hlt | hexpected)
    · rw [endGroup_cInitStage] at hlt
      omega
    · obtain e | e | e | e := (expectedAfterInit_iff cmd).1 hexpected
      · exact hcolumn e
      · exact hrow e
      · exact hwrite e
      · exact hreset e
  exact h.exec_refused (runCommand_refuses notAccepted) ps

/-! ### A command byte inside a group -/

/-- The Receiver that a command byte finds in place of one with an open group (R104): what the group's command writes is
void, and no command is current. -/
def withoutGroup (c : Config) (r : Receiver) : Receiver := { endGroup c r with cCmd := none }

/-- A command byte ends the group and overwrites the command context, so it finds the same in either Receiver (R101). -/
theorem runCommand_withoutGroup (c : Config) (cmd : Cmd) (r : Receiver) :
    runCommand c cmd (withoutGroup c r) = runCommand c cmd r := rfl

/-- Every command byte acts as if the group had not been begun (R104). -/
theorem takeByte_withoutGroup (c : Config) {p : Pins} (hp : p.dc = some .command) (b : Byte) (r : Receiver) :
    takeByte c p b (withoutGroup c r) = takeByte c p b r := by
  have hdone : (withoutGroup c r).cResetDone = r.cResetDone := endGroup_cResetDone c r
  have hbusy : (withoutGroup c r).cBusy = r.cBusy := endGroup_cBusy c r
  have hcommand : takeCommand c b (withoutGroup c r) = takeCommand c b r := by
    unfold takeCommand
    cases c.cmdOf b with
    | none => rfl
    | some cmd => exact runCommand_withoutGroup c cmd r
  simp only [takeByte, hp, hdone, hbusy, hcommand]

/-- A wire command whose command frame succeeds runs as from the Receiver without the group (R63, R104). -/
theorem exec_withoutGroup {s : State} (hl : LinesReliable s) (hu : BusUsable s) (hd : (s.drawAt 0).outcome = .ok)
    (cmd : Cmd) (ps : List Byte) :
    exec (instrOfCmd cmd ps) s = exec (instrOfCmd cmd ps) { s with recv := withoutGroup s.cfg s.recv } := by
  have frame : sendCommand (s.cfg.codes.get cmd) { s with recv := withoutGroup s.cfg s.recv } =
      sendCommand (s.cfg.codes.get cmd) s := by
    rw [sendCommand, sendCommand, sendFrame_of_draw hl hu hd .command (by simp),
      sendFrame_of_draw (s := { s with recv := withoutGroup s.cfg s.recv }) hl hu hd .command (by simp),
      takeBytes_singleton, takeBytes_singleton]
    exact congrArg (Result.ofExcept · _) (takeByte_withoutGroup s.cfg rfl _ s.recv)
  rw [exec_instrOfCmd, exec_instrOfCmd, exchange, exchange, ← frame]

/-- The end of a group that is open (R104). -/
theorem endGroup_of_open {c : Config} {r : Receiver} {cmd : Cmd} (hc : r.cCmd = some cmd) (hi : r.cPidx < c.nParams cmd) :
    endGroup c r = { voidRegs cmd r with cInitValid := r.cInitValid && decide (19 ≤ r.cInitStage) } := by
  rw [endGroup, hc]
  simp only [if_pos hi]
  by_cases hs : r.cInitStage < 19
  · simp [hs]
  · simp [hs, Nat.le_of_not_lt hs]

/-- A configuration command's open group voids its register (R104). -/
theorem voidRegs_cmd (reg : ConfigReg) (r : Receiver) :
    voidRegs reg.cmd r = { r with regs := r.regs.set reg none } := by
  cases reg <;> rfl

/-- Settles O34: the Receiver without the group is the one the command byte finds. -/
theorem incompleteGroup : Obligations.IncompleteGroup := by
  intro old cmd ps s hold hi hl hu hd
  refine ⟨withoutGroup s.cfg s.recv, exec_withoutGroup hl hu (hd 0 Nat.one_pos) cmd ps, ?_⟩
  rw [withoutGroup, endGroup_of_open hold hi]
  refine ⟨rfl, ?column, ?row, ?register, rfl, ?frame⟩
  case column =>
    rintro rfl
    exact ⟨rfl, rfl, rfl, rfl, rfl⟩
  case row =>
    rintro rfl
    exact ⟨rfl, rfl, rfl, rfl, rfl⟩
  case register =>
    rintro reg rfl
    rw [voidRegs_cmd]
    exact ⟨rfl, rfl, rfl, rfl, rfl⟩
  case frame => cases old <;> rfl

end Sys2Proof.Machine
end

section
/-! One byte by itself (41_wire_commands.md R100, R102, R104, R130, R131): where the Receiver's intake refuses it, and what a
data byte and an unknown command byte do as operations. -/

namespace Sys2Proof.Machine

/-! ### The intake -/

section
variable {c : Config} {p : Pins} {b : Byte} {r : Receiver}

/-- The first line of the intake (R100). -/
theorem takeByte_outsideChipSelect (hcs : p.cs ≠ some .asserted) :
    takeByte c p b r = .error (.refused .byteOutsideChipSelect) := by
  rw [takeByte, if_pos hcs]

/-- The second line of the intake (R100). -/
theorem takeByte_duringReset (hcs : p.cs = some .asserted) (hrst : p.rst ≠ some .high ∨ r.cResetDone = false) :
    takeByte c p b r = .error (.refused .byteDuringReset) := by
  rw [takeByte, if_neg (not_not_intro hcs), if_pos hrst]

/-- The third line of the intake (R100). -/
theorem takeByte_inBusyWindow (hcs : p.cs = some .asserted) (hrst : p.rst = some .high) (hd : r.cResetDone = true)
    (hb : 0 < r.cBusy) : takeByte c p b r = .error (.refused .byteInBusyWindow) := by
  rw [takeByte, if_neg (not_not_intro hcs), if_neg (by simp [hrst, hd]), if_pos hb]

end

/-- A transfer whose first byte the Receiver refuses is refused (R83, R19). -/
theorem exec_transportWrite_refused {s : State} (ht : s.tInit = true) (hd : (s.drawAt 0).outcome = .ok) {b : Byte}
    (bs : List Byte) {w : Refusal} (hr : takeByte s.cfg s.pins b s.recv = .error (.refused w)) :
    exec (.transportWrite (b :: bs)) s = .refused w := by
  show execTransportWrite (b :: bs) s = _
  rw [execTransportWrite, transportWrite_eq ht (by simp), if_pos hd, takeBytes_cons, hr]
  rfl

/-- Settles O35: the lines are tested in the order the statement gives them. -/
theorem intakeRefusals : Obligations.IntakeRefusals :=
  fun _ bs _ ht hd =>
    ⟨fun hcs => exec_transportWrite_refused ht hd bs (takeByte_outsideChipSelect hcs),
      fun hcs hrst => exec_transportWrite_refused ht hd bs (takeByte_duringReset hcs hrst),
      fun hcs hrst hdone hbusy => exec_transportWrite_refused ht hd bs (takeByte_inBusyWindow hcs hrst hdone hbusy)⟩

/-! ### A command byte that is none of the twenty -/

/-- No command has the byte (R131). -/
theorem takeByte_unknown {s : State} (ha : Awake s) {b : Byte} (hb : ∀ cmd, s.cfg.codes.get cmd ≠ b) :
    takeByte s.cfg (framePins s .command) b s.recv = .error (.refused .unknownCommandByte) := by
  obtain ⟨hrst, hdone, hbusy⟩ := ha
  have notFound : s.cfg.cmdOf b = none := cmdOf_eq_none.2 (by simpa [wfUnknown] using fun cmd _ => hb cmd)
  rw [takeByte_command rfl rfl hrst hdone hbusy, takeCommand, notFound]

/-- Settles O33: the one byte of the frame arrived, or it did not. -/
theorem unknownCommand : Obligations.UnknownCommand := by
  intro b s hl hu ha hb
  have refused := takeByte_unknown ha hb
  refine ⟨fun hd => ?sent, fun hd hk => ?delivered, fun hd hk hs => ?undelivered⟩
  all_goals show endCall (sendFrame .command [b] s) = _
  case sent =>
    rw [sendFrame_of_draw hl hu hd .command (by simp), takeBytes_singleton, refused]
    rfl
  case delivered =>
    have count : failedCount s [b] = 1 := Nat.min_eq_right hk
    rw [sendFrame_eq hl hu .command (by simp), if_neg (by simp [hd]), if_neg (by simp [hd]), count, List.take_succ_cons,
      List.take_nil, takeBytes_singleton, refused]
    rfl
  case undelivered =>
    have count : failedCount s [b] = 0 := by simp [failedCount, hk]
    rw [sendFrame_fails hl hu (by simp) hd (r := s.recv) (by simp [count]), count, endCall_raised_afterBus hs]

/-! ### A data byte, taken or refused -/

section
variable {s : State} (h : CanSend s 1) {b : Byte}
include h

/-- A data byte by itself ends as the Receiver's answer to it does (R85, R100). -/
theorem CanSend.exec_pixelData :
    exec (.pixelData b) s = endCall (Result.ofExcept (takeData s.cfg b s.recv) fun r =>
      .ok (afterBus s .data (frameEvents .data [b]) 1 r)) := by
  obtain ⟨hrst, hdone, hbusy⟩ := h.awake
  show endCall (sendFrame .data [b] s) = _
  rw [sendFrame_of_draw h.lines h.bus (h.draws 0 Nat.one_pos) .data (by simp), takeBytes_singleton,
    takeByte_data rfl rfl hrst hdone hbusy]

/-- A data byte by itself that the Receiver takes (R85). -/
theorem CanSend.exec_pixelData_taken {r : Receiver} (hr : takeData s.cfg b s.recv = .ok r) :
    exec (.pixelData b) s = .next { afterBus s .data (frameEvents .data [b]) 1 r with callResult := some .ok } := by
  rw [h.exec_pixelData, hr]
  rfl

/-- A data byte by itself that the Receiver refuses (R19). -/
theorem CanSend.exec_pixelData_refused {w : Refusal} (hr : takeData s.cfg b s.recv = .error (.refused w)) :
    exec (.pixelData b) s = .refused w := by
  rw [h.exec_pixelData, hr]
  rfl

end

/-! ### A parameter byte -/

/-- Under a command other than MEMORY_WRITE a data byte is a parameter (R102). -/
theorem takeData_eq_takeParam {r : Receiver} {cmd : Cmd} (hc : r.cCmd = some cmd) (hm : cmd ≠ .memoryWrite) (c : Config)
    (b : Byte) : takeData c b r = takeParam c cmd b r := by
  simp only [takeData, hc, if_neg hm]

/-- The order tracker at completion moves the stage only (R108). -/
theorem trackerDone_eq_stageAfter (cmd : Cmd) (r : Receiver) :
    trackerDone cmd r = { r with cInitStage := stageAfter r cmd } := by
  have inOrder : (r.cInitStage < 19 ∧ r.cInitValid = true ∧ initOrder[r.cInitStage]? = some cmd) ↔
      (r.cInitValid = true ∧ initOrder[r.cInitStage]? = some cmd) :=
    and_iff_right_of_imp fun ⟨_, ho⟩ => (List.getElem?_eq_some_iff.1 ho).1
  unfold trackerDone stageAfter
  by_cases hv : r.cInitValid = true ∧ initOrder[r.cInitStage]? = some cmd
  · rw [if_pos (inOrder.2 hv), if_pos hv]
  · rw [if_neg (mt inOrder.1 hv), if_neg hv]

section
variable {c : Config} {cmd : Cmd} {r : Receiver} {b : Byte}

/-- After a command that takes no parameters (R102). -/
theorem takeParam_parameterless (hn : c.nParams cmd = 0) :
    takeParam c cmd b r = .error (.refused .dataAfterParameterless) := by
  rw [takeParam, if_pos hn]

/-- Beyond the command's fixed count (R102). -/
theorem takeParam_excess (hn : 0 < c.nParams cmd) (hi : c.nParams cmd ≤ r.cPidx) :
    takeParam c cmd b r = .error (.refused .excessParameterByte) := by
  rw [takeParam, if_neg hn.ne', if_pos hi]

/-- Before the last byte of its group (R104). -/
theorem takeParam_open (hi : r.cPidx + 1 < c.nParams cmd) : takeParam c cmd b r = .ok (pushParam b r) := by
  rw [takeParam, if_neg (by omega), if_neg (by omega), if_neg hi.ne]

/-- As the last byte of its group it commits the group, and the order tracker moves (R102, R108). -/
theorem takeParam_last (hi : r.cPidx + 1 = c.nParams cmd) :
    takeParam c cmd b r = .ok { commitEffect cmd (pushParam b r) with cInitStage := stageAfter r cmd } := by
  obtain ⟨hstage, hvalid, -⟩ := commitEffect_keeps cmd (pushParam b r)
  have stage : stageAfter (commitEffect cmd (pushParam b r)) cmd = stageAfter r cmd := by
    rw [stageAfter, hstage, hvalid]
    rfl
  rw [takeParam, if_neg (by omega), if_neg (by omega), if_pos hi, trackerDone_eq_stageAfter, stage]

end

/-- What the commit of a configuration command leaves in its register: the group, but nothing where VRH and VDV are not
enabled (R112, R113, R116 to R126). -/
theorem commitEffect_cmd (reg : ConfigReg) (r : Receiver) :
    commitEffect reg.cmd r =
      { r with
        regs := r.regs.set reg
          (if (reg = .vrh ∨ reg = .vdv) ∧ r.regs.vdvVrhEnable = none then none else some r.cPbuf) } := by
  by_cases hvrh : reg = .vrh
  · subst hvrh
    by_cases he : r.regs.vdvVrhEnable = none <;> simp [ConfigReg.cmd, commitEffect, vrhCommit, storeReg, he]
  by_cases hvdv : reg = .vdv
  · subst hvdv
    by_cases he : r.regs.vdvVrhEnable = none <;> simp [ConfigReg.cmd, commitEffect, vdvCommit, storeReg, he]
  rw [commitEffect_unconditional hvrh hvdv, if_neg (by simp [hvrh, hvdv]), storeReg]

/-- The fourth byte of a group joins the three before it (R102). -/
theorem pushParam_fourth {r : Receiver} {p0 p1 p2 : Byte} (hp : r.cPbuf = [p0, p1, p2]) (hi : r.cPidx = 3) (b : Byte) :
    pushParam b r = { r with cPbuf := [p0, p1, p2, b], cPidx := 4 } := by
  rw [pushParam, hp, hi]
  rfl

/-- Settles O36: each case is one answer of the Receiver to a parameter byte. -/
theorem dataBytes : Obligations.DataBytes := by
  intro b s h
  refine ⟨fun hc => h.exec_pixelData_refused (by rw [takeData, hc]), fun cmd hc hm => ?_⟩
  have param := takeData_eq_takeParam hc hm s.cfg b
  refine ⟨fun hn => ?parameterless, fun hn hi => ?excess, fun hi => ?accumulates, fun reg hreg hi => ?register,
    fun p0 p1 p2 hp hi => ⟨fun hcolumn => ?column, fun hrow => ?row⟩⟩
  case parameterless => exact h.exec_pixelData_refused (param.trans (takeParam_parameterless hn))
  case excess => exact h.exec_pixelData_refused (param.trans (takeParam_excess hn hi))
  case accumulates => exact h.exec_pixelData_taken (param.trans (takeParam_open hi))
  case register =>
    refine h.exec_pixelData_taken (param.trans ?_)
    rw [takeParam_last hi, hreg, commitEffect_cmd]
    rfl
  case column | row =>
    refine h.exec_pixelData_taken (param.trans ?_)
    subst cmd
    rw [takeParam_last (by rw [hi]; rfl), pushParam_fourth hp hi, ← joinBytes_eq_ofNat, ← joinBytes_eq_ofNat]
    rfl

/-! ### A pixel byte -/

section
variable {c : Config} {r : Receiver} (hc : r.cCmd = some .memoryWrite) {b : Byte}
include hc

/-- A byte beyond the window (R130). -/
theorem takeData_beyondWindow (hf : r.cFull = true) : takeData c b r = .error (.refused .pixelBeyondRectangle) := by
  simp only [takeData, hc, if_true, takePixel, hf]

/-- The first byte of a pixel is held (R130). -/
theorem takeData_firstHalf (hf : r.cFull = false) (hh : r.cHalf = none) :
    takeData c b r = .ok { r with cHalf := some b } := by
  simp [takeData, hc, takePixel, hf, hh]

/-- The second byte of a pixel writes the cell under the pointer, wherever in the window that is (R130, R44). -/
theorem takeData_secondHalf (hf : r.cFull = false) {h : Byte} (hh : r.cHalf = some h) {x0 x1 y0 y1 : Half}
    (hw : WindowOk c r x0 x1 y0 y1) {col row : Nat} (hcol : r.wcol = some col) (hrow : r.wrow = some row)
    (hin : inPanel c row col = true) :
    takeData c b r = .ok (storePixel x0 x1 y1 row col (joinBytes h b) r) := by
  obtain ⟨hx0, hx1, -, hy1, -⟩ := hw
  simp [takeData, hc, takePixel, hf, hh, hcol, hrow, hx0, hx1, hy1, hin]

end

/-- The pointer after a pixel: on in its row, to the next row, or full (R130). -/
theorem storePixel_eq {r : Receiver} {row : Nat} (hrow : r.wrow = some row) (hf : r.cFull = false) (col : Nat)
    (x0 x1 y1 v : Half) :
    storePixel x0 x1 y1 row col v r =
      { r with
        cHalf := none
        fm := fmWrite r.fm row col v
        wcol := some (if col < x1.toNat then col + 1 else x0.toNat)
        wrow := some (if col < x1.toNat then row else if row < y1.toNat then row + 1 else row)
        cFull := decide (¬ col < x1.toNat ∧ ¬ row < y1.toNat) } := by
  unfold storePixel
  by_cases hx : col < x1.toNat
  · simp [hx, hrow, hf]
  · by_cases hy : row < y1.toNat
    · simp [hx, hy, hf]
    · simp [hx, hy, hrow]

/-- A write to a cell leaves every other cell of the panel as it was (R43, R44; R5 bounds the width). -/
theorem fmRead_fmWrite_of_inPanel {c : Config} (hc : c.Wf) {row col row' col' : Nat} (hin : inPanel c row col = true)
    (hin' : inPanel c row' col' = true) (hne : row' ≠ row ∨ col' ≠ col) (m : FrameMemory) (v : Half) :
    fmRead (fmWrite m row col v) row' col' = fmRead m row' col' := by
  obtain ⟨⟨-, width⟩, -⟩ := hc
  simp only [inPanel, decide_eq_true_eq] at hin hin'
  refine fmRead_fmWrite_of_ne m v fun e => ?_
  obtain ⟨erow, ecol⟩ := fmKey_inj (by omega) (by omega) e
  exact hne.elim (· erow) (· ecol)

/-- Settles O32: the pointer is in the window and so in the panel, where cells have different keys. -/
theorem pixelData : Obligations.PixelData := by
  intro b s h hc
  refine ⟨fun hf => h.exec_pixelData_refused (takeData_beyondWindow hc hf),
    fun hf hh => h.exec_pixelData_taken (takeData_firstHalf hc hf hh),
    fun half x0 x1 y0 y1 col row hf hh hw hcol hrow hx0 hx1 hy0 hy1 =>
      ⟨fmWrite s.recv.fm row col (joinBytes half b), ?taken, ?cell, fun row' col' hin' hne => ?otherCells⟩⟩
  all_goals have hin : inPanel s.cfg row col = true :=
    PointerOk.inPanel ⟨x0, x1, y0, y1, col, row, hw, hcol, hrow, hx0, hx1, hy0, hy1⟩ hrow hcol
  case taken =>
    rw [h.exec_pixelData_taken (takeData_secondHalf hc hf hh hw hcol hrow hin), storePixel_eq hrow hf]
  case cell => rw [fmRead_fmWrite_self, joinBytes_eq_ofNat]
  case otherCells => exact fmRead_fmWrite_of_inPanel h.cfg hin hin' hne _ _

end Sys2Proof.Machine
end

section
/-! How INIT ends (42_init_sequence.md R140, R141, R151 to R153): in the terminal row or in the row that failed,
with the events of the rows up to there. -/

namespace Sys2Proof.Machine

/-! ### How the program ends, whatever the lines do -/

/-- What a run of the program entered in `s` leaves of the Sequencer: it returned from the terminal row, or it raised in a
row before it, and no row writes another item of the Sequencer (R13, R151, R153). -/
def Result.EndsProgram (s : State) : Result → Prop
  | .ok t => ∃ u, KeepsSequencer { s with seqPc := 33 } u ∧ t = initDone u
  | .raised t => ∃ pc ≤ 32, KeepsSequencer { s with seqPc := pc } t
  | .stopped _ => True

/-- A program that is given a row to run for every row left never runs out of them (R140, R152). -/
theorem runProgram_endsProgram {s : State} (f : Nat) {u : State} {pc : Nat} (hu : KeepsSequencer { s with seqPc := pc } u)
    (hpc : pc ≤ 33) (hf : 33 < pc + f) : (runProgram f u).EndsProgram s := by
  induction f generalizing u pc with
  | zero => omega
  | succ f ih =>
    have here : u.seqPc = pc := hu.seqPc
    obtain ⟨last, heq⟩ | ⟨hlt, m, hm, heq⟩ := runProgram_succ f (here.trans_le hpc)
    · obtain rfl : pc = 33 := here.symm.trans last
      rw [heq]
      exact ⟨u, hu, rfl⟩
    · have row := microStep_moves hm u
      rw [heq]
      cases hx : microStep m u with
      | stopped w => trivial
      | raised t =>
        rw [hx] at row
        exact ⟨pc, by omega, hu.trans row.keepsSequencer⟩
      | ok t =>
        rw [hx] at row
        have next := hu.trans row.keepsSequencer
        have advanced : KeepsSequencer { s with seqPc := pc + 1 } t.advancePc :=
          { next with seqPc := congrArg (· + 1) next.seqPc }
        exact ih advanced (by omega) (by omega)

theorem runProgram_enterInit_endsProgram (s : State) : (runProgram 34 (enterInit s)).EndsProgram (enterInit s) :=
  runProgram_endsProgram (pc := 0) 34 (.refl _) (by omega) (by omega)

/-- The failure of an INIT is taken with no release, which is a BLIT's (R165, R184). -/
theorem takeTransportError_eq {s : State} (h : s.seqState ≠ .blitRunning) :
    takeTransportError s = (s.returnStatus .transportError).setSeqState .failed := by
  rw [takeTransportError, if_neg h]

/-- A row before the last runs, and the program goes on after it (R152). -/
theorem runProgram_eq_bind {s : State} {m : MicroStep} (f : Nat) (hrow : (initProgram s.cfg)[s.seqPc]? = some m)
    (hm : m ≠ .done) : runProgram (f + 1) s = (microStep m s).bind fun t => runProgram f t.advancePc := by
  rw [runProgram, hrow]
  cases m with
  | done => exact absurd rfl hm
  | _ => rfl

/-- The program by its parts, the register rows as exchanges (R141). -/
theorem initProgram_eq (c : Config) :
    initProgram c = initProgramReset c ++ initProgramWake c ++
      (registerRows c).map (fun row => MicroStep.exch row.1 row.2) ++ initProgramDisplay c :=
  rfl

/-! ### How a row ends, where no line call can fail -/

/-- The events of the rows before row `pc`. -/
def eventsBefore (c : Config) (pc : Nat) : List Event := ((initProgram c).take pc).flatMap (microEvents c)

theorem eventsBefore_succ {c : Config} {pc : Nat} {m : MicroStep} (h : (initProgram c)[pc]? = some m) :
    eventsBefore c (pc + 1) = eventsBefore c pc ++ microEvents c m := by
  simp [eventsBefore, List.take_add_one, h]

theorem flatMap_microEvents_initProgram (c : Config) :
    (initProgram c).flatMap (microEvents c) = eventsBefore c 33 ++ [.ret .ok] :=
  eventsBefore_succ (c := c) (pc := 33) rfl

/-- A row that sends a frame or waits: every row from 10 on but the last (R141). -/
def MicroStep.afterReset : MicroStep → Bool
  | .command _ | .exch _ _ | .delay _ => true
  | .cfg _ | .tinit | .line _ | .done => false

theorem afterReset_of_row {c : Config} {pc : Nat} {m : MicroStep} (h : (initProgram c)[pc]? = some m) (h10 : 10 ≤ pc)
    (hm : m ≠ .done) : m.afterReset = true := by
  have rows : ∀ m ∈ (initProgram c).drop 10, m = .done ∨ m.afterReset = true := by
    simp [initProgram_eq, initProgramReset, initProgramWake, registerRows, initProgramDisplay, MicroStep.afterReset]
  have mem : m ∈ (initProgram c).drop 10 :=
    List.mem_of_getElem? (i := pc - 10) (by rwa [List.getElem?_drop, Nat.add_sub_cancel' h10])
  exact (rows m mem).resolve_left hm

/-- The machine is inside an INIT entered from `s`, in row `pc`, with the reset done and the events `es` behind it. -/
def InRow (s : State) (pc : Nat) (es : List Event) (t : State) : Prop :=
  ∃ csl dcl n r, t = inInit s pc csl dcl es n r

/-- How a row after the reset ends: it returned with its events, or it raised with those of its failure and chip-select
deasserted, or it stopped. -/
def RowEnds (s : State) (pc : Nat) (es : List Event) (m : MicroStep) : Result → Prop
  | .ok t => InRow s pc (es ++ microEvents s.cfg m) t
  | .raised t => t.cs.level = some .deasserted ∧ ∃ es', FailedRow s.cfg m es' ∧ InRow s pc (es ++ es') t
  | .stopped _ => True

/-- A row that is an operation on the bus. -/
theorem EndsWith.rowEnds {s : State} {pc : Nat} {csl : Option CsLevel} {dcl : Option ByteClass} {es : List Event} {n : Nat}
    {r : Receiver} {m : MicroStep} {k : Nat} {x : Result}
    (h : EndsWith (inInit s pc csl dcl es n r) (microEvents s.cfg m) k (FailedRow s.cfg m) x) : RowEnds s pc es m x := by
  cases x with
  | ok t =>
    obtain ⟨-, -, -, cls, r', rfl⟩ := h
    exact ⟨_, _, _, _, inInit_afterBus ..⟩
  | raised t =>
    obtain ⟨cls, es', k', r', rfl, failed⟩ := h
    exact ⟨rfl, es', failed, _, _, _, _, inInit_afterBus ..⟩
  | stopped w => trivial

/-- How each row after the reset ends (R152, R153). -/
theorem microStep_rowEnds {s t : State} (hl : LinesReliable s) {pc : Nat} {es : List Event} (ht : InRow s pc es t)
    {m : MicroStep} (hm : m.afterReset = true) : RowEnds s pc es m (microStep m t) := by
  obtain ⟨csl, dcl, n, r, rfl⟩ := ht
  have lines := inInit_linesReliable hl pc csl dcl es n r
  cases m with
  | delay ms => exact ⟨_, _, _, _, inInit_sleepMs ..⟩
  | command cmd => exact (sendFrame_ends lines .command (by simp)).rowEnds
  | exch cmd ps => exact (exchange_ends lines cmd ps).rowEnds
  | cfg | tinit | line | done => cases hm

/-! ### How the program ends, where no line call can fail -/

/-- The failing row of a run entered in `s`, its events, and those of the rows before it (R153). -/
def FailedInRow (s t : State) : Prop :=
  ∃ m es, (initProgram s.cfg)[t.seqPc]? = some m ∧ FailedRow s.cfg m es ∧
    t.trace = s.trace ++ eventsBefore s.cfg t.seqPc ++ es

/-- A failure of the `transport_init`: the lines configured at their levels, the Receiver as it was. -/
def FailedAtTransportInit (s t : State) : Prop :=
  t.seqPc = 4 ∧ t.tInit = false ∧ t.recv = s.recv ∧ t.cs = ⟨true, s.cs.level⟩ ∧ t.dc = ⟨true, s.dc.level⟩ ∧
    t.rst = ⟨true, s.rst.level⟩ ∧ t.bl = ⟨true, s.bl.level⟩

/-- A failure after the reset: no frame is left open, the reset line is high and the backlight on. -/
def FailedAfterReset (t : State) : Prop :=
  10 ≤ t.seqPc ∧ t.tInit = true ∧ t.cs = ⟨true, some .deasserted⟩ ∧ t.dc.configured = true ∧
    t.rst = ⟨true, some .high⟩ ∧ t.bl = ⟨true, some .on⟩

/-- How a run of the program ends: it returned with the events of all rows, or it raised in a row, or it stopped. -/
def Result.EndsRows (s : State) : Result → Prop
  | .ok t => t.trace = s.trace ++ (initProgram s.cfg).flatMap (microEvents s.cfg)
  | .raised t => FailedInRow s t ∧ (FailedAtTransportInit s t ∨ FailedAfterReset t)
  | .stopped _ => True

/-- How the rows from 10 on end (R141, R153). -/
theorem runProgram_endsRows {s : State} (hl : LinesReliable s) (f : Nat) {pc : Nat} {t : State}
    (ht : InRow s pc (eventsBefore s.cfg pc) t) (h10 : 10 ≤ pc) (hpc : pc ≤ 33) (hf : 33 < pc + f) :
    (runProgram f t).EndsRows s := by
  induction f generalizing pc t with
  | zero => omega
  | succ f ih =>
    obtain ⟨rfl, hrow⟩ | ⟨hlt, m, hrow, hm⟩ := initProgram_row s.cfg hpc
    · obtain ⟨csl, dcl, n, r, rfl⟩ := ht
      rw [runProgram_done f hrow, Result.EndsRows, flatMap_microEvents_initProgram, ← List.append_assoc]
      rfl
    · have row := microStep_rowEnds hl ht (afterReset_of_row hrow h10 hm)
      obtain ⟨csl, dcl, n, r, rfl⟩ := ht
      rw [runProgram_eq_bind f hrow hm]
      cases hx : microStep m (inInit s pc csl dcl (eventsBefore s.cfg pc) n r) with
      | stopped w => trivial
      | ok u =>
        rw [hx, RowEnds, ← eventsBefore_succ hrow] at row
        obtain ⟨csl', dcl', n', r', rfl⟩ := row
        exact ih ⟨_, _, _, _, inInit_advancePc ..⟩ (by omega) (by omega) (by omega)
      | raised u =>
        rw [hx] at row
        obtain ⟨released, es, failed, csl', dcl', n', r', rfl⟩ := row
        obtain rfl : csl' = some .deasserted := released
        exact ⟨⟨m, es, hrow, failed, (List.append_assoc ..).symm⟩, .inr ⟨h10, rfl, rfl, rfl, rfl, rfl⟩⟩

/-- A `transport_init` that fails ends the program in its row (R82, R142, R153). -/
theorem run_transportInit_fails {s : State} (hl : LinesReliable s) (hd : (s.drawAt 0).outcome ≠ .ok) (f : Nat) :
    runProgram (f + 5) (enterInit s) = .raised
      (midInit s 4 ⟨true, s.cs.level⟩ ⟨true, s.dc.level⟩ ⟨true, s.rst.level⟩ ⟨true, s.bl.level⟩ false
        (eventsBefore s.cfg 4 ++ [.tinit false]) 1 s.recv) := by
  rw [enterInit_eq, row_cfg _ _ _ _ _ _ _ _ _ hl (f + 4) .cs rfl, row_cfg _ _ _ _ _ _ _ _ _ hl (f + 3) .dc rfl,
    row_cfg _ _ _ _ _ _ _ _ _ hl (f + 2) .rst rfl, row_cfg _ _ _ _ _ _ _ _ _ hl (f + 1) .bl rfl,
    runProgram_eq_bind f (m := .tinit) rfl nofun]
  have raises : ∀ u : State, u.drawAt 0 = s.drawAt 0 →
      microStep .tinit u = .raised ((u.afterDraw.emit (.tinit false)).setTInit false) := fun u hu => by
    rw [microStep, transportInit, hu, if_neg hd]
  rw [raises _ (by simp [State.drawAt, midInit]), Result.bind_raised]
  simp [midInit, State.emit, State.afterDraw, State.setTInit, eventsBefore, initProgram, initProgramReset, microEvents]

/-- How the program ends: by the draw of the `transport_init`, then by the rows after the reset (R82, R153). -/
theorem runProgram_enterInit_endsRows {s : State} (hl : LinesReliable s) :
    (runProgram 34 (enterInit s)).EndsRows s := by
  by_cases hd : (s.drawAt 0).outcome = .ok
  · have firstDraw : DrawsOk s 1 := fun k hk => by
      obtain rfl : k = 0 := by omega
      exact hd
    rw [run_reset hl firstDraw 24]
    exact runProgram_endsRows hl 24 ⟨_, _, _, _, rfl⟩ (by omega) (by omega) (by omega)
  · rw [run_transportInit_fails hl hd 29]
    exact ⟨⟨.tinit, [.tinit false], rfl, rfl, (List.append_assoc ..).symm⟩, .inl ⟨rfl, rfl, rfl, rfl, rfl, rfl, rfl⟩⟩

/-- An INIT that ends in `READY` has sent the events of all rows (R141, R151). -/
theorem trace_of_init_ready {s t : State} (hl : LinesReliable s) (ht : exec .init s = .next t)
    (hready : t.seqState = .ready) : t.trace = s.trace ++ (initProgram s.cfg).flatMap (microEvents s.cfg) := by
  obtain ⟨-, hrun⟩ := exec_init_eq_next ht
  have rows := runProgram_enterInit_endsRows hl
  obtain hx | ⟨u, -, rfl⟩ := endOperation_eq_next hrun
  · rwa [hx] at rows
  · cases hready

/-- Settles O42: the Sequencer's items, however the lines behave, come from `runProgram_endsProgram`; the events and the
lines, where no line call can fail, from `runProgram_endsRows`. -/
theorem initOutcome : Obligations.InitOutcome := by
  refine ⟨fun s hs => by simp [exec, execInit, hs], fun s t ht => ?_⟩
  obtain ⟨-, hrun⟩ := exec_init_eq_next ht
  have ends := runProgram_enterInit_endsProgram s
  have rows := fun hl : LinesReliable s => runProgram_enterInit_endsRows hl
  obtain hx | ⟨u, hx, rfl⟩ := endOperation_eq_next hrun
  · rw [hx] at ends rows
    obtain ⟨u, keeps, rfl⟩ := ends
    exact ⟨⟨keeps.rx0, keeps.ry0, keeps.rx1, keeps.ry1, keeps.blen, keeps.bidx⟩,
      .inl ⟨rfl, rfl, keeps.seqPc, by simp [initDone], rows⟩⟩
  · rw [hx] at ends rows
    obtain ⟨pc, hpc, keeps⟩ := ends
    have running : u.seqState = .initRunning := keeps.seqState
    rw [takeTransportError_eq (by rw [running]; nofun)]
    refine ⟨⟨keeps.rx0, keeps.ry0, keeps.rx1, keeps.ry1, keeps.blen, keeps.bidx⟩,
      .inr ⟨rfl, rfl, keeps.seqPc.trans_le hpc, by simp, fun hl => ?_⟩⟩
    obtain ⟨⟨m, es, row, failed, trace⟩, lines⟩ := rows hl
    exact ⟨⟨m, es, row, failed, congrArg (fun es => es ++ [Event.ret .transportError]) trace⟩, lines⟩

end Sys2Proof.Machine
end

section
/-! The INIT in which every call succeeds (42_init_sequence.md R141, R143 to R151, R156): the Receiver from the hardware reset
to `DISPLAY_ON`, and the rows of the program that bring it there. -/

namespace Sys2Proof.Machine

/-! ### The Receiver through the register exchanges -/

/-- The Receiver after source step 5, with these window and configuration registers and `k` commands of the order behind
it, the last of them `cmd` with its group (R143, R145 to R148). -/
def setUp (regs : RegTable (Option (List Byte))) (xs xe ys ye : Option Half) (k : Nat) (cmd : Cmd) (ps : List Byte) :
    Receiver :=
  { Receiver.powerOn with
    cCmd := some cmd, cPidx := ps.length, cPbuf := ps, xs := xs, xe := xe, ys := ys, ye := ye, regs := regs
    cResetDone := true, cSleepOut := true, cInitStage := k, cInitValid := true }

/-- Such a Receiver, whatever its last command was. -/
def SetUp (regs : RegTable (Option (List Byte))) (xs xe ys ye : Option Half) (k : Nat) (r : Receiver) : Prop :=
  ∃ cmd ps, r = setUp regs xs xe ys ye k cmd ps

/-- The exchanges of a list of configuration registers, with their parameter bytes (R147). -/
def configRows (c : Config) (regs : List ConfigReg) : List (Cmd × List Byte) :=
  regs.map fun reg => (reg.cmd, c.params.get reg)

/-- The configuration registers after these exchanges. -/
def storeParams (c : Config) (regs : List ConfigReg) (t : RegTable (Option (List Byte))) :
    RegTable (Option (List Byte)) :=
  regs.foldl (fun t reg => t.set reg (some (c.params.get reg))) t

/-- The Receiver after a run of register exchanges in order. -/
def afterGroups (rows : List (Cmd × List Byte)) (r : Receiver) : Receiver :=
  rows.foldl (fun r row => groupRecv r row.1 row.2) r

theorem afterGroups_append (rows rows' : List (Cmd × List Byte)) (r : Receiver) :
    afterGroups (rows ++ rows') r = afterGroups rows' (afterGroups rows r) :=
  List.foldl_append

/-- A configuration command in order stores its group (R112, R113, R116 to R126). -/
theorem groupRecv_config {regs : RegTable (Option (List Byte))} {reg : ConfigReg}
    (h : regs.vdvVrhEnable ≠ none ∨ reg ≠ .vrh ∧ reg ≠ .vdv) (xs xe ys ye : Option Half) (k : Nat) (cmd : Cmd)
    (ps ps' : List Byte) :
    groupRecv (setUp regs xs xe ys ye k cmd ps) reg.cmd ps' =
      setUp (regs.set reg (some ps')) xs xe ys ye (k + 1) reg.cmd ps' := by
  rw [groupRecv, commitEffect_cmd, if_neg]
  · rfl
  · rintro ⟨hreg, hoff⟩
    obtain hon | ⟨hvrh, hvdv⟩ := h
    · exact hon hoff
    · exact hreg.elim hvrh hvdv

/-- No configuration command clears the enable register. -/
theorem vdvVrhEnable_set {regs : RegTable (Option (List Byte))} (h : regs.vdvVrhEnable ≠ none) (reg : ConfigReg)
    (ps : List Byte) : (regs.set reg (some ps)).vdvVrhEnable ≠ none := by
  cases reg
  case vdvVrhEnable => nofun
  all_goals exact h

/-- The exchanges of configuration registers: VRH and VDV are honoured only where the enable register has been written
(R121, R122). -/
theorem SetUp.config (c : Config) (list : List ConfigReg) {regs : RegTable (Option (List Byte))}
    {xs xe ys ye : Option Half} {k : Nat} {r : Receiver} (hr : SetUp regs xs xe ys ye k r)
    (h : regs.vdvVrhEnable ≠ none ∨ ∀ reg ∈ list, reg ≠ .vrh ∧ reg ≠ .vdv) :
    SetUp (storeParams c list regs) xs xe ys ye (k + list.length) (afterGroups (configRows c list) r) := by
  induction list generalizing regs k r with
  | nil => exact hr
  | cons reg list ih =>
    obtain ⟨cmd, ps, rfl⟩ := hr
    have first := groupRecv_config (h.imp_right fun h => h reg List.mem_cons_self) xs xe ys ye k cmd ps (c.params.get reg)
    rw [List.length_cons, Nat.add_comm list.length, ← Nat.add_assoc]
    exact ih ⟨_, _, first⟩ (h.imp (vdvVrhEnable_set · _ _) fun h reg hreg => h reg (List.mem_cons_of_mem _ hreg))

/-- The two address exchanges set the full-panel window (R148). -/
theorem SetUp.window (c : Config) {regs : RegTable (Option (List Byte))} {xs xe ys ye : Option Half} {k : Nat}
    {r : Receiver} (hr : SetUp regs xs xe ys ye k r) :
    SetUp regs (some 0) (some (toHalf (c.panelW - 1))) (some 0) (some (toHalf (c.panelH - 1))) (k + 2)
      (afterGroups [(.columnAddressSet, fullSpan c.panelW), (.rowAddressSet, fullSpan c.panelH)] r) := by
  obtain ⟨cmd, ps, rfl⟩ := hr
  refine ⟨.rowAddressSet, fullSpan c.panelH, ?_⟩
  simp [afterGroups, groupRecv, commitEffect, columnAddressSetCommit, rowAddressSetCommit, fullSpan, addressParams, setUp,
    Receiver.powerOn]

/-- The Receiver after source step 6: every configuration register at its parameter bytes, the full-panel window (R147,
R148). -/
theorem setUp_registers (c : Config) {r : Receiver} (hr : SetUp (RegTable.const none) none none none none 2 r) :
    SetUp (initReceiver c).regs (some 0) (some (toHalf (c.panelW - 1))) (some 0) (some (toHalf (c.panelH - 1))) 17
      (afterGroups (registerRows c) r) := by
  have rows : registerRows c = configRows c [.colorMode, .memoryAccess] ++
      [(.columnAddressSet, fullSpan c.panelW), (.rowAddressSet, fullSpan c.panelH)] ++
      configRows c [.porchControl, .gateControl, .vcoms, .lcmControl, .vdvVrhEnable] ++
      configRows c [.vrh, .vdv, .frameRateControl2, .powerControl1, .positiveGamma, .negativeGamma] := rfl
  rw [rows, afterGroups_append, afterGroups_append, afterGroups_append]
  exact (((hr.config c _ (.inr (by simp))).window c).config c _ (.inr (by simp))).config c _ (.inl nofun)

/-! ### The Receiver through the bare commands -/

/-- The Receiver between two commands of which the last takes no parameters. -/
theorem inOrder_of_bare {c : Config} {k : Nat} {r : Receiver} (stage : r.cInitStage = k) (valid : r.cInitValid = true)
    (resetDone : r.cResetDone = true) (idle : r.cBusy = 0) {cmd : Cmd} (hc : r.cCmd = some cmd)
    (hn : c.nParams cmd = 0) : InOrder c k r where
  stage := stage
  valid := valid
  resetDone := resetDone
  idle := idle
  closed := by
    rintro ⟨cmd', hc', hp⟩
    obtain rfl := Option.some.inj (hc.symm.trans hc')
    omega

/-- The Receiver takes a bare command and the wait after it brings it to `r'` (R101, R107). -/
def TakesAndWaits (c : Config) (cmd : Cmd) (ms : Nat) (r r' : Receiver) : Prop :=
  ∃ r1, runCommand c cmd r = .ok r1 ∧ { r1 with cBusy := r1.cBusy - ms } = r'

/-- The Receiver after the hardware reset and its settling time (R143). -/
def settledReceiver : Receiver := { Receiver.powerOn with cResetDone := true, cInitValid := true }

/-- The Receiver after SOFTWARE_RESET and its wait (R145). -/
def swresetReceiver : Receiver :=
  { settledReceiver with cCmd := some .softwareReset, cInitStage := 1 }

/-- The Receiver after SLEEP_OUT and its wait (R146). -/
def wakeReceiver : Receiver := setUp (RegTable.const none) none none none none 2 .sleepOut []

theorem settledReceiver_inOrder (c : Config) : InOrder c 0 settledReceiver := ⟨rfl, rfl, rfl, rfl, nofun⟩

theorem swresetReceiver_inOrder (c : Config) : InOrder c 1 swresetReceiver := inOrder_of_bare rfl rfl rfl rfl rfl rfl

theorem wakeReceiver_inOrder (c : Config) : InOrder c 2 wakeReceiver := inOrder_of_bare rfl rfl rfl rfl rfl rfl

theorem softwareReset_waits (c : Config) :
    TakesAndWaits c .softwareReset c.tSwreset settledReceiver swresetReceiver :=
  ⟨_, runCommand_softwareReset (settledReceiver_inOrder c).closed, by simp only [Nat.sub_self]; rfl⟩

theorem sleepOut_waits (c : Config) : TakesAndWaits c .sleepOut c.tSlpout swresetReceiver wakeReceiver :=
  have inOrder := swresetReceiver_inOrder c
  ⟨_, runCommand_sleepOut inOrder.closed (inOrder.accepts rfl), by simp only [Nat.sub_self]; rfl⟩

section
variable (c : Config) (regs : RegTable (Option (List Byte))) (xs xe ys ye : Option Half)

/-- The Receiver after NORMAL_DISPLAY_ON and its wait (R149). -/
def normalReceiver : Receiver := { setUp regs xs xe ys ye 18 .normalDisplayOn [] with cNormalOn := true }

/-- The Receiver after DISPLAY_ON and its wait (R150). -/
def displayReceiver : Receiver :=
  { setUp regs xs xe ys ye 19 .displayOn [] with cNormalOn := true, cDisplayOn := true }

theorem normalReceiver_inOrder : InOrder c 18 (normalReceiver regs xs xe ys ye) :=
  inOrder_of_bare rfl rfl rfl rfl rfl rfl

variable {regs xs xe ys ye}

theorem normalDisplayOn_waits {r : Receiver} (hr : SetUp regs xs xe ys ye 17 r) (inOrder : InOrder c 17 r) :
    TakesAndWaits c .normalDisplayOn c.tNoron r (normalReceiver regs xs xe ys ye) := by
  refine ⟨_, runCommand_normalDisplayOn inOrder.closed (inOrder.accepts rfl), ?_⟩
  obtain ⟨cmd, ps, rfl⟩ := hr
  simp only [Nat.sub_self]
  rfl

theorem displayOn_waits :
    TakesAndWaits c .displayOn c.tDispon (normalReceiver regs xs xe ys ye) (displayReceiver regs xs xe ys ye) :=
  have inOrder := normalReceiver_inOrder c regs xs xe ys ye
  ⟨_, runCommand_displayOn inOrder.closed (inOrder.accepts rfl), by simp only [Nat.sub_self]; rfl⟩

end

/-! ### The run in which every call succeeds -/

/-- The draws of INIT: the transport's, four bare commands', and those of the register exchanges (R82, R83). -/
theorem initDraws_eq (c : Config) :
    initDraws c = 3 + ((registerRows c).map fun row => exchangeFrames c row.2).sum + 2 := by
  simp only [initDraws, initProgram_eq, List.map_append, List.sum_append, List.map_map]
  rfl

/-- The register rows are rows 14 to 28 of the program (R141). -/
theorem registerRows_inProgram (c : Config) (i : Nat) (h : i < (registerRows c).length) :
    (initProgram c)[14 + i]? = some (.exch (registerRows c)[i].1 (registerRows c)[i].2) := by
  have rest : (initProgram c).drop 14 =
      (registerRows c).map (fun row => MicroStep.exch row.1 row.2) ++ initProgramDisplay c := rfl
  rw [← List.getElem?_drop, rest, List.getElem?_append_left (by simpa using h), List.getElem?_map,
    List.getElem?_eq_getElem h]
  rfl

/-- Their commands are those of the order from stage 2 on (R108). -/
theorem registerRows_inOrder (c : Config) (i : Nat) (h : i < (registerRows c).length) :
    initOrder[2 + i]? = some (registerRows c)[i].1 := by
  have rest : initOrder.drop 2 = (registerRows c).map Prod.fst ++ [.normalDisplayOn, .displayOn] := rfl
  rw [← List.getElem?_drop, rest, List.getElem?_append_left (by simpa using h), List.getElem?_map,
    List.getElem?_eq_getElem h]
  rfl

/-- INIT entered in `s` comes to row `pc` with the Receiver at `r`, `n` draws made and the framing lines at
`csl` and `dcl`. -/
def Reaches (s : State) (pc n : Nat) (csl : Option CsLevel) (dcl : Option ByteClass) (r : Receiver) : Prop :=
  ∃ es, runProgram 34 (enterInit s) = runProgram (34 - pc) (inInit s pc csl dcl es n r)

section
variable {s : State} (hl : LinesReliable s)
include hl

/-- Source steps 1 to 3 (R142 to R144). -/
theorem reaches_reset (hd : DrawsOk s 1) : Reaches s 10 1 s.cs.level s.dc.level settledReceiver :=
  ⟨_, run_reset hl hd 24⟩

/-- A bare command, and the delay that its busy window needs (R145, R146, R149, R150). -/
theorem Reaches.bare (hc : s.cfg.Wf) {pc n k : Nat} {csl : Option CsLevel} {dcl : Option ByteClass} {r r' : Receiver}
    (h : Reaches s pc n csl dcl r) {cmd : Cmd} {ms : Nat} (hcmd : (initProgram s.cfg)[pc]? = some (.command cmd))
    (hms : (initProgram s.cfg)[pc + 1]? = some (.delay ms)) (hd : DrawsOk s (n + 1)) (hr : InOrder s.cfg k r)
    (hw : TakesAndWaits s.cfg cmd ms r r') :
    Reaches s (pc + 2) (n + 1) (some .deasserted) (some .command) r' := by
  obtain ⟨es, h⟩ := h
  obtain ⟨r1, hrun, rfl⟩ := hw
  have inProgram : pc + 1 < 34 := (List.getElem?_eq_some_iff.1 hms).1
  rw [show 34 - pc = 34 - (pc + 2) + 2 by omega] at h
  exact ⟨_, h.trans (run_command_delay hl hc _ cmd ms hcmd hms hd hr.resetDone hr.idle hrun)⟩

/-- Source step 6 (R147, R148). -/
theorem Reaches.registers (hc : s.cfg.Wf) {n : Nat} {csl : Option CsLevel} {dcl : Option ByteClass} {r : Receiver}
    (h : Reaches s 14 n csl dcl r)
    (hd : DrawsOk s (n + ((registerRows s.cfg).map fun row => exchangeFrames s.cfg row.2).sum))
    (hr : InOrder s.cfg 2 r) :
    Reaches s 29 (n + ((registerRows s.cfg).map fun row => exchangeFrames s.cfg row.2).sum) (some .deasserted)
      (some .data) (afterGroups (registerRows s.cfg) r) ∧
    InOrder s.cfg 17 (afterGroups (registerRows s.cfg) r) := by
  obtain ⟨es, h⟩ := h
  obtain ⟨run, inOrder⟩ := run_exchanges (registerRows s.cfg) hl hc 5 (pc := 14) (k := 2) (csl := csl) (dcl := dcl)
    (es := es) (registerRows_inProgram s.cfg) (registerRows_inOrder s.cfg) (registerRows_length hc) hr nofun hd
  exact ⟨⟨_, h.trans run⟩, inOrder⟩

end

/-- The terminal row (R151). -/
theorem Reaches.done {s : State} (hs : s.inFlight = false) {n : Nat} {csl : Option CsLevel} {dcl : Option ByteClass}
    {r : Receiver} (h : Reaches s 33 n csl dcl r) :
    ∃ es, exec .init s = .next (initDone (inInit s 33 csl dcl es n r)) := by
  obtain ⟨es, h⟩ := h
  refine ⟨es, ?_⟩
  rw [exec, execInit, hs, if_neg nofun, h, runProgram_done 0 rfl]
  rfl

/-- An INIT in which every call succeeds, from every state no operation is in flight in (R141, R156). -/
theorem exec_init_ok {s : State} (hs : s.inFlight = false) (hl : LinesReliable s) (hc : s.cfg.Wf)
    (hd : DrawsOk s (initDraws s.cfg)) :
    ∃ es, exec .init s =
      .next (initDone
        (inInit s 33 (some .deasserted) (some .command) es (initDraws s.cfg) (initReceiver s.cfg))) := by
  rw [initDraws_eq] at hd ⊢
  have reset := reaches_reset hl (hd.mono (by omega))
  have swreset := reset.bare hl hc rfl rfl (hd.mono (by omega)) (settledReceiver_inOrder _) (softwareReset_waits _)
  have wake := swreset.bare hl hc rfl rfl (hd.mono (by omega)) (swresetReceiver_inOrder _) (sleepOut_waits _)
  obtain ⟨registers, inOrder⟩ := wake.registers hl hc (hd.mono (by omega)) (wakeReceiver_inOrder _)
  have registersSet := setUp_registers s.cfg (r := wakeReceiver) ⟨_, _, rfl⟩
  have normal := registers.bare hl hc rfl rfl (hd.mono (by omega)) inOrder
    (normalDisplayOn_waits s.cfg registersSet inOrder)
  exact (normal.bare hl hc rfl rfl hd (normalReceiver_inOrder ..) (displayOn_waits _)).done hs

/-- Settles O40: the end state is `inInit` at row 33, with `initReceiver`, after the terminal row. -/
theorem initEndState : Obligations.InitEndState := by
  intro s hs hl hc hd
  obtain ⟨es, run⟩ := exec_init_ok hs hl hc hd
  have registers : ∀ reg, (initReceiver s.cfg).regs.get reg = some (s.cfg.params.get reg) := fun reg => by
    cases reg <;> rfl
  exact ⟨_, run, rfl, rfl, rfl, rfl, rfl, rfl, rfl, rfl, rfl, rfl, rfl, rfl, rfl, rfl, rfl, registers, fun _ _ => rfl, rfl⟩

end Sys2Proof.Machine
end

section
/-! The events of a successful INIT and the bytes they put on the wire (42_init_sequence.md R141, R147, R155). -/

namespace Sys2Proof.Machine

/-- The level of command/data-select after a list of events. -/
def dcAfter : Option ByteClass → List Event → Option ByteClass
  | dc, [] => dc
  | _, .line (.dc l) :: es => dcAfter (some l) es
  | dc, _ :: es => dcAfter dc es

/-- The bytes of events after events have the class command/data-select was left at. -/
theorem wireBytes_append (dc : Option ByteClass) (es es' : List Event) :
    wireBytes dc (es ++ es') = wireBytes dc es ++ wireBytes (dcAfter dc es) es' := by
  fun_induction wireBytes dc es <;> simp_all [wireBytes, dcAfter]

/-- The bytes a completed row puts on the wire, each with its class (R63, R77). -/
def rowBytes (c : Config) : MicroStep → List (ByteClass × Byte)
  | .command cmd => [(.command, c.codes.get cmd)]
  | .exch cmd ps => (.command, c.codes.get cmd) :: ps.map fun b => (.data, b)
  | .cfg _ | .tinit | .line _ | .delay _ | .done => []

/-- Every row has its bytes on the wire, wherever command/data-select was left before it. -/
theorem wireBytes_microEvents (c : Config) (dc : Option ByteClass) (m : MicroStep) :
    wireBytes dc (microEvents c m) = rowBytes c m := by
  cases m with
  | command cmd => exact wireBytes_frameEvents_append dc .command [c.codes.get cmd] []
  | exch cmd ps => exact wireBytes_exchangeEvents dc c cmd ps
  | line w => cases w <;> rfl
  | cfg | tinit | delay | done => rfl

theorem wireBytes_flatMap_microEvents (c : Config) (dc : Option ByteClass) (rows : List MicroStep) :
    wireBytes dc (rows.flatMap (microEvents c)) = rows.flatMap (rowBytes c) := by
  induction rows generalizing dc with
  | nil => simp [wireBytes]
  | cons m rows ih => rw [List.flatMap_cons, wireBytes_append, wireBytes_microEvents, ih, List.flatMap_cons]

/-- How many command bytes a row sends. -/
def MicroStep.commandBytes : MicroStep → Nat
  | .command _ | .exch _ _ => 1
  | .cfg _ | .tinit | .line _ | .delay _ | .done => 0

/-- How many data bytes a row sends. -/
def MicroStep.dataBytes : MicroStep → Nat
  | .exch _ ps => ps.length
  | .command _ | .cfg _ | .tinit | .line _ | .delay _ | .done => 0

theorem rowBytes_filter_command (c : Config) (m : MicroStep) :
    ((rowBytes c m).filter fun p => p.1 = .command).length = m.commandBytes := by
  cases m <;> simp [rowBytes, MicroStep.commandBytes, List.filter_map, Function.comp_def]

theorem rowBytes_filter_data (c : Config) (m : MicroStep) :
    ((rowBytes c m).filter fun p => p.1 = .data).length = m.dataBytes := by
  cases m <;> simp [rowBytes, MicroStep.dataBytes, List.filter_map, Function.comp_def]

/-- The program sends a command byte in 19 of its rows (R141). -/
theorem initProgram_commandBytes (c : Config) : ((initProgram c).map MicroStep.commandBytes).sum = 19 := by
  simp [initProgram_eq, initProgramReset, initProgramWake, registerRows, initProgramDisplay, MicroStep.commandBytes]

/-- The data bytes of the program are those its register commands take (R147, R148). -/
theorem initProgram_dataBytes (c : Config) :
    ((initProgram c).map MicroStep.dataBytes).sum = ((registerRows c).map fun row => row.2.length).sum := by
  simp [initProgram_eq, initProgramReset, initProgramWake, initProgramDisplay, MicroStep.dataBytes, Function.comp_def]

/-- Settles O41: the events are the rows' own, and each row's bytes are counted by their class. -/
theorem initTrace : Obligations.InitTrace := by
  intro s hs hl hc hd
  obtain ⟨es, run⟩ := exec_init_ok hs hl hc hd
  refine ⟨_, _, run, trace_of_init_ready hl run rfl, ?events, ?commands, ?data⟩
  case events =>
    simp [initProgram_eq, initProgramReset, initProgramWake, registerRows, initProgramDisplay, microEvents,
      CmdCodes.get, fullSpan, toHalf]
  all_goals rw [wireBytes_flatMap_microEvents, List.filter_flatMap, List.length_flatMap]
  case commands =>
    simp only [rowBytes_filter_command]
    exact initProgram_commandBytes s.cfg
  case data =>
    have lengths : (registerRows s.cfg).map (fun row => row.2.length) =
        (registerRows s.cfg).map fun row => s.cfg.nParams row.1 :=
      List.map_congr_left fun row hrow => (registerRows_length hc row hrow).2
    obtain ⟨-, -, -, -, -, ⟨positive, negative⟩, -⟩ := hc
    simp only [rowBytes_filter_data]
    rw [initProgram_dataBytes, lengths]
    simp only [registerRows, List.map_cons, List.map_nil, List.sum_cons, List.sum_nil, Config.nParams, positive, negative]
    ring

end Sys2Proof.Machine
end

section
/-! WINDOW_SET (43_window_blit.md R160, R161, R168): the Receiver it leaves, the eleven bytes it puts on the wire, and where a
failed transfer cuts it short. The theorem that settles O44 stands under `Sequencer.`, for the model's own function has its
name. -/

namespace Sys2Proof.Machine

/-! ### The end of an open group -/

/-- Only a configuration command's group has a configuration register to void (R104). -/
theorem voidRegs_regs {cmd : Cmd} (h : ∀ reg : ConfigReg, cmd ≠ reg.cmd) (r : Receiver) :
    (voidRegs cmd r).regs = r.regs := by
  have noRegister : ¬ ∃ reg ∈ ConfigReg.all, cmd = reg.cmd := fun ⟨reg, _, e⟩ => h reg e
  cases cmd
  case softwareReset | sleepOut | normalDisplayOn | displayOn | memoryWrite | columnAddressSet | rowAddressSet => rfl
  all_goals exact absurd (by decide) noRegister

/-- The register of a configuration command whose group was open is void (R104). -/
theorem endGroup_regs_of_open {c : Config} {r : Receiver} {reg : ConfigReg} (hc : r.cCmd = some reg.cmd)
    (hi : r.cPidx < c.nParams reg.cmd) : (endGroup c r).regs = r.regs.set reg none := by
  rw [endGroup_of_open hc hi, voidRegs_cmd]

/-- The registers stay where no configuration command's group was open (R104). -/
theorem endGroup_regs_of_closed {c : Config} {r : Receiver}
    (h : (∀ reg : ConfigReg, r.cCmd ≠ some reg.cmd) ∨ ¬ GroupOpen c r) : (endGroup c r).regs = r.regs := by
  by_cases hg : GroupOpen c r
  · obtain ⟨cmd, hc, hi⟩ := hg
    have noRegister : ∀ reg : ConfigReg, cmd ≠ reg.cmd := by
      rintro reg rfl
      exact (h.resolve_right fun hn => hn ⟨_, hc, hi⟩) reg hc
    rw [endGroup_of_open hc hi]
    exact voidRegs_regs noRegister r
  · rw [endGroup_of_closed hg]

/-- The end of an open group costs the order its validity, unless the order is complete (R104, R108). -/
theorem endGroup_cInitValid_of_open {c : Config} {r : Receiver} (hg : GroupOpen c r) :
    (endGroup c r).cInitValid = (r.cInitValid && decide (19 ≤ r.cInitStage)) := by
  obtain ⟨cmd, hc, hi⟩ := hg
  rw [endGroup_of_open hc hi]

/-- The validity that counts once the order is complete is not touched by the end of a group (R104). -/
theorem endGroup_cInitValid_and_complete (c : Config) (r : Receiver) :
    ((endGroup c r).cInitValid && decide (19 ≤ r.cInitStage)) = (r.cInitValid && decide (19 ≤ r.cInitStage)) := by
  by_cases hg : GroupOpen c r
  · rw [endGroup_cInitValid_of_open hg, Bool.and_assoc, Bool.and_self]
  · rw [endGroup_of_closed hg]

/-! ### The order tracker -/

/-- Each command of the order has one place in it (R108). -/
theorem initOrder_eq_some_iff {k n : Nat} {cmd : Cmd} (hk : initOrder[k]? = some cmd) :
    initOrder[n]? = some cmd ↔ n = k := by
  refine ⟨fun hn => ?_, fun h => h ▸ hk⟩
  obtain ⟨hlt, -⟩ := List.getElem?_eq_some_iff.1 hn
  exact (List.getElem?_inj hlt (by decide)).1 (hn.trans hk.symm)

theorem initOrder_ne_memoryWrite (n : Nat) : initOrder[n]? ≠ some .memoryWrite :=
  fun h => absurd (List.mem_of_getElem? h) (by decide)

/-- The Receiver after the eleven bytes (R160): the window and its first cell, MEMORY_WRITE current, and an order that is
still valid only where it was complete; the two address commands advance the stage only from their own place in it. -/
theorem windowCut_all (c : Config) (x0 y0 x1 y1 : Half) (r : Receiver) :
    windowCut c x0 y0 x1 y1 11 r =
      { endGroup c r with
        xs := some x0, xe := some x1, ys := some y0, ye := some y1
        wcol := some x0.toNat, wrow := some y0.toNat
        cCmd := some .memoryWrite, cPidx := 0, cPbuf := [], cHalf := none, cFull := false
        cInitStage := if r.cInitStage = 4 ∧ (endGroup c r).cInitValid = true then 6 else r.cInitStage
        cInitValid := r.cInitValid && decide (19 ≤ r.cInitStage) } := by
  have column := fun n => initOrder_eq_some_iff (n := n) (k := 4) (cmd := .columnAddressSet) rfl
  have row := fun n => initOrder_eq_some_iff (n := n) (k := 5) (cmd := .rowAddressSet) rfl
  rw [← endGroup_cInitValid_and_complete]
  simp only [windowCut, completed, stageAfter, validAfter, column, row, initOrder_ne_memoryWrite, endGroup_cInitStage]
  by_cases h4 : r.cInitStage = 4
  · cases hv : (endGroup c r).cInitValid <;> simp [h4]
  · by_cases h5 : r.cInitStage = 5
    · simp [h5]
    · by_cases h19 : 19 ≤ r.cInitStage <;> simp [h4, h5, h19]

/-- What the order tracker and the registers are after a WINDOW_SET that found the Receiver at `r` (R104, R108). -/
structure TrackedWindow (c : Config) (r r' : Receiver) : Prop where
  complete : 19 ≤ r.cInitStage → r'.cInitStage = r.cInitStage ∧ r'.cInitValid = r.cInitValid
  incomplete : r.cInitStage < 19 → r'.cInitValid = false
  inPlace : r.cInitStage = 4 → r.cInitValid = true → ¬ GroupOpen c r → r'.cInitStage = 6
  outOfPlace : r.cInitStage ≠ 4 ∨ r.cInitValid = false ∨ GroupOpen c r → r'.cInitStage = r.cInitStage
  openRegister : ∀ reg : ConfigReg, r.cCmd = some reg.cmd → r.cPidx < c.nParams reg.cmd →
    r'.regs = r.regs.set reg none
  otherRegisters : (∀ reg : ConfigReg, r.cCmd ≠ some reg.cmd) ∨ ¬ GroupOpen c r → r'.regs = r.regs

theorem windowCut_all_tracked (c : Config) (x0 y0 x1 y1 : Half) (r : Receiver) :
    TrackedWindow c r (windowCut c x0 y0 x1 y1 11 r) := by
  rw [windowCut_all]
  refine ⟨fun h19 => ⟨if_neg (by omega), by simp [h19]⟩, fun h => by simp [h], fun h4 hv hg => ?_, fun h => if_neg ?_,
    fun reg => endGroup_regs_of_open, endGroup_regs_of_closed⟩
  · simp [endGroup_of_closed hg, h4, hv]
  · rintro ⟨h4, hv⟩
    by_cases hg : GroupOpen c r
    · simp [endGroup_cInitValid_of_open hg, h4] at hv
    · rw [endGroup_of_closed hg] at hv
      simp [h4, hv, hg] at h

/-- What a WINDOW_SET leaves alone in the Receiver, the window, the command context, the registers and the order tracker
put back (R160). -/
theorem windowCut_all_frame (c : Config) (x0 y0 x1 y1 : Half) (r : Receiver) :
    { windowCut c x0 y0 x1 y1 11 r with
      xs := r.xs, xe := r.xe, ys := r.ys, ye := r.ye, wcol := r.wcol, wrow := r.wrow, cCmd := r.cCmd, cPidx := r.cPidx,
      cPbuf := r.cPbuf, cFull := r.cFull, cHalf := r.cHalf, regs := r.regs, cInitStage := r.cInitStage,
      cInitValid := r.cInitValid } = r := by
  rw [windowCut_all]
  by_cases hg : GroupOpen c r
  · obtain ⟨cmd, hc, hi⟩ := hg
    rw [endGroup_of_open hc hi]
    cases cmd <;> rfl
  · rw [endGroup_of_closed hg]

/-! ### The frames, when every transfer succeeds -/

/-- Frames whose transfers all succeed. -/
theorem sendFrames_ok {s : State} (hl : LinesReliable s) (hu : BusUsable s) {fs : List FrameSpec} (hne : fs ≠ [])
    (hb : ∀ f ∈ fs, f.2 ≠ []) (hd : DrawsOk s fs.length) {r : Receiver}
    (hr : takeClassed s.cfg s.rst.level (frameBytes fs) s.recv = .ok r) :
    ∃ cls, sendFrames fs s = .ok (afterBus s cls (framesEvents fs) fs.length r) := by
  suffices returned : ∃ t, sendFrames fs s = .ok t by
    obtain ⟨t, ht⟩ := returned
    obtain ⟨cls, r', rfl, hr'⟩ := sendFrames_returned hl hne hb ht
    obtain rfl : r = r' := Except.ok.inj (hr.symm.trans hr')
    exact ⟨cls, ht⟩
  clear hne
  induction fs generalizing s with
  | nil => exact ⟨s, rfl⟩
  | cons f fs ih =>
    rw [frameBytes, List.flatMap_cons, takeClassed_append, takeClassed_map] at hr
    cases h1 : takeBytes s.cfg (framePins s f.1) f.2 s.recv with
    | error e =>
      rw [show takeBytes s.cfg ⟨some .asserted, some f.1, s.rst.level⟩ f.2 s.recv = _ from h1] at hr
      cases hr
    | ok r1 =>
      rw [show takeBytes s.cfg ⟨some .asserted, some f.1, s.rst.level⟩ f.2 s.recv = _ from h1] at hr
      rw [sendFrames, sendFrame_ok hl hu (hd 0 (by simp)) (hb f (by simp)) h1, Result.bind_ok]
      exact ih (hl.afterBus ..) (hu.afterBus ..) (fun g hg => hb g (by simp [hg]))
        (DrawsOk.afterBus (by rw [Nat.add_comm]; exact hd) _ _ _) hr

theorem framesEvents_windowSpecs (c : Config) (x0 y0 x1 y1 : Half) :
    framesEvents (windowSpecs c x0 y0 x1 y1) = windowEvents c x0 y0 x1 y1 := by
  cases h : c.paramFraming <;>
    simp [windowSpecs, exchangeSpecs, paramSpecs, h, addressParams, framesEvents, windowEvents, exchangeEvents, paramEvents]

/-- Well-formed operands of WINDOW_SET are a window inside the panel (R129, R163). -/
theorem windowInPanel_of_wf {c : Config} {x0 y0 x1 y1 : Half} (h : wf c (.windowSet x0 y0 x1 y1) = true) :
    windowInPanel c x0 x1 y0 y1 = true := by
  simp only [wf, wfRect, windowInPanel, decide_eq_true_eq] at h ⊢
  omega

theorem windowSpecs_ne_nil {c : Config} {x0 y0 x1 y1 : Half} : windowSpecs c x0 y0 x1 y1 ≠ [] := by simp [windowSpecs]

/-- A call that hands its result on leaves the driver as the bytes on the bus do (log 5). -/
theorem KeepsDriver.afterCall (s : State) (cls : ByteClass) (es : List Event) (n : Nat) (r : Receiver)
    (x : Option CallResult) : KeepsDriver s { Machine.afterBus s cls es n r with callResult := x } := by
  constructor <;> rfl

/-- The Receiver takes all the bytes of a window inside the panel (R160, R161). -/
theorem takeClassed_windowSpecs {c : Config} (hc : c.Wf) {rst : Option RstLevel} {r : Receiver} {x0 y0 x1 y1 : Half}
    (hw : windowInPanel c x0 x1 y0 y1 = true) (ha : rst = some .high ∧ r.cResetDone = true ∧ r.cBusy = 0) :
    takeClassed c rst (frameBytes (windowSpecs c x0 y0 x1 y1)) r = .ok (windowCut c x0 y0 x1 y1 11 r) := by
  rw [frameBytes_windowSpecs]
  exact takeClassed_window hc hw (Nat.le_refl 11) fun _ => ha

/-- A WINDOW_SET whose transfers all succeed (R160). -/
theorem windowSet_ok {s : State} (h : CanSend s (windowFrames s.cfg)) {x0 y0 x1 y1 : Half}
    (hw : windowInPanel s.cfg x0 x1 y0 y1 = true) :
    ∃ cls, windowSet x0 y0 x1 y1 s = .ok (afterBus s cls (windowEvents s.cfg x0 y0 x1 y1) (windowFrames s.cfg)
      (windowCut s.cfg x0 y0 x1 y1 11 s.recv)) := by
  rw [windowSet_eq h.lines, ← framesEvents_windowSpecs, ← windowSpecs_length s.cfg x0 y0 x1 y1]
  exact sendFrames_ok h.lines h.bus windowSpecs_ne_nil (windowSpecs_bytes s.cfg x0 y0 x1 y1)
    (by rw [windowSpecs_length]; exact h.draws) (takeClassed_windowSpecs h.cfg hw h.awake)

/-- A WINDOW_SET that returned has armed the Receiver (R160). -/
theorem windowSet_returned {s t : State} (hl : LinesReliable s) (hc : s.cfg.Wf) {x0 y0 x1 y1 : Half}
    (hw : windowInPanel s.cfg x0 x1 y0 y1 = true) (h : windowSet x0 y0 x1 y1 s = .ok t) :
    t.recv = windowCut s.cfg x0 y0 x1 y1 11 s.recv := by
  rw [windowSet_eq hl] at h
  obtain ⟨cls, r, rfl, hr⟩ := sendFrames_returned hl windowSpecs_ne_nil (windowSpecs_bytes s.cfg x0 y0 x1 y1) h
  have awake := awake_of_takeClassed (by simp [frameBytes_windowSpecs, windowBytes]) hr
  exact Except.ok.inj (hr.symm.trans (takeClassed_windowSpecs hc hw awake))

/-- Settles O44: the Receiver of a run of the eleven bytes, whose one `if` and one `&&` are the order tracker's. -/
theorem Sequencer.windowSet : Obligations.WindowSet := by
  intro x0 y0 x1 y1 s h hw
  obtain ⟨cls, run⟩ := windowSet_ok h (windowInPanel_of_wf hw)
  obtain ⟨complete, incomplete, inPlace, outOfPlace, openRegister, otherRegisters⟩ :=
    windowCut_all_tracked s.cfg x0 y0 x1 y1 s.recv
  have frame := windowCut_all_frame s.cfg x0 y0 x1 y1 s.recv
  exact ⟨_, (congrArg endCall run).trans (endCall_ok_afterBus ..), rfl, rfl, rfl, rfl, rfl, rfl, rfl, rfl, rfl, rfl, rfl,
    rfl, windowCut_fm .., complete, incomplete, inPlace, outOfPlace, openRegister, otherRegisters, frame,
    KeepsDriver.afterCall ..⟩

/-! ### The bytes on the wire -/

theorem wireBytes_windowEvents (dc : Option ByteClass) (c : Config) (x0 y0 x1 y1 : Half) :
    wireBytes dc (windowEvents c x0 y0 x1 y1) = windowBytes c x0 y0 x1 y1 := by
  rw [windowEvents, wireBytes_append, wireBytes_append, wireBytes_exchangeEvents, wireBytes_exchangeEvents]
  rfl

/-- Settles O45: a call that answered OK returned, so its events are those of the window. -/
theorem windowSetBytes : Obligations.WindowSetBytes := by
  intro x0 y0 x1 y1 s t _ hl ht hok
  have ends := windowSet_ends hl x0 y0 x1 y1
  obtain ⟨u, hu, rfl⟩ | ⟨u, -, rfl⟩ := endCall_eq_next ht
  · rw [hu] at ends
    obtain ⟨-, -, -, cls, r, rfl⟩ := ends
    exact ⟨_, rfl, wireBytes_windowEvents ..⟩
  · cases hok

/-! ### A transfer that fails -/

/-- A WINDOW_SET whose transfer number `j` fails: the frames before it and its own, and what the bytes that arrived did to the
Receiver (R160, R168). -/
theorem windowSet_fails {s : State} {j : Nat} (h : CanSend s j) (hj : j < windowFrames s.cfg)
    (ho : (s.drawAt j).outcome = .fail) {x0 y0 x1 y1 : Half} (hw : windowInPanel s.cfg x0 x1 y0 y1 = true) :
    ∃ (f : FrameSpec) (k n : Nat) (es : List Event), k = min (s.drawAt j).delivered f.2.length ∧ n ≤ 11 ∧
      es = framesEvents ((windowSpecs s.cfg x0 y0 x1 y1).take j) ++ transferEvents f.1 f.2 false k ∧
      wireBytes s.dc.level es = (windowBytes s.cfg x0 y0 x1 y1).take n ∧
      windowSet x0 y0 x1 y1 s = .raised (afterBus s f.1 es (j + 1) (windowCut s.cfg x0 y0 x1 y1 n s.recv)) := by
  rw [← windowSpecs_length s.cfg x0 y0 x1 y1] at hj
  have hf := List.getElem?_eq_getElem hj
  obtain ⟨n, hn, bytes⟩ := frameBytes_cut hf (Nat.min_le_right (s.drawAt j).delivered _)
  rw [frameBytes_windowSpecs] at hn bytes
  refine ⟨_, _, n, _, rfl, hn, rfl, by rw [wireBytes_cut, bytes], ?_⟩
  rw [windowSet_eq h.lines]
  refine sendFrames_fails h.lines h.bus (windowSpecs_bytes s.cfg x0 y0 x1 y1) hf h.draws ho rfl ?_
  rw [bytes]
  exact takeClassed_window h.cfg hw hn fun _ => h.awake

/-- Settles O60: the events of the frames up to the failed one, counted and read off. -/
theorem windowSetCutShort : Obligations.WindowSetCutShort := by
  intro x0 y0 x1 y1 j s hw h hj ho hs
  obtain ⟨f, k, n, es, hk, hn, hes, bytes, run⟩ := windowSet_fails h hj ho (windowInPanel_of_wf hw)
  have failed : FailedWindow s.cfg x0 y0 x1 y1 es := by
    have ends := windowSet_ends h.lines x0 y0 x1 y1
    rw [run] at ends
    obtain ⟨cls, es', m, r, ht, failed⟩ := ends
    obtain rfl : es = es' := List.append_cancel_left (congrArg State.trace ht : s.trace ++ _ = s.trace ++ _)
    exact failed
  have frames : es.length = 4 * (j + 1) := by
    rw [← windowSpecs_length s.cfg x0 y0 x1 y1] at hj
    rw [hes, List.length_append, framesEvents_length, List.length_take_of_le hj.le]
    rfl
  have last : .xfer f.2 false (min (s.drawAt j).delivered f.2.length) ∈ es := by
    simp [hes, hk, transferEvents]
  exact ⟨_, es, n, (congrArg endCall run).trans (endCall_raised_afterBus hs ..), rfl, rfl, failed, frames, ⟨_, last⟩, hn,
    bytes, rfl, windowCut_fm .., rfl, KeepsDriver.afterCall ..⟩

end Sys2Proof.Machine
end

section
/-! BLIT (43_window_blit.md R162 to R168, R172): which calls are accepted, the window and the burst of an accepted one, its
events, and how it ends. -/

namespace Sys2Proof.Machine

/-! ### The entry -/

/-- Settles O46: the entry check comes before the operands. -/
theorem blitEntryState : Obligations.BlitEntryState := by
  refine fun r pb s => ⟨?inFlight, fun h => ?uninit, fun h => ?failed⟩
  case inFlight => rintro (h | h) <;> simp [exec, execBlit, h]
  case uninit => simp [exec, execBlit, h]
  case failed => simp [exec, execBlit, h]

/-- The rectangle of `w` by `h` cells whose first cell is in row `y0` and column `x0`. -/
def rectOf (x0 y0 w h : Nat) : Rect := ⟨x0, y0, (x0 + w : Nat) - 1, (y0 + h : Nat) - 1⟩

/-- The rectangle has a cell, lies inside the panel, and its pixels are `len` bytes (R163). -/
structure Fits (c : Config) (x0 y0 w h len : Nat) : Prop where
  width : 0 < w
  height : 0 < h
  right : x0 + w ≤ c.panelW
  bottom : y0 + h ≤ c.panelH
  length : len = w * h * 2

/-- The two clauses of R163. -/
theorem blitValid_iff {c : Config} {r : Rect} {len : Nat} : blitValid c r len = true ↔
    (0 ≤ r.x0 ∧ r.x0 ≤ r.x1 ∧ r.x1 < c.panelW ∧ 0 ≤ r.y0 ∧ r.y0 ≤ r.y1 ∧ r.y1 < c.panelH) ∧
      (len : Int) = (r.x1 - r.x0 + 1) * (r.y1 - r.y0 + 1) * 2 := by
  rw [blitValid, Bool.and_eq_true, wfRect, wfBuffer, decide_eq_true_eq, decide_eq_true_eq, rectBytes]

theorem Fits.valid {c : Config} {x0 y0 w h len : Nat} (f : Fits c x0 y0 w h len) :
    blitValid c (rectOf x0 y0 w h) len = true := by
  obtain ⟨width, height, right, bottom, rfl⟩ := f
  refine blitValid_iff.2 ⟨by simp only [rectOf]; omega, ?_⟩
  simp only [rectOf]
  push_cast
  ring

/-- Every rectangle BLIT accepts is one of these (R163). -/
theorem exists_fits_of_blitValid {c : Config} {r : Rect} {len : Nat} (hv : blitValid c r len = true) :
    ∃ x0 y0 w h, r = rectOf x0 y0 w h ∧ Fits c x0 y0 w h len := by
  obtain ⟨x0, y0, x1, y1⟩ := r
  obtain ⟨⟨hx0, hx, hx1, hy0, hy, hy1⟩, hlen⟩ := blitValid_iff.1 hv
  simp only at hx0 hx hx1 hy0 hy hy1 hlen
  obtain ⟨x0, rfl⟩ := Int.eq_ofNat_of_zero_le hx0
  obtain ⟨y0, rfl⟩ := Int.eq_ofNat_of_zero_le hy0
  obtain ⟨w, hw⟩ := Int.eq_ofNat_of_zero_le (show 0 ≤ x1 - x0 + 1 by omega)
  obtain ⟨h, hh⟩ := Int.eq_ofNat_of_zero_le (show 0 ≤ y1 - y0 + 1 by omega)
  rw [hw, hh] at hlen
  refine ⟨x0, y0, w, h, ?_, by omega, by omega, by omega, by omega, by exact_mod_cast hlen⟩
  simp only [rectOf, Rect.mk.injEq, true_and]
  omega

/-! ### The rectangle as a window -/

/-- The four bounds of a rectangle, as operands of WINDOW_SET (R66, R170). -/
theorem ofInt_rectOf {x0 y0 w h : Nat} (hw : 0 < w) (hh : 0 < h) :
    BitVec.ofInt 16 (rectOf x0 y0 w h).x0 = toHalf x0 ∧ BitVec.ofInt 16 (rectOf x0 y0 w h).y0 = toHalf y0 ∧
      BitVec.ofInt 16 (rectOf x0 y0 w h).x1 = toHalf (x0 + w - 1) ∧
      BitVec.ofInt 16 (rectOf x0 y0 w h).y1 = toHalf (y0 + h - 1) := by
  have bound : ∀ a n : Nat, 0 < n → ((a + n : Nat) : Int) - 1 = ((a + n - 1 : Nat) : Int) := fun a n hn => by omega
  simp only [rectOf, bound x0 w hw, bound y0 h hh, BitVec.ofInt_natCast]
  exact ⟨rfl, rfl, rfl, rfl⟩

section
variable {c : Config} {x0 y0 w h len : Nat}

/-- The bounds of a rectangle inside the panel are 16-bit values (R5, R170). -/
theorem Fits.bounds (f : Fits c x0 y0 w h len) (hc : c.Wf) :
    (toHalf x0).toNat = x0 ∧ (toHalf y0).toNat = y0 ∧ (toHalf (x0 + w - 1)).toNat = x0 + w - 1 ∧
      (toHalf (y0 + h - 1)).toNat = y0 + h - 1 := by
  obtain ⟨⟨-, width⟩, ⟨-, height⟩, -⟩ := hc
  obtain ⟨hw, hh, hx, hy, -⟩ := f
  exact ⟨toHalf_toNat (by omega), toHalf_toNat (by omega), toHalf_toNat (by omega), toHalf_toNat (by omega)⟩

theorem Fits.windowInPanel (f : Fits c x0 y0 w h len) (hc : c.Wf) :
    windowInPanel c (toHalf x0) (toHalf (x0 + w - 1)) (toHalf y0) (toHalf (y0 + h - 1)) = true := by
  obtain ⟨ex0, ey0, ex1, ey1⟩ := f.bounds hc
  obtain ⟨hw, hh, hx, hy, -⟩ := f
  simp only [Machine.windowInPanel, ex0, ey0, ex1, ey1, decide_eq_true_eq]
  omega

end

theorem windowInPanel_of_blitValid {c : Config} (hc : c.Wf) {r : Rect} {len : Nat} (hv : blitValid c r len = true) :
    windowInPanel c (BitVec.ofInt 16 r.x0) (BitVec.ofInt 16 r.x1) (BitVec.ofInt 16 r.y0) (BitVec.ofInt 16 r.y1) =
      true := by
  obtain ⟨x0, y0, w, h, rfl, f⟩ := exists_fits_of_blitValid hv
  obtain ⟨ex0, ey0, ex1, ey1⟩ := ofInt_rectOf (x0 := x0) (y0 := y0) f.width f.height
  rw [ex0, ey0, ex1, ey1]
  exact f.windowInPanel hc

/-! ### The body -/

/-- The window of an accepted BLIT, as WINDOW_SET's operands (R160, R170). -/
def windowOfRect (r : Rect) (s : State) : Result :=
  windowSet (BitVec.ofInt 16 r.x0) (BitVec.ofInt 16 r.y0) (BitVec.ofInt 16 r.x1) (BitVec.ofInt 16 r.y1) s

/-- The events of a rectangle's window (R160). -/
def rectEvents (c : Config) (r : Rect) : List Event :=
  windowEvents c (BitVec.ofInt 16 r.x0) (BitVec.ofInt 16 r.y0) (BitVec.ofInt 16 r.x1) (BitVec.ofInt 16 r.y1)

/-- How the window of a BLIT ends (R160, R168). -/
theorem windowOfRect_ends {s : State} (hl : LinesReliable s) (r : Rect) :
    EndsWith s (rectEvents s.cfg r) (windowFrames s.cfg)
      (FailedWindow s.cfg (BitVec.ofInt 16 r.x0) (BitVec.ofInt 16 r.y0) (BitVec.ofInt 16 r.x1) (BitVec.ofInt 16 r.y1))
      (windowOfRect r s) :=
  windowSet_ends hl _ _ _ _

theorem windowOfRect_keepsDriver (r : Rect) (s : State) : (windowOfRect r s).All (KeepsDriver s) :=
  windowSet_keepsDriver _ _ _ _ s

/-- The window and the burst of a BLIT are moves (R162). -/
theorem blitBody_moves (r : Rect) (pb : List Byte) (s : State) :
    ((windowOfRect r s).bind (sendFrame .data pb)).All (Moves s) :=
  (windowSet_moves _ _ _ _ s).bindMoves (sendFrame_moves .data pb)

theorem toHalf_toNat_eq_ofInt {n : Int} (h : 0 ≤ n) : toHalf n.toNat = BitVec.ofInt 16 n := by
  obtain ⟨n, rfl⟩ := Int.eq_ofNat_of_zero_le h
  exact (BitVec.ofInt_natCast 16 n).symm

/-- The pixel buffer of an accepted BLIT is not empty (R163). -/
theorem ne_nil_of_blitValid {c : Config} {r : Rect} {pb : List Byte} (hv : blitValid c r pb.length = true) : pb ≠ [] := by
  obtain ⟨x0, y0, w, h, -, f⟩ := exists_fits_of_blitValid hv
  have := Nat.mul_pos f.width f.height
  rintro rfl
  have := f.length
  simp only [List.length_nil] at this
  omega

/-- The burst of a buffer whose length is latched is one data frame (R164). -/
theorem dataBurst_eq {pb : List Byte} (hb : pb ≠ []) {s : State} (hs : s.blen = some pb.length) :
    dataBurst pb s = sendFrame .data pb s := by
  rw [dataBurst, hs]
  simp only [pbRead, List.drop_zero, List.take_length]
  exact sendDataBlock_length hb s

/-- The body of an accepted BLIT: the window, then the whole buffer in one data frame, then the end (R162, R164). -/
theorem runBlit_eq {r : Rect} {pb : List Byte} {s : State} (hv : blitValid s.cfg r pb.length = true) :
    runBlit r pb s = ((windowOfRect r (enterBlit r pb.length s)).bind (sendFrame .data pb)).bind
      fun t => .ok (finishBlit t) := by
  have latched : windowSetLatched (enterBlit r pb.length s) = windowOfRect r (enterBlit r pb.length s) := by
    obtain ⟨x0, y0, w, h, rfl, f⟩ := exists_fits_of_blitValid hv
    obtain ⟨width, height, -⟩ := f
    simp only [windowSetLatched, enterBlit, windowOfRect, rectOf]
    rw [toHalf_toNat_eq_ofInt, toHalf_toNat_eq_ofInt, toHalf_toNat_eq_ofInt, toHalf_toNat_eq_ofInt] <;> omega
  rw [runBlit, latched]
  refine congrArg (Result.bind · _) (Result.bind_congr fun t ht => dataBurst_eq (ne_nil_of_blitValid hv) ?_)
  have kept := windowOfRect_keepsDriver r (enterBlit r pb.length s)
  rw [ht] at kept
  exact kept.blen

/-- A BLIT that is accepted runs (R162). -/
theorem exec_blit_of_valid {r : Rect} {pb : List Byte} {s : State} (hs : s.seqState = .ready)
    (hv : blitValid s.cfg r pb.length = true) : exec (.blit r pb) s = endOperation (runBlit r pb s) := by
  simp [exec, execBlit, hs, hv]

/-! ### The ends -/

/-- The end of a completed BLIT (R162, R165). -/
theorem finishBlit_eq (s : State) :
    finishBlit s = { s with
      bidx := s.blen, trace := s.trace ++ [.release, .ret .ok], status := some .ok, seqState := .ready } := by
  simp [finishBlit, State.setBidx, State.emit, State.returnStatus, State.setStatus, State.setSeqState]

/-- The end of a BLIT one of whose transfers failed (R184, R165). -/
theorem takeTransportError_of_blitRunning {s : State} (h : s.seqState = .blitRunning) :
    takeTransportError s = { s with
      trace := s.trace ++ (if s.cfg.releaseOnFailure = .always then [.release] else []) ++ [.ret .transportError]
      status := some .transportError, seqState := .failed } := by
  rw [takeTransportError, if_pos h, State.releaseOnFailure]
  split <;> simp [State.emit, State.returnStatus, State.setStatus, State.setSeqState]

/-- A rejected BLIT does not return OK (R185). -/
theorem takeInvalidArgument_getLast? (s : State) :
    (takeInvalidArgument s).trace.getLast? = some (.ret .invalidArgument) := by
  simp [takeInvalidArgument, State.returnStatus]

/-- A failed operation does not return OK (R184). -/
theorem takeTransportError_getLast? (s : State) :
    (takeTransportError s).trace.getLast? = some (.ret .transportError) := by
  simp [takeTransportError, State.returnStatus]

/-- A BLIT that returned OK was accepted, and its window and its burst returned (R162). -/
theorem exec_blit_returned {r : Rect} {pb : List Byte} {s t : State} (ht : exec (.blit r pb) s = .next t)
    (hlast : t.trace.getLast? = some (.ret .ok)) :
    blitValid s.cfg r pb.length = true ∧ ∃ u v, windowOfRect r (enterBlit r pb.length s) = .ok u ∧
      sendFrame .data pb u = .ok v ∧ t = finishBlit v := by
  obtain ⟨-, ⟨hv, hrun⟩ | ⟨-, rfl⟩⟩ := exec_blit_eq_next ht
  · obtain hok | ⟨u, -, rfl⟩ := endOperation_eq_next hrun
    · rw [runBlit_eq hv] at hok
      obtain ⟨v, hbody, hfinish⟩ := Result.bind_eq_ok hok
      obtain ⟨u, hwindow, hburst⟩ := Result.bind_eq_ok hbody
      cases hfinish
      exact ⟨hv, u, v, hwindow, hburst, rfl⟩
    · rw [takeTransportError_getLast?] at hlast
      cases hlast
  · rw [takeInvalidArgument_getLast?] at hlast
    cases hlast

/-- A window that returned, where no line call can fail (R160). -/
theorem windowOfRect_returned {r : Rect} {s u : State} (hl : LinesReliable s) (h : windowOfRect r s = .ok u) :
    ∃ cls n q, u = afterBus s cls (rectEvents s.cfg r) n q := by
  have ends := windowOfRect_ends hl r
  rw [h] at ends
  obtain ⟨-, -, -, cls, q, rfl⟩ := ends
  exact ⟨cls, _, q, rfl⟩

/-- What the window and the burst of a BLIT leave when both return (R162, R164). -/
theorem blitBody_returned {r : Rect} {pb : List Byte} (hb : pb ≠ []) {s u v : State} (hl : LinesReliable s)
    (hwindow : windowOfRect r s = .ok u) (hburst : sendFrame .data pb u = .ok v) :
    ∃ n q, v = afterBus s .data (rectEvents s.cfg r ++ frameEvents .data pb) n q := by
  obtain ⟨cls, n, q, rfl⟩ := windowOfRect_returned hl hwindow
  obtain ⟨q', rfl, -⟩ := sendFrame_returned (hl.afterBus ..) hb hburst
  exact ⟨_, q', afterBus_afterBus ..⟩

/-- Settles O49: the events of the body, then those of the end. -/
theorem blitTrace : Obligations.BlitTrace := by
  intro r pb s t hl ht hlast
  obtain ⟨hv, u, v, hwindow, hburst, rfl⟩ := exec_blit_returned ht hlast
  obtain ⟨n, q, rfl⟩ := blitBody_returned (ne_nil_of_blitValid hv) (s := enterBlit r pb.length s) hl hwindow hburst
  rw [finishBlit_eq, List.append_assoc s.trace]
  rfl

/-! ### A transfer that fails -/

/-- A failed frame ends with chip-select deasserted (R91). -/
theorem FailedFrame.getLast? {cls : ByteClass} {bytes : List Byte} {es : List Event} (h : FailedFrame cls bytes es) :
    es.getLast? = some (.line (.cs .deasserted)) := by
  obtain ⟨k, -, rfl⟩ := h
  rfl

/-- A list ends as a last part of it that is not empty. -/
theorem getLast?_append_of_eq_some {es es' : List Event} {e : Event} (h : es'.getLast? = some e) :
    (es ++ es').getLast? = some e :=
  List.mem_getLast?_append_of_mem_getLast? h

theorem FailedExchange.getLast? {c : Config} {cmd : Cmd} {ps : List Byte} {es : List Event}
    (h : FailedExchange c cmd ps es) : es.getLast? = some (.line (.cs .deasserted)) := by
  obtain h | ⟨es', h, rfl⟩ := h
  · exact FailedFrame.getLast? h
  · refine getLast?_append_of_eq_some ?_
    unfold FailedParams at h
    split at h
    · exact FailedFrame.getLast? h
    · obtain ⟨j, b, es'', -, h, rfl⟩ := h
      exact getLast?_append_of_eq_some (FailedFrame.getLast? h)

/-- So does a failed WINDOW_SET, in whichever of its frames (R160, R91). -/
theorem FailedWindow.getLast? {c : Config} {x0 y0 x1 y1 : Half} {es : List Event} (h : FailedWindow c x0 y0 x1 y1 es) :
    es.getLast? = some (.line (.cs .deasserted)) := by
  obtain h | ⟨es', rfl, h | ⟨es'', rfl, h⟩⟩ := h
  · exact FailedExchange.getLast? h
  · exact getLast?_append_of_eq_some (FailedExchange.getLast? h)
  · exact getLast?_append_of_eq_some (getLast?_append_of_eq_some (FailedFrame.getLast? h))

/-- Events of the bus give nothing back to the Host (R18, R165). -/
theorem release_not_mem_of_moves {s u : State} (h : Moves s u) {es : List Event} (hu : u.trace = s.trace ++ es) :
    .release ∉ es := by
  obtain ⟨es', htrace, hbus⟩ := h.trace
  obtain rfl : es = es' := List.append_cancel_left (hu.symm.trans htrace)
  exact fun hmem => nomatch hbus _ hmem

/-- The window of a BLIT called in `s`, cut short with the events `es` and the Receiver left at `q` (R168): its failed frame is
the last, and the bytes that arrived have set it half. -/
def WindowCutIn (s : State) (r : Rect) (es : List Event) (q : Receiver) : Prop :=
  FailedWindow s.cfg (BitVec.ofInt 16 r.x0) (BitVec.ofInt 16 r.y0) (BitVec.ofInt 16 r.x1) (BitVec.ofInt 16 r.y1) es ∧
    (s.cfg.Wf → q.fm = s.recv.fm ∧ ∃ n ≤ 11,
      wireBytes s.dc.level es = (windowBytes s.cfg (BitVec.ofInt 16 r.x0) (BitVec.ofInt 16 r.y0)
        (BitVec.ofInt 16 r.x1) (BitVec.ofInt 16 r.y1)).take n ∧
      q = windowCut s.cfg (BitVec.ofInt 16 r.x0) (BitVec.ofInt 16 r.y0) (BitVec.ofInt 16 r.x1) (BitVec.ofInt 16 r.y1) n
        s.recv)

theorem windowOfRect_raised {r : Rect} {s u : State} (hl : LinesReliable s) {len : Nat}
    (hv : blitValid s.cfg r len = true) (h : windowOfRect r s = .raised u) :
    ∃ cls es m q, u = afterBus s cls es m q ∧ WindowCutIn s r es q := by
  have ends := windowOfRect_ends hl r
  rw [h] at ends
  obtain ⟨cls, es, m, q, rfl, failed⟩ := ends
  refine ⟨cls, es, m, q, rfl, failed, fun hc => ?_⟩
  obtain ⟨cls', es', m', n, hn, hu, -, bytes⟩ := windowSet_raised hl hc (windowInPanel_of_blitValid hc hv) h
  obtain rfl : es = es' := List.append_cancel_left (congrArg State.trace hu : s.trace ++ _ = s.trace ++ _)
  obtain rfl : q = _ := congrArg State.recv hu
  exact ⟨windowCut_fm .., n, hn, bytes, rfl⟩

/-- The body of a BLIT that raised: in its window or in its burst, whose frame is then the last (R168, R91). -/
theorem blitBody_raised {r : Rect} {pb : List Byte} {s u : State} (hl : LinesReliable s)
    (hv : blitValid s.cfg r pb.length = true) (h : (windowOfRect r s).bind (sendFrame .data pb) = .raised u) :
    ∃ cls es m q, u = afterBus s cls es m q ∧ .release ∉ es ∧ es.getLast? = some (.line (.cs .deasserted)) ∧
      (WindowCutIn s r es q ∨ ∃ es', FailedFrame .data pb es' ∧ es = rectEvents s.cfg r ++ es') := by
  have moves := blitBody_moves r pb s
  rw [h] at moves
  obtain hwindow | ⟨v, hwindow, hburst⟩ := Result.bind_eq_raised h
  · obtain ⟨cls, es, m, q, rfl, cut⟩ := windowOfRect_raised hl hv hwindow
    exact ⟨cls, es, m, q, rfl, release_not_mem_of_moves moves rfl, FailedWindow.getLast? cut.1, .inl cut⟩
  · obtain ⟨cls, n, q, rfl⟩ := windowOfRect_returned hl hwindow
    obtain ⟨k, hk, q', rfl, -⟩ := sendFrame_raised (hl.afterBus ..) (ne_nil_of_blitValid hv) hburst
    have failed : FailedFrame .data pb (transferEvents .data pb false k) := ⟨k, hk, rfl⟩
    rw [afterBus_afterBus] at moves ⊢
    exact ⟨_, _, _, q', rfl, release_not_mem_of_moves moves rfl,
      getLast?_append_of_eq_some (FailedFrame.getLast? failed), .inr ⟨_, failed, rfl⟩⟩

/-- Settles O51: the body returned or raised, and the end of a BLIT adds its own events. -/
theorem blitOutcome : Obligations.BlitOutcome := by
  intro r pb s t hs hv hl ht
  rw [exec_blit_of_valid hs hv, runBlit_eq hv] at ht
  have hl0 : LinesReliable (enterBlit r pb.length s) := hl
  obtain hok | ⟨u, hraised, rfl⟩ := endOperation_eq_next ht
  · obtain ⟨v, hbody, hfinish⟩ := Result.bind_eq_ok hok
    obtain ⟨u, hwindow, hburst⟩ := Result.bind_eq_ok hbody
    cases hfinish
    obtain ⟨n, q, rfl⟩ := blitBody_returned (ne_nil_of_blitValid hv) hl0 hwindow hburst
    rw [finishBlit_eq, List.append_assoc s.trace]
    exact ⟨⟨rfl, rfl, rfl, rfl, rfl, rfl, rfl, rfl, rfl, rfl⟩, .inl ⟨rfl, rfl, rfl, rfl⟩⟩
  · obtain hbody | ⟨v, -, hfinish⟩ := Result.bind_eq_raised hraised
    · obtain ⟨cls, es, m, q, rfl, noRelease, last, cut⟩ := blitBody_raised hl0 hv hbody
      rw [takeTransportError_of_blitRunning rfl]
      exact ⟨⟨rfl, rfl, rfl, rfl, rfl, rfl, rfl, rfl, rfl, rfl⟩,
        .inr ⟨rfl, rfl, rfl, es, rfl, noRelease, last, cut⟩⟩
    · cases hfinish

end Sys2Proof.Machine
end

section
/-! The cells a BLIT writes (43_window_blit.md R164, R166 to R168; 41_wire_commands.md R130): the burst at the Receiver, whole
or cut short, and the state a BLIT leaves. -/

namespace Sys2Proof.Machine

/-! ### The armed Receiver -/

/-- The Receiver armed at the first cell of a rectangle (R160). -/
def armed (c : Config) (x0 y0 w h : Nat) (r : Receiver) : Receiver :=
  windowCut c (toHalf x0) (toHalf y0) (toHalf (x0 + w - 1)) (toHalf (y0 + h - 1)) 11 r

/-- What the controller itself is in is not touched by a WINDOW_SET (R160). -/
theorem armed_power (c : Config) (x0 y0 w h : Nat) (r : Receiver) :
    (armed c x0 y0 w h r).cResetDone = r.cResetDone ∧ (armed c x0 y0 w h r).cSleepOut = r.cSleepOut ∧
      (armed c x0 y0 w h r).cNormalOn = r.cNormalOn ∧ (armed c x0 y0 w h r).cDisplayOn = r.cDisplayOn ∧
      (armed c x0 y0 w h r).cBusy = r.cBusy ∧ (armed c x0 y0 w h r).cRstLowMs = r.cRstLowMs := by
  have frame := windowCut_all_frame c (toHalf x0) (toHalf y0) (toHalf (x0 + w - 1)) (toHalf (y0 + h - 1)) r
  exact ⟨(congrArg Receiver.cResetDone frame :), (congrArg Receiver.cSleepOut frame :), (congrArg Receiver.cNormalOn frame :),
    (congrArg Receiver.cDisplayOn frame :), (congrArg Receiver.cBusy frame :), (congrArg Receiver.cRstLowMs frame :)⟩

theorem armed_tracked (c : Config) (x0 y0 w h : Nat) (r : Receiver) : TrackedWindow c r (armed c x0 y0 w h r) :=
  windowCut_all_tracked ..

theorem armed_fm (c : Config) (x0 y0 w h : Nat) (r : Receiver) : (armed c x0 y0 w h r).fm = r.fm := windowCut_fm ..

/-- A display-ready controller stays so: its order is complete (R29, R108). -/
theorem armed_controllerReady {c : Config} {x0 y0 w h : Nat} {r : Receiver} (hr : r.controllerReady = true) :
    (armed c x0 y0 w h r).controllerReady = true := by
  obtain ⟨reset, sleep, normal, display, busy, -⟩ := armed_power c x0 y0 w h r
  simp only [Receiver.controllerReady, Bool.and_eq_true, beq_iff_eq] at hr ⊢
  obtain ⟨⟨⟨⟨⟨⟨hreset, hvalid⟩, hstage⟩, hsleep⟩, hnormal⟩, hdisplay⟩, hbusy⟩ := hr
  obtain ⟨stage, valid⟩ := (armed_tracked c x0 y0 w h r).complete hstage.ge
  exact ⟨⟨⟨⟨⟨⟨reset.trans hreset, valid.trans hvalid⟩, stage.trans hstage⟩, sleep.trans hsleep⟩, normal.trans hnormal⟩,
    display.trans hdisplay⟩, busy.trans hbusy⟩

/-! ### The burst -/

/-- The Receiver after the first `k` bytes of a burst: `k div 2` pixels, and an odd byte held (R130, R168). -/
def afterBurst (r : Receiver) (pb : List Byte) (x0 y0 w h k : Nat) : Receiver :=
  { afterPixels r pb x0 y0 w h (k / 2) with cHalf := if k % 2 = 1 then pb[k - 1]? else none }

section
variable {c : Config} {x0 y0 w h : Nat} {pb : List Byte} {r : Receiver}

/-- The first `m` pixels of a burst into the window that was armed for it (R130, R164). -/
theorem Fits.takeBytes_wholePixels (f : Fits c x0 y0 w h pb.length) (hc : c.Wf) {rst : Option RstLevel}
    (hrst : rst = some .high) (hd : (armed c x0 y0 w h r).cResetDone = true) (hb : (armed c x0 y0 w h r).cBusy = 0)
    {m : Nat} (hm : m ≤ w * h) :
    takeBytes c ⟨some .asserted, some .data, rst⟩ (pb.take (2 * m)) (armed c x0 y0 w h r) =
      .ok (afterPixels (armed c x0 y0 w h r) pb x0 y0 w h m) := by
  obtain ⟨ex0, ey0, ex1, ey1⟩ := f.bounds hc
  obtain ⟨hw, hh, hx, hy, hlen⟩ := f
  have first : afterPixels (armed c x0 y0 w h r) pb x0 y0 w h 0 = armed c x0 y0 w h r :=
    afterPixels_zero hw hh (congrArg some ex0) (congrArg some ey0) rfl rfl
  have run := takeBytes_pixels (c := c) (p := ⟨some .asserted, some .data, rst⟩) rfl rfl hrst hd hb rfl
    (xs := toHalf x0) (xe := toHalf (x0 + w - 1)) (ys := toHalf y0) (ye := toHalf (y0 + h - 1)) rfl rfl rfl
    (by omega) (by omega) (by omega) (by omega) pb (k := m)
  rw [ex0, ey0, ex1, ey1, show x0 + w - 1 - x0 + 1 = w by omega, show y0 + h - 1 - y0 + 1 = h by omega, first] at run
  exact run hlen hm

/-- The first `k` bytes: whole pixels, and the first byte of the next one where `k` is odd (R130, R168). -/
theorem Fits.takeBytes_burst (f : Fits c x0 y0 w h pb.length) (hc : c.Wf) {rst : Option RstLevel}
    (hrst : rst = some .high) (hd : (armed c x0 y0 w h r).cResetDone = true) (hb : (armed c x0 y0 w h r).cBusy = 0)
    {k : Nat} (hk : k ≤ pb.length) :
    takeBytes c ⟨some .asserted, some .data, rst⟩ (pb.take k) (armed c x0 y0 w h r) =
      .ok (afterBurst (armed c x0 y0 w h r) pb x0 y0 w h k) := by
  have hlen := f.length
  obtain ⟨m, rfl | rfl⟩ := Nat.even_or_odd' k
  · rw [f.takeBytes_wholePixels hc hrst hd hb (by omega)]
    simp [afterBurst, afterPixels]
  · have hm : 2 * m < pb.length := hk
    rw [List.take_add_one, takeBytes_append, f.takeBytes_wholePixels hc hrst hd hb (by omega),
      List.getElem?_eq_getElem hm]
    show takeBytes c _ [pb[2 * m]] _ = _
    have notFull : (afterPixels (armed c x0 y0 w h r) pb x0 y0 w h m).cFull = false := decide_eq_false (by omega)
    rw [takeBytes_singleton, takeByte_data rfl rfl hrst (by exact hd) (by exact hb),
      takeData_firstHalf rfl notFull rfl, afterBurst, show (2 * m + 1) / 2 = m by omega,
      if_pos (show (2 * m + 1) % 2 = 1 by omega), Nat.add_sub_cancel, List.getElem?_eq_getElem hm]

/-! ### The cells -/

/-- A pixel of the buffer is its two bytes, the high one first (R42, R66). -/
theorem pixelAt_eq {i : Nat} (hi : 2 * i + 1 < pb.length) :
    ∃ hi lo, pb[2 * i]? = some hi ∧ pb[2 * i + 1]? = some lo ∧
      pixelAt pb i = BitVec.ofNat 16 (hi.toNat * 256 + lo.toNat) := by
  have hi' : 2 * i < pb.length := by omega
  refine ⟨_, _, List.getElem?_eq_getElem hi', List.getElem?_eq_getElem hi, ?_⟩
  rw [pixelAt, List.getD_eq_getElem _ _ hi', List.getD_eq_getElem _ _ hi, joinBytes_eq_ofNat]

/-- The first `k div 2` cells of the rectangle hold their pixels (R166, R168). -/
theorem Fits.burst_cell (f : Fits c x0 y0 w h pb.length) (hc : c.Wf) {k i : Nat} (hk : k ≤ pb.length) (hi : i < k / 2)
    (q : Receiver) :
    ∃ hi lo, pb[2 * i]? = some hi ∧ pb[2 * i + 1]? = some lo ∧
      fmRead (afterBurst q pb x0 y0 w h k).fm (y0 + i / w) (x0 + i % w) =
        some (BitVec.ofNat 16 (hi.toNat * 256 + lo.toNat)) := by
  obtain ⟨⟨-, panelWidth⟩, -⟩ := hc
  obtain ⟨high, low, hhigh, hlow, pixel⟩ := pixelAt_eq (pb := pb) (i := i) (by omega)
  exact ⟨high, low, hhigh, hlow, pixel ▸ fmRead_writePixels f.width (f.right.trans panelWidth) q.fm hi⟩

/-- Every other cell of the panel keeps what it held (R130, R168). -/
theorem Fits.burst_otherCell (f : Fits c x0 y0 w h pb.length) (hc : c.Wf) {k row col : Nat}
    (hin : inPanel c row col = true) (hne : ∀ i < k / 2, ¬ (row = y0 + i / w ∧ col = x0 + i % w)) (q : Receiver) :
    fmRead (afterBurst q pb x0 y0 w h k).fm row col = fmRead q.fm row col := by
  obtain ⟨⟨-, panelWidth⟩, -⟩ := hc
  simp only [inPanel, decide_eq_true_eq] at hin
  exact fmRead_writePixels_of_ne f.width (f.right.trans panelWidth) q.fm (by omega) hne

/-- A cell outside the rectangle is none of its cells, counted row by row (R42, R70). -/
theorem ne_cell_of_outside (hw : 0 < w) {row col : Nat}
    (hout : ¬ (y0 ≤ row ∧ row < y0 + h ∧ x0 ≤ col ∧ col < x0 + w)) :
    ∀ i < w * h, ¬ (row = y0 + i / w ∧ col = x0 + i % w) := by
  rintro i hi ⟨rfl, rfl⟩
  exact hout ⟨Nat.le_add_right .., Nat.add_lt_add_left (Nat.div_lt_of_lt_mul hi) y0, Nat.le_add_right ..,
    Nat.add_lt_add_left (Nat.mod_lt i hw) x0⟩

/-- The same burst again changes no cell of the panel (R167). -/
theorem Fits.burst_again (f : Fits c x0 y0 w h pb.length) (hc : c.Wf) {row col : Nat} (hin : inPanel c row col = true)
    {q q' : Receiver} (hq : q'.fm = (afterBurst q pb x0 y0 w h pb.length).fm) :
    fmRead (afterBurst q' pb x0 y0 w h pb.length).fm row col = fmRead q'.fm row col := by
  by_cases hcell : ∃ i < pb.length / 2, row = y0 + i / w ∧ col = x0 + i % w
  · obtain ⟨i, hi, rfl, rfl⟩ := hcell
    obtain ⟨high, low, hhigh, hlow, second⟩ := f.burst_cell hc (Nat.le_refl _) hi q'
    obtain ⟨high', low', hhigh', hlow', first⟩ := f.burst_cell hc (Nat.le_refl _) hi q
    obtain rfl : high = high' := Option.some.inj (hhigh.symm.trans hhigh')
    obtain rfl : low = low' := Option.some.inj (hlow.symm.trans hlow')
    rw [second, hq, first]
  · exact f.burst_otherCell hc hin (fun i hi he => hcell ⟨i, hi, he⟩) q'

end

/-! ### The driver -/

section
variable {s : State} {x0 y0 w h : Nat} {pb : List Byte}

theorem Fits.windowOfRect_eq {c : Config} {len : Nat} (f : Fits c x0 y0 w h len) (s : State) :
    windowOfRect (rectOf x0 y0 w h) s =
      windowSet (toHalf x0) (toHalf y0) (toHalf (x0 + w - 1)) (toHalf (y0 + h - 1)) s := by
  obtain ⟨ex0, ey0, ex1, ey1⟩ := ofInt_rectOf (x0 := x0) (y0 := y0) f.width f.height
  rw [windowOfRect, ex0, ey0, ex1, ey1]

/-- An accepted BLIT before its burst: the events `es` of the window are out and the Receiver is armed (R162). -/
def atBurst (cls : ByteClass) (es : List Event) (x0 y0 w h len : Nat) (s : State) : State :=
  afterBus (enterBlit (rectOf x0 y0 w h) len s) cls es (windowFrames s.cfg) (armed s.cfg x0 y0 w h s.recv)

@[simp] theorem atBurst_drawAt_zero (cls : ByteClass) (es : List Event) (len : Nat) :
    (atBurst cls es x0 y0 w h len s).drawAt 0 = s.drawAt (windowFrames s.cfg) :=
  afterBus_drawAt ..

/-- A BLIT whose window goes out ends as its burst does (R162, R164). -/
theorem Fits.exec_blit_eq (f : Fits s.cfg x0 y0 w h pb.length) (hs : s.seqState = .ready)
    (hcan : CanSend s (windowFrames s.cfg)) :
    ∃ cls es, exec (.blit (rectOf x0 y0 w h) pb) s =
      endOperation ((sendFrame .data pb (atBurst cls es x0 y0 w h pb.length s)).bind fun t => .ok (finishBlit t)) := by
  obtain ⟨lines, bus, awake, cfg, draws⟩ := hcan
  obtain ⟨cls, window⟩ := windowSet_ok (s := enterBlit (rectOf x0 y0 w h) pb.length s) ⟨lines, bus, awake, cfg, draws⟩
    (f.windowInPanel cfg)
  rw [exec_blit_of_valid hs f.valid, runBlit_eq f.valid, f.windowOfRect_eq, window, Result.bind_ok]
  exact ⟨cls, _, rfl⟩

/-- Before the burst the Receiver takes any part of it (R164, R168). -/
theorem Fits.takeBytes_atBurst (f : Fits s.cfg x0 y0 w h pb.length) (hc : s.cfg.Wf) (ha : Awake s) (cls : ByteClass)
    (es : List Event) {k : Nat} (hk : k ≤ pb.length) :
    takeBytes s.cfg (framePins (atBurst cls es x0 y0 w h pb.length s) .data) (pb.take k)
        (atBurst cls es x0 y0 w h pb.length s).recv =
      .ok (afterBurst (armed s.cfg x0 y0 w h s.recv) pb x0 y0 w h k) := by
  obtain ⟨hrst, hdone, hbusy⟩ := ha
  obtain ⟨reset, -, -, -, busy, -⟩ := armed_power s.cfg x0 y0 w h s.recv
  exact f.takeBytes_burst hc hrst (reset.trans hdone) (busy.trans hbusy) hk

/-- A BLIT whose transfers all succeed (R162, R166). -/
theorem Fits.exec_blit_ok (f : Fits s.cfg x0 y0 w h pb.length) (hs : s.seqState = .ready)
    (hcan : CanSend s (windowFrames s.cfg + 1)) :
    ∃ cls es, exec (.blit (rectOf x0 y0 w h) pb) s = .next (finishBlit
      (afterBus (atBurst cls es x0 y0 w h pb.length s) .data (frameEvents .data pb) 1
        (afterBurst (armed s.cfg x0 y0 w h s.recv) pb x0 y0 w h pb.length))) := by
  obtain ⟨lines, bus, awake, cfg, draws⟩ := hcan
  obtain ⟨cls, es, run⟩ := f.exec_blit_eq hs ⟨lines, bus, awake, cfg, draws.mono (Nat.le_succ _)⟩
  have taken := f.takeBytes_atBurst cfg awake cls es (Nat.le_refl _)
  rw [List.take_length] at taken
  have draw := draws _ (Nat.lt_succ_self _)
  rw [run, sendFrame_ok (s := atBurst ..) lines bus (by simpa using draw) (ne_nil_of_blitValid f.valid) taken]
  exact ⟨cls, es, rfl⟩

/-- A BLIT whose burst fails after `k` bytes (R168). -/
theorem Fits.exec_blit_cut (f : Fits s.cfg x0 y0 w h pb.length) (hs : s.seqState = .ready)
    (hcan : CanSend s (windowFrames s.cfg)) (ho : (s.drawAt (windowFrames s.cfg)).outcome = .fail) {k : Nat}
    (hd : (s.drawAt (windowFrames s.cfg)).delivered = k) (hk : k ≤ pb.length) :
    ∃ cls es, exec (.blit (rectOf x0 y0 w h) pb) s = .next (takeTransportError
      (afterBus (atBurst cls es x0 y0 w h pb.length s) .data (transferEvents .data pb false k) 1
        (afterBurst (armed s.cfg x0 y0 w h s.recv) pb x0 y0 w h k))) := by
  obtain ⟨cls, es, run⟩ := f.exec_blit_eq hs hcan
  obtain ⟨lines, bus, awake, cfg, -⟩ := hcan
  have count : failedCount (atBurst cls es x0 y0 w h pb.length s) pb = k := by simp [failedCount, hd, hk]
  have taken := f.takeBytes_atBurst cfg awake cls es hk
  rw [← count] at taken
  rw [run, sendFrame_fails (s := atBurst ..) lines bus (ne_nil_of_blitValid f.valid) (by simpa using ho) taken, count]
  exact ⟨cls, es, rfl⟩

/-- The Receiver after any BLIT that returned OK (R166). -/
theorem Fits.recv_of_returned {t : State} (f : Fits s.cfg x0 y0 w h pb.length) (hc : s.cfg.Wf) (hl : LinesReliable s)
    (ht : exec (.blit (rectOf x0 y0 w h) pb) s = .next t) (hlast : t.trace.getLast? = some (.ret .ok)) :
    t.recv = afterBurst (armed s.cfg x0 y0 w h s.recv) pb x0 y0 w h pb.length := by
  obtain ⟨-, u, v, hwindow, hburst, rfl⟩ := exec_blit_returned ht hlast
  have hl0 : LinesReliable (enterBlit (rectOf x0 y0 w h) pb.length s) := hl
  have hpb := ne_nil_of_blitValid f.valid
  have before : u.recv = armed s.cfg x0 y0 w h s.recv := by
    rw [f.windowOfRect_eq] at hwindow
    exact windowSet_returned hl0 hc (f.windowInPanel hc) hwindow
  obtain ⟨cls, n, q, rfl⟩ := windowOfRect_returned hl0 hwindow
  obtain rfl : q = _ := before
  obtain ⟨q', rfl, hq'⟩ := sendFrame_returned (hl0.afterBus ..) hpb hburst
  obtain ⟨hrst, hdone, hbusy⟩ := awake_of_takeBytes hpb hq'
  have taken := f.takeBytes_burst hc hrst hdone hbusy (Nat.le_refl _)
  rw [List.take_length] at taken
  exact Except.ok.inj (hq'.symm.trans taken)

end

/-- Settles O48: the armed Receiver after the whole burst, and the latches and the status of the end. -/
theorem blitEffect : Obligations.BlitEffect := by
  intro x0 y0 w h pb s hs hw hh hx hy hlen hcan
  have f : Fits s.cfg x0 y0 w h pb.length := ⟨hw, hh, hx, hy, hlen⟩
  have hc := hcan.cfg
  have half : pb.length / 2 = w * h := by omega
  have power := armed_power s.cfg x0 y0 w h s.recv
  obtain ⟨cls, es, run⟩ := f.exec_blit_ok hs hcan
  obtain ⟨complete, incomplete, inPlace, outOfPlace, openRegister, otherRegisters⟩ :=
    armed_tracked s.cfg x0 y0 w h s.recv
  refine ⟨_, run, fun i hi => f.burst_cell hc (Nat.le_refl _) (by omega) _, fun row col hin hout => ?otherCells, rfl, rfl,
    rfl, rfl, rfl, rfl, rfl, ?full, ?half, ?wcol, ?wrow, complete, incomplete, inPlace, outOfPlace, rfl, rfl, rfl, rfl,
    ?rx1, ?ry1, rfl, rfl, rfl, rfl, power, armed_controllerReady, openRegister, otherRegisters, ?frame⟩
  case otherCells =>
    exact (f.burst_otherCell hc hin (half ▸ ne_cell_of_outside hw hout) _).trans (by rw [armed_fm])
  case full => exact decide_eq_true half
  case half => exact if_neg (by omega)
  case wcol => exact congrArg some (if_pos half)
  case wrow => exact congrArg some (if_pos half)
  case rx1 => exact congrArg some (by simp only [rectOf]; omega)
  case ry1 => exact congrArg some (by simp only [rectOf]; omega)
  case frame =>
    rw [finishBlit_eq]
    show { s with seqState := .ready } = s
    rw [← hs]

/-- Settles O50: the events are those of O49 both times; the second burst finds the cells the first wrote. -/
theorem blitIsIdempotent : Obligations.BlitIsIdempotent := by
  intro r pb s t u hc hl ht htlast hu hulast
  have cfg : t.cfg = s.cfg := (stable_cfg s.cfg).exec rfl ht
  have hl' : LinesReliable t := hl.of_cfg cfg
  obtain ⟨hv, -⟩ := exec_blit_returned ht htlast
  obtain ⟨x0, y0, w, h, rfl, f⟩ := exists_fits_of_blitValid hv
  have first := f.recv_of_returned hc hl ht htlast
  have second := Fits.recv_of_returned (cfg ▸ f) (cfg ▸ hc) hl' hu hulast
  have events := blitTrace _ pb s t hl ht htlast
  have events' := blitTrace _ pb t u hl' hu hulast
  rw [cfg] at events'
  simp only [List.append_assoc] at events events'
  refine ⟨_, events, events', fun row col hin => ?_⟩
  have written : (armed t.cfg x0 y0 w h t.recv).fm =
      (afterBurst (armed s.cfg x0 y0 w h s.recv) pb x0 y0 w h pb.length).fm := by rw [armed_fm, first]
  rw [second, f.burst_again hc hin written, armed_fm]

/-- Settles O52: the Receiver after the part of the burst that arrived. -/
theorem blitPartialBurst : Obligations.BlitPartialBurst := by
  intro x0 y0 w h k pb s hs hw hh hx hy hlen hcan ho hd hk
  have f : Fits s.cfg x0 y0 w h pb.length := ⟨hw, hh, hx, hy, hlen⟩
  obtain ⟨cls, es, run⟩ := f.exec_blit_cut hs hcan ho hd hk
  rw [takeTransportError_of_blitRunning rfl] at run
  exact ⟨_, run, rfl, rfl, rfl, rfl, fun i hi => f.burst_cell hcan.cfg hk hi _,
    fun row col hin hne => (f.burst_otherCell hcan.cfg hin hne _).trans (by rw [armed_fm]), rfl,
    decide_eq_decide.2 (by omega)⟩

end Sys2Proof.Machine
end

section
/-! Other draws (40_bus_framer.md R82, R83; log 4): where no line call can fail, an operation that returns under some draws
of the Platform comes to the same end under any others, or raises, or hangs; it is not refused. -/

namespace Sys2Proof.Machine

/-! ### An operation under other draws -/

/-- The machine with other draws to come (log 4). -/
def State.redraw (s : State) (ds : List PlatformDraw) (n : Nat) : State := { s with draws := ds, drawCount := n }

theorem LinesReliable.redraw {s : State} (hl : LinesReliable s) (ds : List PlatformDraw) (n : Nat) :
    LinesReliable (s.redraw ds n) := hl

/-- What an operation that returned `t` comes to under other draws: `t` but for the draws, or a failure, or a transfer that
never returns (U12). A refusal is not among them. -/
def Result.Redraws (t : State) : Result → Prop
  | .ok u => ∃ ds n, u = t.redraw ds n
  | .raised _ => True
  | .stopped w => ∃ f, w = .fault f

/-- Where no line call can fail, and none can after the operation, only a draw keeps it from the end it has come to. -/
def FailsOnlyByDraw (f : State → Result) : Prop :=
  ∀ ⦃s t⦄, LinesReliable s → f s = .ok t → LinesReliable t ∧ ∀ ds n, (f (s.redraw ds n)).Redraws t

/-- One operation after another. -/
theorem FailsOnlyByDraw.bind {f g : State → Result} (hf : FailsOnlyByDraw f) (hg : FailsOnlyByDraw g) :
    FailsOnlyByDraw fun s => (f s).bind g := by
  intro s t hl h
  obtain ⟨u, hu, ht⟩ := Result.bind_eq_ok h
  obtain ⟨hlu, first⟩ := hf hl hu
  obtain ⟨hlt, second⟩ := hg hlu ht
  refine ⟨hlt, fun ds n => ?_⟩
  have redrawn := first ds n
  dsimp only
  cases hx : f (s.redraw ds n) with
  | ok v =>
    rw [hx] at redrawn
    obtain ⟨ds', n', rfl⟩ := redrawn
    exact second ds' n'
  | raised v => trivial
  | stopped w =>
    rw [hx] at redrawn
    exact redrawn

/-- An update of the state that neither reads nor writes the draws. -/
theorem FailsOnlyByDraw.update {k : State → State} (hcfg : ∀ s, (k s).cfg = s.cfg)
    (hk : ∀ s ds n, k (s.redraw ds n) = (k s).redraw ds n) : FailsOnlyByDraw fun s => .ok (k s) := by
  intro s t hl h
  cases h
  exact ⟨hl.of_cfg (hcfg s), fun ds n => ⟨ds, n, hk s ds n⟩⟩

theorem FailsOnlyByDraw.ok : FailsOnlyByDraw .ok := .update (k := id) (fun _ => rfl) fun _ _ _ => rfl

/-- An operation that does not return. -/
theorem FailsOnlyByDraw.stopped (w : Stop) : FailsOnlyByDraw fun _ => .stopped w := by
  intro s t _ h
  cases h

/-- An operation that is, in each state, another one, the same under all draws. -/
theorem FailsOnlyByDraw.of_eq {f : State → Result}
    (h : ∀ s : State, LinesReliable s →
      ∃ g, FailsOnlyByDraw g ∧ ∀ ds n, f (s.redraw ds n) = g (s.redraw ds n)) : FailsOnlyByDraw f := by
  intro s t hl ht
  obtain ⟨g, hg, same⟩ := h s hl
  obtain ⟨hlt, redraws⟩ := hg hl ((same s.draws s.drawCount).symm.trans ht)
  exact ⟨hlt, fun ds n => same ds n ▸ redraws ds n⟩

/-! ### The Platform's calls and the frames -/

theorem configureOutputLine_failsOnlyByDraw (l : Line) : FailsOnlyByDraw (configureOutputLine l) :=
  .of_eq fun _ hl => ⟨fun s => .ok ((s.emit (.cfg l)).configure l),
    .update (by simp) fun _ _ _ => by cases l <;> rfl, fun ds n => configureOutputLine_eq (hl.redraw ds n) l⟩

/-- The level a line takes, and what the Receiver does about it, are the same under all draws (R81, R106). -/
theorem driveLine_failsOnlyByDraw (w : LineWrite) : FailsOnlyByDraw fun s => .ofExcept (driveLine w s) .ok := by
  cases w with
  | cs l => exact .update (k := fun s => s.setCs l) (fun _ => rfl) fun _ _ _ => rfl
  | dc l => exact .update (k := fun s => s.setDc l) (fun _ => rfl) fun _ _ _ => rfl
  | bl l => exact .update (k := fun s => s.setBl l) (fun _ => rfl) fun _ _ _ => rfl
  | rst l =>
    refine .of_eq fun s _ => ?_
    have same : ∀ ds n, Result.ofExcept (driveLine (.rst l) (s.redraw ds n)) .ok =
        Result.ofExcept (resetLine s.cfg s.rst.level l s.recv) fun r => .ok (((s.redraw ds n).setRst l).setRecv r) :=
      fun _ _ => Result.ofExcept_map ..
    cases hr : resetLine s.cfg s.rst.level l s.recv with
    | ok r =>
      rw [hr] at same
      exact ⟨fun s => .ok ((s.setRst l).setRecv r), .update (fun _ => rfl) fun _ _ _ => rfl, same⟩
    | error w =>
      rw [hr] at same
      exact ⟨fun _ => .stopped w, .stopped w, same⟩

/-- Whether a line is configured is not drawn (R81). -/
theorem writeLine_failsOnlyByDraw (w : LineWrite) : FailsOnlyByDraw (writeLine w) := by
  refine .of_eq fun s hl => ?_
  have configured : ∀ ds n, (s.redraw ds n).configured w.line = s.configured w.line := fun _ _ => by cases w <;> rfl
  cases hc : s.configured w.line with
  | true =>
    have driven : FailsOnlyByDraw fun s => .ofExcept (driveLine w (s.emit (.line w))) .ok :=
      FailsOnlyByDraw.bind (.update (k := fun s => s.emit (.line w)) (fun _ => rfl) fun _ _ _ => rfl)
        (driveLine_failsOnlyByDraw w)
    exact ⟨_, driven, fun ds n => writeLine_eq (hl.redraw ds n) ((configured ds n).trans hc)⟩
  | false => exact ⟨_, .stopped _, fun ds n => writeLine_unconfigured ((configured ds n).trans hc)⟩

theorem transportInit_failsOnlyByDraw : FailsOnlyByDraw transportInit := by
  intro s t hl h
  unfold transportInit at h
  split at h
  · cases h
    refine ⟨hl, fun ds n => ?_⟩
    unfold transportInit
    split
    · exact ⟨_, _, rfl⟩
    · trivial
  · cases h

/-- A frame: where the Receiver takes all its bytes it takes any part of them (R83). -/
theorem sendFrame_failsOnlyByDraw (cls : ByteClass) {bytes : List Byte} (hb : bytes ≠ []) :
    FailsOnlyByDraw (sendFrame cls bytes) := by
  intro s t hl h
  have bus := busUsable_of_sendFrame hl cls bytes (by rw [h]; nofun)
  obtain ⟨r, rfl, taken⟩ := sendFrame_returned hl hb h
  refine ⟨hl.afterBus .., fun ds n => ?_⟩
  rw [sendFrame_eq (s := s.redraw ds n) hl bus cls hb]
  split
  · have whole : takeBytes (s.redraw ds n).cfg (framePins (s.redraw ds n) cls) bytes (s.redraw ds n).recv = .ok r := taken
    rw [whole]
    exact ⟨_, _, rfl⟩
  · split
    · exact ⟨_, rfl⟩
    · obtain ⟨q, hq⟩ := takeBytes_take taken (failedCount (s.redraw ds n) bytes)
      have part : takeBytes (s.redraw ds n).cfg (framePins (s.redraw ds n) cls)
          (bytes.take (failedCount (s.redraw ds n) bytes)) (s.redraw ds n).recv = .ok q := hq
      rw [part]
      trivial

theorem sendEach_failsOnlyByDraw (bs : List Byte) : FailsOnlyByDraw (sendEach bs) := by
  induction bs with
  | nil => exact .ok
  | cons b bs ih => exact (sendFrame_failsOnlyByDraw .data (List.cons_ne_nil b [])).bind ih

/-- The framing of a group is a parameter (R93). -/
theorem sendParams_failsOnlyByDraw (ps : List Byte) : FailsOnlyByDraw (sendParams ps) := by
  refine .of_eq fun s _ => ?_
  by_cases hb : ps = []
  · subst hb
    exact ⟨.ok, .ok, fun _ _ => rfl⟩
  · cases hf : s.cfg.paramFraming with
    | perGroup => exact ⟨_, sendFrame_failsOnlyByDraw .data hb, fun _ _ => sendParams_perGroup hb hf⟩
    | perByte => exact ⟨_, sendEach_failsOnlyByDraw ps, fun _ _ => sendParams_perByte hb hf⟩

/-- A command byte is read from the parameters (R84). -/
theorem sendCommand_failsOnlyByDraw (cmd : Cmd) : FailsOnlyByDraw fun s => sendCommand (s.cfg.codes.get cmd) s :=
  .of_eq fun s _ => ⟨sendFrame .command [s.cfg.codes.get cmd], sendFrame_failsOnlyByDraw .command (List.cons_ne_nil _ []),
    fun _ _ => rfl⟩

theorem exchange_failsOnlyByDraw (cmd : Cmd) (ps : List Byte) : FailsOnlyByDraw (exchange cmd ps) :=
  (sendCommand_failsOnlyByDraw cmd).bind (sendParams_failsOnlyByDraw ps)

theorem windowSet_failsOnlyByDraw (x0 y0 x1 y1 : Half) : FailsOnlyByDraw (windowSet x0 y0 x1 y1) :=
  ((exchange_failsOnlyByDraw .columnAddressSet _).bind (exchange_failsOnlyByDraw .rowAddressSet _)).bind
    (sendCommand_failsOnlyByDraw .memoryWrite)

/-! ### The program of INIT and the body of BLIT -/

theorem microStep_failsOnlyByDraw : ∀ m, FailsOnlyByDraw (microStep m)
  | .cfg l => configureOutputLine_failsOnlyByDraw l
  | .tinit => transportInit_failsOnlyByDraw
  | .line w => writeLine_failsOnlyByDraw w
  | .delay ms => .update (k := sleepMs ms) (fun _ => rfl) fun _ _ _ => rfl
  | .command cmd => sendCommand_failsOnlyByDraw cmd
  | .exch cmd ps => exchange_failsOnlyByDraw cmd ps
  | .done => .update (k := initDone) (fun _ => rfl) fun _ _ _ => rfl

/-- Beyond the last row there is nothing to run (R140). -/
theorem runProgram_none {s : State} (f : Nat) (h : (initProgram s.cfg)[s.seqPc]? = none) :
    runProgram (f + 1) s = .ok s := by
  rw [runProgram, h]

/-- The rows are the same under all draws (R141). -/
theorem runProgram_failsOnlyByDraw (f : Nat) : FailsOnlyByDraw (runProgram f) := by
  induction f with
  | zero => exact .ok
  | succ f ih =>
    have advanced : FailsOnlyByDraw fun s => runProgram f s.advancePc := fun s t hl h => ih (s := s.advancePc) hl h
    refine .of_eq fun s _ => ?_
    cases hrow : (initProgram s.cfg)[s.seqPc]? with
    | none => exact ⟨.ok, .ok, fun _ _ => runProgram_none f hrow⟩
    | some m =>
      by_cases hm : m = .done
      · subst hm
        exact ⟨_, microStep_failsOnlyByDraw .done, fun _ _ => runProgram_done f hrow⟩
      · exact ⟨_, (microStep_failsOnlyByDraw m).bind advanced, fun _ _ => runProgram_eq_bind f hrow hm⟩

/-- The window, the burst and the end of an accepted BLIT (R162). -/
theorem blitBody_failsOnlyByDraw (r : Rect) {pb : List Byte} (hb : pb ≠ []) :
    FailsOnlyByDraw fun s => ((windowOfRect r s).bind (sendFrame .data pb)).bind fun t => .ok (finishBlit t) :=
  ((windowSet_failsOnlyByDraw _ _ _ _).bind (sendFrame_failsOnlyByDraw .data hb)).bind
    (.update (fun _ => rfl) fun _ _ _ => rfl)

end Sys2Proof.Machine
end

section
/-! The entry of the two exceptions (60_exceptions.md R184, R185). -/

namespace Sys2Proof.Machine

/-- The entry on `InvalidArgument`: the optional release, the return and the status (R185). -/
theorem takeInvalidArgument_eq (s : State) :
    takeInvalidArgument s = { s with
      status := some .invalidArgument
      trace := s.trace ++ (if s.cfg.releaseOnFailure = .always then [.release] else []) ++
        [.ret .invalidArgument] } := by
  rw [takeInvalidArgument, State.releaseOnFailure]
  split <;> simp [State.emit, State.returnStatus, State.setStatus]

/-- A BLIT whose operands are bad, called from `READY`, is rejected (R163, R185). -/
theorem exec_blit_of_invalid {r : Rect} {pb : List Byte} {s : State} (hs : s.seqState = .ready)
    (hv : blitValid s.cfg r pb.length ≠ true) : exec (.blit r pb) s = .next (takeInvalidArgument s) := by
  simp [exec, execBlit, hs, hv]

/-- Settles O47: the operands are looked at before the bus, and what rejects them is the failure of R163. -/
theorem blitInvalidArgument : Obligations.BlitInvalidArgument := by
  intro r pb s hs hbad
  have rejected : blitValid s.cfg r pb.length ≠ true := fun hv => by
    obtain ⟨⟨hx0, hx, hx1, hy0, hy, hy1⟩, hlen⟩ := blitValid_iff.1 hv
    exact hbad ⟨hx0, hx, hx1, hy0, hy, hy1, hlen⟩
  rw [exec_blit_of_invalid hs rejected, takeInvalidArgument_eq]

/-- The entry on `TransportError`: the release where the operation abandoned is a BLIT, the return and the status (R165,
R184). -/
theorem takeTransportError_eq_update (s : State) :
    takeTransportError s = { s with
      trace := s.trace ++
        (if s.seqState = .blitRunning ∧ s.cfg.releaseOnFailure = .always then [.release] else []) ++
        [.ret .transportError]
      seqState := .failed
      status := some .transportError } := by
  by_cases hblit : s.seqState = .blitRunning
  · simp [takeTransportError_of_blitRunning hblit, hblit]
  · simp [takeTransportError_eq hblit, hblit, State.returnStatus, State.emit, State.setStatus, State.setSeqState]

/-- A call that raises inside an operation in flight abandons it (R184, log 5). -/
theorem endCall_raised_inFlight {s : State} (h : s.inFlight = true) :
    endCall (.raised s) = .next ((takeTransportError s).setResult .transportError) := by
  rw [endCall, if_pos h]

/-- Settles O24: the failure raises, and the entry on `TransportError` ends the operation in flight. -/
theorem errorInsideAnOperation : Obligations.ErrorInsideAnOperation := by
  intro s hs hd
  have raises : transportInit s = .raised ((s.afterDraw.emit (.tinit false)).setTInit false) := by
    rw [transportInit, if_neg hd]
  show endCall (transportInit s) = _
  rw [raises, endCall_raised_inFlight (s := (s.afterDraw.emit _).setTInit false) hs, takeTransportError_eq_update]
  rfl

end Sys2Proof.Machine
end

section
/-! The Host's calls (60_exceptions.md R191, R195; 42_init_sequence.md R154, R155): an INIT from any state, and a BLIT from
`READY`, complete or fail, and after a completed one the controller is display-ready. -/

namespace Sys2Proof.Machine

/-! ### The ends of a call -/

/-- A call that was not refused: it completed in a state of `P`, or its failure was taken, or a transfer hung. -/
def CompletesOrFails (P : State → Prop) : Host.Outcome State Fault Refusal → Prop
  | .next t => P t ∨ ∃ u, t = takeTransportError u
  | .fault _ => True
  | .refused _ => False

/-- A body that returned under some draws: the call completes or fails under those that come. -/
theorem Result.Redraws.completesOrFails {x : Result} {t : State} {P : State → Prop} (h : x.Redraws t)
    (hP : ∀ ds n, P (t.redraw ds n)) : CompletesOrFails P (endOperation x) := by
  cases x with
  | ok u =>
    obtain ⟨ds, n, rfl⟩ := h
    exact .inl (hP ds n)
  | raised u => exact .inr ⟨u, rfl⟩
  | stopped w =>
    obtain ⟨f, rfl⟩ := h
    trivial

/-- A body whose call ended in `READY` returned (R151, R162). -/
theorem endOperation_eq_ready {x : Result} {t : State} (h : endOperation x = .next t) (hready : t.seqState = .ready) :
    x = .ok t := by
  obtain hok | ⟨u, -, rfl⟩ := endOperation_eq_next h
  · exact hok
  · cases hready

/-- The next draws can be `ok`, as many as are wanted. -/
theorem State.exists_redraw_drawsOk (s : State) (n : Nat) : ∃ ds, DrawsOk (s.redraw ds 0) n :=
  ⟨List.replicate n ⟨.ok, 0, false⟩, fun k hk => by simp [State.drawAt, State.redraw, hk]⟩

/-! ### INIT -/

/-- The bus is usable and the Receiver takes bytes, as it left INIT (R156). -/
def Initialised (c : Config) (t : State) : Prop := BusUsable t ∧ Awake t ∧ t.recv = initReceiver c

theorem Initialised.redraw {c : Config} {t : State} (h : Initialised c t) (ds : List PlatformDraw) (n : Nat) :
    Initialised c (t.redraw ds n) := h

theorem initialised_initDone (c : Config) (s : State) (csl : Option CsLevel) (dcl : Option ByteClass) (es : List Event)
    (n : Nat) : Initialised c (initDone (inInit s 33 csl dcl es n (initReceiver c))) :=
  ⟨⟨rfl, rfl, rfl⟩, ⟨rfl, rfl, rfl⟩, rfl⟩

/-- The program, where INIT ended in `READY` under other draws (R141). -/
theorem redraws_of_init_ready {s t : State} {ds : List PlatformDraw} {n : Nat} (hl : LinesReliable s)
    (ht : exec .init (s.redraw ds n) = .next t) (hready : t.seqState = .ready) :
    (runProgram 34 (enterInit s)).Redraws t := by
  obtain ⟨-, program⟩ := exec_init_eq_next ht
  have returned := endOperation_eq_ready program hready
  obtain ⟨-, redraws⟩ := runProgram_failsOnlyByDraw 34 (s := enterInit (s.redraw ds n)) hl returned
  exact redraws s.draws s.drawCount

/-- INIT from any state no operation is in flight in (R154, R155): it is the INIT in which every call succeeds, but for the
draws. -/
theorem exec_init_completesOrFails {s : State} (hs : s.inFlight = false) (hl : LinesReliable s) (hc : s.cfg.Wf) :
    CompletesOrFails (Initialised s.cfg) (exec .init s) := by
  obtain ⟨ds, draws⟩ := s.exists_redraw_drawsOk (initDraws s.cfg)
  obtain ⟨es, run⟩ := exec_init_ok (s := s.redraw ds 0) hs hl hc draws
  rw [exec, execInit, hs, if_neg nofun]
  exact (redraws_of_init_ready hl run rfl).completesOrFails (initialised_initDone ..).redraw

/-- An INIT that ended in `READY` left the Receiver as R156 says (R154, R191). -/
theorem recv_of_init_ready {s t : State} (hl : LinesReliable s) (hc : s.cfg.Wf) (ht : exec .init s = .next t)
    (hready : t.seqState = .ready) : t.recv = initReceiver s.cfg := by
  obtain ⟨hs, -⟩ := exec_init_eq_next ht
  have ends := exec_init_completesOrFails hs hl hc
  rw [ht] at ends
  obtain ⟨-, -, recv⟩ | ⟨u, rfl⟩ := ends
  · exact recv
  · cases hready

/-- The Receiver a completed INIT leaves is display-ready (R29, R156). -/
theorem initReceiver_controllerReady (c : Config) : (initReceiver c).controllerReady = true := rfl

/-- Settles O43: the Receiver of a completed INIT is a function of the parameters. -/
theorem initFromAnywhere : Obligations.InitFromAnywhere := by
  intro s t s' t' hcfg hc hl ht hready ht' hready'
  have first := recv_of_init_ready hl hc ht hready
  have second := recv_of_init_ready (hl.of_cfg hcfg.symm) (hcfg ▸ hc) ht' hready'
  rw [first, second, hcfg]
  exact ⟨rfl, initReceiver_controllerReady _⟩

/-! ### BLIT -/

/-- What a BLIT needs and leaves (R29, R162): the bus usable, the Receiver taking bytes, the controller display-ready. -/
def HostReady (t : State) : Prop := BusUsable t ∧ Awake t ∧ t.recv.controllerReady = true

/-- The body of an accepted BLIT, where the BLIT ended in `READY` under other draws (R162). -/
theorem redraws_of_blit_ready {r : Rect} {pb : List Byte} {s t : State} {ds : List PlatformDraw} {n : Nat}
    (hs : s.seqState = .ready) (hl : LinesReliable s) (hv : blitValid s.cfg r pb.length = true)
    (ht : exec (.blit r pb) (s.redraw ds n) = .next t) (hready : t.seqState = .ready) :
    (runBlit r pb s).Redraws t := by
  rw [exec_blit_of_valid (s := s.redraw ds n) hs hv] at ht
  have returned := endOperation_eq_ready ht hready
  rw [runBlit_eq (s := s.redraw ds n) hv] at returned
  obtain ⟨-, redraws⟩ :=
    blitBody_failsOnlyByDraw r (ne_nil_of_blitValid hv) (s := enterBlit r pb.length (s.redraw ds n)) hl returned
  rw [runBlit_eq hv]
  exact redraws s.draws s.drawCount

/-- A BLIT with good operands (R162, R168): it is the BLIT whose transfers all succeed, but for the draws. -/
theorem exec_blit_completesOrFails {r : Rect} {pb : List Byte} {s : State} (hs : s.seqState = .ready)
    (hl : LinesReliable s) (hc : s.cfg.Wf) (hready : HostReady s) (hv : blitValid s.cfg r pb.length = true) :
    CompletesOrFails HostReady (exec (.blit r pb) s) := by
  obtain ⟨x0, y0, w, h, rfl, f⟩ := exists_fits_of_blitValid hv
  obtain ⟨bus, awake, controller⟩ := hready
  obtain ⟨ds, draws⟩ := s.exists_redraw_drawsOk (windowFrames s.cfg + 1)
  obtain ⟨cls, es, run⟩ := Fits.exec_blit_ok (s := s.redraw ds 0) f hs ⟨hl, bus, awake, hc, draws⟩
  obtain ⟨reset, -, -, -, busy, -⟩ := armed_power s.cfg x0 y0 w h s.recv
  obtain ⟨hrst, hdone, hbusy⟩ := awake
  rw [exec_blit_of_valid hs hv]
  exact (redraws_of_blit_ready hs hl hv run rfl).completesOrFails fun _ _ =>
    ⟨bus, ⟨hrst, reset.trans hdone, busy.trans hbusy⟩, armed_controllerReady controller⟩

/-! ### The invariant between Host calls -/

theorem State.HostInv.hostReady {s : State} (h : s.HostInv) (hs : s.seqState = .ready) : HostReady s :=
  ⟨(h.bus hs).1, (h.bus hs).2, h.ready hs⟩

theorem State.Inv.hostInv {s : State} (h : s.Inv) (hready : s.seqState = .ready → HostReady s) : s.HostInv :=
  ⟨h, fun hs => ⟨(hready hs).1, (hready hs).2.1⟩, fun hs => (hready hs).2.2⟩

/-- A failure that was taken owes the Host nothing but `FAILED`. -/
theorem CompletesOrFails.hostReady {t : State} (h : CompletesOrFails HostReady (.next t)) (hs : t.seqState = .ready) :
    HostReady t := by
  obtain ready | ⟨u, rfl⟩ := h
  · exact ready
  · cases hs

theorem CompletesOrFails.mono {P Q : State → Prop} (hPQ : ∀ t, P t → Q t)
    {x : Host.Outcome State Fault Refusal} (h : CompletesOrFails P x) : CompletesOrFails Q x := by
  cases x with
  | next t => exact h.imp_left (hPQ t)
  | fault f => trivial
  | refused r => exact h

/-- Each call of the Host from a state with the invariant completes ready for the next one, or fails (R155, R173, R195). -/
theorem exec_host_completesOrFails {i : Instr} {s : State} (h : s.HostInv) (hi : isHostOp i = true)
    (hl : LinesReliable s) (hcall : s.seqState = .ready ∨ i = .init) : CompletesOrFails HostReady (exec i s) := by
  cases i with
  | init =>
    exact (exec_init_completesOrFails h.inv.idle hl h.inv.cfg).mono fun t ⟨bus, awake, recv⟩ =>
      ⟨bus, awake, recv ▸ initReceiver_controllerReady _⟩
  | blit r pb =>
    have hs : s.seqState = .ready := hcall.resolve_right nofun
    have ready := h.hostReady hs
    by_cases hv : blitValid s.cfg r pb.length = true
    · exact exec_blit_completesOrFails hs hl h.inv.cfg ready hv
    · rw [exec_blit_of_invalid hs hv, takeInvalidArgument_eq]
      exact .inl ready
  | _ => cases hi

/-- Settles O56: the call is not refused, no step faults, and the end is ready where it says so. -/
theorem hostCallsNeverRefused : Obligations.HostCallsNeverRefused := by
  intro i s h hi hl hhang hcall
  have ends := exec_host_completesOrFails h hi hl hcall
  have noFault := exec_ne_fault (s := s) ⟨rfl, h.inv.recv⟩ hhang i
  cases ht : exec i s with
  | next t =>
    rw [ht] at ends
    exact ⟨t, rfl, (h.inv.exec ht).hostInv ends.hostReady⟩
  | fault f => exact absurd ht (noFault f)
  | refused r =>
    rw [ht] at ends
    exact ends.elim

end Sys2Proof.Machine
end

section
/-! Who gets a condition (60_exceptions.md R180, R184, R185, R193): the Host, once, at the end of its own operation; the
caller, of a Platform or Bus Framer call (log 5). -/

namespace Sys2Proof.Machine

/-! ### Before its end an operation returns nothing -/

/-- Nothing has been returned to the Host since `s`, and no result handed to another caller. -/
structure SaysNothing (s t : State) : Prop where
  trace : ∃ es, t.trace = s.trace ++ es ∧ ∀ st, .ret st ∉ es
  callResult : t.callResult = s.callResult

theorem SaysNothing.refl (s : State) : SaysNothing s s := ⟨⟨[], by simp, by simp⟩, rfl⟩

theorem SaysNothing.trans {s t u : State} (h : SaysNothing s t) (h' : SaysNothing t u) : SaysNothing s u := by
  obtain ⟨⟨es, trace, silent⟩, result⟩ := h
  obtain ⟨⟨es', trace', silent'⟩, result'⟩ := h'
  refine ⟨⟨es ++ es', by rw [trace', trace, List.append_assoc], fun st hmem => ?_⟩, result'.trans result⟩
  exact (List.mem_append.1 hmem).elim (silent st) (silent' st)

theorem Move.callResult {s t : State} (h : Move s t) : t.callResult = s.callResult := by
  cases h with
  | configure l => exact State.configure_callResult s l
  | _ => rfl

/-- The Platform's moves emit events of the bus only (R18). -/
theorem Moves.saysNothing {s t : State} (h : Moves s t) : SaysNothing s t := by
  obtain ⟨es, trace, bus⟩ := h.trace
  exact ⟨⟨es, trace, fun st hmem => nomatch bus _ hmem⟩,
    h.keeps (fun _ _ hm hu => hm.callResult.trans hu) (P := fun u => u.callResult = s.callResult) rfl⟩

/-- The release gives the buffer back and returns no status (R165). -/
theorem SaysNothing.emitRelease (s : State) : SaysNothing s (s.emit .release) := ⟨⟨[.release], rfl, by simp⟩, rfl⟩

theorem SaysNothing.releaseOnFailure (s : State) : SaysNothing s s.releaseOnFailure := by
  unfold State.releaseOnFailure
  split
  · exact .emitRelease s
  · exact .refl s

/-! ### The one return -/

/-- The Host has got the status `st`, exactly once since `s` and at the end, and `STATUS` holds it (R14, R193). -/
structure ReturnsOnce (s t : State) (st : Status) : Prop where
  trace : ∃ es, t.trace = s.trace ++ es ++ [.ret st] ∧ ∀ st', .ret st' ∉ es
  status : t.status = some st
  callResult : t.callResult = s.callResult

/-- The one place where a status is returned and written (R14). -/
theorem SaysNothing.returnStatus {s u : State} (h : SaysNothing s u) (st : Status) :
    ReturnsOnce s (u.returnStatus st) st := by
  obtain ⟨⟨es, trace, silent⟩, result⟩ := h
  exact ⟨⟨es, congrArg (· ++ [Event.ret st]) trace, silent⟩, rfl, result⟩

theorem ReturnsOnce.setSeqState {s t : State} {st : Status} (h : ReturnsOnce s t st) (q : SeqState) :
    ReturnsOnce s (t.setSeqState q) st :=
  ⟨h.trace, h.status, h.callResult⟩

theorem SaysNothing.initDone {s u : State} (h : SaysNothing s u) : ReturnsOnce s (initDone u) .ok :=
  (h.returnStatus .ok).setSeqState .ready

theorem SaysNothing.finishBlit {s u : State} (h : SaysNothing s u) : ReturnsOnce s (finishBlit u) .ok := by
  have latched : SaysNothing s (u.setBidx u.blen) := ⟨h.trace, h.callResult⟩
  exact ((latched.trans (.emitRelease _)).returnStatus .ok).setSeqState .ready

theorem SaysNothing.takeTransportError {s u : State} (h : SaysNothing s u) :
    ReturnsOnce s (takeTransportError u) .transportError := by
  have released : SaysNothing s (if u.seqState = .blitRunning then u.releaseOnFailure else u) := by
    split
    · exact h.trans (.releaseOnFailure u)
    · exact h
  exact (released.returnStatus .transportError).setSeqState .failed

theorem SaysNothing.takeInvalidArgument {s u : State} (h : SaysNothing s u) :
    ReturnsOnce s (takeInvalidArgument u) .invalidArgument :=
  (h.trans (.releaseOnFailure u)).returnStatus .invalidArgument

/-! ### The Host's operations -/

/-- How the body of INIT or BLIT called in `s` ends: it returned through `last`, the step that returns OK, or it raised; up
to there nothing has been returned. -/
def Result.EndsThrough (last : State → State) (s : State) : Result → Prop
  | .ok t => ∃ u, SaysNothing s u ∧ t = last u
  | .raised t => SaysNothing s t
  | .stopped _ => True

/-- The program returns through its terminal row (R151, R152). -/
theorem runProgram_endsThrough {s : State} (f : Nat) {u : State} (hu : SaysNothing s u) (hpc : u.seqPc ≤ 33)
    (hf : 33 < u.seqPc + f) : (runProgram f u).EndsThrough initDone s := by
  induction f generalizing u with
  | zero => omega
  | succ f ih =>
    obtain ⟨-, heq⟩ | ⟨hlt, m, hm, heq⟩ := runProgram_succ f hpc
    · rw [heq]
      exact ⟨u, hu, rfl⟩
    · have row := microStep_moves hm u
      rw [heq]
      cases hx : microStep m u with
      | stopped w => trivial
      | raised t =>
        rw [hx] at row
        exact hu.trans row.saysNothing
      | ok t =>
        rw [hx] at row
        have next := hu.trans row.saysNothing
        have advanced : t.advancePc.seqPc = u.seqPc + 1 := congrArg (· + 1) row.keepsSequencer.seqPc
        exact ih (u := t.advancePc) ⟨next.trace, next.callResult⟩ (by omega) (by omega)

/-- The body of an accepted BLIT returns through its end (R162, R165). -/
theorem runBlit_endsThrough (r : Rect) (pb : List Byte) (s : State) :
    (runBlit r pb s).EndsThrough finishBlit s := by
  have body := (windowSetLatched_moves (enterBlit r pb.length s)).bindMoves (dataBurst_moves pb)
  have silent : ∀ u, Moves (enterBlit r pb.length s) u → SaysNothing s u := fun u hu =>
    ⟨hu.saysNothing.trace, hu.saysNothing.callResult⟩
  unfold runBlit
  cases hx : (windowSetLatched (enterBlit r pb.length s)).bind (dataBurst pb) with
  | stopped w => trivial
  | raised t =>
    rw [hx] at body
    exact silent t body
  | ok t =>
    rw [hx] at body
    exact ⟨t, silent t body, rfl⟩

/-- What a call of the Host that ends in a next state returns: OK and `READY`, or `TRANSPORT_ERROR` and `FAILED`. -/
def ReturnsOkOrError (s t : State) : Prop :=
  ∃ st, ReturnsOnce s t st ∧ (st = .ok ∧ t.seqState = .ready ∨ st = .transportError ∧ t.seqState = .failed)

theorem Result.EndsThrough.returns {last : State → State} {s t : State} {x : Result} (h : x.EndsThrough last s)
    (hlast : ∀ u, SaysNothing s u → ReturnsOnce s (last u) .ok ∧ (last u).seqState = .ready)
    (ht : endOperation x = .next t) : ReturnsOkOrError s t := by
  obtain rfl | ⟨u, rfl, rfl⟩ := endOperation_eq_next ht
  · obtain ⟨u, hu, rfl⟩ := h
    obtain ⟨once, ready⟩ := hlast u hu
    exact ⟨_, once, .inl ⟨rfl, ready⟩⟩
  · exact ⟨_, SaysNothing.takeTransportError h, .inr ⟨rfl, rfl⟩⟩

theorem exec_init_returns {s t : State} (ht : exec .init s = .next t) : ReturnsOkOrError s t := by
  obtain ⟨-, hrun⟩ := exec_init_eq_next ht
  have entered : SaysNothing s (enterInit s) := ⟨(SaysNothing.refl s).trace, rfl⟩
  exact (runProgram_endsThrough 34 entered (Nat.zero_le 33) (by simp [enterInit])).returns
    (fun _ hu => ⟨hu.initDone, rfl⟩) hrun

theorem exec_blit_returns {r : Rect} {pb : List Byte} {s t : State} (ht : exec (.blit r pb) s = .next t) :
    ReturnsOkOrError s t ∨ ReturnsOnce s t .invalidArgument ∧ t.seqState = s.seqState := by
  obtain ⟨-, ⟨-, hrun⟩ | ⟨-, rfl⟩⟩ := exec_blit_eq_next ht
  · exact .inl ((runBlit_endsThrough r pb s).returns (fun _ hu => ⟨hu.finishBlit, rfl⟩) hrun)
  · exact .inr ⟨(SaysNothing.refl s).takeInvalidArgument, takeInvalidArgument_seqState s⟩

/-! ### The other operations -/

/-- A call by itself answered its caller: it raised nothing, or it raised `TransportError`, which also ends an operation in
flight (R84, R184, log 5). -/
inductive Answers (s : State) : State → Prop where
  | result {u : State} (h : Moves s u) {x : CallResult} (hx : x ≠ .transportError) : Answers s (u.setResult x)
  | error {u : State} (h : Moves s u) :
    Answers s ((if u.inFlight then takeTransportError u else u).setResult .transportError)

theorem answers_of_endCall {x : Result} {s t : State} (hx : x.All (Moves s)) (ht : endCall x = .next t) :
    Answers s t := by
  obtain ⟨u, rfl, rfl⟩ | ⟨u, rfl, rfl⟩ := endCall_eq_next ht
  · exact .result hx nofun
  · exact .error hx

/-- `transport_write` raises nothing: its failure is a result (R83). -/
theorem answers_of_transportWrite {bytes : List Byte} {s t : State} (ht : exec (.transportWrite bytes) s = .next t) :
    Answers s t := by
  have moves := transportWrite_moves bytes s
  simp only [exec, execTransportWrite] at ht
  cases hw : transportWrite bytes s with
  | ok u =>
    rw [hw] at ht moves
    cases ht
    exact .result moves nofun
  | raised u =>
    rw [hw] at ht moves
    cases ht
    exact .result moves nofun
  | stopped w =>
    rw [hw] at ht
    cases w <;> cases ht

/-- Every operation but the Host's two answers its caller (R195, log 5). -/
theorem exec_answers {i : Instr} {s t : State} (hi : isHostOp i = false) (ht : exec i s = .next t) : Answers s t := by
  cases instrForm i with
  | wire cmd ps =>
    rw [exec_instrOfCmd] at ht
    exact answers_of_endCall (exchange_moves cmd _ s) ht
  | pixelData b => exact answers_of_endCall (sendFrame_moves _ _ s) ht
  | unknownCommand b => exact answers_of_endCall (sendFrame_moves _ _ s) ht
  | configureOutputLine l => exact answers_of_endCall (configureOutputLine_moves l s) ht
  | writeLine w => exact answers_of_endCall (writeLine_moves w s) ht
  | transportInit => exact answers_of_endCall (transportInit_moves s) ht
  | transportWrite bytes => exact answers_of_transportWrite ht
  | sendCommand b => exact answers_of_endCall (sendFrame_moves _ _ s) ht
  | sendData b => exact answers_of_endCall (sendFrame_moves _ _ s) ht
  | sendDataBlock bytes n => exact answers_of_endCall (sendDataBlock_moves bytes n s) ht
  | sleepMs n => exact answers_of_endCall (x := .ok (sleepMs n s)) (sleepMs_moves n s) ht
  | sendParams ps => exact answers_of_endCall (sendParams_moves ps s) ht
  | windowSet x0 y0 x1 y1 => exact answers_of_endCall (windowSet_moves x0 y0 x1 y1 s) ht
  | init => cases hi
  | blit r pb => cases hi

/-- What the Host's operations return, and the state they leave the Sequencer in (R151, R153, R168, R185). -/
theorem exec_host_returns {i : Instr} {s t : State} (hi : isHostOp i = true) (ht : exec i s = .next t) :
    ∃ st, ReturnsOnce s t st ∧
      (st = .ok ∧ t.seqState = .ready ∨ st = .transportError ∧ t.seqState = .failed ∨
        st = .invalidArgument ∧ t.seqState = s.seqState ∧ i ≠ .init) := by
  cases i with
  | init =>
    obtain ⟨st, once, ends⟩ := exec_init_returns ht
    exact ⟨st, once, ends.imp_right .inl⟩
  | blit r pb =>
    obtain ⟨st, once, ends⟩ | ⟨once, same⟩ := exec_blit_returns ht
    · exact ⟨st, once, ends.imp_right .inl⟩
    · exact ⟨_, once, .inr (.inr ⟨rfl, same, nofun⟩)⟩
  | _ => cases hi

/-- Settles O59: the Host's operations return once, at their end; another operation answers its caller, and only its error
inside an operation in flight is returned to the Host. -/
theorem conditionsGoToTheCaller : Obligations.ConditionsGoToTheCaller := by
  refine ⟨fun i s t hi ht => ?host, fun i s t hi ht => ?other⟩
  case host =>
    obtain ⟨st, ⟨⟨es, trace, silent⟩, status, result⟩, ends⟩ := exec_host_returns hi ht
    exact ⟨es, st, trace, silent, status, result, ends⟩
  case other =>
    cases exec_answers hi ht with
    | result hm hx =>
      obtain ⟨es, trace, silent⟩ := hm.saysNothing.trace
      have kept := hm.keepsSequencer
      exact ⟨nofun, fun h => absurd (Option.some.inj h) hx, fun _ => ⟨es, trace, silent, kept.status, kept.seqState⟩⟩
    | @error u hm =>
      have kept := hm.keepsSequencer
      have same : u.inFlight = s.inFlight := by rw [State.inFlight, kept.seqState, State.inFlight]
      cases hs : s.inFlight with
      | true =>
        rw [if_pos (same.trans hs)]
        obtain ⟨⟨es, trace, silent⟩, status, -⟩ := hm.saysNothing.takeTransportError
        exact ⟨nofun, fun _ _ => ⟨es, trace, silent, status, rfl⟩, fun h => h.elim (absurd rfl) nofun⟩
      | false =>
        rw [if_neg (by simp [same, hs])]
        obtain ⟨es, trace, silent⟩ := hm.saysNothing.trace
        exact ⟨nofun, fun _ => nofun, fun _ => ⟨es, trace, silent, kept.status, kept.seqState⟩⟩

end Sys2Proof.Machine
end

section
/-! What makes the order valid (10_state.md R26, 41_wire_commands.md R106, R108, 70_reset_and_hazards.md R211): no byte and no
time, only a reset pulse of full length, by itself or inside an INIT. -/

namespace Sys2Proof.Machine

/-! ### The Receiver -/

/-- An unfinished group costs the order its validity and gives it none (R104). -/
theorem endGroup_keepsInvalid (c : Config) {r : Receiver} (hr : r.cInitValid = false) :
    (endGroup c r).cInitValid = false := by
  by_cases hg : GroupOpen c r
  · rw [endGroup_cInitValid_of_open hg, hr, Bool.false_and]
  · rwa [endGroup_of_closed hg]

theorem trackerStart_keepsInvalid {cmd : Cmd} {r r' : Receiver} (hr : r.cInitValid = false)
    (h : trackerStart cmd r = .ok r') : r'.cInitValid = false := by
  obtain rfl | rfl := trackerStart_cases h
  · exact hr
  · rfl

@[simp] theorem trackerDone_cInitValid (cmd : Cmd) (r : Receiver) :
    (trackerDone cmd r).cInitValid = r.cInitValid := by
  obtain h | ⟨-, h⟩ := trackerDone_cases cmd r <;> rw [h]

/-- SOFTWARE_RESET is no hardware reset: it restarts the order only where it is valid (R110). -/
theorem softwareResetEffect_keepsInvalid (c : Config) {r : Receiver} (hr : r.cInitValid = false) :
    (softwareResetEffect c r).cInitValid = false := by
  unfold softwareResetEffect
  split
  · exact hr
  · rfl

theorem memoryWriteEffect_cInitValid {c : Config} {r r' : Receiver} (h : memoryWriteEffect c r = .ok r') :
    r'.cInitValid = r.cInitValid := by
  unfold memoryWriteEffect at h
  split at h
  · split at h
    · cases h
      rfl
    · cases h
  · cases h

theorem commandEffect_keepsInvalid {c : Config} {cmd : Cmd} {r r' : Receiver} (hr : r.cInitValid = false)
    (h : commandEffect c cmd r = .ok r') : r'.cInitValid = false := by
  cases cmd with
  | softwareReset =>
    cases h
    exact softwareResetEffect_keepsInvalid c hr
  | memoryWrite => exact (memoryWriteEffect_cInitValid h).trans hr
  | _ =>
    cases h
    exact hr

/-- No command byte makes the order valid (R101, R108). -/
theorem runCommand_keepsInvalid {c : Config} {cmd : Cmd} {r r' : Receiver} (hr : r.cInitValid = false)
    (h : runCommand c cmd r = .ok r') : r'.cInitValid = false := by
  unfold runCommand at h
  split at h
  · cases h
  · rename_i r1 start
    have begun := trackerStart_keepsInvalid (r := beginCommand cmd (endGroup c r)) (endGroup_keepsInvalid c hr) start
    split at h
    · cases h
    · rename_i r2 effect
      have done := commandEffect_keepsInvalid begun effect
      cases h
      split
      · rwa [trackerDone_cInitValid]
      · exact done

theorem takePixel_cInitValid {c : Config} {b : Byte} {r r' : Receiver} (h : takePixel c b r = .ok r') :
    r'.cInitValid = r.cInitValid := by
  unfold takePixel at h
  split at h
  · cases h
  · split at h
    · cases h
      rfl
    · split at h
      · split at h
        · cases h
          unfold storePixel
          split
          · rfl
          · split <;> rfl
        · cases h
      · cases h

theorem takeParam_cInitValid {c : Config} {cmd : Cmd} {b : Byte} {r r' : Receiver} (h : takeParam c cmd b r = .ok r') :
    r'.cInitValid = r.cInitValid := by
  unfold takeParam at h
  split at h
  · cases h
  · split at h
    · cases h
    · cases h
      split
      · obtain ⟨-, valid, -⟩ := commitEffect_keeps cmd (pushParam b r)
        exact (trackerDone_cInitValid _ _).trans valid
      · rfl

theorem takeData_cInitValid {c : Config} {b : Byte} {r r' : Receiver} (h : takeData c b r = .ok r') :
    r'.cInitValid = r.cInitValid := by
  unfold takeData at h
  split at h
  · cases h
  · split at h
    · exact takePixel_cInitValid h
    · exact takeParam_cInitValid h

theorem takeByte_keepsInvalid {c : Config} {p : Pins} {b : Byte} {r r' : Receiver} (hr : r.cInitValid = false)
    (h : takeByte c p b r = .ok r') : r'.cInitValid = false := by
  obtain ⟨-, -, -, -, ⟨-, command⟩ | ⟨-, data⟩⟩ := takeByte_cases h
  · unfold takeCommand at command
    split at command
    · cases command
    · exact runCommand_keepsInvalid hr command
  · exact (takeData_cInitValid data).trans hr

/-- No run of bytes makes the order valid, whatever their class (R26, R211). -/
theorem takeBytes_keepsInvalid {c : Config} {p : Pins} {bs : List Byte} {r r' : Receiver} (hr : r.cInitValid = false)
    (h : takeBytes c p bs r = .ok r') : r'.cInitValid = false := by
  induction bs generalizing r with
  | nil =>
    cases h
    exact hr
  | cons b bs ih =>
    rw [takeBytes_cons] at h
    cases hb : takeByte c p b r with
    | error e =>
      rw [hb] at h
      cases h
    | ok r1 =>
      rw [hb] at h
      exact ih (takeByte_keepsInvalid hr hb) h

/-! ### The operations on the bus -/

/-- `C_INIT_VALID` does not hold (R26). -/
def OrderInvalid (s : State) : Prop := s.recv.cInitValid = false

section
variable {s : State} (hs : OrderInvalid s)
include hs

theorem OrderInvalid.ne_true : s.recv.cInitValid ≠ true := ne_true_of_eq_false hs

theorem OrderInvalid.of_recv {t : State} (h : t.recv = s.recv) : OrderInvalid t :=
  (congrArg Receiver.cInitValid h).trans hs

theorem OrderInvalid.transportWrite (bytes : List Byte) : (transportWrite bytes s).All OrderInvalid := by
  cases hw : Machine.transportWrite bytes s with
  | ok t =>
    obtain ⟨r, taken, rfl⟩ := transportWrite_eq_ok hw
    exact takeBytes_keepsInvalid hs taken
  | raised t =>
    obtain ⟨k, r, taken, rfl⟩ := transportWrite_eq_raised hw
    exact takeBytes_keepsInvalid hs taken
  | stopped w => trivial

theorem OrderInvalid.sendFrame (cls : ByteClass) (bytes : List Byte) : (sendFrame cls bytes s).All OrderInvalid :=
  (takeBytes_of_sendFrame cls bytes s).mono fun _ ⟨_, taken⟩ => takeBytes_keepsInvalid hs taken

theorem OrderInvalid.sendDataBlock (bytes : List Byte) (n : Nat) : (sendDataBlock bytes n s).All OrderInvalid := by
  unfold Machine.sendDataBlock
  split
  · trivial
  · exact hs.sendFrame .data _

theorem OrderInvalid.sendParams (ps : List Byte) : (sendParams ps s).All OrderInvalid :=
  sendParams_all (fun bytes _ hu => hu.sendFrame .data bytes) ps hs

theorem OrderInvalid.exchange (cmd : Cmd) (ps : List Byte) : (exchange cmd ps s).All OrderInvalid :=
  (hs.sendFrame .command _).bind fun _ hu => hu.sendParams ps

theorem OrderInvalid.windowSet (x0 y0 x1 y1 : Half) : (windowSet x0 y0 x1 y1 s).All OrderInvalid :=
  ((hs.exchange .columnAddressSet _).bind fun _ hu => hu.exchange .rowAddressSet _).bind
    fun _ hu => hu.sendFrame .command _

/-- The body of an accepted BLIT is frames (R162). -/
theorem OrderInvalid.runBlit {r : Rect} {pb : List Byte} (hv : blitValid s.cfg r pb.length = true) :
    (runBlit r pb s).All OrderInvalid := by
  have entered : OrderInvalid (enterBlit r pb.length s) := hs
  rw [runBlit_eq hv]
  exact ((entered.windowSet _ _ _ _).bind fun _ hu => hu.sendFrame .data pb).bind fun _ hu => hu

end

/-! ### The operations -/

/-- An operation that contains no edge of the reset line leaves an invalid order invalid, whatever the lines do. -/
theorem OrderInvalid.exec {i : Instr} {s t : State} (hs : OrderInvalid s) (hinit : i ≠ .init)
    (hrst : ∀ l, i ≠ .writeLine (.rst l)) (ht : exec i s = .next t) : OrderInvalid t := by
  have call : ∀ {x : Result}, x.All OrderInvalid → endCall x = .next t → OrderInvalid t := fun hx he =>
    endCall_recv (P := fun r => r.cInitValid = false) hx he
  have still : ∀ {x : Result}, (x.All fun u => u.recv = s.recv) → endCall x = .next t → OrderInvalid t := fun hx he =>
    call (hx.mono fun _ => hs.of_recv) he
  cases instrForm i with
  | wire cmd ps =>
    rw [exec_instrOfCmd] at ht
    exact call (hs.exchange cmd _) ht
  | pixelData b => exact call (hs.sendFrame .data _) ht
  | unknownCommand b => exact call (hs.sendFrame .command _) ht
  | configureOutputLine l => exact still (configureOutputLine_recv l s) ht
  | writeLine w =>
    have other : w.line ≠ .rst := by
      cases w with
      | rst l => exact absurd rfl (hrst l)
      | _ l => simp [LineWrite.line]
    exact still (writeLine_recv other s) ht
  | transportInit => exact still (transportInit_recv s) ht
  | transportWrite bytes =>
    obtain ⟨u, _, hu, rfl⟩ := exec_transportWrite_eq_next (hs.transportWrite bytes) ht
    exact hu
  | sendCommand b => exact call (hs.sendFrame .command _) ht
  | sendData b => exact call (hs.sendFrame .data _) ht
  | sendDataBlock bytes n => exact call (hs.sendDataBlock bytes n) ht
  | sleepMs n => exact call (x := .ok (sleepMs n s)) hs ht
  | sendParams ps => exact call (hs.sendParams ps) ht
  | windowSet x0 y0 x1 y1 => exact call (hs.windowSet x0 y0 x1 y1) ht
  | init => exact absurd rfl hinit
  | blit r pb =>
    obtain ⟨-, ⟨hv, run⟩ | ⟨-, rfl⟩⟩ := exec_blit_eq_next ht
    · have body := hs.runBlit hv
      obtain hx | ⟨u, hx, rfl⟩ := endOperation_eq_next run
      · rwa [hx] at body
      · rw [hx] at body
        exact body.of_recv (takeTransportError_recv u)
    · rw [takeInvalidArgument_eq]
      exact hs

/-- What a next state after a write of the reset line is, where no line call can fail (R81, R106). -/
theorem exec_writeLine_rst_eq_next {l : RstLevel} {s t : State} (hl : LinesReliable s)
    (ht : exec (.writeLine (.rst l)) s = .next t) :
    ∃ r, resetLine s.cfg s.rst.level l s.recv = .ok r ∧
      t = (((s.emit (.line (.rst l))).setRst l).setRecv r).setResult .ok := by
  replace ht : endCall (writeLine (.rst l) s) = .next t := ht
  cases hc : s.rst.configured with
  | false =>
    rw [writeLine_unconfigured (w := .rst l) hc] at ht
    cases ht
  | true =>
    rw [writeLine_rst hl hc] at ht
    cases hr : resetLine s.cfg s.rst.level l s.recv with
    | ok r =>
      rw [hr] at ht
      cases ht
      exact ⟨r, rfl, rfl⟩
    | error w =>
      rw [hr] at ht
      cases w <;> cases ht

/-- A write of the reset line that makes the order valid is the rising edge of a pulse of full length (R106, R211). -/
theorem pulse_of_writeLine_rst {l : RstLevel} {s t : State} (hl : LinesReliable s) (hs : OrderInvalid s)
    (ht : exec (.writeLine (.rst l)) s = .next t) (hv : t.recv.cInitValid = true) :
    l = .high ∧ s.rst.level = some .low ∧ s.cfg.tRstLow ≤ s.recv.cRstLowMs ∧
      t.trace = s.trace ++ [.line (.rst .high)] := by
  obtain ⟨r, edge, rfl⟩ := exec_writeLine_rst_eq_next hl ht
  obtain ⟨-, rfl⟩ | ⟨rfl, low, long, -⟩ | ⟨-, -, rfl⟩ := resetLine_cases edge
  · exact absurd hv hs.ne_true
  · exact ⟨rfl, low, long, rfl⟩
  · exact absurd hv hs.ne_true

/-! ### INIT -/

/-- The events of a complete reset pulse (R143). -/
def resetPulse (c : Config) : List Event := [.line (.rst .low), .delay c.tRstLow, .line (.rst .high)]

/-- The pulse is in rows 5 to 7 (R141). -/
theorem resetPulse_in_eventsBefore (c : Config) {pc : Nat} (h : 10 ≤ pc) : resetPulse c <:+: eventsBefore c pc := by
  obtain ⟨n, rfl⟩ := Nat.exists_eq_add_of_le h
  have reset : resetPulse c <:+: eventsBefore c 10 :=
    ⟨[.cfg .cs, .cfg .dc, .cfg .rst, .cfg .bl, .tinit true], [.delay c.tRstSettle, .line (.bl .on)], rfl⟩
  have rows : eventsBefore c (10 + n) =
      eventsBefore c 10 ++ (((initProgram c).drop 10).take n).flatMap (microEvents c) := by
    simp [eventsBefore, List.take_add]
  rw [rows]
  exact reset.trans ⟨[], _, rfl⟩

/-- An INIT that makes the order valid has sent a complete reset pulse, and may have failed after it (R143, R153). -/
theorem pulse_of_init {s t : State} (hl : LinesReliable s) (hs : OrderInvalid s) (ht : exec .init s = .next t)
    (hv : t.recv.cInitValid = true) : ∃ es, t.trace = s.trace ++ es ∧ resetPulse s.cfg <:+: es := by
  obtain ⟨-, ⟨-, -, -, -, completed⟩ | ⟨-, -, -, -, failed⟩⟩ := initOutcome.2 s t ht
  · refine ⟨_, completed hl, ?_⟩
    rw [flatMap_microEvents_initProgram]
    exact (resetPulse_in_eventsBefore s.cfg (pc := 33) (by omega)).trans ⟨[], _, rfl⟩
  · obtain ⟨⟨m, es, -, -, trace⟩, ⟨-, -, recv, -⟩ | ⟨row, -⟩⟩ := failed hl
    · exact absurd hv (hs.of_recv recv).ne_true
    · refine ⟨eventsBefore s.cfg t.seqPc ++ (es ++ [.ret .transportError]), by simp [trace, eventsBefore], ?_⟩
      exact (resetPulse_in_eventsBefore s.cfg row).trans ⟨[], _, rfl⟩

/-! ### The step -/

/-- A step that touches the Receiver runs an operation of the stream (R50, R54). -/
theorem recv_or_exec_of_step {s t : State} (h : step s = .next t) :
    t.recv = s.recv ∨ ∃ i ws, decode s.cfg s.pending = .ok (i, ws) ∧ exec i (s.setPending ws) = .next t := by
  unfold step at h
  cases hf : fetch s with
  | dead r => simp [hf] at h
  | undecodable e => simp [hf] at h
  | idle =>
    simp only [hf] at h
    cases h
    exact .inl rfl
  | hostBufferWrite u =>
    obtain ⟨ws, rfl⟩ := fetch_hostBufferWrite hf
    simp only [hf, hostBufferWrite] at h
    split at h
    · cases h
    · cases h
      exact .inl rfl
  | run i u =>
    obtain ⟨ws, decoded, rfl⟩ := fetch_run hf
    exact .inr ⟨i, ws, decoded, by simpa only [hf] using h⟩

/-- Settles O38: bytes and time leave an invalid order invalid, so the operation has an edge of the reset line; by itself it
is the rising edge of a full pulse, and an INIT that got past its `transport_init` has sent one. -/
theorem onlyHardwareResetRevalidates : Obligations.OnlyHardwareResetRevalidates := by
  intro s t hl ht hs hv
  obtain recv | ⟨i, ws, decoded, run⟩ := recv_or_exec_of_step ht
  · exact absurd hv (OrderInvalid.of_recv hs recv).ne_true
  have invalid : OrderInvalid (s.setPending ws) := hs
  by_cases hinit : i = .init
  · subst hinit
    obtain ⟨es, trace, before, after, pulse⟩ := pulse_of_init (s := s.setPending ws) hl invalid run hv
    exact ⟨_, ws, es, decoded, trace, .inr ⟨rfl, before, after, pulse.symm⟩⟩
  by_cases hrst : ∃ l, i = .writeLine (.rst l)
  · obtain ⟨l, rfl⟩ := hrst
    obtain ⟨rfl, low, long, trace⟩ := pulse_of_writeLine_rst (s := s.setPending ws) hl invalid run hv
    exact ⟨_, ws, _, decoded, trace, .inl ⟨rfl, low, long, rfl⟩⟩
  · exact absurd hv (invalid.exec hinit (fun l h => hrst ⟨l, h⟩) run).ne_true

end Sys2Proof.Machine
end
